-- ==== Sys2Proof/Word.lean ====
section
/-! DEFINITION. The word types of the block (00_scope R14, R15): 32-bit registers, bytes, 64-bit ROM ids. -/

namespace Sys2Proof

/-- A host register or operand (10_state R31, R32). -/
abbrev Word := BitVec 32

/-- A byte of a RAM window or of a transfer on the line. -/
abbrev Byte := BitVec 8

/-- A 64-bit ROM id; bit i is ROM bit i (20_memory R107). -/
abbrev RomId := BitVec 64

/-- `zext_32` of a boolean result (41_bus R264, R268). -/
def boolWord (b : Bool) : Word := if b then 1 else 0

end Sys2Proof
end

