-- ==== Sys2Proof/Syntax.lean ====
section
/-! DEFINITION. The 21 commands of 30_encoding R144, one constructor per row of the opcode table, and the raw fields of
a command word (R140). Operands are register values, not syntax (R141, R150). -/

namespace Sys2Proof

/-- MODE of OW.SEARCH (30_encoding R143): enumerate-all or enumerate-alarmed. -/
inductive SearchMode where
  | all
  | alarmed
  deriving DecidableEq, Repr

/-- MODE of a session command (30_encoding R143): the one device in TARGET, or all devices. -/
inductive Addressing where
  | single
  | multi
  deriving DecidableEq, Repr

/-- A legal command (30_encoding R144). A command whose MODE must be 0 carries no mode. -/
inductive Instr where
  | crcReg
  | crcCalc
  | owCfgbus
  | owSpeed
  | owReset
  | owWbit
  | owRbit
  | owWbyte
  | owRbyte
  | owWmulti
  | owRmulti
  | owSearch (mode : SearchMode)
  | tsConfig (mode : Addressing)
  | tsConvert (mode : Addressing)
  | tsIsdone
  | tsConvread (mode : Addressing)
  | tsReadtemp (mode : Addressing)
  | tsReadalarm (mode : Addressing)
  | tsSave (mode : Addressing)
  | tsRestore (mode : Addressing)
  | tsIsfake (mode : Addressing)
  deriving DecidableEq, Repr

/-- The fields of any 32-bit command word, legal or not (30_encoding R140). -/
structure CommandWord where
  rsv : BitVec 23
  mode : Bool
  opc : Byte
  deriving DecidableEq, Repr

end Sys2Proof
end

