-- ==== Sys2Proof/WellFormed.lean ====
section
/-! DEFINITION. When a command word is legal (30_encoding R147, R148): three checks, each on its own. -/

namespace Sys2Proof

/-- The opcodes of 30_encoding R144. -/
def assignedOpcodes : List Byte :=
  [0x01, 0x02, 0x10, 0x11, 0x12, 0x13, 0x14, 0x15, 0x16, 0x17, 0x18, 0x20, 0x30, 0x31, 0x32, 0x33, 0x34, 0x35, 0x36, 0x37,
    0x38]

/-- The opcodes whose MODE may be 1 (30_encoding R143). -/
def modalOpcodes : List Byte :=
  [0x20, 0x30, 0x31, 0x33, 0x34, 0x35, 0x36, 0x37, 0x38]

/-- OPC is in the opcode map. -/
def CommandWord.opcodeOk (c : CommandWord) : Bool := assignedOpcodes.contains c.opc

/-- RSV is zero. -/
def CommandWord.reservedOk (c : CommandWord) : Bool := c.rsv == 0

/-- MODE is 0, or the command has two variants. -/
def CommandWord.modeOk (c : CommandWord) : Bool := !c.mode || modalOpcodes.contains c.opc

/-- The word is legal (30_encoding R147). -/
def CommandWord.wellFormed (c : CommandWord) : Bool := c.opcodeOk && c.reservedOk && c.modeOk

end Sys2Proof
end

