-- ==== Sys2Proof/Decode.lean ====
section
/-! DEFINITION. Decoding a command word, total, an illegal word rejected by the name of the check it fails
(30_encoding R140 to R149), and after it the encoder. -/

namespace Sys2Proof

/-- Why a command word is illegal (30_encoding R147). Every reason ends the command with ILLEGAL. -/
inductive Illegal where
  | opcode
  | reserved
  | mode
  deriving DecidableEq, Repr

/-- The fields of a command word (30_encoding R140). -/
def commandFields (w : Word) : CommandWord where
  rsv := w.extractLsb' 9 23
  mode := w.getLsbD 8
  opc := w.extractLsb' 0 8

/-- A command that has no variant: MODE must be 0 (30_encoding R143). -/
def modeless (i : Instr) (mode : Bool) : Except Illegal Instr :=
  if mode then .error .mode else .ok i

/-- A session command: MODE selects single or multi (30_encoding R143). -/
def addressed (i : Addressing → Instr) (mode : Bool) : Except Illegal Instr :=
  .ok (i (if mode then .multi else .single))

/-- The opcode map (30_encoding R144). -/
def decodeOpcode (opc : Byte) (mode : Bool) : Except Illegal Instr :=
  match opc.toNat with
  | 0x01 => modeless .crcReg mode
  | 0x02 => modeless .crcCalc mode
  | 0x10 => modeless .owCfgbus mode
  | 0x11 => modeless .owSpeed mode
  | 0x12 => modeless .owReset mode
  | 0x13 => modeless .owWbit mode
  | 0x14 => modeless .owRbit mode
  | 0x15 => modeless .owWbyte mode
  | 0x16 => modeless .owRbyte mode
  | 0x17 => modeless .owWmulti mode
  | 0x18 => modeless .owRmulti mode
  | 0x20 => .ok (.owSearch (if mode then .alarmed else .all))
  | 0x30 => addressed .tsConfig mode
  | 0x31 => addressed .tsConvert mode
  | 0x32 => modeless .tsIsdone mode
  | 0x33 => addressed .tsConvread mode
  | 0x34 => addressed .tsReadtemp mode
  | 0x35 => addressed .tsReadalarm mode
  | 0x36 => addressed .tsSave mode
  | 0x37 => addressed .tsRestore mode
  | 0x38 => addressed .tsIsfake mode
  | _ => .error .opcode

/-- Decoding, an illegal word rejected by name (30_encoding R147). -/
def decodeNamed (w : Word) : Except Illegal Instr :=
  let c := commandFields w
  if c.rsv = 0 then decodeOpcode c.opc c.mode else .error .reserved

/-- The command a word stands for; none exactly for the illegal words (30_encoding R144, R147). -/
def decode (w : Word) : Option Instr :=
  match decodeNamed w with
  | .ok i => some i
  | .error _ => none

/-- OPC of a command (30_encoding R144). -/
def opcodeOf : Instr → Byte
  | .crcReg => 0x01
  | .crcCalc => 0x02
  | .owCfgbus => 0x10
  | .owSpeed => 0x11
  | .owReset => 0x12
  | .owWbit => 0x13
  | .owRbit => 0x14
  | .owWbyte => 0x15
  | .owRbyte => 0x16
  | .owWmulti => 0x17
  | .owRmulti => 0x18
  | .owSearch _ => 0x20
  | .tsConfig _ => 0x30
  | .tsConvert _ => 0x31
  | .tsIsdone => 0x32
  | .tsConvread _ => 0x33
  | .tsReadtemp _ => 0x34
  | .tsReadalarm _ => 0x35
  | .tsSave _ => 0x36
  | .tsRestore _ => 0x37
  | .tsIsfake _ => 0x38

/-- MODE of a command (30_encoding R143). -/
def modeOf : Instr → Bool
  | .owSearch m => m == .alarmed
  | .tsConfig m | .tsConvert m | .tsConvread m | .tsReadtemp m | .tsReadalarm m | .tsSave m | .tsRestore m
  | .tsIsfake m => m == .multi
  | _ => false

/-- The word of a command: OPC in 7:0, MODE in 8, zeros above (30_encoding R140, R150). -/
def encode (i : Instr) : Word :=
  (opcodeOf i).setWidth 32 ||| (if modeOf i then 0x100 else 0)

/-- A command is well formed when its word is legal. -/
def Instr.wellFormed (i : Instr) : Bool := (commandFields (encode i)).wellFormed

/-- The instruction the decoder reads from a word of the opcode table, bit 0 the least significant bit of the command
word. A number with a bit at or above bit 32 is no command word (30_encoding R141: one word is the whole command). -/
def decodeTableWord (nbits w : Nat) : Option Instr :=
  if w % 2 ^ nbits < 2 ^ 32 then decode (BitVec.ofNat 32 (w % 2 ^ nbits)) else none

end Sys2Proof
end

