-- ==== Sys2Proof/Config.lean ====
section
/-! DEFINITION. The implementation parameters of 00_scope R11 as plain data, the values this hardware gives them,
and the model's free values: constants with no body, of which no proof can know anything. -/

namespace Sys2Proof

/-- The three speed modes (41_bus R250, R261). -/
inductive Speed where
  | standard
  | high
  | overload
  deriving DecidableEq, Repr, Inhabited

/-- A timing profile: the ten slot delays in nanoseconds, so that a delay the spec gives as a fraction of a
microsecond is a whole number, in the source's order (41_bus R250, 93 G11). -/
structure Profile where
  w1Low : Nat
  w1Rec : Nat
  w0Low : Nat
  w0Rec : Nat
  rSample : Nat
  rRec : Nat
  rstLow : Nat
  rstSample : Nat
  presWin : Nat
  rstRec : Nat
  deriving DecidableEq, Repr, Inhabited

/-- What happens on a line port (20_memory R121): the block pulls the line low, releases it, lets nanoseconds pass,
or samples the level (`true` is high). -/
inductive LineEvent where
  | low (pin : Byte)
  | release (pin : Byte)
  | delay (nanos : Nat)
  | sample (pin : Byte) (level : Bool)
  deriving DecidableEq, Repr

/-- CRC_TABLE_ENTRIES (00_scope R11). -/
def crcTableEntries : Nat := 256

/-- CRC_WIDTHS (00_scope R11). -/
def crcWidths : List Nat := [8, 16, 32]

/-- DBUF_SIZE (00_scope R11). -/
def dbufSize : Nat := 256

/-- The implementation parameters (00_scope R11). The bounded ones are stored as their value less one, in a type that
holds exactly the legal range of R12. Three have one legal value, which other rules write out (20_memory R104, 40_crc
R203, R206), and their type holds just that. FOSC_DEFAULT comes with its lower bound. So an illegal configuration cannot be
written (log entry 3). Two limits are the model's DESIGN CHOICE: CT_DIV is at least 1 (log entry 14), and FOSC_DEFAULT,
to which the spec gives no upper bound and no width, is a 32-bit word like the register FOSC (log entry 16). -/
structure Params where
  crcCapacityPred : Fin 8
  crcWidthSet : { ws : List Nat // ws = Sys2Proof.crcWidths }
  crcTableLength : { n : Nat // n = Sys2Proof.crcTableEntries }
  dbufLength : { n : Nat // n = Sys2Proof.dbufSize }
  maxDevicesPred : Fin 64
  pinCountPred : Fin 256
  searchRepeatPred : Nat
  readRepeatPred : Nat
  blockBase : Nat
  ctDivPred : Nat
  foscDefault : Word
  foscLegal : 1000 * (ctDivPred + 1) ≤ foscDefault.toNat
  convTimeoutMs : Nat
  eeTimeoutMs : Nat
  fakeWindowMs : Nat
  searchTimeoutMs : Nat
  standardTp : Profile
  highTp : Profile
  overloadTp : Profile
  familyCode : Byte
  owcSearchRom : Byte
  owcAlarmSearch : Byte
  owcMatchRom : Byte
  owcSkipRom : Byte
  owcConvertT : Byte
  owcWriteSpad : Byte
  owcReadSpad : Byte
  owcCopySpad : Byte
  owcRecallEe : Byte
  alarmMin : Int
  alarmMax : Int
  deriving DecidableEq, Repr

/-- CRC_CAPACITY, 1..8. -/
def Params.crcCapacity (p : Params) : Nat := p.crcCapacityPred.val + 1

/-- MAX_DEVICES, 1..64. -/
def Params.maxDevices (p : Params) : Nat := p.maxDevicesPred.val + 1

/-- PIN_COUNT, 1..256. -/
def Params.pinCount (p : Params) : Nat := p.pinCountPred.val + 1

/-- SEARCH_REPEAT, at least 1. -/
def Params.searchRepeat (p : Params) : Nat := p.searchRepeatPred + 1

/-- READ_REPEAT, at least 1. -/
def Params.readRepeat (p : Params) : Nat := p.readRepeatPred + 1

/-- CT_DIV: oscillator cycles per cycle-counter tick. That it is at least 1 is the model's DESIGN CHOICE (log entry 14),
safe: the spec gives it no legal range, and 60_exceptions R472 divides by 1000 times it. -/
def Params.ctDiv (p : Params) : Nat := p.ctDivPred + 1

/-- CRC_WIDTHS. -/
def Params.crcWidths (p : Params) : List Nat := p.crcWidthSet.val

/-- CRC_TABLE_ENTRIES. -/
def Params.crcTableEntries (p : Params) : Nat := p.crcTableLength.val

/-- DBUF_SIZE. -/
def Params.dbufSize (p : Params) : Nat := p.dbufLength.val

@[simp] theorem Params.crcWidths_eq (p : Params) : p.crcWidths = Sys2Proof.crcWidths := p.crcWidthSet.property

@[simp] theorem Params.crcTableEntries_eq (p : Params) : p.crcTableEntries = Sys2Proof.crcTableEntries :=
  p.crcTableLength.property

@[simp] theorem Params.dbufSize_eq (p : Params) : p.dbufSize = Sys2Proof.dbufSize := p.dbufLength.property

/-- FOSC_DEFAULT is at least 1000 times CT_DIV (00_scope R11); that it fits in 32 bits is log entry 16. -/
theorem Params.fosc_bound (p : Params) : 1000 * p.ctDiv ≤ p.foscDefault.toNat := p.foscLegal

/-- The profile of a speed mode: TP(mode, ·) (41_bus R250). -/
def Params.tp (p : Params) : Speed → Profile
  | .standard => p.standardTp
  | .high => p.highTp
  | .overload => p.overloadTp

/-- The bounded numbers of R11 and R12, as an integrator would give them: refused outside the legal ranges (00_scope R11,
R12, 93 U17), and for a CT_DIV of 0, which is the model's DESIGN CHOICE (log entry 14), safe: the spec gives CT_DIV no
legal range. That FOSC_DEFAULT comes as a 32-bit word is the model's DESIGN CHOICE (log entry 16). -/
def Params.ofNumbers? (base : Params) (crcCapacity maxDevices pinCount searchRepeat readRepeat ctDiv : Nat)
    (foscDefault : Word) : Option Params :=
  if h : (1 ≤ crcCapacity ∧ crcCapacity ≤ 8) ∧ (1 ≤ maxDevices ∧ maxDevices ≤ 64) ∧ (1 ≤ pinCount ∧ pinCount ≤ 256) ∧
      1 ≤ searchRepeat ∧ 1 ≤ readRepeat ∧ 1 ≤ ctDiv ∧ 1000 * ctDiv ≤ foscDefault.toNat then
    some { base with
      crcCapacityPred := ⟨crcCapacity - 1, by omega⟩
      maxDevicesPred := ⟨maxDevices - 1, by omega⟩
      pinCountPred := ⟨pinCount - 1, by omega⟩
      searchRepeatPred := searchRepeat - 1
      readRepeatPred := readRepeat - 1
      ctDivPred := ctDiv - 1
      foscDefault := foscDefault
      foscLegal := by omega }
  else none

namespace Config

/-- FREE VALUE: the level the devices leave on a line at a sample point, given the pin and everything that happened on
the lines before, newest first (41_bus R256, 93 U4). -/
opaque sense : Byte → List LineEvent → Bool

/-- FREE VALUE: the cycle counter at the n-th read (60_exceptions R470, 93 U5). -/
opaque clock : Nat → Word

/-- FREE VALUE: the n-th draw for a RAM byte whose value the spec leaves unspecified (10_state R57, 20_memory R112,
93 U1 and U2). -/
opaque freeByte : Nat → Byte

/-- FREE VALUE: PIN_COUNT less one (00_scope R11: OPEN, 1..256). -/
opaque pinCountPred : Fin 256

/-- FREE VALUE: BLOCK_BASE (00_scope R11: OPEN). -/
opaque blockBase : Nat

/-- FREE VALUE: by how much FOSC_DEFAULT is above 1000 times CT_DIV (00_scope R11: OPEN, at least that). Its own upper
bound, which keeps FOSC_DEFAULT below 2^32, is the model's DESIGN CHOICE (log entry 16). -/
opaque foscExcess : Fin 4294965296

/-- FOSC_DEFAULT: any word that is at least 1000 times CT_DIV, which is 2 (00_scope R11). That it is a 32-bit word is the
model's DESIGN CHOICE (log entry 16), unsafe for a block whose default is 2^32 or more. -/
def foscDefault : Word := BitVec.ofNat 32 (2000 + foscExcess.val)

/-- No legal FOSC_DEFAULT wraps. -/
theorem foscDefault_legal : 1000 * (1 + 1) ≤ foscDefault.toNat := by
  have := foscExcess.isLt
  simp only [foscDefault, BitVec.toNat_ofNat]
  omega

/-- FREE VALUE: CONV_TIMEOUT_MS (00_scope R11: OPEN). -/
opaque convTimeoutMs : Nat

/-- FREE VALUE: EE_TIMEOUT_MS (00_scope R11: OPEN). -/
opaque eeTimeoutMs : Nat

/-- FREE VALUE: FAKE_WINDOW_MS (00_scope R11: OPEN). -/
opaque fakeWindowMs : Nat

/-- FREE VALUE: SEARCH_TIMEOUT_MS (00_scope R11: OPEN). -/
opaque searchTimeoutMs : Nat

/-- FREE VALUE: the thirty slot delays TP(mode, name) (00_scope R11: OPEN). -/
opaque profile : Speed → Profile

/-- The parameters of this hardware (00_scope R11): the value the table gives, and a free value where it says OPEN. -/
def params : Params where
  crcCapacityPred := 3
  crcWidthSet := ⟨[8, 16, 32], rfl⟩
  crcTableLength := ⟨256, rfl⟩
  dbufLength := ⟨256, rfl⟩
  maxDevicesPred := 15
  pinCountPred := pinCountPred
  searchRepeatPred := 2
  readRepeatPred := 2
  blockBase := blockBase
  ctDivPred := 1
  foscDefault := foscDefault
  foscLegal := foscDefault_legal
  convTimeoutMs := convTimeoutMs
  eeTimeoutMs := eeTimeoutMs
  fakeWindowMs := fakeWindowMs
  searchTimeoutMs := searchTimeoutMs
  standardTp := profile .standard
  highTp := profile .high
  overloadTp := profile .overload
  familyCode := 0x28
  owcSearchRom := 0xF0
  owcAlarmSearch := 0xEC
  owcMatchRom := 0x55
  owcSkipRom := 0xCC
  owcConvertT := 0x44
  owcWriteSpad := 0x4E
  owcReadSpad := 0xBE
  owcCopySpad := 0x48
  owcRecallEe := 0xB8
  alarmMin := -55
  alarmMax := 125

end Config

end Sys2Proof
end

