-- ==== Sys2Proof/Machine/CrcMath.lean ====
section
/-! DEFINITION. The arithmetic of the CRC engine (40_crc R200 to R205): reflection, table generation, the update. -/

namespace Sys2Proof.Machine

/-- The register widths of CRC_WIDTHS (00_scope R11). -/
inductive CrcWidth where
  | w8
  | w16
  | w32
  deriving DecidableEq, Repr

/-- A valid slot of the CRC registry (10_state R46). A table entry of W bits is kept in a word whose upper bits are 0. -/
structure CrcSlot where
  poly : Word
  width : CrcWidth
  refin : Bool
  refout : Bool
  table : List Word
  deriving DecidableEq, Repr

/-- W. -/
def widthBits : CrcWidth → Nat
  | .w8 => 8
  | .w16 => 16
  | .w32 => 32

/-- The width of so many bits. -/
def widthOf (v : Word) : Option CrcWidth :=
  if v = 8 then some .w8 else if v = 16 then some .w16 else if v = 32 then some .w32 else none

/-- The width an operand names: the whole word is compared with CRC_WIDTHS (30_encoding R142). -/
def widthOperand (p : Params) (v : Word) : Option CrcWidth := if v.toNat ∈ p.crcWidths then widthOf v else none

/-- `mask_W` (00_scope R15), the sentinel of width W (40_crc R211). -/
def widthMask : CrcWidth → Word
  | .w8 => 0xFF
  | .w16 => 0xFFFF
  | .w32 => 0xFFFFFFFF

/-- `reflect_W` of the low W bits, zero-extended (40_crc R200). -/
def reflect (w : CrcWidth) (v : Word) : Word :=
  match w with
  | .w8 => ((v.setWidth 8).reverse).setWidth 32
  | .w16 => ((v.setWidth 16).reverse).setWidth 32
  | .w32 => v.reverse

/-- One turn of the division loop of 40_crc R203. -/
def divideBit (poly : Word) (w : CrcWidth) (r : Word) : Word :=
  if r.getLsbD (widthBits w - 1) then ((r <<< 1) ^^^ poly) &&& widthMask w else (r <<< 1) &&& widthMask w

/-- `repeat n times` of the division loop. -/
def divideBits (poly : Word) (w : CrcWidth) : Nat → Word → Word
  | 0, r => r
  | n + 1, r => divideBits poly w n (divideBit poly w r)

/-- T[b] (40_crc R203). -/
def tableEntry (poly : Word) (w : CrcWidth) (b : Nat) : Word :=
  divideBits poly w 8 ((BitVec.ofNat 32 b <<< (widthBits w - 8)) &&& widthMask w)

/-- `gen_table(P, W)` (40_crc R203), with CRC_TABLE_ENTRIES entries. -/
def genTable (poly : Word) (w : CrcWidth) (entries : Nat := crcTableEntries) : List Word :=
  (List.range entries).map (tableEntry poly w)

/-- A data byte as the update uses it: reflected when refin is 1 (40_crc R205). -/
def crcInput (sl : CrcSlot) (d : Byte) : Word :=
  if sl.refin then reflect .w8 (d.setWidth 32) else d.setWidth 32

/-- One byte of the update (40_crc R205). -/
def crcUpdate (sl : CrcSlot) (c : Word) (d : Byte) : Word :=
  let ix := ((c >>> (widthBits sl.width - 8)) ^^^ crcInput sl d) &&& 0xFF
  ((c <<< 8) ^^^ sl.table.getD ix.toNat 0) &&& widthMask sl.width

/-- `crc_core(s, data)`: initial value 0, no final XOR (40_crc R205). -/
def crcCore (sl : CrcSlot) (data : List Byte) : Word :=
  let c := data.foldl (crcUpdate sl) 0
  if sl.refout then reflect sl.width c else c

/-- The preloaded slot 0 (10_state R49). -/
def slot0 : CrcSlot where
  poly := 0x31
  width := .w8
  refin := true
  refout := true
  table := genTable 0x31 .w8

end Sys2Proof.Machine
end

