-- ==== Sys2Proof/Machine/State.lean ====
section
/-! DEFINITION. The machine's state as plain data (10_state), the reasons a step can stop, and the state after reset
(10_state R57, 70_reset_and_hazards R503). -/

namespace Sys2Proof.Machine

/-- Error codes (60_exceptions R450). The reserved codes 13..15 do not exist here (93 U12). -/
inductive ErrCode where
  | none
  | illegal
  | crcCfg
  | crcDup
  | crcFull
  | crcInput
  | badPin
  | noPresence
  | badId
  | integrity
  | timeout
  | badArg
  | overflow
  deriving DecidableEq, Repr

/-- SEQ_STATE (10_state R34). -/
inductive SeqState where
  | idle
  | addressed
  | converting
  | readingSpad
  | done
  | error
  | searching
  | busyOther
  deriving DecidableEq, Repr

/-- The fields of STATUS (10_state R33). The reserved bits are no field: they read 0. -/
structure Status where
  busy : Bool
  done : Bool
  presence : Bool
  ovr : Bool
  accerr : Bool
  rbool : Bool
  errcode : ErrCode
  seqState : SeqState
  deriving DecidableEq, Repr

/-- The fields of BUSCFG (10_state R36). -/
structure BusCfg where
  speed : Speed
  pin : Byte
  configured : Bool
  deriving DecidableEq, Repr

/-- The fields of DEVCFG (10_state R37). -/
structure DevCfg where
  res : BitVec 4
  alarmsConf : Bool
  th : Byte
  tl : Byte
  cfgb : Byte
  deriving DecidableEq, Repr

/-- The operand latch (10_state R51), taken at acceptance. FOSCL is 32 bits wide like FOSC; that FOSC_DEFAULT, which it
holds where FOSC is 0, fits in it is the model's DESIGN CHOICE (log entry 16). -/
structure Latch where
  a0 : Word
  a1 : Word
  a2 : Word
  corr : Word
  foscl : Word
  tgt : RomId
  deriving DecidableEq, Repr

/-- The search state (10_state R52). -/
structure SearchState where
  lastDisc : Int
  lastZero : Int
  rom : RomId
  prev : RomId
  found : List RomId
  failures : Nat
  start : Word
  deriving DecidableEq, Repr

/-- The read-pass state (10_state R53). -/
structure ReadPass where
  attempt : Nat
  nvalid : Nat
  index : Nat
  deriving DecidableEq, Repr

/-- The poll state (10_state R54). -/
structure Poll where
  start : Word
  budget : Word
  deriving DecidableEq, Repr

/-- The capture state of TS.ISFAKE (10_state R55). -/
structure Capture where
  th : Byte
  tl : Byte
  cf : Byte
  deriving DecidableEq, Repr

/-- Where a command that polls stands in its rule between two steps (10_state R41): at its first step, in its first
completion poll, or in the second one that only TS.ISFAKE has. -/
inductive SeqPos where
  | start
  | poll
  | drain
  deriving DecidableEq, Repr

/-- The width of a host access: 32 bits, or not (20_memory R101, R103). That the other widths are 8 and 16 bits, and no
wider access can be written, is the model's DESIGN CHOICE (log entry 15), safe: R103 refuses every other width alike. -/
inductive AccessWidth where
  | byte
  | half
  | word
  deriving DecidableEq, Repr

/-- One access of the host agent at a host address (20_memory R101). -/
inductive HostAccess where
  | read (width : AccessWidth) (addr : Nat)
  | write (width : AccessWidth) (addr : Nat) (value : Word)
  deriving DecidableEq, Repr

/-- What the outside can do to the block: a host access, or the platform's reset input, which may cut a slot short
(70_reset_and_hazards R500, R501). -/
inductive HostEvent where
  | access (a : HostAccess)
  | reset (cutsSlot : Bool)
  deriving DecidableEq, Repr

/-- A host event and the number of sequencer steps (or idle steps) that pass before it (20_memory R110). -/
structure HostItem where
  wait : Nat
  event : HostEvent
  deriving DecidableEq, Repr

/-- The machine. INVENTORY.md, '## State', names the rule of each field. -/
structure State where
  params : Params
  lcmd : Word
  status : Status
  arg0 : Word
  arg1 : Word
  arg2 : Word
  result0 : Word
  result1 : Word
  busCfg : BusCfg
  devCfg : DevCfg
  targetLo : Word
  targetHi : Word
  corrOffset : Word
  fosc : Word
  romCount : Byte
  registry : List CrcSlot
  ram : List Host.Cell
  driveLow : BitVec 256
  latch : Option Latch
  pos : SeqPos
  search : Option SearchState
  readPass : Option ReadPass
  devices : List RomId
  poll : Option Poll
  capture : Option Capture
  host : List HostItem
  hostReads : List Word
  bus : List Bool
  line : List LineEvent
  clockIn : List Word
  clockReads : Nat
  draws : Nat
  deriving DecidableEq, Repr

/-- Why the model stops. Neither reason is met by a run from reset. -/
inductive Fault where
  /-- Raised by every meaning when the state holds no accepted command, so there are no operands to read (10_state R57:
  the latch has no value outside a command). Safe: it only stops. -/
  | noCommand
  /-- Raised by an internal access outside the three RAM windows (20_memory R104, R105). Safe: it only stops. -/
  | unmapped (offset : Nat)
  deriving DecidableEq, Repr

/-- Why the model gives a command no meaning. -/
inductive Refusal where
  /-- Raised by an arm of exec that has no meaning yet. Safe: it only stops. -/
  | notModelled (mnemonic : String)
  deriving DecidableEq, Repr

/-- STATUS after reset: 0 (10_state R33). -/
def statusReset : Status where
  busy := false
  done := false
  presence := false
  ovr := false
  accerr := false
  rbool := false
  errcode := .none
  seqState := .idle

/-- The machine right after reset (10_state R57, 70_reset_and_hazards R503). The fields from `host` on are the model's
own (log entries 2, 5, 6 and 7). -/
def State.reset : State where
  params := Config.params
  lcmd := 0
  status := statusReset
  arg0 := 0
  arg1 := 0
  arg2 := 0
  result0 := 0
  result1 := 0
  busCfg := { speed := .standard, pin := 0, configured := false }
  devCfg := { res := 0, alarmsConf := false, th := 0, tl := 0, cfgb := 0 }
  targetLo := 0
  targetHi := 0
  corrOffset := 0
  fosc := 0
  romCount := 0
  registry := [slot0]
  ram := []
  driveLow := 0
  latch := none
  pos := .start
  search := none
  readPass := none
  devices := []
  poll := none
  capture := none
  host := []
  hostReads := []
  bus := []
  line := []
  clockIn := []
  clockReads := 0
  draws := 0

end Sys2Proof.Machine
end

