-- ==== Sys2Proof/Machine/Flags.lean ====
section
/-! DEFINITION. The flags of STATUS (10_state R33 to R35): the word the host reads, and every write of a flag that is
not the command end or the acceptance. -/

namespace Sys2Proof.Machine

/-- The numeric error codes (60_exceptions R450). -/
def errBits : ErrCode → BitVec 4
  | .none => 0
  | .illegal => 1
  | .crcCfg => 2
  | .crcDup => 3
  | .crcFull => 4
  | .crcInput => 5
  | .badPin => 6
  | .noPresence => 7
  | .badId => 8
  | .integrity => 9
  | .timeout => 10
  | .badArg => 11
  | .overflow => 12

/-- The numeric sequencer states (10_state R34). -/
def seqBits : SeqState → BitVec 3
  | .idle => 0
  | .addressed => 1
  | .converting => 2
  | .readingSpad => 3
  | .done => 4
  | .error => 5
  | .searching => 6
  | .busyOther => 7

/-- The STATUS word (10_state R33); the reserved bits read 0. -/
def statusWord (t : Status) : Word :=
  (0#17 ++ seqBits t.seqState ++ errBits t.errcode ++ 0#2 ++ BitVec.ofBool t.rbool ++ BitVec.ofBool t.accerr ++
    BitVec.ofBool t.ovr ++ BitVec.ofBool t.presence ++ BitVec.ofBool t.done ++ BitVec.ofBool t.busy : BitVec 32)

/-- A host write of STATUS: a 1 clears DONE, OVR or ACCERR, all else is ignored (10_state R33). -/
def writeOneClear (v : Word) (s : State) : State :=
  { s with status := { s.status with
      done := s.status.done && !v.getLsbD 1
      ovr := s.status.ovr && !v.getLsbD 3
      accerr := s.status.accerr && !v.getLsbD 4 } }

/-- A refused host access (20_memory R103). -/
def setAccerr (s : State) : State := { s with status := { s.status with accerr := true } }

/-- A host write dropped because BUSY = 1 (20_memory R111). -/
def setOvr (s : State) : State := { s with status := { s.status with ovr := true } }

/-- The presence result of a reset slot (41_bus R252). -/
def setPresence (b : Bool) (s : State) : State := { s with status := { s.status with presence := b } }

/-- `reg[STATUS].RBOOL <- b` (10_state R35). -/
def setRbool (b : Bool) (s : State) : State := { s with status := { s.status with rbool := b } }

/-- `seq <- S` (00_scope R16). -/
def setSeq (q : SeqState) (s : State) : State := { s with status := { s.status with seqState := q } }

end Sys2Proof.Machine
end

