-- ==== Sys2Proof/Machine/Ops.lean ====
section
/-! DEFINITION. The named operations over memory, the line and the command's life: the RAM windows (20_memory R104,
R105), the three slots (41_bus R252 to R254), the clock (60_exceptions R470), acceptance (30_encoding R146), the two
command ends (60_exceptions R457, R458) and the reset input (70_reset_and_hazards R500). -/

namespace Sys2Proof.Machine

/-! ## Memory -/

/-- The byte a memory lists at an offset; an unlisted byte has no value (10_state R57). -/
def memGet : List Host.Cell → Nat → Option Byte
  | [], _ => none
  | (k, v) :: m, a => if a = k then some v else memGet m a

/-- Write one byte, keeping offsets strictly rising. -/
def memSet : List Host.Cell → Nat → Byte → List Host.Cell
  | [], a, b => [(a, b)]
  | (k, v) :: m, a, b =>
    if a < k then (a, b) :: (k, v) :: m else if a = k then (a, b) :: m else (k, v) :: memSet m a b

/-- Write bytes at consecutive offsets (20_memory R105). -/
def memSetBytes (m : List Host.Cell) (off : Nat) : List Byte → List Host.Cell
  | [] => m
  | b :: bs => memSetBytes (memSet m off b) (off + 1) bs

/-- Every offset is above a bound and they rise strictly. -/
def risingFrom : Nat → List Host.Cell → Bool
  | _, [] => true
  | lo, (k, _) :: m => decide (lo ≤ k) && risingFrom (k + 1) m

/-- The canonical form of a memory: strictly rising offsets. An unlisted byte has no value, so no entry can equal what
an unlisted offset reads as. -/
def memWf (m : List Host.Cell) : Bool := risingFrom 0 m

/-- The offset of DBUF (20_memory R104). -/
def dbufBase : Nat := 0x100

/-- The offset of ROMTAB (20_memory R104). -/
def romtabBase : Nat := 0x200

/-- The offset of RESTAB (20_memory R104). -/
def restabBase : Nat := 0x400

/-- An offset inside DBUF. -/
def inDbuf (p : Params) (a : Nat) : Bool := decide (dbufBase ≤ a) && decide (a < dbufBase + p.dbufSize)

/-- An offset inside ROMTAB. -/
def inRomtab (p : Params) (a : Nat) : Bool := decide (romtabBase ≤ a) && decide (a < romtabBase + 8 * p.maxDevices)

/-- An offset inside RESTAB. -/
def inRestab (p : Params) (a : Nat) : Bool := decide (restabBase ≤ a) && decide (a < restabBase + 32 * p.maxDevices)

/-- An offset inside one of the three RAM windows (20_memory R104). -/
def inRam (p : Params) (a : Nat) : Bool := inDbuf p a || inRomtab p a || inRestab p a

/-- Every one of n bytes from an offset on lies inside the windows (20_memory R105). -/
def ramRange (p : Params) (off n : Nat) : Bool := (List.range n).all fun k => inRam p (off + k)

/-- An unspecified byte: the next free value (93 U1, U2). -/
def drawByte (s : State) : Byte × State := (Config.freeByte s.draws, { s with draws := s.draws + 1 })

/-- A RAM byte as the block reads it: what it holds, or a draw if nothing has written it since reset (10_state R57). -/
def ramByte (a : Nat) (s : State) : Byte × State :=
  match memGet s.ram a with
  | some b => (b, s)
  | none => drawByte s

/-- `MemRead(off, n)` (00_scope R16): n bytes in increasing offset order. -/
def ramBytes : Nat → Nat → State → List Byte × State
  | _, 0, s => ([], s)
  | a, n + 1, s =>
    let r := ramByte a s
    let rs := ramBytes (a + 1) n r.2
    (r.1 :: rs.1, rs.2)

/-- `MemWrite(off, n, v)` (00_scope R16), with v as its bytes in increasing offset order. -/
def storeBytes (off : Nat) (bs : List Byte) (s : State) : State := { s with ram := memSetBytes s.ram off bs }

/-! ## Bytes of wider values -/

/-- The four bytes of a word, little-endian (20_memory R102). -/
def wordBytes (w : Word) : List Byte := (List.range 4).map fun k => w.extractLsb' (8 * k) 8

/-- The word of four bytes, little-endian (20_memory R102). -/
def wordOfBytes (bs : List Byte) : Word := bs.foldr (fun b acc => (acc <<< 8) ||| b.setWidth 32) 0

/-- `bytes(rom)`: the eight bytes of a ROM id, family code first (20_memory R107, 42_search R303). -/
def romBytes (r : RomId) : List Byte := (List.range 8).map fun k => r.extractLsb' (8 * k) 8

/-- The ROM id of eight bytes, family code first. -/
def romOfBytes (bs : List Byte) : RomId := bs.foldr (fun b acc => (acc <<< 8) ||| b.setWidth 64) 0

/-- The bits of a byte in line order: least significant first (20_memory R106). -/
def byteBits (b : Byte) : List Bool := (List.range 8).map fun i => b.getLsbD i

/-- The byte of bits in line order (41_bus R255). -/
def byteOfBits (bs : List Bool) : Byte := bs.foldr (fun b acc => (acc <<< 1) ||| (if b then 1 else 0)) 0

/-! ## The line -/

/-- The one-bit mask of a pin. -/
def pinMask (p : Byte) : BitVec 256 := 1#256 <<< p.toNat

/-- `drive_low[p] <- 1`. -/
def pullLow (p : Byte) (s : State) : State :=
  { s with driveLow := s.driveLow ||| pinMask p, line := .low p :: s.line }

/-- `drive_low[p] <- 0`. -/
def releaseLine (p : Byte) (s : State) : State :=
  { s with driveLow := s.driveLow &&& ~~~ pinMask p, line := .release p :: s.line }

/-- `delay t`: recorded, not measured (41_bus §2, 70_reset_and_hazards R520). -/
def delayFor (t : Nat) (s : State) : State := { s with line := .delay t :: s.line }

/-- What the devices leave on the line at this sample point: the environment's next answer, else a free value that may
depend on the pin and on everything that happened on the lines (41_bus R256). -/
def deviceLevel (p : Byte) (s : State) : Bool :=
  match s.bus with
  | v :: _ => v
  | [] => Config.sense p s.line

/-- The level of a line: low when the block drives it, else what the devices leave (20_memory R121). -/
def lineLevel (p : Byte) (s : State) : Bool := !s.driveLow.getLsbD p.toNat && deviceLevel p s

/-- `sample`: read sense[p] (41_bus §2). -/
def sampleLine (p : Byte) (s : State) : Bool × State :=
  let v := lineLevel p s
  (v, { s with bus := s.bus.tail, line := .sample p v :: s.line })

/-- `slot_reset()` (41_bus R252): the presence result, which STATUS.PRESENCE takes. -/
def resetSlot (s : State) : Bool × State :=
  let p := s.busCfg.pin
  let t := s.params.tp s.busCfg.speed
  let s1 := delayFor t.rstSample (releaseLine p (delayFor t.rstLow (pullLow p s)))
  let r := sampleLine p s1
  let s2 := delayFor t.rstRec (delayFor t.presWin r.2)
  let presence := !r.1
  (presence, setPresence presence s2)

/-- `slot_write(b)` (41_bus R253). -/
def writeSlot (b : Bool) (s : State) : State :=
  let p := s.busCfg.pin
  let t := s.params.tp s.busCfg.speed
  if b then delayFor t.w1Rec (releaseLine p (delayFor t.w1Low (pullLow p s)))
  else delayFor t.w0Rec (releaseLine p (delayFor t.w0Low (pullLow p s)))

/-- `slot_read()` (41_bus R254). -/
def readSlot (s : State) : Bool × State :=
  let p := s.busCfg.pin
  let t := s.params.tp s.busCfg.speed
  let s1 := delayFor t.rSample (releaseLine p (delayFor t.w1Low (pullLow p s)))
  let r := sampleLine p s1
  (r.1, delayFor t.rRec r.2)

/-! ## The clock -/

/-- `now()` (60_exceptions R470): the clock's next reading, else a free value. -/
def readClock (s : State) : Word × State :=
  match s.clockIn with
  | t :: rest => (t, { s with clockIn := rest })
  | [] => (Config.clock s.clockReads, { s with clockReads := s.clockReads + 1 })

/-! ## The life of a command -/

/-- fosc_eff (10_state R40). -/
def foscEff (s : State) : Word := if s.fosc = 0 then s.params.foscDefault else s.fosc

/-- The 64-bit target (10_state R38). -/
def targetId (s : State) : RomId := s.targetHi ++ s.targetLo

/-- Acceptance of a command word (30_encoding R145, R146), one step. The per-command state starts empty. -/
def accept (w : Word) (s : State) : State :=
  { s with
    lcmd := w
    status := { s.status with
      busy := true
      done := false
      rbool := false
      errcode := .none
      seqState := if (commandFields w).opc = 0x20 then .searching else .busyOther }
    result0 := 0
    result1 := 0
    latch := some { a0 := s.arg0, a1 := s.arg1, a2 := s.arg2, corr := s.corrOffset, foscl := foscEff s, tgt := targetId s }
    pos := .start
    search := none
    readPass := none
    devices := []
    poll := none
    capture := none }

/-- The part of a command end that finish() and raise Error share (60_exceptions R457, R458): publish the results,
release every line, DONE := 1, BUSY := 0, and discard the per-command state (10_state R51 to R55). -/
def endCommand (code : ErrCode) (q : SeqState) (r0 r1 : Word) (s : State) : State :=
  { s with
    result0 := r0
    result1 := r1
    status := { s.status with errcode := code, seqState := q, done := true, busy := false }
    driveLow := 0
    latch := none
    pos := .start
    search := none
    readPass := none
    devices := []
    poll := none
    capture := none }

/-- `finish()` with the results the rule wrote (60_exceptions R457). -/
def okEnd (r0 r1 : Word) (s : State) : State := endCommand .none .done r0 r1 s

/-- `raise Error(code)` with the RESULT0 the rule wrote (60_exceptions R458): the block's only trap-like event
(R461). It has no return (R462). -/
def errorEnd (code : ErrCode) (r0 : Word) (s : State) : State := endCommand code .error r0 0 s

/-- The reset input (70_reset_and_hazards R500, R501): every register and the per-command state at the reset value. The
parameters, the other agents and what already happened on the line are no state of the block and stay. `cut` says that
a slot had begun: the line was pulled low and is released early. -/
def resetInput (cut : Bool) (s : State) : State :=
  { State.reset with
    params := s.params
    host := s.host
    hostReads := s.hostReads
    bus := s.bus
    line := if cut then .release s.busCfg.pin :: .low s.busCfg.pin :: s.line else s.line
    clockIn := s.clockIn
    clockReads := s.clockReads
    draws := s.draws }

end Sys2Proof.Machine
end

