-- ==== Sys2Proof/Machine/HostPort.lean ====
section
/-! DEFINITION. The host port (10_state R31, 20_memory R101 to R114): which offset is what, and what a host read or
write does, idle or while a command runs. -/

namespace Sys2Proof.Machine

/-- What a mapped offset is (10_state R31, 20_memory R104). -/
inductive Port where
  | cmd
  | status
  | arg0
  | arg1
  | arg2
  | result0
  | result1
  | busCfg
  | devCfg
  | targetLo
  | targetHi
  | corrOffset
  | fosc
  | romCount
  | crcCount
  | crcPoly (i : Nat)
  | crcCfg (i : Nat)
  | dbuf
  | romtab
  | restab
  deriving DecidableEq, Repr

/-- The port at a word-aligned offset; none where the map has nothing (10_state R31, 20_memory R104). -/
def portAt (p : Params) (off : Nat) : Option Port :=
  match off with
  | 0x000 => some .cmd
  | 0x004 => some .status
  | 0x008 => some .arg0
  | 0x00C => some .arg1
  | 0x010 => some .arg2
  | 0x014 => some .result0
  | 0x018 => some .result1
  | 0x01C => some .busCfg
  | 0x020 => some .devCfg
  | 0x024 => some .targetLo
  | 0x028 => some .targetHi
  | 0x02C => some .corrOffset
  | 0x030 => some .fosc
  | 0x034 => some .romCount
  | 0x038 => some .crcCount
  | _ =>
    if 0x040 ≤ off ∧ off < 0x040 + 8 * p.crcCapacity then
      if (off - 0x040) % 8 = 0 then some (.crcPoly ((off - 0x040) / 8)) else some (.crcCfg ((off - 0x040) / 8))
    else if inDbuf p off then some .dbuf
    else if inRomtab p off then some .romtab
    else if inRestab p off then some .restab
    else none

/-- The offset of a host address inside the 4096-byte window at BLOCK_BASE; none outside it (20_memory R100). -/
def windowOffset (p : Params) (addr : Nat) : Option Nat :=
  if p.blockBase ≤ addr ∧ addr < p.blockBase + 0x1000 then some (addr - p.blockBase) else none

/-- The port an access reaches; none for the three refused cases (20_memory R103): a width other than 32 bits, an offset
that is no multiple of 4, an unmapped offset. -/
def accessPort (p : Params) (w : AccessWidth) (off : Nat) : Option Port :=
  if w = .word ∧ off % 4 = 0 then portAt p off else none

/-- The numeric speed modes (41_bus R261). -/
def speedBits : Speed → BitVec 2
  | .standard => 0
  | .high => 1
  | .overload => 2

/-- The BUSCFG word (10_state R36); the reserved bits read 0. -/
def busCfgWord (c : BusCfg) : Word :=
  (0#15 ++ BitVec.ofBool c.configured ++ c.pin ++ 0#6 ++ speedBits c.speed : BitVec 32)

/-- The DEVCFG word (10_state R37); the reserved bits read 0. -/
def devCfgWord (c : DevCfg) : Word :=
  (c.cfgb ++ c.tl ++ c.th ++ 0#3 ++ BitVec.ofBool c.alarmsConf ++ c.res : BitVec 32)

/-- CRCPOLY[i] (10_state R48). -/
def crcPolyWord (r : List CrcSlot) (i : Nat) : Word :=
  match r[i]? with
  | some sl => sl.poly
  | none => 0

/-- CRCCFG[i] (10_state R48). -/
def crcCfgWord (r : List CrcSlot) (i : Nat) : Word :=
  match r[i]? with
  | some sl => (1#1 ++ 0#21 ++ BitVec.ofBool sl.refout ++ BitVec.ofBool sl.refin ++ 0#2 ++
      BitVec.ofNat 6 (widthBits sl.width) : BitVec 32)
  | none => 0

/-- How many records the running read command may write (43_session R360). -/
def recordCount (m : Addressing) (s : State) : Nat :=
  match m with
  | .single => 1
  | .multi => s.romCount.toNat

/-- The RAM bytes the running command may write (20_memory R112; 41_bus R276 b for OW.RMULTI; 43_session R364 for the
read commands): the bytes its operands and ROMCOUNT name. DESIGN CHOICE (log entry 2), safe: the spec does not say whether
a command that will end with an error before it writes counts; here it does, for every error alike, so such a command
leaves the host a draw too. -/
def mayWrite (s : State) (a : Nat) : Bool :=
  match decode s.lcmd, s.latch with
  | some .owRmulti, some l =>
    inDbuf s.params a && decide (dbufBase + l.a0.toNat ≤ a) && decide (a < dbufBase + l.a0.toNat + l.a1.toNat)
  | some (.owSearch _), some _ => inRomtab s.params a
  | some (.tsReadtemp m), some _ | some (.tsReadalarm m), some _ | some (.tsConvread m), some _ =>
    inRestab s.params a && decide (a < restabBase + 32 * recordCount m s)
  | _, _ => false

/-- A RAM byte as the host reads it: a draw while the running command may write it (20_memory R112). -/
def hostByte (a : Nat) (s : State) : Byte × State :=
  if s.status.busy && mayWrite s a then drawByte s else ramByte a s

/-- The bytes of a host word read, in increasing offset order. -/
def hostBytes : Nat → Nat → State → List Byte × State
  | _, 0, s => ([], s)
  | a, n + 1, s =>
    let r := hostByte a s
    let rs := hostBytes (a + 1) n r.2
    (r.1 :: rs.1, rs.2)

/-- A host word read of RAM, little-endian (20_memory R102). -/
def hostWord (off : Nat) (s : State) : Word × State :=
  let r := hostBytes off 4 s
  (wordOfBytes r.1, r.2)

/-- A host read of a port (10_state R31): no side effect but the draws it may make (20_memory R114). -/
def readPort (port : Port) (off : Nat) (s : State) : Word × State :=
  match port with
  | .cmd => (s.lcmd, s)
  | .status => (statusWord s.status, s)
  | .arg0 => (s.arg0, s)
  | .arg1 => (s.arg1, s)
  | .arg2 => (s.arg2, s)
  | .result0 => (s.result0, s)
  | .result1 => (s.result1, s)
  | .busCfg => (busCfgWord s.busCfg, s)
  | .devCfg => (devCfgWord s.devCfg, s)
  | .targetLo => (s.targetLo, s)
  | .targetHi => (s.targetHi, s)
  | .corrOffset => (s.corrOffset, s)
  | .fosc => (s.fosc, s)
  | .romCount => (s.romCount.setWidth 32, s)
  | .crcCount => (BitVec.ofNat 32 s.registry.length, s)
  | .crcPoly i => (crcPolyWord s.registry i, s)
  | .crcCfg i => (crcCfgWord s.registry i, s)
  | .dbuf | .romtab | .restab => hostWord off s

/-- The ports whose writes are dropped while BUSY = 1 (20_memory R111). -/
def droppedWhileBusy : Port → Bool
  | .cmd | .arg0 | .arg1 | .arg2 | .targetLo | .targetHi | .fosc | .romCount | .dbuf | .romtab => true
  | .status | .corrOffset | .result0 | .result1 | .busCfg | .devCfg | .crcCount | .crcPoly _ | .crcCfg _ | .restab => false

/-- A host write of ROMCOUNT: more than MAX_DEVICES is ignored and sets ACCERR (10_state R45). -/
def writeRomCount (v : Word) (s : State) : State :=
  if s.params.maxDevices < v.toNat then setAccerr s else { s with romCount := v.setWidth 8 }

/-- A host write of a port that is not dropped (10_state R31, 20_memory R103): read-only ports ignore it. -/
def writePort (port : Port) (off : Nat) (v : Word) (s : State) : State :=
  match port with
  | .cmd => accept v s
  | .status => writeOneClear v s
  | .arg0 => { s with arg0 := v }
  | .arg1 => { s with arg1 := v }
  | .arg2 => { s with arg2 := v }
  | .targetLo => { s with targetLo := v }
  | .targetHi => { s with targetHi := v }
  | .corrOffset => { s with corrOffset := v }
  | .fosc => { s with fosc := v }
  | .romCount => writeRomCount v s
  | .dbuf | .romtab => storeBytes off (wordBytes v) s
  | .result0 | .result1 | .busCfg | .devCfg | .crcCount | .crcPoly _ | .crcCfg _ | .restab => s

/-- A host read at an offset: the word and the state after it (20_memory R101, R103). -/
def hostRead (w : AccessWidth) (off : Nat) (s : State) : Word × State :=
  match accessPort s.params w off with
  | some port => readPort port off s
  | none => (0, setAccerr s)

/-- A host write at an offset (20_memory R101, R103, R111). -/
def hostWrite (w : AccessWidth) (off : Nat) (v : Word) (s : State) : State :=
  match accessPort s.params w off with
  | some port => if s.status.busy && droppedWhileBusy port then setOvr s else writePort port off v s
  | none => setAccerr s

/-- One access of the host agent. What a read returns goes to `hostReads`. An address outside the window does not reach
the block. -/
def hostAccess (a : HostAccess) (s : State) : State :=
  match a with
  | .read w addr =>
    match windowOffset s.params addr with
    | some off =>
      let r := hostRead w off s
      { r.2 with hostReads := r.1 :: r.2.hostReads }
    | none => s
  | .write w addr v =>
    match windowOffset s.params addr with
    | some off => hostWrite w off v s
    | none => s

/-- One step of the block while no command runs: the host's next event, if its time has come. -/
def hostIdle (s : State) : State :=
  match s.host with
  | [] => s
  | ⟨0, .access a⟩ :: rest => hostAccess a { s with host := rest }
  | ⟨0, .reset _⟩ :: rest => resetInput false { s with host := rest }
  | ⟨k + 1, e⟩ :: rest => { s with host := ⟨k, e⟩ :: rest }

end Sys2Proof.Machine
end

