-- ==== Sys2Proof/Machine/Operands.lean ====
section
/-! DEFINITION. Every operand form (30_encoding R142), read from the latch, and the arithmetic the rules apply to
operands: tick budgets (60_exceptions R472), alarm and configuration bytes (43_session R354), temperatures (R365). -/

namespace Sys2Proof.Machine

/-- A speed operand: the whole word, legal 0, 1, 2 (30_encoding R142, 41_bus R261). -/
def speedOf (v : Word) : Option Speed :=
  if v = 0 then some .standard else if v = 1 then some .high else if v = 2 then some .overload else none

/-- A pin-code operand: the whole word, legal below PIN_COUNT (30_encoding R142, 41_bus R260). -/
def pinOf (p : Params) (v : Word) : Option Byte :=
  if p.pinCount ≤ v.toNat then none else some (v.setWidth 8)

/-- bit = A0[0] (30_encoding R142). -/
def bitOperand (l : Latch) : Bool := l.a0.getLsbD 0

/-- byte = A0[7:0] (30_encoding R142). -/
def byteOperand (l : Latch) : Byte := l.a0.setWidth 8

/-- refin = A2[0] (40_crc R206). -/
def refinOperand (l : Latch) : Bool := l.a2.getLsbD 0

/-- refout = A2[1] (40_crc R206). -/
def refoutOperand (l : Latch) : Bool := l.a2.getLsbD 1

/-- A resolution operand: the whole word, legal 9..12 (30_encoding R142, 43_session R355). -/
def resolutionOperand (l : Latch) : Option Nat :=
  if l.a0.toNat < 9 ∨ 12 < l.a0.toNat then none else some l.a0.toNat

/-- ticks_per_ms (60_exceptions R472). -/
def ticksPerMs (p : Params) (l : Latch) : Nat := l.foscl.toNat / (1000 * p.ctDiv)

/-- `ticks(ms)`: an exact product, saturated (60_exceptions R472). -/
def ticks (p : Params) (l : Latch) (ms : Nat) : Word :=
  BitVec.ofNat 32 (min (ms * ticksPerMs p l) (2 ^ 32 - 1))

/-- The deadline has passed: elapsed >= budget, elapsed modulo 2^32 (60_exceptions R472). -/
def deadlinePassed (start budget now : Word) : Bool := decide (budget.toNat ≤ (now - start).toNat)

/-- `clamp(t)` (43_session R354). -/
def clampAlarm (p : Params) (t : Int) : Int := min (max t p.alarmMin) p.alarmMax

/-- `enc_alarm(t)` (43_session R354). -/
def encAlarm (p : Params) (t : Int) : Byte := BitVec.ofInt 8 (clampAlarm p t)

/-- `sext_32(dec_alarm(b))` (43_session R354, R364). -/
def decAlarmWord (b : Byte) : Word := b.signExtend 32

/-- `cfg_byte(r)` (43_session R354). -/
def cfgByte (r : Nat) : Byte := (BitVec.ofNat 8 (r - 9) <<< 5) ||| 0x1F

/-- `dec_res(c)` as the byte of a record: 9 + c[6:5] (43_session R354, R364). -/
def decRes (c : Byte) : Byte := 9 + (c.extractLsb' 5 2).setWidth 8

/-- raw: the 16 bits of the two temperature bytes, least significant first (43_session R365). -/
def rawTemp (lo hi : Byte) : BitVec 16 := hi ++ lo

/-- TEMP = sext_32(raw) + CORR, modulo 2^32, in 1/16 °C (43_session R365, R374). -/
def tempWord (lo hi : Byte) (corr : Word) : Word := (rawTemp lo hi).signExtend 32 + corr

end Sys2Proof.Machine
end

