-- ==== Sys2Proof/Machine/Sequencer.lean ====
section
/-! DEFINITION. The sequencer: how a command's rule is a sequence of steps between which the host may act (00_scope R18,
20_memory R110), the step forms of the slots, the clock, the register and RAM writes and the two ends, and the
procedures several rules share. -/

namespace Sys2Proof.Machine

/-- What a step of the machine answers. -/
abbrev Halt := Host.Outcome State Fault Refusal

/-- A piece of a command's rule: it goes on with a value and a state, or the machine's step ends here with an answer
(the command has ended, was reset, or polls again at the next step). -/
abbrev Seq (α : Type) := StateT State (Except Halt) α

/-- The machine's step ends here. -/
def halt {α : Type} (o : Halt) : Seq α := fun _ => .error o

/-- The host's turn before a sequencer step: every event whose time has come, in order (20_memory R110). A reset
abandons the command at once, and the rest of the list stays for later (70_reset_and_hazards R500). `inSlot` says that
the step to come is a slot. -/
def hostTurn (inSlot : Bool) : List HostItem → State → Except Halt State
  | [], s => .ok { s with host := [] }
  | ⟨0, .access a⟩ :: rest, s => hostTurn inSlot rest (hostAccess a s)
  | ⟨0, .reset cut⟩ :: rest, s => .error (.next (resetInput (cut && inSlot) { s with host := rest }))
  | ⟨k + 1, e⟩ :: rest, s => .ok { s with host := ⟨k, e⟩ :: rest }

/-- One sequencer step: the host's turn, then one indivisible action (41_bus R257 for a slot). -/
def sequencerStep {α : Type} (inSlot : Bool) (f : State → α × State) : Seq α := fun s =>
  match hostTurn inSlot s.host s with
  | .ok s' => .ok (f s')
  | .error o => .error o

/-- The last sequencer step of a command: the host's turn, then the end (60_exceptions R457, R458). -/
def lastStep {α : Type} (f : State → State) : Seq α := fun s =>
  match hostTurn false s.host s with
  | .ok s' => .error (.next (f s'))
  | .error o => .error o

/-- A step that writes registers or RAM. -/
def update (f : State → State) : Seq Unit := sequencerStep false fun s => ((), f s)

/-- A change of per-command state only, which no agent can see: no step of its own. -/
def hidden (f : State → State) : Seq Unit := fun s => .ok ((), f s)

/-- `slot_reset()` as a step. -/
def slotReset : Seq Bool := sequencerStep true resetSlot

/-- `slot_write(b)` as a step. -/
def slotWrite (b : Bool) : Seq Unit := sequencerStep true fun s => ((), writeSlot b s)

/-- `slot_read()` as a step. -/
def slotRead : Seq Bool := sequencerStep true readSlot

/-- `now()` as a step. -/
def now : Seq Word := sequencerStep false readClock

/-- `finish()` (60_exceptions R457). -/
def finish {α : Type} (r0 r1 : Word) : Seq α := lastStep (okEnd r0 r1)

/-- `raise Error(code)` (60_exceptions R458). -/
def raise {α : Type} (code : ErrCode) : Seq α := lastStep (errorEnd code 0)

/-- The machine's step ends with the command still running: a poll goes round again (43_session R353). -/
def suspend {α : Type} : Seq α := fun s => .error (.next s)

/-- `MemRead(off, n)` (00_scope R16). -/
def memRead (off n : Nat) : Seq (List Byte) := fun s =>
  if ramRange s.params off n then .ok (ramBytes off n s) else .error (.fault (.unmapped off))

/-- `MemWrite(off, n, v)` as a step (00_scope R16). -/
def memWrite (off : Nat) (bs : List Byte) : Seq Unit := fun s =>
  if ramRange s.params off bs.length then update (storeBytes off bs) s else .error (.fault (.unmapped off))

/-- Write slots for a list of bits. -/
def writeBits : List Bool → Seq Unit
  | [] => pure ()
  | b :: bs => do
    slotWrite b
    writeBits bs

/-- `write_byte(v)` (41_bus R255). -/
def writeByte (v : Byte) : Seq Unit := writeBits (byteBits v)

/-- Bytes sent one after the other (20_memory R106). -/
def writeBytes : List Byte → Seq Unit
  | [] => pure ()
  | v :: vs => do
    writeByte v
    writeBytes vs

/-- n read slots. -/
def readBits : Nat → Seq (List Bool)
  | 0 => pure []
  | n + 1 => do
    let b ← slotRead
    let bs ← readBits n
    return b :: bs

/-- `read_byte()` (41_bus R255). -/
def readByte : Seq Byte := do
  let bs ← readBits 8
  return byteOfBits bs

/-- `[read_byte() for n times]`. -/
def readBytes : Nat → Seq (List Byte)
  | 0 => pure []
  | n + 1 => do
    let v ← readByte
    let vs ← readBytes n
    return v :: vs

/-- `if not c then raise Error(code)`. -/
def require (c : Bool) (code : ErrCode) : Seq Unit := if c then pure () else raise code

/-- `bus_check()` (41_bus R251). -/
def busCheck : Seq Unit := do
  let s ← get
  require s.busCfg.configured .badPin

/-- The protocol CRC, of registry slot 0 (40_crc R208). Slot 0 exists in every state a run reaches (10_state R47). -/
def crc8 (s : State) (bs : List Byte) : Word :=
  match s.registry with
  | sl :: _ => crcCore sl bs
  | [] => crcCore slot0 bs

/-- An id that is not zero and whose checksum is zero (43_session R352, R361). -/
def validId (s : State) (id : RomId) : Bool := id != 0 && crc8 s (romBytes id) == 0

/-- `check_target()` (43_session R352). -/
def checkTarget (l : Latch) : Seq Unit := do
  let s ← get
  require (validId s l.tgt) .badId

/-- `if MODE == 0 then check_target()`. -/
def checkSingle (m : Addressing) (l : Latch) : Seq Unit :=
  match m with
  | .single => checkTarget l
  | .multi => pure ()

/-- Match ROM and the eight bytes of an id (43_session R351, R362). -/
def matchRom (id : RomId) : Seq Unit := do
  let s ← get
  writeByte s.params.owcMatchRom
  writeBytes (romBytes id)

/-- Skip ROM (43_session R351). -/
def skipRom : Seq Unit := do
  let s ← get
  writeByte s.params.owcSkipRom

/-- `if not slot_reset() then raise Error(NO_PRESENCE)`. -/
def needPresence : Seq Unit := do
  let present ← slotReset
  require present .noPresence

/-- `address(multi, id)` (43_session R351). -/
def address (m : Addressing) (id : RomId) : Seq Unit := do
  needPresence
  match m with
  | .multi => skipRom
  | .single => matchRom id
  update (setSeq .addressed)

/-- `start := now(); budget := ticks(ms)` of a completion poll (43_session R353), which the command waits in at `pos`. -/
def startPoll (l : Latch) (ms : Nat) (pos : SeqPos) : Seq Unit := do
  let t ← now
  hidden fun s => { s with poll := some { start := t, budget := ticks s.params l ms }, pos := pos }

/-- The deadline test of a poll, whose slot read 0: false when the deadline has passed; otherwise the machine's step ends
and the next step reads another slot (43_session R353). -/
def pollDeadline : Seq Bool := do
  let t ← now
  let s ← get
  let p := s.poll.getD { start := 0, budget := 0 }
  if deadlinePassed p.start p.budget t then pure false else suspend

/-- One iteration of the loop of `poll_done` (43_session R353): true when the slot reads 1. -/
def pollOnce : Seq Bool := do
  let v ← slotRead
  if v then pure true else pollDeadline

/-- The part of a command's rule before its first poll: run only by the command's first step (10_state R41). -/
def beforePoll (m : Seq Unit) : Seq Unit := do
  let s ← get
  if s.pos = .start then m else pure ()

/-- Run a command's rule with its latched operands. -/
def runRule (rule : Latch → Seq Unit) (s : State) : Halt :=
  match s.latch with
  | none => .fault .noCommand
  | some l =>
    match rule l s with
    | .ok r => .next r.2
    | .error o => o

/-- The end of an illegal word: `raise Error(ILLEGAL)`, and nothing else (30_encoding R147). -/
def rejectWord (s : State) : Halt := runRule (fun _ => raise .illegal) s

end Sys2Proof.Machine
end

