-- ==== Sys2Proof/Machine/Crc.lean ====
section
/-! DEFINITION. The commands of the CRC engine (40_crc R206, R210). Each is one sequencer step (R213). -/

namespace Sys2Proof.Machine

/-- The registry slot of a polynomial: `exists j < CRCCOUNT with slot[j].poly == P`. -/
def findPoly (r : List CrcSlot) (poly : Word) : Option CrcSlot := r.find? fun sl => sl.poly == poly

/-- A new registry slot: poly, width, the two flags, and its table (40_crc R206). -/
def newSlot (p : Params) (poly : Word) (w : CrcWidth) (l : Latch) : CrcSlot where
  poly := poly
  width := w
  refin := refinOperand l
  refout := refoutOperand l
  table := genTable poly w p.crcTableEntries

/-- The checks of CRC.REG in their order, and the slot to add if all pass (40_crc R206). -/
def registerCheck (l : Latch) (s : State) : Except ErrCode CrcSlot :=
  if l.a0 = 0 then .error .crcCfg
  else
    match widthOperand s.params l.a1 with
    | none => .error .crcCfg
    | some w =>
      if (widthMask w).toNat < l.a0.toNat then .error .crcCfg
      else if (findPoly s.registry l.a0).isSome then .error .crcDup
      else if s.params.crcCapacity ≤ s.registry.length then .error .crcFull
      else .ok (newSlot s.params l.a0 w l)

/-- The whole of CRC.REG: its effect and its end in one step (40_crc R206, R213). -/
def registerPoly (l : Latch) (s : State) : State :=
  match registerCheck l s with
  | .ok sl => okEnd (BitVec.ofNat 32 s.registry.length) 0 { s with registry := s.registry ++ [sl] }
  | .error e => errorEnd e 0 s

/-- The whole of CRC.CALC: its effect and its end in one step (40_crc R210, R211, R213). -/
def computeCrc (l : Latch) (s : State) : State :=
  match findPoly s.registry l.a0 with
  | none => errorEnd .crcInput 0xFFFFFFFF s
  | some sl =>
    if l.a2.toNat = 0 ∨ s.params.dbufSize < l.a1.toNat + l.a2.toNat then errorEnd .crcInput (widthMask sl.width) s
    else
      let r := ramBytes (dbufBase + l.a1.toNat) l.a2.toNat s
      okEnd (crcCore sl r.1) 0 r.2

/-- CRC.REG (40_crc R206). -/
def execCrcReg (s : State) : Halt := runRule (fun l => lastStep (registerPoly l)) s

/-- CRC.CALC (40_crc R210). -/
def execCrcCalc (s : State) : Halt := runRule (fun l => lastStep (computeCrc l)) s

end Sys2Proof.Machine
end

