-- ==== Sys2Proof/Machine/Search.lean ====
section
/-! DEFINITION. The ROM search (42_search R300 to R318). -/

namespace Sys2Proof.Machine

/-- The search state at the start of a command (42_search R301). -/
def freshSearch (start : Word) : SearchState where
  lastDisc := -1
  lastZero := -1
  rom := 0
  prev := 0
  found := []
  failures := 0
  start := start

/-- The running search's state. Inside OW.SEARCH there always is one. -/
def searchOf (s : State) : SearchState := s.search.getD (freshSearch 0)

/-- Change the running search's state. -/
def setSearch (f : SearchState → SearchState) : Seq Unit :=
  hidden fun s => { s with search := some (f (searchOf s)) }

/-- The bytes of ROMTAB that hold a list of ids, the rest zero (42_search R300, R314). -/
def romtabImage (p : Params) (ids : List RomId) : List Byte :=
  (List.range p.maxDevices).flatMap fun j => romBytes (ids.getD j 0)

/-- `fail(e)` (42_search R300, R313). -/
def searchFail {α : Type} (e : ErrCode) : Seq α := do
  let s ← get
  memWrite romtabBase (romtabImage s.params [])
  update fun s => { s with romCount := 0 }
  raise e

/-- `succeed(L)` (42_search R300, R314). -/
def searchSucceed {α : Type} (ids : List RomId) : Seq α := do
  let s ← get
  memWrite romtabBase (romtabImage s.params ids)
  update fun s => { s with romCount := BitVec.ofNat 8 ids.length }
  finish (BitVec.ofNat 32 ids.length) 0

/-- `if not c then fail(e)`. -/
def searchRequire (c : Bool) (e : ErrCode) : Seq Unit := if c then pure () else searchFail e

/-- The branch bit at a discrepancy (42_search R304). -/
def discrepancyBit (st : SearchState) (i : Nat) : Bool :=
  if (i : Int) = st.lastDisc then true else if st.lastDisc < (i : Int) then false else st.prev.getLsbD i

/-- `rom[i] := d`. -/
def setRomBit (r : RomId) (i : Nat) (d : Bool) : RomId :=
  if d then r ||| (1#64 <<< i) else r &&& ~~~ (1#64 <<< i)

/-- The search state after ROM bit i, which the devices answered with b and cb (not both 1), and the branch bit d taken
there (42_search R300, R304, R305, R307). -/
def searchBranch (b cb : Bool) (i : Nat) (st : SearchState) : Bool × SearchState :=
  let disc := !b && !cb
  let d := if disc then discrepancyBit st i else b
  (d, { st with rom := setRomBit st.rom i d, lastZero := if disc && !d then (i : Int) else st.lastZero })

/-- No alarming device at all: (1, 1) at bit 0 of a fresh enumeration in alarm mode (42_search R306). -/
def noAlarm (m : SearchMode) (i : Nat) (st : SearchState) : Bool :=
  m == .alarmed && i == 0 && st.found.isEmpty && st.lastDisc == -1

/-- Record a branch bit and write it back onto the bus (42_search R311). -/
def takeBranch (r : Bool × SearchState) : Seq Bool := do
  setSearch fun _ => r.2
  slotWrite r.1
  pure true

/-- One ROM bit of a pass: false when no device answers, so that the pass is aborted (42_search R300, R306, R311). -/
def searchBit (m : SearchMode) (i : Nat) : Seq Bool := do
  let b ← slotRead
  let cb ← slotRead
  let s ← get
  if b && cb then
    if noAlarm m i (searchOf s) then searchSucceed [] else pure false
  else
    takeBranch (searchBranch b cb i (searchOf s))

/-- The walk from ROM bit i on, n bits to go (42_search R303): false when the pass is aborted. -/
def searchWalk (m : SearchMode) : Nat → Nat → Seq Bool
  | _, 0 => pure true
  | i, n + 1 => do
    let ok ← searchBit m i
    if ok then searchWalk m (i + 1) n else pure false

/-- The candidate of a whole walk is accepted: family code, checksum, not found before (42_search R308). -/
def acceptable (s : State) (st : SearchState) : Bool :=
  st.rom.extractLsb' 0 8 == s.params.familyCode && crc8 s (romBytes st.rom) == 0 && !st.found.contains st.rom

/-- The search command byte of a mode (42_search R302). -/
def searchCommand (p : Params) : SearchMode → Byte
  | .all => p.owcSearchRom
  | .alarmed => p.owcAlarmSearch

/-- One pass: the deadline test, the reset, the command byte, the walk, the check of the candidate. True when the
candidate is good (42_search R300, R302, R308, R312). -/
def searchPass (m : SearchMode) (l : Latch) : Seq Bool := do
  let t ← now
  let s ← get
  searchRequire (!deadlinePassed (searchOf s).start (ticks s.params l s.params.searchTimeoutMs) t) .timeout
  let present ← slotReset
  searchRequire present .noPresence
  writeByte (searchCommand s.params m)
  setSearch fun st => { st with rom := 0, lastZero := -1 }
  let ok ← searchWalk m 0 64
  let s ← get
  pure (ok && acceptable s (searchOf s))

/-- After a good pass: OVERFLOW, or the id is added, and the search is over when no branch is left
(42_search R300, R310, R312). -/
def searchKeep : Seq Unit := do
  let s ← get
  let st := searchOf s
  searchRequire (st.found.length != s.params.maxDevices) .overflow
  setSearch fun st => { st with found := st.found ++ [st.rom], prev := st.rom, lastDisc := st.lastZero }
  if st.lastZero = -1 then searchSucceed (st.found ++ [st.rom]) else pure ()

/-- Passes until one fails, at most n: MAX_DEVICES + 1 good passes in a row end the command, so n = 0 is never reached
from that bound (42_search R315). -/
def searchPasses (m : SearchMode) (l : Latch) : Nat → Seq Unit
  | 0 => searchFail .overflow
  | n + 1 => do
    let ok ← searchPass m l
    if ok then do
      searchKeep
      searchPasses m l n
    else pure ()

/-- The search from a fresh enumeration, with n failed passes left (42_search R300, R309). -/
def searchRuns (m : SearchMode) (l : Latch) : Nat → Seq Unit
  | 0 => searchFail .integrity
  | n + 1 => do
    let s ← get
    searchPasses m l (s.params.maxDevices + 1)
    setSearch fun st => { st with failures := st.failures + 1 }
    let s ← get
    searchRequire (decide ((searchOf s).failures < s.params.searchRepeat)) .integrity
    setSearch fun st => { st with found := [], lastDisc := -1, prev := 0 }
    searchRuns m l n

/-- The rule of OW.SEARCH (42_search R300). -/
def searchRule (m : SearchMode) (l : Latch) : Seq Unit := do
  let s ← get
  searchRequire s.busCfg.configured .badPin
  let t ← now
  hidden fun s => { s with search := some (freshSearch t) }
  searchRuns m l s.params.searchRepeat

/-- OW.SEARCH (42_search R300). -/
def execOwSearch (m : SearchMode) (s : State) : Halt := runRule (searchRule m) s

end Sys2Proof.Machine
end

