-- ==== Sys2Proof/Machine/Transport.lean ====
section
/-! DEFINITION. The transport commands (41_bus R260 to R276). -/

namespace Sys2Proof.Machine

/-- The whole of OW.CFGBUS: one step, no slot (41_bus R260, 70_reset_and_hazards R521). -/
def configureBus (l : Latch) (s : State) : State :=
  match pinOf s.params l.a0 with
  | none => errorEnd .badPin 0 s
  | some pin =>
    match speedOf l.a1 with
    | none => errorEnd .badArg 0 s
    | some sp => okEnd 0 0 { s with driveLow := 0, busCfg := { speed := sp, pin := pin, configured := true } }

/-- The whole of OW.SPEED: one step, no slot (41_bus R262, 70_reset_and_hazards R521). -/
def configureSpeed (l : Latch) (s : State) : State :=
  match speedOf l.a0 with
  | none => errorEnd .badArg 0 s
  | some sp => okEnd 0 0 { s with busCfg := { s.busCfg with speed := sp } }

/-- `bus_check`, one read slot, and its bit as RESULT0 and RBOOL (41_bus R268, 43_session R359). -/
def readBoolean : Seq Unit := do
  busCheck
  let v ← slotRead
  update (setRbool v)
  finish (boolWord v) 0

/-- Send n bytes of RAM from an offset on: `for k in 0..n-1: write_byte(MemRead(off + k, 1))` (41_bus R274). -/
def sendRam : Nat → Nat → Seq Unit
  | _, 0 => pure ()
  | off, n + 1 => do
    let bs ← memRead off 1
    writeBytes bs
    sendRam (off + 1) n

/-- Receive n bytes into RAM from an offset on: `for k in 0..n-1: MemWrite(off + k, 1, read_byte())` (41_bus R276). -/
def receiveRam : Nat → Nat → Seq Unit
  | _, 0 => pure ()
  | off, n + 1 => do
    let v ← readByte
    memWrite off [v]
    receiveRam (off + 1) n

/-- `if off + n > 256 (exact) then raise Error(BAD_ARG)` (41_bus R274, R276). -/
def checkDbufRange (l : Latch) : Seq Unit := do
  let s ← get
  require (decide (l.a0.toNat + l.a1.toNat ≤ s.params.dbufSize)) .badArg

/-- OW.CFGBUS (41_bus R260). -/
def execOwCfgbus (s : State) : Halt := runRule (fun l => lastStep (configureBus l)) s

/-- OW.SPEED (41_bus R262). -/
def execOwSpeed (s : State) : Halt := runRule (fun l => lastStep (configureSpeed l)) s

/-- OW.RESET (41_bus R264). -/
def execOwReset (s : State) : Halt :=
  runRule (fun _ => do
    busCheck
    let pr ← slotReset
    update (setRbool pr)
    finish (boolWord pr) 0) s

/-- OW.WBIT (41_bus R266). -/
def execOwWbit (s : State) : Halt :=
  runRule (fun l => do
    busCheck
    slotWrite (bitOperand l)
    finish 0 0) s

/-- OW.RBIT (41_bus R268). -/
def execOwRbit (s : State) : Halt := runRule (fun _ => readBoolean) s

/-- OW.WBYTE (41_bus R270). -/
def execOwWbyte (s : State) : Halt :=
  runRule (fun l => do
    busCheck
    writeByte (byteOperand l)
    finish 0 0) s

/-- OW.RBYTE (41_bus R272). -/
def execOwRbyte (s : State) : Halt :=
  runRule (fun _ => do
    busCheck
    let v ← readByte
    finish (v.setWidth 32) 0) s

/-- OW.WMULTI (41_bus R274). -/
def execOwWmulti (s : State) : Halt :=
  runRule (fun l => do
    checkDbufRange l
    busCheck
    sendRam (dbufBase + l.a0.toNat) l.a1.toNat
    finish 0 0) s

/-- OW.RMULTI (41_bus R276). -/
def execOwRmulti (s : State) : Halt :=
  runRule (fun l => do
    checkDbufRange l
    busCheck
    receiveRam (dbufBase + l.a0.toNat) l.a1.toNat
    finish 0 0) s

end Sys2Proof.Machine
end

