-- ==== Sys2Proof/Machine/Session.lean ====
section
/-! DEFINITION. The session commands (43_session R350 to R374). -/

namespace Sys2Proof.Machine

/-! ## Configuration -/

/-- The alarm bytes of TS.CONFIG and whether alarms are configured, or an invalid range (43_session R355, R356). -/
def alarmBytes (p : Params) (l : Latch) : Option (Byte × Byte × Bool) :=
  if l.a1.toInt = l.a2.toInt then some (0x7F, 0x80, false)
  else if l.a1.toInt < l.a2.toInt then none
  else some (encAlarm p l.a1.toInt, encAlarm p l.a2.toInt, true)

/-- What TS.CONFIG sends and DEVCFG takes, if its operands are legal (43_session R355). -/
def configOperands (p : Params) (l : Latch) : Option DevCfg :=
  match resolutionOperand l with
  | none => none
  | some res =>
    match alarmBytes p l with
    | none => none
    | some (th, tl, conf) =>
      some { res := BitVec.ofNat 4 res, alarmsConf := conf, th := th, tl := tl, cfgb := cfgByte res }

/-- Address, then Write Scratchpad and its three bytes (43_session R355, R372). -/
def writeSpad (m : Addressing) (id : RomId) (th tl cf : Byte) : Seq Unit := do
  address m id
  let s ← get
  writeBytes [s.params.owcWriteSpad, th, tl, cf]

/-- TS.CONFIG past its argument checks: send the bytes, then DEVCFG takes them (43_session R355, R357). -/
def sendConfig (m : Addressing) (l : Latch) (d : DevCfg) : Seq Unit := do
  busCheck
  checkSingle m l
  writeSpad m l.tgt d.th d.tl d.cfgb
  update fun s => { s with devCfg := d }
  finish 0 0

/-- The rule of TS.CONFIG (43_session R355). -/
def configRule (m : Addressing) (l : Latch) : Seq Unit := do
  let s ← get
  match configOperands s.params l with
  | none => raise .badArg
  | some d => sendConfig m l d

/-- TS.CONFIG (43_session R355). -/
def execTsConfig (m : Addressing) (s : State) : Halt := runRule (configRule m) s

/-! ## Conversion -/

/-- A convert, copy or recall byte: address, send it, `seq <- CONVERTING` (43_session R358, R368, R369). -/
def startOperation (m : Addressing) (id : RomId) (cmd : Byte) : Seq Unit := do
  address m id
  writeByte cmd
  update (setSeq .converting)

/-- The rule of TS.CONVERT (43_session R358). -/
def convertRule (m : Addressing) (l : Latch) : Seq Unit := do
  busCheck
  checkSingle m l
  let s ← get
  startOperation m l.tgt s.params.owcConvertT
  finish 0 0

/-- TS.CONVERT (43_session R358). -/
def execTsConvert (m : Addressing) (s : State) : Halt := runRule (convertRule m) s

/-- TS.ISDONE (43_session R359). -/
def execTsIsdone (s : State) : Halt := runRule (fun _ => readBoolean) s

/-! ## Scratch-pad reads -/

/-- The two kinds of scratch-pad read (43_session R362). -/
inductive ReadKind where
  | temp
  | alarm
  deriving DecidableEq, Repr

/-- n ids from a ROMTAB offset on (43_session R360). -/
def readIds : Nat → Nat → Seq (List RomId)
  | _, 0 => pure []
  | off, n + 1 => do
    let bs ← memRead off 8
    let rest ← readIds (off + 8) n
    pure (romOfBytes bs :: rest)

/-- `prepare_list(multi)` (43_session R360, R361): the ids to read go to the device list. -/
def prepareList (m : Addressing) (l : Latch) : Seq Unit :=
  match m with
  | .multi => do
    let s ← get
    require (s.romCount != 0) .badId
    let ids ← readIds romtabBase s.romCount.toNat
    hidden fun s => { s with devices := ids }
  | .single => do
    checkTarget l
    hidden fun s => { s with devices := [l.tgt] }

/-- The 32 bytes of a RESTAB record (43_session R364). -/
def recordBytes (kind : ReadKind) (corr : Word) (sp : List Byte) (ok : Bool) : List Byte :=
  let temp := decide (kind = .temp) && ok
  let alarm := decide (kind = .alarm) && ok
  sp ++ [if ok then 1 else 0, if alarm then decRes (sp.getD 4 0) else 0, 0] ++
    wordBytes (if temp then tempWord (sp.getD 0 0) (sp.getD 1 0) corr else 0) ++
    wordBytes (if alarm then decAlarmWord (sp.getD 2 0) else 0) ++
    wordBytes (if alarm then decAlarmWord (sp.getD 3 0) else 0) ++ List.replicate 8 0

/-- `write_record(j, kind, sp, ok)` (43_session R364). -/
def writeRecord (j : Nat) (kind : ReadKind) (corr : Word) (sp : List Byte) (ok : Bool) : Seq Unit :=
  memWrite (restabBase + 32 * j) (recordBytes kind corr sp ok)

/-- Send Read Scratchpad, `seq <- READING_SPAD`, read the 9 bytes (43_session R362, R372). -/
def readSpad : Seq (List Byte) := do
  let s ← get
  writeByte s.params.owcReadSpad
  update (setSeq .readingSpad)
  readBytes 9

/-- The read-pass state of the running pass. -/
def readPassOf (s : State) : ReadPass := s.readPass.getD { attempt := 1, nvalid := 0, index := 0 }

/-- Count a record: the next index, and nvalid if it is valid. -/
def countRecord (ok : Bool) : Seq Unit :=
  hidden fun s =>
    let rp := readPassOf s
    { s with readPass := some { rp with nvalid := rp.nvalid + (if ok then 1 else 0), index := rp.index + 1 } }

/-- A device with a valid id: reset, address, read, record (43_session R362). -/
def readValid (kind : ReadKind) (l : Latch) (id : RomId) (j : Nat) : Seq Unit := do
  needPresence
  matchRom id
  update (setSeq .addressed)
  let sp ← readSpad
  let s ← get
  let ok := crc8 s sp == 0
  writeRecord j kind l.corr sp ok
  countRecord ok

/-- An id that is 0 or fails its checksum: an invalid record, no bus traffic (43_session R361). -/
def skipInvalid (kind : ReadKind) (l : Latch) (j : Nat) : Seq Unit := do
  writeRecord j kind l.corr (List.replicate 9 0) false
  countRecord false

/-- One device of a pass (43_session R361, R362). -/
def readDevice (kind : ReadKind) (l : Latch) (id : RomId) : Seq Unit := do
  let s ← get
  let j := (readPassOf s).index
  if validId s id then readValid kind l id j else skipInvalid kind l j

/-- The devices of a pass in order. -/
def readDevices (kind : ReadKind) (l : Latch) : List RomId → Seq Unit
  | [] => pure ()
  | id :: ids => do
    readDevice kind l id
    readDevices kind l ids

/-- The end of the last pass: INTEGRITY if no device validated, else the two counts (43_session R362). -/
def endPasses (nvalid n : Nat) : Seq Unit := do
  require (nvalid != 0) .integrity
  finish (BitVec.ofNat 32 nvalid) (BitVec.ofNat 32 n)

/-- Start a pass: nothing counted yet. -/
def startPass : Seq Unit :=
  hidden fun s => { s with readPass := some { attempt := (readPassOf s).attempt, nvalid := 0, index := 0 } }

/-- Go on to the next pass: `attempt := attempt + 1`. -/
def nextAttempt : Seq Unit :=
  hidden fun s => { s with readPass := some { readPassOf s with attempt := (readPassOf s).attempt + 1 } }

/-- `read_passes(kind, ...)` from some attempt on, n passes to go; the last pass ends the command
(43_session R362, R363). -/
def readPasses (kind : ReadKind) (l : Latch) : Nat → Seq Unit
  | 0 => raise .integrity
  | n + 1 => do
    startPass
    let s ← get
    readDevices kind l s.devices
    let s ← get
    if (readPassOf s).nvalid = s.devices.length ∨ (readPassOf s).attempt = s.params.readRepeat then
      endPasses (readPassOf s).nvalid s.devices.length
    else do
      nextAttempt
      readPasses kind l n

/-- `read_passes(kind, ...)` from the first attempt (43_session R362). -/
def readAll (kind : ReadKind) (l : Latch) : Seq Unit := do
  hidden fun s => { s with readPass := some { attempt := 1, nvalid := 0, index := 0 } }
  let s ← get
  readPasses kind l s.params.readRepeat

/-- A read command (43_session R366, R367). -/
def readCommand (kind : ReadKind) (m : Addressing) (l : Latch) : Seq Unit := do
  busCheck
  prepareList m l
  readAll kind l

/-- TS.READTEMP (43_session R366). -/
def execTsReadtemp (m : Addressing) (s : State) : Halt := runRule (fun l => readCommand .temp m l) s

/-- TS.READALARM (43_session R367). -/
def execTsReadalarm (m : Addressing) (s : State) : Halt := runRule (fun l => readCommand .alarm m l) s

/-- TS.CONVREAD as far as its poll (43_session R368). -/
def convreadStart (m : Addressing) (l : Latch) : Seq Unit := do
  busCheck
  prepareList m l
  let s ← get
  startOperation m l.tgt s.params.owcConvertT
  startPoll l s.params.convTimeoutMs .poll

/-- The rule of TS.CONVREAD (43_session R368): its first step goes as far as the poll; a step in the poll goes on from
there. -/
def convreadRule (m : Addressing) (l : Latch) : Seq Unit := do
  beforePoll (convreadStart m l)
  let done ← pollOnce
  require done .timeout
  readAll .temp l

/-- TS.CONVREAD (43_session R368). -/
def execTsConvread (m : Addressing) (s : State) : Halt := runRule (convreadRule m) s

/-! ## EEPROM -/

/-- TS.SAVE or TS.RESTORE as far as its poll, with the command byte (43_session R369, R370). -/
def eepromStart (m : Addressing) (cmd : Byte) (l : Latch) : Seq Unit := do
  busCheck
  checkSingle m l
  startOperation m l.tgt cmd
  let s ← get
  startPoll l s.params.eeTimeoutMs .poll

/-- The shared rule of TS.SAVE and TS.RESTORE (43_session R369, R370). -/
def eepromCommand (m : Addressing) (cmd : Byte) (l : Latch) : Seq Unit := do
  beforePoll (eepromStart m cmd l)
  let done ← pollOnce
  require done .timeout
  finish 0 0

/-- TS.SAVE (43_session R369). -/
def execTsSave (m : Addressing) (s : State) : Halt := runRule (eepromCommand m s.params.owcCopySpad) s

/-- TS.RESTORE (43_session R370). -/
def execTsRestore (m : Addressing) (s : State) : Halt := runRule (eepromCommand m s.params.owcRecallEe) s

/-! ## Fake detection -/

/-- `th := sp[2]; tl := sp[3]; cf := sp[4]` (43_session R372). -/
def keepCapture (sp : List Byte) : Seq Unit :=
  hidden fun s => { s with capture := some { th := sp.getD 2 0, tl := sp.getD 3 0, cf := sp.getD 4 0 } }

/-- The capture loop of TS.ISFAKE, n tries to go (43_session R372). -/
def captureSpad (m : Addressing) (l : Latch) : Nat → Seq Unit
  | 0 => raise .integrity
  | n + 1 => do
    address m l.tgt
    let sp ← readSpad
    let s ← get
    if crc8 s sp == 0 then keepCapture sp else captureSpad m l n

/-- The captured bytes. Past the capture loop there always are some. -/
def captureOf (s : State) : Capture := s.capture.getD { th := 0, tl := 0, cf := 0 }

/-- TS.ISFAKE up to its first poll: capture, force 9-bit resolution, convert (43_session R372). -/
def probeDevice (m : Addressing) (l : Latch) : Seq Unit := do
  busCheck
  checkSingle m l
  let s ← get
  captureSpad m l s.params.readRepeat
  let s ← get
  writeSpad m l.tgt (captureOf s).th (captureOf s).tl (cfgByte 9)
  startOperation m l.tgt s.params.owcConvertT
  startPoll l s.params.fakeWindowMs .poll

/-- TS.ISFAKE after its polls: restore the captured bytes and report (43_session R372). -/
def reportFake (m : Addressing) (l : Latch) (fake : Bool) : Seq Unit := do
  let s ← get
  writeSpad m l.tgt (captureOf s).th (captureOf s).tl (captureOf s).cf
  update (setRbool fake)
  finish (boolWord fake) 0

/-- The first poll of TS.ISFAKE: done in the window means genuine; otherwise the second poll starts (43_session
R372). -/
def windowPoll (m : Addressing) (l : Latch) : Seq Unit := do
  let done ← pollOnce
  let s ← get
  if done then reportFake m l false else startPoll l s.params.convTimeoutMs .drain

/-- The first poll, unless the command is already in its second. -/
def beforeDrain (m : Seq Unit) : Seq Unit := do
  let s ← get
  if s.pos = .drain then pure () else m

/-- The rule of TS.ISFAKE (43_session R372): the poll of FAKE_WINDOW_MS decides; if it fails, the poll of
CONV_TIMEOUT_MS waits the conversion out, and its result is ignored. -/
def isfakeRule (m : Addressing) (l : Latch) : Seq Unit := do
  beforePoll (probeDevice m l)
  beforeDrain (windowPoll m l)
  let _ ← pollOnce
  reportFake m l true

/-- TS.ISFAKE (43_session R372). -/
def execTsIsfake (m : Addressing) (s : State) : Halt := runRule (isfakeRule m) s

end Sys2Proof.Machine
end

