-- ==== Sys2Proof/Machine/Dispatch.lean ====
section
/-! DEFINITION. One arm per command of the opcode map (30_encoding R144). -/

namespace Sys2Proof.Machine

def exec (i : Instr) (s : State) : Host.Outcome State Fault Refusal :=
  match i with
  | .crcReg => Sys2Proof.Machine.execCrcReg s
  | .crcCalc => Sys2Proof.Machine.execCrcCalc s
  | .owCfgbus => Sys2Proof.Machine.execOwCfgbus s
  | .owSpeed => Sys2Proof.Machine.execOwSpeed s
  | .owReset => Sys2Proof.Machine.execOwReset s
  | .owWbit => Sys2Proof.Machine.execOwWbit s
  | .owRbit => Sys2Proof.Machine.execOwRbit s
  | .owWbyte => Sys2Proof.Machine.execOwWbyte s
  | .owRbyte => Sys2Proof.Machine.execOwRbyte s
  | .owWmulti => Sys2Proof.Machine.execOwWmulti s
  | .owRmulti => Sys2Proof.Machine.execOwRmulti s
  | .owSearch m => Sys2Proof.Machine.execOwSearch m s
  | .tsConfig m => Sys2Proof.Machine.execTsConfig m s
  | .tsConvert m => Sys2Proof.Machine.execTsConvert m s
  | .tsIsdone => Sys2Proof.Machine.execTsIsdone s
  | .tsConvread m => Sys2Proof.Machine.execTsConvread m s
  | .tsReadtemp m => Sys2Proof.Machine.execTsReadtemp m s
  | .tsReadalarm m => Sys2Proof.Machine.execTsReadalarm m s
  | .tsSave m => Sys2Proof.Machine.execTsSave m s
  | .tsRestore m => Sys2Proof.Machine.execTsRestore m s
  | .tsIsfake m => Sys2Proof.Machine.execTsIsfake m s

end Sys2Proof.Machine
end

