-- ==== Sys2Proof/Machine/Step.lean ====
section
/-! DEFINITION. One step of the machine. While a command runs, the word in LCMD is decoded and its command runs on; an
illegal word ends with ILLEGAL (30_encoding R147). While none runs, the host acts. -/

namespace Sys2Proof.Machine

/-- One step. -/
def step (s : State) : Host.Outcome State Fault Refusal :=
  if s.status.busy then
    match decode s.lcmd with
    | some i => exec i s
    | none => rejectWord s
  else .next (hostIdle s)

/-- The state in which the next step runs a given command word: the word has just been accepted (30_encoding R145,
R146), which is what a host write of CMD does. Every command is one word (R141), so bits at or above `nbits` are 0. -/
def State.withFetchWord (s : State) (nbits w : Nat) : State := accept (BitVec.ofNat 32 (w % 2 ^ nbits)) s

end Sys2Proof.Machine
end

