-- ==== Sys2Proof/Safety.lean ====
section
/-! DEFINITION. The terms the statements use: what a state of a run always satisfies, which states a command can run in,
what its slots look like on the line, and what a command of each kind leaves alone. -/

namespace Sys2Proof.Machine

/-! ## The line, slot by slot -/

/-- A slot with the level its sample read (41_bus R252 to R254). -/
inductive Slot where
  | reset (level : Bool)
  | write (bit : Bool)
  | read (level : Bool)
  deriving DecidableEq, Repr

/-- What a slot does on a line, in time order, with the delays of a profile (41_bus R252 to R254). -/
def slotWave (p : Byte) (t : Profile) : Slot → List LineEvent
  | .reset v =>
    [.low p, .delay t.rstLow, .release p, .delay t.rstSample, .sample p v, .delay t.presWin, .delay t.rstRec]
  | .write true => [.low p, .delay t.w1Low, .release p, .delay t.w1Rec]
  | .write false => [.low p, .delay t.w0Low, .release p, .delay t.w0Rec]
  | .read v => [.low p, .delay t.w1Low, .release p, .delay t.rSample, .sample p v, .delay t.rRec]

/-- What a sequence of slots does on the configured line, in time order. -/
def traffic (s : State) (ss : List Slot) : List LineEvent :=
  ss.flatMap (slotWave s.busCfg.pin (s.params.tp s.busCfg.speed))

/-- The state after a sequence of slots, all else unchanged; `rest` is what the bus environment answers from then on. -/
def onLine (s : State) (ss : List Slot) (rest : List Bool) : State :=
  { s with
    line := (traffic s ss).reverse ++ s.line
    bus := rest
    driveLow := match ss with
      | [] => s.driveLow
      | _ => s.driveLow &&& ~~~ pinMask s.busCfg.pin }

/-- The write slots of bytes (20_memory R106, 41_bus R255). -/
def sent (bs : List Byte) : List Slot := bs.flatMap fun b => (byteBits b).map .write

/-- The read slots that receive bytes (20_memory R106, 41_bus R255). -/
def received (bs : List Byte) : List Slot := bs.flatMap fun b => (byteBits b).map .read

/-- The answers of the bus environment that make read slots receive bytes. -/
def answers (bs : List Byte) : List Bool := bs.flatMap byteBits

/-- The bytes that address a device or all devices (43_session R351). -/
def addressBytes (p : Params) (m : Addressing) (id : RomId) : List Byte :=
  match m with
  | .multi => [p.owcSkipRom]
  | .single => p.owcMatchRom :: romBytes id

/-- The slots of the address step when a device answers the reset (43_session R351). -/
def addressSlots (p : Params) (m : Addressing) (id : RomId) : List Slot :=
  .reset false :: sent (addressBytes p m id)

/-- The slots that address a device (or all) and read its nine scratch-pad bytes (43_session R362, R372). -/
def readSpadSlots (p : Params) (m : Addressing) (id : RomId) (sp : List Byte) : List Slot :=
  addressSlots p m id ++ sent [p.owcReadSpad] ++ received sp

/-- The answers of the bus environment in such a read: the presence pulse, then the bytes. -/
def readSpadAnswers (sp : List Byte) : List Bool := false :: answers sp

/-- The slots that address a device (or all) and write its three scratch-pad bytes (43_session R355, R372). -/
def writeSpadSlots (p : Params) (m : Addressing) (id : RomId) (th tl cf : Byte) : List Slot :=
  addressSlots p m id ++ sent [p.owcWriteSpad, th, tl, cf]

/-- The slots that address a device (or all) and send one command byte (43_session R358, R369, R370). -/
def operationSlots (p : Params) (m : Addressing) (id : RomId) (cmd : Byte) : List Slot :=
  addressSlots p m id ++ sent [cmd]

/-- The slots of TS.ISFAKE before its first poll: the captures that fail, the one that does not, 9-bit resolution, the
conversion (43_session R372). -/
def probeSlots (p : Params) (m : Addressing) (id : RomId) (bad : List (List Byte)) (sp : List Byte) : List Slot :=
  bad.flatMap (readSpadSlots p m id) ++ readSpadSlots p m id sp ++
    writeSpadSlots p m id (sp.getD 2 0) (sp.getD 3 0) 0x1F ++ operationSlots p m id p.owcConvertT

/-- The answer of the bus environment to the next sample, if the events `before` (newest first) come before it. -/
def nextAnswer (s : State) (before : List LineEvent) : Bool :=
  match s.bus with
  | v :: _ => v
  | [] => Config.sense s.busCfg.pin (before ++ s.line)

/-! ## States a command can run in -/

/-- A command has been accepted with these operands, and the host leaves the block alone until its step ends. -/
structure Accepted (s : State) (l : Latch) : Prop where
  quiet : s.host = []
  latched : s.latch = some l

/-- So accepted, and the bus is configured (41_bus R251). -/
structure BusReady (s : State) (l : Latch) : Prop extends Accepted s l where
  configured : s.busCfg.configured = true

/-- The target of a single-mode command is valid (43_session R352); a multi-mode command has none. -/
def TargetOk (s : State) (m : Addressing) (l : Latch) : Prop :=
  match m with
  | .single => l.tgt ≠ 0 ∧ crc8 s (romBytes l.tgt) = 0
  | .multi => True

/-- The devices a scratch-pad read addresses (43_session R360, R361): TGT, or ROMTAB entries 0 .. ROMCOUNT - 1, each of
them written. -/
def DeviceList (s : State) (m : Addressing) (l : Latch) (ids : List RomId) : Prop :=
  match m with
  | .single => TargetOk s .single l ∧ ids = [l.tgt]
  | .multi =>
    ids.length = s.romCount.toNat ∧ s.romCount ≠ 0 ∧
      ∀ j k : Nat, j < ids.length → k < 8 →
        memGet s.ram (romtabBase + 8 * j + k) = some ((ids.getD j 0).extractLsb' (8 * k) 8)

/-! ## Read passes -/

/-- A scratch-pad that validates: its device's id is valid and its nine bytes have checksum zero (43_session R361,
R362). -/
def validRead (s : State) (id : RomId) (sp : List Byte) : Bool := validId s id && crc8 s sp == 0

/-- How many devices of a pass validate; `sps` are the bytes read from the devices, in order. -/
def validCount (s : State) (ids : List RomId) (sps : List (List Byte)) : Nat :=
  ((ids.zip sps).filter fun x => validRead s x.1 x.2).length

/-- The slots of a pass: none for an invalid id (43_session R361). -/
def passSlots (s : State) (ids : List RomId) (sps : List (List Byte)) : List Slot :=
  (ids.zip sps).flatMap fun x => if validId s x.1 then readSpadSlots s.params .single x.1 x.2 else []

/-- The answers of the bus environment in a pass. -/
def passAnswers (s : State) (ids : List RomId) (sps : List (List Byte)) : List Bool :=
  (ids.zip sps).flatMap fun x => if validId s x.1 then readSpadAnswers x.2 else []

/-- The RESTAB records of a pass (43_session R364). -/
def passRecords (s : State) (kind : ReadKind) (corr : Word) (ids : List RomId) (sps : List (List Byte)) : List Byte :=
  (ids.zip sps).flatMap fun x => recordBytes kind corr x.2 (validRead s x.1 x.2)

/-- The passes a read command makes over a device list, each as the bytes read from the devices (zeros for an invalid
id): all but the last leave some device without a valid read, and the last reads all or is the READ_REPEAT-th
(43_session R362, R363). -/
structure ReadPasses (s : State) (ids : List RomId) (passes : List (List (List Byte))) : Prop where
  some : passes ≠ []
  bounded : passes.length ≤ s.params.readRepeat
  shape : ∀ sps ∈ passes, sps.length = ids.length ∧ ∀ sp ∈ sps, sp.length = 9
  skipped : ∀ sps ∈ passes, ∀ x ∈ ids.zip sps, validId s x.1 = false → x.2 = List.replicate 9 0
  retried : ∀ sps ∈ passes.dropLast, validCount s ids sps ≠ ids.length
  ended : validCount s ids (passes.getLastD []) = ids.length ∨ passes.length = s.params.readRepeat

/-- The answers of the bus environment in all passes. -/
def readAnswers (s : State) (ids : List RomId) (passes : List (List (List Byte))) : List Bool :=
  passes.flatMap (passAnswers s ids)

/-- The end of a read command whose passes start in s: the records of the last pass, PRESENCE if a reset slot was issued,
and INTEGRITY if no device validated, else the two counts (43_session R362, R363). -/
def readEnd (s : State) (kind : ReadKind) (corr : Word) (ids : List RomId) (passes : List (List (List Byte)))
    (rest : List Bool) : State :=
  let last := passes.getLastD []
  let n := validCount s ids last
  let t := onLine s (passes.flatMap (passSlots s ids)) rest
  let u := storeBytes restabBase (passRecords s kind corr ids last)
    (if ids.any (validId s) then setPresence true t else t)
  if n = 0 then errorEnd .integrity 0 u else okEnd (BitVec.ofNat 32 n) (BitVec.ofNat 32 ids.length) u

/-- What a read command has read when a device is absent: whole passes, none of which is the last, and in the unfinished
pass the bytes from the devices before it; the next device has a valid id, so that it is addressed (43_session R361,
R362). -/
structure ReadInterrupted (s : State) (ids : List RomId) (passes : List (List (List Byte))) (sps : List (List Byte)) :
    Prop where
  bounded : passes.length < s.params.readRepeat
  retried : ∀ p ∈ passes, p.length = ids.length ∧ validCount s ids p ≠ ids.length
  unfinished : sps.length < ids.length
  shape : ∀ p ∈ passes ++ [sps], ∀ sp ∈ p, sp.length = 9
  skipped : ∀ p ∈ passes ++ [sps], ∀ x ∈ ids.zip p, validId s x.1 = false → x.2 = List.replicate 9 0
  next : validId s (ids.getD sps.length 0) = true

/-- The answers of the bus environment in such a read, as far as the reset slot that no device answers. -/
def interruptedAnswers (s : State) (ids : List RomId) (passes : List (List (List Byte))) (sps : List (List Byte)) :
    List Bool := readAnswers s ids passes ++ passAnswers s ids sps ++ [true]

/-- The end of a read command that a later reset slot ends with NO_PRESENCE: the records of the last whole pass, over
which the unfinished one has written its own, stay in RESTAB (43_session R362, 60_exceptions R459). -/
def interruptedEnd (s : State) (kind : ReadKind) (corr : Word) (ids : List RomId) (passes : List (List (List Byte)))
    (sps : List (List Byte)) (rest : List Bool) : State :=
  errorEnd .noPresence 0 (setPresence false (storeBytes restabBase (passRecords s kind corr ids sps)
    (storeBytes restabBase (passRecords s kind corr ids (passes.getLastD []))
      (onLine s (passes.flatMap (passSlots s ids) ++ passSlots s ids sps ++ [.reset true]) rest))))

/-! ## Search passes

The devices follow the ideal model of 95_test_vectors §1: those still in the search answer ROM bit i with the wired AND
of their bits, then of their complements, and drop out where the branch bit is not theirs. -/

/-- The devices still in the search at ROM bit i of the pass that finds id: those that agree with it below bit i. -/
def inSearch (devices : List RomId) (id : RomId) (i : Nat) : List RomId :=
  devices.filter fun x => (List.range i).all fun k => x.getLsbD k == id.getLsbD k

/-- What they answer at ROM bit i: the bit and its complement (42_search R304, R305). -/
def searchPair (devices : List RomId) (id : RomId) (i : Nat) : Bool × Bool :=
  ((inSearch devices id i).all fun x => x.getLsbD i, (inSearch devices id i).all fun x => !x.getLsbD i)

/-- The answers of the bus environment in the first n ROM bits of the pass that finds id (42_search R303). -/
def walkAnswers (devices : List RomId) (id : RomId) (n : Nat) : List Bool :=
  (List.range n).flatMap fun i => [(searchPair devices id i).1, (searchPair devices id i).2]

/-- The slots of these ROM bits: two reads, then the branch bit written back (42_search R311). -/
def walkSlots (devices : List RomId) (id : RomId) (n : Nat) : List Slot :=
  (List.range n).flatMap fun i =>
    [.read (searchPair devices id i).1, .read (searchPair devices id i).2, .write (id.getLsbD i)]

/-- The slots of a pass before its walk (42_search R302). -/
def searchStart (p : Params) (m : SearchMode) : List Slot := .reset false :: sent [searchCommand p m]

/-- The answers in the passes that find the first n devices. -/
def goodAnswers (devices : List RomId) (n : Nat) : List Bool :=
  (devices.take n).flatMap fun id => false :: walkAnswers devices id 64

/-- The slots of these passes. -/
def goodSlots (p : Params) (m : SearchMode) (devices : List RomId) (n : Nat) : List Slot :=
  (devices.take n).flatMap fun id => searchStart p m ++ walkSlots devices id 64

/-- How a pass fails (42_search R306, R308). -/
inductive PassFailure where
  /-- No device answers at this ROM bit. -/
  | aborted (bit : Nat)
  /-- The walk ends, and its candidate has another family code or a checksum that is not zero. -/
  | refused
  /-- One device alone answers, with this id: another family, a bad checksum, or an id found before. -/
  | alone (id : RomId)
  deriving DecidableEq, Repr

/-- An enumeration that fails: the devices on the line, how many good passes it makes, and how the next pass fails. -/
structure FailedRun where
  devices : List RomId
  good : Nat
  failure : PassFailure
  deriving DecidableEq, Repr

/-- The device the failing pass reaches for. -/
def FailedRun.next (r : FailedRun) : RomId := r.devices.getD r.good 0

/-- The answers of the bus environment in a failed enumeration. -/
def FailedRun.answers (r : FailedRun) : List Bool :=
  goodAnswers r.devices r.good ++ false ::
    match r.failure with
    | .aborted n => walkAnswers r.devices r.next n ++ [true, true]
    | .refused => walkAnswers r.devices r.next 64
    | .alone id => walkAnswers [id] id 64

/-- Its slots. -/
def FailedRun.slots (p : Params) (m : SearchMode) (r : FailedRun) : List Slot :=
  goodSlots p m r.devices r.good ++ searchStart p m ++
    match r.failure with
    | .aborted n => walkSlots r.devices r.next n ++ [.read true, .read true]
    | .refused => walkSlots r.devices r.next 64
    | .alone id => walkSlots [id] id 64

/-- An id a search accepts (42_search R308), but for the comparison with the ids found before. -/
def goodId (s : State) (id : RomId) : Prop := id.extractLsb' 0 8 = s.params.familyCode ∧ crc8 s (romBytes id) = 0

/-- The order in which a search finds devices: increasing in reflect_64 (42_search R316). -/
def InOrder (devices : List RomId) : Prop := devices.Pairwise fun a b => a.reverse.toNat < b.reverse.toNat

/-- The devices in that order, the first n of them good. -/
def Enumerable (s : State) (devices : List RomId) (n : Nat) : Prop :=
  n ≤ devices.length ∧ InOrder devices ∧ ∀ id ∈ devices.take n, goodId s id

/-- The enumeration does fail so, and is no alarm search that finds no device at all (42_search R306). -/
def FailedRun.Ok (s : State) (m : SearchMode) (r : FailedRun) : Prop :=
  Enumerable s r.devices r.good ∧ r.good < r.devices.length ∧ r.good ≤ s.params.maxDevices ∧
    match r.failure with
    | .aborted n => n < 64 ∧ ¬ (m = .alarmed ∧ r.good = 0 ∧ n = 0)
    | .refused => ¬ goodId s r.next
    | .alone id => ¬ goodId s id ∨ id ∈ r.devices.take r.good

/-- The passes a search has made so far: failed enumerations, then, from scratch, n good passes over the devices. -/
structure SearchPasses where
  failed : List FailedRun
  devices : List RomId
  good : Nat
  deriving DecidableEq, Repr

/-- How many passes these are. -/
def SearchPasses.count (ps : SearchPasses) : Nat := (ps.failed.map fun r => r.good + 1).sum + ps.good

/-- The answers of the bus environment in them. -/
def SearchPasses.answers (ps : SearchPasses) : List Bool :=
  ps.failed.flatMap FailedRun.answers ++ goodAnswers ps.devices ps.good

/-- Their slots. -/
def SearchPasses.slots (p : Params) (m : SearchMode) (ps : SearchPasses) : List Slot :=
  ps.failed.flatMap (FailedRun.slots p m) ++ goodSlots p m ps.devices ps.good

/-- A search that started at tick t0 makes these passes, with the clock's readings ts, all in time (42_search R309,
R312). -/
structure SearchPasses.Made (s : State) (m : SearchMode) (l : Latch) (ps : SearchPasses) (t0 : Word) (ts : List Word) :
    Prop where
  failed : ∀ r ∈ ps.failed, r.Ok s m
  good : Enumerable s ps.devices ps.good
  readings : ts.length = ps.count
  inTime : ∀ t ∈ ts, deadlinePassed t0 (ticks s.params l s.params.searchTimeoutMs) t = false

/-- ROMTAB and ROMCOUNT after a search that found ids; the entries past them are zero (42_search R313, R314). -/
def withRomtab (ids : List RomId) (s : State) : State :=
  { storeBytes romtabBase (ids.flatMap romBytes ++ List.replicate (8 * (s.params.maxDevices - ids.length)) 0) s with
    romCount := BitVec.ofNat 8 ids.length }

/-! ## Checksums -/

/-- The bytes that make a message's checksum zero, as 40_crc R209 forms them: the raw register value, most significant
byte first, each byte reflected when refin is 1. -/
def appendedChecksum (sl : CrcSlot) (m : List Byte) : List Byte :=
  let c := crcCore sl m
  let r := if sl.refout then reflect sl.width c else c
  (List.range (widthBits sl.width / 8)).map fun k =>
    let b := r.extractLsb' (widthBits sl.width - 8 - 8 * k) 8
    if sl.refin then b.reverse else b

/-- The bytes of a checksum, least significant first. -/
def checksumBytes (w : CrcWidth) (c : Word) : List Byte :=
  (List.range (widthBits w / 8)).map fun k => c.extractLsb' (8 * k) 8

/-- A product of polynomials over GF(2) (40_crc R202): of a byte and a polynomial of degree at most 32, from the byte's
highest coefficient down. -/
def carrylessMul (q : Byte) (g : BitVec 64) : BitVec 64 :=
  (List.range 8).foldl (fun acc i => (acc <<< 1) ^^^ (if q.getLsbD (7 - i) then g else 0)) 0

/-- x^W + P(x) (40_crc R204). -/
def generator (poly : Word) (w : CrcWidth) : BitVec 64 := (1#64 <<< widthBits w) ^^^ poly.setWidth 64

/-! ## The host port -/

/-- A mapped offset (10_state R31, 20_memory R103, R104). -/
def Mapped (p : Params) (off : Nat) : Prop :=
  off ∈ [0x000, 0x004, 0x008, 0x00C, 0x010, 0x014, 0x018, 0x01C, 0x020, 0x024, 0x028, 0x02C, 0x030, 0x034, 0x038] ∨
    (0x040 ≤ off ∧ off < 0x040 + 8 * p.crcCapacity) ∨ (0x100 ≤ off ∧ off < 0x200) ∨
    (0x200 ≤ off ∧ off < 0x200 + 8 * p.maxDevices) ∨ (0x400 ≤ off ∧ off < 0x400 + 32 * p.maxDevices)

/-- A RAM byte that the running command may write, so that the host reads an unspecified value (20_memory R112, 41_bus
R276 b, 43_session R364; log entry 2). -/
def Unsettled (s : State) (l : Latch) (a : Nat) : Prop :=
  let records (m : Addressing) : Nat := match m with
    | .single => 1
    | .multi => s.romCount.toNat
  match decode s.lcmd with
  | some .owRmulti => 0x100 + l.a0.toNat ≤ a ∧ a < 0x100 + l.a0.toNat + l.a1.toNat ∧ a < 0x200
  | some (.owSearch _) => 0x200 ≤ a ∧ a < 0x200 + 8 * s.params.maxDevices
  | some (.tsReadtemp m) | some (.tsReadalarm m) | some (.tsConvread m) =>
    0x400 ≤ a ∧ a < 0x400 + 32 * records m ∧ a < 0x400 + 32 * s.params.maxDevices
  | _ => False

/-- A RAM byte for which the host reads a free value: nothing has written it since reset (10_state R57), or the running
command may write it (20_memory R112); the model's choice (log entry 2). -/
def Drawn (s : State) (a : Nat) : Prop :=
  memGet s.ram a = none ∨ s.status.busy = true ∧ ∃ l, s.latch = some l ∧ Unsettled s l a

/-- A legal command word (30_encoding R147). -/
def LegalWord (w : Word) : Prop :=
  w.extractLsb' 0 8 ∈ assignedOpcodes ∧ w.extractLsb' 9 23 = 0 ∧
    (w.getLsbD 8 = true → w.extractLsb' 0 8 ∈ modalOpcodes)

/-! ## What every state of a run satisfies -/

/-- The invariant of the machine. -/
structure State.Inv (s : State) : Prop where
  /-- Memory keeps its canonical form. -/
  ramWf : memWf s.ram = true
  /-- Only the three windows hold bytes (20_memory R104). -/
  ramIn : ∀ c ∈ s.ram, inRam s.params c.1 = true
  /-- ROMCOUNT is at most MAX_DEVICES (10_state R45). -/
  romCount : s.romCount.toNat ≤ s.params.maxDevices
  /-- Slot 0 is the preloaded CRC-8 for ever (10_state R49, 40_crc R208). -/
  slotZero : s.registry.head? = some slot0
  /-- Every table is the table of its slot's registration (20_memory R116). -/
  tables : ∀ sl ∈ s.registry, sl.table = genTable sl.poly sl.width
  /-- Polynomials are nonzero and fit their width (40_crc R206). -/
  polys : ∀ sl ∈ s.registry, sl.poly ≠ 0 ∧ sl.poly.toNat ≤ (widthMask sl.width).toNat
  /-- No two slots have the same polynomial (10_state R47). -/
  distinct : (s.registry.map CrcSlot.poly).Nodup
  /-- At most CRC_CAPACITY slots (10_state R46). -/
  capacity : s.registry.length ≤ s.params.crcCapacity
  /-- Every line is released between two steps (10_state R56, 41_bus R259). -/
  released : s.driveLow = 0
  /-- A configured pin is a valid one (41_bus R260). -/
  pin : s.busCfg.configured = true → s.busCfg.pin.toNat < s.params.pinCount
  /-- The operand latch holds operands exactly while a command runs (10_state R51). -/
  latched : s.status.busy = s.latch.isSome
  /-- While a command runs: results read 0, DONE is 0, ERRCODE is NONE, and SEQ_STATE is a running state
  (20_memory R112, 30_encoding R146, 70_reset_and_hazards R526). -/
  running : s.status.busy = true →
    s.result0 = 0 ∧ s.result1 = 0 ∧ s.status.done = false ∧ s.status.errcode = .none ∧
      s.status.seqState ≠ .idle ∧ s.status.seqState ≠ .done ∧ s.status.seqState ≠ .error
  /-- While none runs: there is no per-command state (10_state R52 to R55), and SEQ_STATE agrees with ERRCODE
  (10_state R34). -/
  resting : s.status.busy = false →
    s.pos = .start ∧ s.search = none ∧ s.readPass = none ∧ s.devices = [] ∧ s.poll = none ∧ s.capture = none ∧
      ((s.status.seqState = .idle ∧ s.status.errcode = .none) ∨ (s.status.seqState = .done ∧ s.status.errcode = .none) ∨
        (s.status.seqState = .error ∧ s.status.errcode ≠ .none))
  /-- A device list is as long as ROMTAB at most (43_session R360). -/
  devices : s.devices.length ≤ s.params.maxDevices

/-- Every register and hidden field of the block has its reset value (70_reset_and_hazards R500, R503); what is no
state of the block (parameters, the other agents) is left open. -/
def BlockReset (t : State) : Prop :=
  { t with
    params := State.reset.params, host := [], hostReads := [], bus := [], line := [], clockIn := [], clockReads := 0,
    draws := 0 } = State.reset

/-! ## What a command leaves alone -/

/-- What no command changes, whatever it does: the parameters, the registers only the host writes, LCMD, the sticky
bits, and the host's own list and reads (10_state R31, R33, R35). -/
structure Untouched (s t : State) : Prop where
  params : t.params = s.params
  lcmd : t.lcmd = s.lcmd
  arg0 : t.arg0 = s.arg0
  arg1 : t.arg1 = s.arg1
  arg2 : t.arg2 = s.arg2
  targetLo : t.targetLo = s.targetLo
  targetHi : t.targetHi = s.targetHi
  corrOffset : t.corrOffset = s.corrOffset
  fosc : t.fosc = s.fosc
  ovr : t.status.ovr = s.status.ovr
  accerr : t.status.accerr = s.status.accerr
  host : t.host = s.host
  hostReads : t.hostReads = s.hostReads

/-- Every byte of memory outside a set of offsets reads as before. -/
def MemoryOutside (written : Nat → Prop) (s t : State) : Prop :=
  ∀ a, ¬ written a → memGet t.ram a = memGet s.ram a

/-- The lines, the bus environment's answers and the clock are as before, and so is PRESENCE: no slot was issued and the
clock was not read. -/
structure NoTraffic (s t : State) : Prop where
  line : t.line = s.line
  bus : t.bus = s.bus
  presence : t.status.presence = s.status.presence
  clockIn : t.clockIn = s.clockIn
  clockReads : t.clockReads = s.clockReads

/-- The offsets of ROMTAB. -/
def romtabBytes (s : State) (a : Nat) : Prop := romtabBase ≤ a ∧ a < romtabBase + 8 * s.params.maxDevices

/-- The offsets of the first n records of RESTAB. -/
def restabBytes (n : Nat) (a : Nat) : Prop := restabBase ≤ a ∧ a < restabBase + 32 * n

/-- The offsets a command may store to: the DBUF bytes at its offset operand (41_bus R276), ROMTAB (42_search R300), the
records of its device list (43_session R364). No other command stores to RAM. -/
def storedBytes (i : Instr) (s : State) (l : Latch) : Nat → Prop :=
  match i with
  | .owRmulti => fun a => dbufBase + l.a0.toNat ≤ a ∧ a < dbufBase + l.a0.toNat + l.a1.toNat
  | .owSearch _ => romtabBytes s
  | .tsReadtemp m | .tsReadalarm m => restabBytes (recordCount m s)
  | .tsConvread m => restabBytes (if s.pos = .start then recordCount m s else s.devices.length)
  | _ => fun _ => False

/-- The commands that issue no slot and read no clock (40_crc R213, 70_reset_and_hazards R521). -/
def silent : Instr → Bool
  | .crcReg | .crcCalc | .owCfgbus | .owSpeed => true
  | _ => false

/-- The commands that issue reset slots, the only ones that write PRESENCE (10_state R33, 41_bus R252). -/
def resetsBus : Instr → Bool
  | .owReset | .owSearch _ | .tsConfig _ | .tsConvert _ | .tsConvread _ | .tsReadtemp _ | .tsReadalarm _ | .tsSave _
  | .tsRestore _ | .tsIsfake _ => true
  | _ => false

/-- The commands that write RBOOL (10_state R35). -/
def writesRbool : Instr → Bool
  | .owReset | .owRbit | .tsIsdone | .tsIsfake _ => true
  | _ => false

end Sys2Proof.Machine
end

