-- ==== Sys2Proof/Certificates/Slice0/Obligations.lean ====
section
/-! DEFINITION. The statements for the provers, each a rule of the spec or an invariant of the machine. A statement about
a command says `Accepted` or `BusReady` of its state: the command's operands are latched, and the host leaves the block
alone until the machine's step ends (what the host can do meanwhile is HostCannotDisturb and StepKeepsInvariant). -/

open Sys2Proof Sys2Proof.Machine

/-! ## Encoding -/

/-- 30_encoding R140 to R144: decoding and encoding are inverse, so no bit of an encoding is dropped and no second word
decodes to a command; and a word of the opcode table decodes as the command word does. -/
def Obligations.DecodeInvertsEncode : Prop :=
  (∀ (w : Word) (i : Instr), decode w = some i ↔ w = encode i) ∧
    ∀ i : Instr, decodeTableWord 32 (encode i).toNat = some i

/-- 30_encoding R144, R150: the word of every row of the table in every MODE it has, written out, and illegal words next
to them: opcodes beside the assigned ones, MODE = 1 where it must be 0, reserved bits. -/
def Obligations.SpecWordsDecode : Prop :=
  (∀ x ∈ ([(0x00000001, .crcReg), (0x00000002, .crcCalc)] ++
      [(0x00000010, .owCfgbus), (0x00000011, .owSpeed), (0x00000012, .owReset), (0x00000013, .owWbit),
        (0x00000014, .owRbit), (0x00000015, .owWbyte), (0x00000016, .owRbyte), (0x00000017, .owWmulti),
        (0x00000018, .owRmulti)] ++
      [(0x00000020, .owSearch .all), (0x00000120, .owSearch .alarmed)] ++
      [(0x00000030, .tsConfig .single), (0x00000130, .tsConfig .multi), (0x00000031, .tsConvert .single),
        (0x00000131, .tsConvert .multi), (0x00000032, .tsIsdone), (0x00000033, .tsConvread .single),
        (0x00000133, .tsConvread .multi)] ++
      [(0x00000034, .tsReadtemp .single), (0x00000134, .tsReadtemp .multi), (0x00000035, .tsReadalarm .single),
        (0x00000135, .tsReadalarm .multi), (0x00000036, .tsSave .single), (0x00000136, .tsSave .multi),
        (0x00000037, .tsRestore .single), (0x00000137, .tsRestore .multi), (0x00000038, .tsIsfake .single),
        (0x00000138, .tsIsfake .multi)] : List (Word × Instr)),
    decode x.1 = some x.2 ∧ encode x.2 = x.1) ∧
    [0x00000000, 0x00000003, 0x0000000F, 0x00000019, 0x00000021, 0x00000039, 0x000000FF, 0x00000101, 0x00000132,
      0x00000220, 0x80000001].map decode = [none, none, none, none, none, none, none, none, none, none, none]

/-! ## The step -/

/-- While a command runs, a step is exec of the command in LCMD, with nothing around it; and a word placed where the
next step finds its command is the one that runs (30_encoding R145, R146; log entries 1 and 8). Every command's word is
legal. -/
def Obligations.StepRunsDecodedCommand : Prop :=
  (∀ (s : State) (i : Instr), s.status.busy = true → decode s.lcmd = some i → step s = exec i s) ∧
    (∀ (s : State) (nbits w : Nat) (i : Instr), decodeTableWord nbits w = some i →
      step (s.withFetchWord nbits w) = exec i (s.withFetchWord nbits w)) ∧
    ∀ i : Instr, i.wellFormed = true

/-- 30_encoding R147, R148: the words with no command are exactly the illegal ones, and such a word ends with ILLEGAL at
once and never reaches the line. -/
def Obligations.IllegalWordEnds : Prop :=
  (∀ w : Word, decode w = none ↔ ¬ LegalWord w) ∧
  ∀ (s : State) (l : Latch), Accepted s l → s.status.busy = true → ¬ LegalWord s.lcmd →
    step s = .next (errorEnd .illegal 0 s) ∧ (errorEnd .illegal 0 s).line = s.line

/-- 20_memory R100, R101: an access at BLOCK_BASE + off, off inside the window, is the read or the write of that offset,
and the word a read returns goes to the host. While no command runs, a step is the host's (the model's choice, log
entry 5). -/
def Obligations.IdleStepIsTheHosts : Prop :=
  (∀ (s : State) (w : AccessWidth) (off : Nat) (v : Word), off < 0x1000 →
    hostAccess (.read w (s.params.blockBase + off)) s =
      { (hostRead w off s).2 with hostReads := (hostRead w off s).1 :: s.hostReads } ∧
    hostAccess (.write w (s.params.blockBase + off) v) s = hostWrite w off v s) ∧
  ∀ s : State, s.status.busy = false →
    (s.host = [] → step s = .next s) ∧
    (∀ k e rest, s.host = ⟨k + 1, e⟩ :: rest → step s = .next { s with host := ⟨k, e⟩ :: rest }) ∧
    (∀ a rest, s.host = ⟨0, .access a⟩ :: rest → step s = .next (hostAccess a { s with host := rest })) ∧
    ∀ c rest, s.host = ⟨0, .reset c⟩ :: rest → step s = .next (resetInput false { s with host := rest })

/-- 30_encoding R145, R146: what a host write of CMD does, whatever the word. -/
def Obligations.CommandAcceptance : Prop :=
  ∀ (s : State) (w : Word),
    (s.status.busy = true → hostWrite .word 0x000 w s = setOvr s) ∧
    (s.status.busy = false →
      hostWrite .word 0x000 w s =
        { s with
          lcmd := w
          status := { busy := true, done := false, presence := s.status.presence, ovr := s.status.ovr,
                      accerr := s.status.accerr, rbool := false, errcode := .none,
                      seqState := if w.extractLsb' 0 8 = 0x20 then .searching else .busyOther }
          result0 := 0
          result1 := 0
          latch := some { a0 := s.arg0, a1 := s.arg1, a2 := s.arg2, corr := s.corrOffset,
                          foscl := if s.fosc = 0 then s.params.foscDefault else s.fosc,
                          tgt := s.targetHi ++ s.targetLo }
          pos := .start, search := none, readPass := none, devices := [], poll := none, capture := none }) ∧
    (s.status.busy = false → s.host = [] → ¬ LegalWord w →
      step (hostWrite .word 0x000 w s) = .next (errorEnd .illegal 0 (hostWrite .word 0x000 w s)))

/-- 60_exceptions R457, R458: the two ends of a command, each one step. -/
def Obligations.CommandEnds : Prop :=
  ∀ (s : State) (r0 r1 : Word) (c : ErrCode), s.host = [] →
    (finish r0 r1 : Seq Unit) s =
      .error (.next { s with
        result0 := r0, result1 := r1, driveLow := 0
        status := { s.status with errcode := .none, seqState := .done, done := true, busy := false }
        latch := none, pos := .start, search := none, readPass := none, devices := [], poll := none
        capture := none }) ∧
    (raise c : Seq Unit) s =
      .error (.next { s with
        result0 := 0, result1 := 0, driveLow := 0
        status := { s.status with errcode := c, seqState := .error, done := true, busy := false }
        latch := none, pos := .start, search := none, readPass := none, devices := [], poll := none
        capture := none })

/-! ## The CRC engine -/

/-- 40_crc R200, R201: reflection reverses the W bits, and is its own inverse on every W-bit value. -/
def Obligations.ReflectionSelfInverse : Prop :=
  (∀ (w : CrcWidth) (v : Word) (i : Nat),
    (reflect w v).getLsbD i = (decide (i < widthBits w) && v.getLsbD (widthBits w - 1 - i))) ∧
    ∀ (w : CrcWidth) (v : Word), v.toNat ≤ (widthMask w).toNat → reflect w (reflect w v) = v

/-- 40_crc R203, R204 (R204 is an inference the spec marks as its own, `[derived: from rule R203]`): T[b] is the
remainder of b(x)·x^W divided by x^W + P(x) over GF(2); T[0] = 0, T is linear, and T is injective when P[0] = 1. -/
def Obligations.TableEntriesAreRemainders : Prop :=
  (∀ (poly : Word) (w : CrcWidth) (b : Nat), b < 256 → poly.toNat ≤ (widthMask w).toNat →
    ((genTable poly w).getD b 0).toNat ≤ (widthMask w).toNat ∧
    ∃ q : Byte, (BitVec.ofNat 64 b <<< widthBits w) ^^^ carrylessMul q (generator poly w) =
      ((genTable poly w).getD b 0).setWidth 64) ∧
  ∀ (poly : Word) (w : CrcWidth),
    (genTable poly w).length = 256 ∧ (genTable poly w).getD 0 0 = 0 ∧
    (∀ a b : Nat, a < 256 → b < 256 →
      (genTable poly w).getD (a ^^^ b) 0 = (genTable poly w).getD a 0 ^^^ (genTable poly w).getD b 0) ∧
    (poly.getLsbD 0 = true → ∀ a b : Nat, a < 256 → b < 256 →
      (genTable poly w).getD a 0 = (genTable poly w).getD b 0 → a = b)

/-- 40_crc R209 (how the appended bytes are formed is an inference the spec marks as its own, `[derived: from rule
R205; …]`): a message with its checksum appended has checksum zero, for every slot a registration can make; and when
refin = refout, the appended bytes are the checksum's own. -/
def Obligations.AppendedChecksumIsZero : Prop :=
  ∀ (sl : CrcSlot) (m : List Byte), sl.table = genTable sl.poly sl.width → m ≠ [] →
    crcCore sl (m ++ appendedChecksum sl m) = 0 ∧
    (sl.refin = sl.refout → appendedChecksum sl m =
      if sl.refin then checksumBytes sl.width (crcCore sl m) else (checksumBytes sl.width (crcCore sl m)).reverse)

/-- 40_crc R206: CRC.REG, every check in its order, and the registration. -/
def Obligations.CrcRegOutcome : Prop :=
  decode 0x00000001 = some .crcReg ∧
  ∀ (s : State) (l : Latch), Accepted s l →
    (l.a0 = 0 → exec .crcReg s = .next (errorEnd .crcCfg 0 s)) ∧
    (l.a1 ≠ 8 → l.a1 ≠ 16 → l.a1 ≠ 32 → exec .crcReg s = .next (errorEnd .crcCfg 0 s)) ∧
    (∀ w : CrcWidth, l.a1 = BitVec.ofNat 32 (widthBits w) →
      ((widthMask w).toNat < l.a0.toNat → exec .crcReg s = .next (errorEnd .crcCfg 0 s)) ∧
      (l.a0 ≠ 0 → l.a0.toNat ≤ (widthMask w).toNat →
        ((∃ sl ∈ s.registry, sl.poly = l.a0) → exec .crcReg s = .next (errorEnd .crcDup 0 s)) ∧
        ((∀ sl ∈ s.registry, sl.poly ≠ l.a0) → s.params.crcCapacity ≤ s.registry.length →
          exec .crcReg s = .next (errorEnd .crcFull 0 s)) ∧
        ((∀ sl ∈ s.registry, sl.poly ≠ l.a0) → s.registry.length < s.params.crcCapacity →
          exec .crcReg s = .next (okEnd (BitVec.ofNat 32 s.registry.length) 0
            { s with registry := s.registry ++
              [{ poly := l.a0, width := w, refin := l.a2.getLsbD 0, refout := l.a2.getLsbD 1,
                 table := genTable l.a0 w }] }))))

/-- 40_crc R210, R211: CRC.CALC, both errors with their sentinels, and the checksum of the DBUF bytes; where all of them
have been written since reset, these are the bytes written. That the command completes on some data where a byte has not
been written since reset is the model's DESIGN CHOICE (log entry 2: 10_state R57 and 93 U1 prefer a fault and allow a
draw); this statement leaves all the bytes of a range open that is written only in part. -/
def Obligations.CrcCalcOutcome : Prop :=
  decode 0x00000002 = some .crcCalc ∧
  ∀ (s : State) (l : Latch), Accepted s l →
    ((∀ sl ∈ s.registry, sl.poly ≠ l.a0) → exec .crcCalc s = .next (errorEnd .crcInput 0xFFFFFFFF s)) ∧
    (∀ sl : CrcSlot, s.registry.find? (fun x => x.poly == l.a0) = some sl →
      (l.a2 = 0 ∨ 256 < l.a1.toNat + l.a2.toNat →
        exec .crcCalc s = .next (errorEnd .crcInput (widthMask sl.width) s)) ∧
      (l.a2 ≠ 0 → l.a1.toNat + l.a2.toNat ≤ 256 →
        (∃ data d, data.length = l.a2.toNat ∧
          exec .crcCalc s = .next (okEnd (crcCore sl data) 0 { s with draws := d })) ∧
        ∀ data : List Byte, data.length = l.a2.toNat →
          (∀ k, k < data.length → memGet s.ram (0x100 + l.a1.toNat + k) = data[k]?) →
          exec .crcCalc s = .next (okEnd (crcCore sl data) 0 s)))

/-- 10_state R46, 40_crc R207: the registry is append-only, and only CRC.REG writes it, a slot with its table. -/
def Obligations.RegistryIsAppendOnly : Prop :=
  ∀ (i : Instr) (s t : State), s.host = [] → exec i s = .next t →
    t.registry = s.registry ∨
      i = .crcReg ∧ ∃ sl, t.registry = s.registry ++ [sl] ∧ sl.table = genTable sl.poly sl.width

/-! ## The transport commands -/

/-- 41_bus R260, R261, R262: OW.CFGBUS and OW.SPEED. -/
def Obligations.BusConfigurationOutcome : Prop :=
  decode 0x00000010 = some .owCfgbus ∧ decode 0x00000011 = some .owSpeed ∧
  ∀ (s : State) (l : Latch), Accepted s l →
    exec .owCfgbus s = .next
      (if s.params.pinCount ≤ l.a0.toNat then errorEnd .badPin 0 s
       else if 2 < l.a1.toNat then errorEnd .badArg 0 s
       else okEnd 0 0 { s with
         driveLow := 0
         busCfg := { speed := if l.a1 = 0 then .standard else if l.a1 = 1 then .high else .overload
                     pin := l.a0.setWidth 8, configured := true } }) ∧
    exec .owSpeed s = .next
      (if 2 < l.a0.toNat then errorEnd .badArg 0 s
       else okEnd 0 0 { s with
         busCfg := { s.busCfg with speed := if l.a0 = 0 then .standard else if l.a0 = 1 then .high else .overload } })

/-- 41_bus R252, R264: OW.RESET. The sample v is whatever the devices leave on the line. -/
def Obligations.OwResetOutcome : Prop :=
  decode 0x00000012 = some .owReset ∧
  ∀ (s : State) (l : Latch) (v : Bool), Accepted s l →
    v = nextAnswer s [.delay (s.params.tp s.busCfg.speed).rstSample, .release s.busCfg.pin,
      .delay (s.params.tp s.busCfg.speed).rstLow, .low s.busCfg.pin] →
    exec .owReset s = .next
      (if s.busCfg.configured then
        okEnd (if v then 0 else 1) 0 (setRbool (!v) (setPresence (!v) (onLine s [.reset v] s.bus.tail)))
      else errorEnd .badPin 0 s)

/-- 41_bus R253, R254, R266, R268, 43_session R359: OW.WBIT, OW.RBIT and TS.ISDONE, one slot each. -/
def Obligations.BitCommandsOutcome : Prop :=
  decode 0x00000013 = some .owWbit ∧ decode 0x00000014 = some .owRbit ∧ decode 0x00000032 = some .tsIsdone ∧
  ∀ (s : State) (l : Latch) (v : Bool), Accepted s l →
    v = nextAnswer s [.delay (s.params.tp s.busCfg.speed).rSample, .release s.busCfg.pin,
      .delay (s.params.tp s.busCfg.speed).w1Low, .low s.busCfg.pin] →
    exec .owWbit s = .next
      (if s.busCfg.configured then okEnd 0 0 (onLine s [.write (l.a0.getLsbD 0)] s.bus) else errorEnd .badPin 0 s) ∧
    ∀ i ∈ [Instr.owRbit, .tsIsdone], exec i s = .next
      (if s.busCfg.configured then okEnd (if v then 1 else 0) 0 (setRbool v (onLine s [.read v] s.bus.tail))
      else errorEnd .badPin 0 s)

/-- 41_bus R255, R270, R272: OW.WBYTE sends eight slots, bit 0 first; OW.RBYTE receives a byte so, whose bits are what
the devices answer. -/
def Obligations.ByteCommandsOutcome : Prop :=
  decode 0x00000015 = some .owWbyte ∧ decode 0x00000016 = some .owRbyte ∧
  ∀ (s : State) (l : Latch), Accepted s l →
    exec .owWbyte s = .next
      (if s.busCfg.configured then okEnd 0 0 (onLine s ((List.range 8).map fun i => .write (l.a0.getLsbD i)) s.bus)
      else errorEnd .badPin 0 s) ∧
    ∃ v : Byte, (answers [v]).take s.bus.length = s.bus.take 8 ∧
      exec .owRbyte s = .next
        (if s.busCfg.configured then
          okEnd (v.setWidth 32) 0 (onLine s ((List.range 8).map fun i => .read (v.getLsbD i)) (s.bus.drop 8))
        else errorEnd .badPin 0 s)

/-- 41_bus R274: OW.WMULTI sends the DBUF bytes; where all of them have been written since reset, these are the bytes
written. That the command completes and sends some data where a byte has not been written since reset is the model's
DESIGN CHOICE (log entry 2: 10_state R57 and 93 U1 prefer a fault and allow a draw); this statement leaves all the bytes
of a range open that is written only in part. -/
def Obligations.OwWmultiOutcome : Prop :=
  decode 0x00000017 = some .owWmulti ∧
  ∀ (s : State) (l : Latch), Accepted s l →
    (256 < l.a0.toNat + l.a1.toNat → exec .owWmulti s = .next (errorEnd .badArg 0 s)) ∧
    (l.a0.toNat + l.a1.toNat ≤ 256 → s.busCfg.configured = false → exec .owWmulti s = .next (errorEnd .badPin 0 s)) ∧
    (l.a0.toNat + l.a1.toNat ≤ 256 → s.busCfg.configured = true →
      (∃ data d, data.length = l.a1.toNat ∧
        exec .owWmulti s = .next (okEnd 0 0 (onLine { s with draws := d } (sent data) s.bus))) ∧
      ∀ data : List Byte, data.length = l.a1.toNat →
        (∀ k, k < data.length → memGet s.ram (0x100 + l.a0.toNat + k) = data[k]?) →
        exec .owWmulti s = .next (okEnd 0 0 (onLine s (sent data) s.bus)))

/-- 41_bus R276: OW.RMULTI stores the bytes received, whose bits are what the devices answer. -/
def Obligations.OwRmultiOutcome : Prop :=
  decode 0x00000018 = some .owRmulti ∧
  ∀ (s : State) (l : Latch), Accepted s l →
    (256 < l.a0.toNat + l.a1.toNat → exec .owRmulti s = .next (errorEnd .badArg 0 s)) ∧
    (l.a0.toNat + l.a1.toNat ≤ 256 → s.busCfg.configured = false → exec .owRmulti s = .next (errorEnd .badPin 0 s)) ∧
    (l.a0.toNat + l.a1.toNat ≤ 256 → s.busCfg.configured = true →
      ∃ data : List Byte, data.length = l.a1.toNat ∧
        (answers data).take s.bus.length = s.bus.take (8 * l.a1.toNat) ∧
        exec .owRmulti s = .next (okEnd 0 0 (storeBytes (0x100 + l.a0.toNat) data
          (onLine s (received data) (s.bus.drop (8 * l.a1.toNat))))))

/-- 41_bus R251: without a configured bus, every command that issues slots ends with BAD_PIN before its first slot,
where its arguments are legal (R455); OW.SEARCH moreover empties the ROM table (42_search R300). -/
def Obligations.UnconfiguredBusIsBadPin : Prop :=
  ∀ (s : State) (l : Latch), Accepted s l → s.busCfg.configured = false → s.pos = .start →
    (∀ m : Addressing, ∀ i ∈ [Instr.owReset, .owWbit, .owRbit, .owWbyte, .owRbyte, .tsConvert m, .tsIsdone, .tsConvread m,
        .tsReadtemp m, .tsReadalarm m, .tsSave m, .tsRestore m, .tsIsfake m],
      exec i s = .next (errorEnd .badPin 0 s)) ∧
    (l.a0.toNat + l.a1.toNat ≤ 256 →
      exec .owWmulti s = .next (errorEnd .badPin 0 s) ∧ exec .owRmulti s = .next (errorEnd .badPin 0 s)) ∧
    (9 ≤ l.a0.toNat → l.a0.toNat ≤ 12 → l.a2.toInt ≤ l.a1.toInt →
      ∀ m, exec (.tsConfig m) s = .next (errorEnd .badPin 0 s)) ∧
    ∀ m, exec (.owSearch m) s = .next (errorEnd .badPin 0
      { storeBytes romtabBase (List.replicate (8 * s.params.maxDevices) 0) s with romCount := 0 })

/-! ## The search -/

/-- 42_search R304 to R308, R310 to R312 (R305, no discrepancy, is marked `[from general knowledge, not in source]`): the
pieces of a pass. One ROM bit: the branch bit is recorded and written back at once, and a discrepancy taken as 0 becomes
lastZero; where no device answers, the pass is aborted, or an alarm search that has found nothing succeeds. A candidate
is accepted by its family code, its checksum, and not having been found before. After a good pass: OVERFLOW; or the id is
added, and the search is over when lastZero is -1, else goes on from it. -/
def Obligations.SearchBitBranches : Prop :=
  (∀ (r : RomId) (i k : Nat) (d : Bool), i < 64 → k < 64 →
    (setRomBit r i d).getLsbD k = if k = i then d else r.getLsbD k) ∧
  (∀ (m : SearchMode) (i : Nat) (s : State) (st : SearchState) (b cb d : Bool) (rest : List Bool),
    s.host = [] → s.search = some st → s.bus = b :: cb :: rest → (b && cb) = false →
    d = (if b = cb then
          (if (i : Int) = st.lastDisc then true else if st.lastDisc < (i : Int) then false else st.prev.getLsbD i)
        else b) →
    searchBit m i s = .ok (true, { onLine s [.read b, .read cb, .write d] rest with
      search := some { st with
        rom := setRomBit st.rom i d
        lastZero := if b = cb ∧ d = false then (i : Int) else st.lastZero } })) ∧
  (∀ (m : SearchMode) (i : Nat) (s : State) (st : SearchState) (rest : List Bool),
    s.host = [] → s.search = some st → s.bus = true :: true :: rest →
    searchBit m i s =
      if m = .alarmed ∧ i = 0 ∧ st.found = [] ∧ st.lastDisc = -1 then
        .error (.next (okEnd 0 0 (withRomtab [] (onLine s [.read true, .read true] rest))))
      else .ok (false, onLine s [.read true, .read true] rest)) ∧
  (∀ (s : State) (st : SearchState), acceptable s st = true ↔
    st.rom.extractLsb' 0 8 = s.params.familyCode ∧ crc8 s (romBytes st.rom) = 0 ∧ st.rom ∉ st.found) ∧
  ∀ (s : State) (st : SearchState), s.host = [] → s.search = some st → st.found.length ≤ s.params.maxDevices →
    searchKeep s =
      if st.found.length = s.params.maxDevices then .error (.next (errorEnd .overflow 0 (withRomtab [] s)))
      else if st.lastZero = -1 then
        .error (.next (okEnd (BitVec.ofNat 32 (st.found.length + 1)) 0 (withRomtab (st.found ++ [st.rom]) s)))
      else .ok ((), { s with
        search := some { st with found := st.found ++ [st.rom], prev := st.rom, lastDisc := st.lastZero } })

/-- 42_search R300, R302, R304 to R312, R314, R316 (R305 is marked `[from general knowledge, not in source]`; the order
of R316 is an inference the spec marks as its own, `[derived: from rules R300, R304 and R307]`): on a line whose devices,
one or more, have the expected family and valid checksums and follow the ideal model of 95_test_vectors §1, a search in
either mode that is in time finds exactly these devices, one a pass, in increasing order of reflect_64; fewer than
SEARCH_REPEAT failed enumerations before, on whatever devices, leave no trace but their slots. -/
def Obligations.SearchFindsDevices : Prop :=
  ∀ (m : SearchMode) (s : State) (l : Latch) (ps : SearchPasses) (t0 : Word) (ts later : List Word) (rest : List Bool),
    BusReady s l → ps.Made s m l t0 ts → ps.failed.length < s.params.searchRepeat →
    ps.devices ≠ [] → ps.good = ps.devices.length → ps.devices.length ≤ s.params.maxDevices →
    s.clockIn = t0 :: (ts ++ later) → s.bus = ps.answers ++ rest →
    exec (.owSearch m) s = .next (okEnd (BitVec.ofNat 32 ps.devices.length) 0
      (withRomtab ps.devices { setPresence true (onLine s (ps.slots s.params m) rest) with clockIn := later }))

/-- 42_search R300, R302, R306, R308, R309, R312, R313: the ends that leave the ROM table empty, each after any passes so
far. A search whose deadline has passed ends with TIMEOUT before the next pass's first slot; where no device answers the
reset slot of the next pass, with NO_PRESENCE; after the SEARCH_REPEAT-th failed pass, with INTEGRITY; after a good pass
too many, with OVERFLOW; and an alarm search that no device takes part in, from a fresh enumeration, succeeds with no
id. -/
def Obligations.SearchEndsEmpty : Prop :=
  ∀ (m : SearchMode) (s : State) (l : Latch) (ps : SearchPasses) (t0 : Word) (ts later : List Word) (rest : List Bool),
    BusReady s l → ps.Made s m l t0 ts → s.clockIn = t0 :: (ts ++ later) →
    (ps.failed.length < s.params.searchRepeat → ps.good ≤ s.params.maxDevices →
      (ps.good < ps.devices.length ∨ ps.good = 0) → ∀ (t : Word) (ts' : List Word), later = t :: ts' →
      (deadlinePassed t0 (ticks s.params l s.params.searchTimeoutMs) t = true → s.bus = ps.answers ++ rest →
        exec (.owSearch m) s = .next (errorEnd .timeout 0 (withRomtab []
          { onLine (if ps.count = 0 then s else setPresence true s) (ps.slots s.params m) rest with clockIn := ts' }))) ∧
      (deadlinePassed t0 (ticks s.params l s.params.searchTimeoutMs) t = false →
        (s.bus = ps.answers ++ true :: rest →
          exec (.owSearch m) s = .next (errorEnd .noPresence 0 (withRomtab []
            { setPresence false (onLine s (ps.slots s.params m ++ [.reset true]) rest) with clockIn := ts' }))) ∧
        (s.bus = ps.answers ++ false :: true :: true :: rest → m = .alarmed → ps.good = 0 →
          exec (.owSearch m) s = .next (okEnd 0 0 (withRomtab []
            { setPresence true (onLine s (ps.slots s.params m ++
                .reset false :: sent [s.params.owcAlarmSearch] ++ [.read true, .read true]) rest) with
              clockIn := ts' }))))) ∧
    (ps.failed.length = s.params.searchRepeat → ps.good = 0 → s.bus = ps.answers ++ rest →
      exec (.owSearch m) s = .next (errorEnd .integrity 0 (withRomtab []
        { setPresence true (onLine s (ps.slots s.params m) rest) with clockIn := later }))) ∧
    (ps.failed.length < s.params.searchRepeat → ps.good = s.params.maxDevices + 1 → s.bus = ps.answers ++ rest →
      exec (.owSearch m) s = .next (errorEnd .overflow 0 (withRomtab []
        { setPresence true (onLine s (ps.slots s.params m) rest) with clockIn := later })))

/-- 42_search R313: every error end of a search leaves ROMTAB all zero and ROMCOUNT = 0, whatever the bus and the clock
answer. -/
def Obligations.SearchErrorEmptiesTable : Prop :=
  ∀ (m : SearchMode) (s t : State) (l : Latch), Accepted s l → exec (.owSearch m) s = .next t →
    t.status.errcode ≠ .none →
      t.romCount = 0 ∧ t.result0 = 0 ∧ ∀ a, romtabBytes s a → memGet t.ram a = some 0

/-- 42_search R314, R316 (R316 is an inference the spec marks as its own, `[derived: from rules R300, R304 and R307]`):
a search that succeeds has found distinct ids of the expected family with checksum zero, at most MAX_DEVICES of them,
and ROMTAB, ROMCOUNT and RESULT0 say so, whatever the bus and the clock answer. -/
def Obligations.SearchSuccessIsWellFormed : Prop :=
  ∀ (m : SearchMode) (s t : State) (l : Latch), Accepted s l → exec (.owSearch m) s = .next t →
    t.status.errcode = .none →
      ∃ ids : List RomId, ids.length ≤ s.params.maxDevices ∧ ids.Nodup ∧
        (∀ id ∈ ids, id.extractLsb' 0 8 = s.params.familyCode ∧ crc8 s (romBytes id) = 0) ∧
        t.romCount.toNat = ids.length ∧ t.result0.toNat = ids.length ∧
        ∀ j k : Nat, j < s.params.maxDevices → k < 8 →
          memGet t.ram (0x200 + 8 * j + k) = some ((ids.getD j 0).extractLsb' (8 * k) 8)

/-- 42_search R315 (an inference the spec marks as its own, `[derived: from rule R300]`): a search always ends, within
SEARCH_REPEAT × (MAX_DEVICES + 1) passes of at most 201 slots, one of them a reset slot, whatever the bus and the clock
answer. -/
def Obligations.SearchIsBounded : Prop :=
  ∀ (m : SearchMode) (s : State) (l : Latch), Accepted s l →
    ∃ (t : State) (ss : List Slot), exec (.owSearch m) s = .next t ∧ t.status.busy = false ∧ t.status.done = true ∧
      t.line = (traffic s ss).reverse ++ s.line ∧
      ss.length ≤ 201 * (s.params.searchRepeat * (s.params.maxDevices + 1)) ∧
      (ss.filter fun x => match x with | .reset _ => true | _ => false).length ≤
        s.params.searchRepeat * (s.params.maxDevices + 1)

/-! ## The session commands -/

/-- 43_session R351: the address step. The sample v is whatever the devices leave on the line. -/
def Obligations.AddressStep : Prop :=
  ∀ (m : Addressing) (id : RomId) (s : State) (v : Bool), s.host = [] →
    v = nextAnswer s [.delay (s.params.tp s.busCfg.speed).rstSample, .release s.busCfg.pin,
      .delay (s.params.tp s.busCfg.speed).rstLow, .low s.busCfg.pin] →
    address m id s =
      if v then .error (.next (errorEnd .noPresence 0 (setPresence false (onLine s [.reset true] s.bus.tail))))
      else .ok ((), setSeq .addressed (setPresence true (onLine s
        (.reset false :: sent (match m with
          | .multi => [s.params.owcSkipRom]
          | .single => s.params.owcMatchRom :: (List.range 8).map fun k => id.extractLsb' (8 * k) 8)) s.bus.tail)))

/-- 43_session R351: where no device answers the reset slot of the first address step, a session command ends with
NO_PRESENCE and issues no further slot. -/
def Obligations.AbsentDeviceEndsCommand : Prop :=
  ∀ (s : State) (l : Latch) (m : Addressing) (rest : List Bool), BusReady s l → TargetOk s m l → s.pos = .start →
    s.bus = true :: rest →
    (∀ i ∈ [Instr.tsConvert m, .tsSave m, .tsRestore m, .tsIsfake m],
      exec i s = .next (errorEnd .noPresence 0 (setPresence false (onLine s [.reset true] rest)))) ∧
    (9 ≤ l.a0.toNat → l.a0.toNat ≤ 12 → l.a2.toInt ≤ l.a1.toInt →
      exec (.tsConfig m) s = .next (errorEnd .noPresence 0 (setPresence false (onLine s [.reset true] rest)))) ∧
    ∀ id ids, DeviceList s m l (id :: ids) → (id :: ids).length ≤ s.params.maxDevices →
      exec (.tsConvread m) s = .next (errorEnd .noPresence 0 (setPresence false (onLine s [.reset true] rest))) ∧
      (validId s id = true → ∀ i ∈ [Instr.tsReadtemp m, .tsReadalarm m],
        exec i s = .next (errorEnd .noPresence 0 (setPresence false (onLine s [.reset true] rest))))

/-- 43_session R350, R352, R360: the target check; a target that is zero or fails its checksum ends every single-mode
session command with BAD_ID before any slot, and an empty ROM table every multi-mode read. -/
def Obligations.BadTargetIsBadId : Prop :=
  (∀ (s : State) (l : Latch), s.host = [] →
    checkTarget l s =
      if l.tgt = 0 ∨ crc8 s (romBytes l.tgt) ≠ 0 then .error (.next (errorEnd .badId 0 s)) else .ok ((), s)) ∧
  ∀ (s : State) (l : Latch), BusReady s l → s.pos = .start →
    (l.tgt = 0 ∨ crc8 s (romBytes l.tgt) ≠ 0 →
      (∀ i ∈ [Instr.tsConvert .single, .tsConvread .single, .tsReadtemp .single, .tsReadalarm .single, .tsSave .single,
          .tsRestore .single, .tsIsfake .single],
        exec i s = .next (errorEnd .badId 0 s)) ∧
      (9 ≤ l.a0.toNat → l.a0.toNat ≤ 12 → l.a2.toInt ≤ l.a1.toInt →
        exec (.tsConfig .single) s = .next (errorEnd .badId 0 s))) ∧
    (s.romCount = 0 → ∀ i ∈ [Instr.tsReadtemp .multi, .tsReadalarm .multi, .tsConvread .multi],
      exec i s = .next (errorEnd .badId 0 s))

/-- 43_session R354 (cfg_byte and dec_res are marked `[from general knowledge, not in source]`): the alarm and
configuration bytes and their decoding, on this hardware's alarm range. -/
def Obligations.AlarmAndConfigurationBytes : Prop :=
  (∀ t : Int, encAlarm Config.params t = BitVec.ofInt 8 (min (max t (-55)) 125) ∧
    (decAlarmWord (encAlarm Config.params t)).toInt = min (max t (-55)) 125) ∧
  (∀ b : Byte, (decAlarmWord b).toInt = b.toInt) ∧
  cfgByte 9 = 0x1F ∧ cfgByte 10 = 0x3F ∧ cfgByte 11 = 0x5F ∧ cfgByte 12 = 0x7F ∧
  ∀ c : Byte, (decRes c).toNat = 9 + (c.extractLsb' 5 2).toNat

/-- 43_session R355, R356, R357 (the three-byte payload and cfg_byte are marked `[from general knowledge, not in
source]`): TS.CONFIG. hi, lo and res are its operands, (th, tl, conf) its alarm bytes. -/
def Obligations.TsConfigOutcome : Prop :=
  ∀ (m : Addressing) (s : State) (l : Latch) (hi lo : Int) (res : Nat), Accepted s l →
    hi = l.a1.toInt → lo = l.a2.toInt → res = l.a0.toNat →
    (res < 9 ∨ 12 < res → exec (.tsConfig m) s = .next (errorEnd .badArg 0 s)) ∧
    (hi < lo → exec (.tsConfig m) s = .next (errorEnd .badArg 0 s)) ∧
    (∀ (th tl : Byte) (conf : Bool) (rest : List Bool), BusReady s l → TargetOk s m l → 9 ≤ res → res ≤ 12 →
      lo ≤ hi →
      (th, tl, conf) =
        (if hi = lo then (0x7F, 0x80, false) else (encAlarm s.params hi, encAlarm s.params lo, true)) →
      s.bus = false :: rest →
      exec (.tsConfig m) s = .next (okEnd 0 0
        { setPresence true (onLine s (writeSpadSlots s.params m l.tgt th tl (cfgByte res)) rest) with
          devCfg := { res := BitVec.ofNat 4 res, alarmsConf := conf, th := th, tl := tl, cfgb := cfgByte res } }))

/-- 43_session R358: TS.CONVERT, with its three errors in their order. The sample v of its reset slot is whatever the
bus environment answers. -/
def Obligations.TsConvertOutcome : Prop :=
  decode 0x00000031 = some (.tsConvert .single) ∧ decode 0x00000131 = some (.tsConvert .multi) ∧
  ∀ (m : Addressing) (s : State) (l : Latch) (v : Bool) (rest : List Bool), Accepted s l → s.bus = v :: rest →
    exec (.tsConvert m) s = .next
      (if s.busCfg.configured = false then errorEnd .badPin 0 s
      else if m = .single ∧ (l.tgt = 0 ∨ crc8 s (romBytes l.tgt) ≠ 0) then errorEnd .badId 0 s
      else if v then errorEnd .noPresence 0 (setPresence false (onLine s [.reset true] rest))
      else okEnd 0 0 (setPresence true (onLine s (operationSlots s.params m l.tgt s.params.owcConvertT) rest)))

/-- 43_session R360 to R363, R366, R367: TS.READTEMP and TS.READALARM, in either mode, over any device list, for any
passes the bus answers: retries, skipped invalid ids, a last pass that validates some or none. -/
def Obligations.ReadCommandsOutcome : Prop :=
  ∀ (m : Addressing) (s : State) (l : Latch) (ids : List RomId) (passes : List (List (List Byte))) (rest : List Bool),
    BusReady s l → DeviceList s m l ids → ids.length ≤ s.params.maxDevices → ReadPasses s ids passes →
    s.bus = readAnswers s ids passes ++ rest →
    exec (.tsReadtemp m) s = .next (readEnd s .temp l.corr ids passes rest) ∧
    exec (.tsReadalarm m) s = .next (readEnd s .alarm l.corr ids passes rest)

/-- 43_session R364, R365 (the RES byte is dec_res, which R354 marks `[from general knowledge, not in source]`): the 32
bytes of a record, offset by offset; TEMP, TH and TL little-endian. -/
def Obligations.RecordLayout : Prop :=
  ∀ (kind : ReadKind) (corr : Word) (sp : List Byte) (ok : Bool), sp.length = 9 →
    ∀ r, r = recordBytes kind corr sp ok →
      r.length = 32 ∧ r.take 9 = sp ∧ r.getD 9 0 = (if ok then 1 else 0) ∧
      r.getD 10 0 = (if kind = .alarm ∧ ok = true then 9 + ((sp.getD 4 0).extractLsb' 5 2).setWidth 8 else 0) ∧
      r.getD 11 0 = 0 ∧
      (r.getD 15 0 ++ r.getD 14 0 ++ r.getD 13 0 ++ r.getD 12 0 : Word) =
        (if kind = .temp ∧ ok = true then (sp.getD 1 0 ++ sp.getD 0 0 : BitVec 16).signExtend 32 + corr else 0) ∧
      (r.getD 19 0 ++ r.getD 18 0 ++ r.getD 17 0 ++ r.getD 16 0 : Word) =
        (if kind = .alarm ∧ ok = true then (sp.getD 2 0).signExtend 32 else 0) ∧
      (r.getD 23 0 ++ r.getD 22 0 ++ r.getD 21 0 ++ r.getD 20 0 : Word) =
        (if kind = .alarm ∧ ok = true then (sp.getD 3 0).signExtend 32 else 0) ∧
      r.drop 24 = [0, 0, 0, 0, 0, 0, 0, 0]

/-- 43_session R365, R374 (R374 is an inference the spec marks as its own, `[derived: from rule R365]`): the temperature
word is the source's sign-flip formula in sixteenths of a degree plus the correction, exactly unless the correction is
out of range. -/
def Obligations.TemperatureIsExact : Prop :=
  ∀ (lo hi : Byte) (corr : Word) (raw : Nat), raw = lo.toNat + 256 * hi.toNat →
    (raw < 0x8000 → tempWord lo hi corr = BitVec.ofInt 32 ((16 * (raw / 16) + raw % 16 : Nat) : Int) + corr) ∧
    (0x8000 ≤ raw → tempWord lo hi corr =
      BitVec.ofInt 32 (-((16 * ((0x10000 - raw) / 16) + (0x10000 - raw) % 16 : Nat) : Int)) + corr) ∧
    (|corr.toInt| ≤ 2 ^ 31 - 2 ^ 15 → (tempWord lo hi corr).toInt = (rawTemp lo hi).toInt + corr.toInt)

/-- 43_session R353, R360, R368: TS.CONVREAD, in the step that starts it and in its poll. Where the first poll slot reads
0 in time, the command goes on polling, with the start and budget of the poll and the device list it has read; past the
deadline it ends with TIMEOUT; where a slot reads 1, the read passes follow, over that list. One poll iteration is one
step (log entry 4). -/
def Obligations.TsConvreadOutcome : Prop :=
  (∀ (m : Addressing) (s : State) (l : Latch) (ids : List RomId) (rest : List Bool) (t0 t1 budget : Word)
      (ts : List Word),
    BusReady s l → ids.length ≤ s.params.maxDevices → s.pos = .start → DeviceList s m l ids →
    s.clockIn = t0 :: t1 :: ts → s.bus = false :: false :: rest →
    budget = ticks s.params l s.params.convTimeoutMs →
    exec (.tsConvread m) s = .next
      (if deadlinePassed t0 budget t1 then
        errorEnd .timeout 0
          { setPresence true (onLine s (operationSlots s.params m l.tgt s.params.owcConvertT ++ [.read false]) rest) with
            clockIn := ts }
      else
        { setSeq .converting (setPresence true
            (onLine s (operationSlots s.params m l.tgt s.params.owcConvertT ++ [.read false]) rest)) with
          clockIn := ts, pos := .poll, poll := some { start := t0, budget := budget }, devices := ids })) ∧
  ∀ (m : Addressing) (s : State) (l : Latch) (ids : List RomId) (passes : List (List (List Byte))) (rest : List Bool),
    BusReady s l → ids.length ≤ s.params.maxDevices → ReadPasses s ids passes →
    (∀ t0 ts, s.pos = .start → DeviceList s m l ids → s.clockIn = t0 :: ts →
      s.bus = false :: true :: (readAnswers s ids passes ++ rest) →
      exec (.tsConvread m) s = .next (readEnd
        { setPresence true (onLine s (operationSlots s.params m l.tgt s.params.owcConvertT ++ [.read true])
            (readAnswers s ids passes ++ rest)) with clockIn := ts } .temp l.corr ids passes rest)) ∧
    (s.pos ≠ .start → s.devices = ids → s.bus = true :: (readAnswers s ids passes ++ rest) →
      exec (.tsConvread m) s =
        .next (readEnd (onLine s [.read true] (readAnswers s ids passes ++ rest)) .temp l.corr ids passes rest))

/-- 43_session R353, R369, R370: TS.SAVE and TS.RESTORE: the first poll slot reads 1; it reads 0 in time, so that the
command goes on polling, or past the deadline, which is TIMEOUT; a later slot reads 1. One poll iteration is one step
(log entry 4). -/
def Obligations.EepromCommandsOutcome : Prop :=
  ∀ (m : Addressing) (s : State) (l : Latch) (i : Instr) (cmd : Byte), BusReady s l →
    (i = .tsSave m ∧ cmd = s.params.owcCopySpad ∨ i = .tsRestore m ∧ cmd = s.params.owcRecallEe) →
    (∀ t0 ts rest, s.pos = .start → TargetOk s m l → s.clockIn = t0 :: ts → s.bus = false :: true :: rest →
      exec i s = .next (okEnd 0 0
        { setPresence true (onLine s (operationSlots s.params m l.tgt cmd ++ [.read true]) rest) with clockIn := ts })) ∧
    (∀ t0 t1 ts rest, s.pos = .start → TargetOk s m l → s.clockIn = t0 :: t1 :: ts → s.bus = false :: false :: rest →
      exec i s = .next
        (if deadlinePassed t0 (ticks s.params l s.params.eeTimeoutMs) t1 then
          errorEnd .timeout 0
            { setPresence true (onLine s (operationSlots s.params m l.tgt cmd ++ [.read false]) rest) with clockIn := ts }
        else
          { setSeq .converting
              (setPresence true (onLine s (operationSlots s.params m l.tgt cmd ++ [.read false]) rest)) with
            clockIn := ts, pos := .poll
            poll := some { start := t0, budget := ticks s.params l s.params.eeTimeoutMs } })) ∧
    (∀ rest, s.pos ≠ .start → s.bus = true :: rest → exec i s = .next (okEnd 0 0 (onLine s [.read true] rest)))

/-- 43_session R353: in a poll, a slot that reads 0 before the deadline leaves the command running, and one that reads 0
after it ends TS.CONVREAD, TS.SAVE and TS.RESTORE with TIMEOUT, with nothing written to RESTAB. One poll iteration is
one step (log entry 4). -/
def Obligations.PollingCommandsOutcome : Prop :=
  ∀ (m : Addressing) (s : State) (l : Latch) (p : Poll) (t : Word) (ts : List Word) (rest : List Bool),
    Accepted s l → s.pos ≠ .start → s.poll = some p → s.clockIn = t :: ts → s.bus = false :: rest →
    ((t - p.start).toNat < p.budget.toNat →
      ∀ i ∈ [Instr.tsConvread m, .tsSave m, .tsRestore m, .tsIsfake m],
        exec i s = .next { onLine s [.read false] rest with clockIn := ts }) ∧
    (p.budget.toNat ≤ (t - p.start).toNat →
      ∀ i ∈ [Instr.tsConvread m, .tsSave m, .tsRestore m],
        exec i s = .next (errorEnd .timeout 0 { onLine s [.read false] rest with clockIn := ts }))

/-- 43_session R372: TS.ISFAKE from its start, with a device that finishes in the window: the capture tries that fail,
the one that succeeds, 9-bit resolution, the conversion, the first poll slot, and the captured bytes put back; and a
capture that never validates ends with INTEGRITY. -/
def Obligations.TsIsfakeGenuine : Prop :=
  ∀ (m : Addressing) (s : State) (l : Latch) (bad : List (List Byte)) (rest : List Bool),
    BusReady s l → TargetOk s m l → s.pos = .start → (∀ sp ∈ bad, sp.length = 9 ∧ crc8 s sp ≠ 0) →
    (bad.length = s.params.readRepeat → s.bus = bad.flatMap readSpadAnswers ++ rest →
      exec (.tsIsfake m) s = .next (errorEnd .integrity 0
        (setPresence true (onLine s (bad.flatMap (readSpadSlots s.params m l.tgt)) rest)))) ∧
    (∀ (sp : List Byte) (t0 : Word) (ts : List Word), bad.length < s.params.readRepeat → sp.length = 9 → crc8 s sp = 0 →
      s.clockIn = t0 :: ts →
      s.bus = bad.flatMap readSpadAnswers ++ readSpadAnswers sp ++ false :: false :: true :: false :: rest →
      exec (.tsIsfake m) s = .next (okEnd 0 0
        { setRbool false (setPresence true (onLine s
            (bad.flatMap (readSpadSlots s.params m l.tgt) ++ readSpadSlots s.params m l.tgt sp ++
              writeSpadSlots s.params m l.tgt (sp.getD 2 0) (sp.getD 3 0) 0x1F ++
              operationSlots s.params m l.tgt s.params.owcConvertT ++ [.read true] ++
              writeSpadSlots s.params m l.tgt (sp.getD 2 0) (sp.getD 3 0) (sp.getD 4 0)) rest)) with
          clockIn := ts }))

/-- 43_session R353, R372: TS.ISFAKE whose conversion takes time, in its polls and in the step that starts it. Done in the
window means genuine; a window that passes starts the second poll, in the same step; the end of the second poll, by a
slot that reads 1 or by its deadline, means fake. The captured bytes c, which the first step keeps from the scratch-pad
it read, go back. One poll iteration is one step (log entry 4). -/
def Obligations.TsIsfakeVerdict : Prop :=
  (∀ (m : Addressing) (s : State) (l : Latch) (c : Capture) (p : Poll), Accepted s l → s.capture = some c →
    s.poll = some p →
    (∀ rest, s.pos = .poll → s.bus = true :: false :: rest →
      exec (.tsIsfake m) s = .next (okEnd 0 0 (setRbool false (setPresence true (onLine s
        (.read true :: writeSpadSlots s.params m l.tgt c.th c.tl c.cf) rest))))) ∧
    (∀ t t0 ts, s.pos = .poll → s.clockIn = t :: t0 :: ts → p.budget.toNat ≤ (t - p.start).toNat →
      (∀ rest, s.bus = false :: true :: false :: rest →
        exec (.tsIsfake m) s = .next (okEnd 1 0
          { setRbool true (setPresence true (onLine s
              (.read false :: .read true :: writeSpadSlots s.params m l.tgt c.th c.tl c.cf) rest)) with clockIn := ts })) ∧
      (∀ t1 ts' rest, ts = t1 :: ts' → s.bus = false :: false :: rest →
        (t1 - t0).toNat < (ticks s.params l s.params.convTimeoutMs).toNat →
        exec (.tsIsfake m) s = .next { onLine s [.read false, .read false] rest with
          clockIn := ts', pos := .drain
          poll := some { start := t0, budget := ticks s.params l s.params.convTimeoutMs } }) ∧
      (∀ t1 ts' rest, ts = t1 :: ts' → s.bus = false :: false :: false :: rest →
        (ticks s.params l s.params.convTimeoutMs).toNat ≤ (t1 - t0).toNat →
        exec (.tsIsfake m) s = .next (okEnd 1 0
          { setRbool true (setPresence true (onLine s
              (.read false :: .read false :: writeSpadSlots s.params m l.tgt c.th c.tl c.cf) rest)) with
            clockIn := ts' }))) ∧
    (∀ rest, s.pos = .drain → s.bus = true :: false :: rest →
      exec (.tsIsfake m) s = .next (okEnd 1 0 (setRbool true (setPresence true (onLine s
        (.read true :: writeSpadSlots s.params m l.tgt c.th c.tl c.cf) rest))))) ∧
    (∀ t ts rest, s.pos = .drain → s.clockIn = t :: ts → s.bus = false :: false :: rest →
      p.budget.toNat ≤ (t - p.start).toNat →
      exec (.tsIsfake m) s = .next (okEnd 1 0
        { setRbool true (setPresence true (onLine s
            (.read false :: writeSpadSlots s.params m l.tgt c.th c.tl c.cf) rest)) with clockIn := ts }))) ∧
  ∀ (m : Addressing) (s : State) (l : Latch) (bad : List (List Byte)) (sp : List Byte) (c : Capture) (rest : List Bool)
      (t0 t1 : Word) (ts : List Word),
    BusReady s l → TargetOk s m l → s.pos = .start → (∀ x ∈ bad, x.length = 9 ∧ crc8 s x ≠ 0) →
    bad.length < s.params.readRepeat → sp.length = 9 → crc8 s sp = 0 →
    c = { th := sp.getD 2 0, tl := sp.getD 3 0, cf := sp.getD 4 0 } → s.clockIn = t0 :: t1 :: ts →
    s.bus = bad.flatMap readSpadAnswers ++ readSpadAnswers sp ++ false :: false :: false :: rest →
    ∀ t, t = { setSeq .converting (setPresence true
        (onLine s (probeSlots s.params m l.tgt bad sp ++ [.read false]) rest)) with
      clockIn := ts, pos := .poll, capture := some c
      poll := some { start := t0, budget := ticks s.params l s.params.fakeWindowMs } } →
    (deadlinePassed t0 (ticks s.params l s.params.fakeWindowMs) t1 = false → exec (.tsIsfake m) s = .next t) ∧
    (deadlinePassed t0 (ticks s.params l s.params.fakeWindowMs) t1 = true → ∀ t2 ts', ts = t2 :: ts' →
      (∀ rest', rest = true :: false :: rest' →
        exec (.tsIsfake m) s = .next (okEnd 1 0
          { setRbool true (onLine t (.read true :: writeSpadSlots s.params m l.tgt c.th c.tl c.cf) rest') with
            clockIn := ts' })) ∧
      (∀ t3 ts'' rest', ts' = t3 :: ts'' → rest = false :: rest' →
        deadlinePassed t2 (ticks s.params l s.params.convTimeoutMs) t3 = false →
        exec (.tsIsfake m) s = .next { onLine t [.read false] rest' with
          clockIn := ts'', pos := .drain
          poll := some { start := t2, budget := ticks s.params l s.params.convTimeoutMs } }) ∧
      (∀ t3 ts'' rest', ts' = t3 :: ts'' → rest = false :: false :: rest' →
        deadlinePassed t2 (ticks s.params l s.params.convTimeoutMs) t3 = true →
        exec (.tsIsfake m) s = .next (okEnd 1 0
          { setRbool true (onLine t (.read false :: writeSpadSlots s.params m l.tgt c.th c.tl c.cf) rest') with
            clockIn := ts'' })))

/-- 43_session R351, R362, R368, R372, 60_exceptions R459: where no device answers a later reset slot, the command ends
with NO_PRESENCE: in a scratch-pad read at a later device or in a later pass, whose earlier records stay in RESTAB; in
TS.ISFAKE at each of its later address steps (a repeated capture, the write, the conversion, the restore after either
poll, also where the window passes and the second poll ends in one step). One poll iteration is one step (log entry 4). -/
def Obligations.LaterAbsenceEndsCommand : Prop :=
  (∀ (m : Addressing) (s : State) (l : Latch) (ids : List RomId) (passes : List (List (List Byte)))
      (sps : List (List Byte)) (rest : List Bool),
    BusReady s l → ids.length ≤ s.params.maxDevices → ReadInterrupted s ids passes sps →
    (DeviceList s m l ids → s.bus = interruptedAnswers s ids passes sps ++ rest →
      exec (.tsReadtemp m) s = .next (interruptedEnd s .temp l.corr ids passes sps rest) ∧
      exec (.tsReadalarm m) s = .next (interruptedEnd s .alarm l.corr ids passes sps rest)) ∧
    (∀ t0 ts, s.pos = .start → DeviceList s m l ids → s.clockIn = t0 :: ts →
      s.bus = false :: true :: (interruptedAnswers s ids passes sps ++ rest) →
      exec (.tsConvread m) s = .next (interruptedEnd
        { onLine s (operationSlots s.params m l.tgt s.params.owcConvertT ++ [.read true])
            (interruptedAnswers s ids passes sps ++ rest) with clockIn := ts } .temp l.corr ids passes sps rest)) ∧
    (s.pos ≠ .start → s.devices = ids → s.bus = true :: (interruptedAnswers s ids passes sps ++ rest) →
      exec (.tsConvread m) s = .next (interruptedEnd
        (onLine s [.read true] (interruptedAnswers s ids passes sps ++ rest)) .temp l.corr ids passes sps rest))) ∧
  (∀ (m : Addressing) (s : State) (l : Latch) (bad : List (List Byte)) (rest : List Bool),
    BusReady s l → TargetOk s m l → s.pos = .start → (∀ sp ∈ bad, sp.length = 9 ∧ crc8 s sp ≠ 0) →
    bad.length < s.params.readRepeat →
    (s.bus = bad.flatMap readSpadAnswers ++ true :: rest →
      exec (.tsIsfake m) s = .next (errorEnd .noPresence 0 (setPresence false
        (onLine s (bad.flatMap (readSpadSlots s.params m l.tgt) ++ [.reset true]) rest)))) ∧
    ∀ (sp : List Byte) (before : List Slot), sp.length = 9 → crc8 s sp = 0 →
      before = bad.flatMap (readSpadSlots s.params m l.tgt) ++ readSpadSlots s.params m l.tgt sp →
      (s.bus = bad.flatMap readSpadAnswers ++ readSpadAnswers sp ++ true :: rest →
        exec (.tsIsfake m) s = .next (errorEnd .noPresence 0 (setPresence false (onLine s (before ++ [.reset true]) rest)))) ∧
      (s.bus = bad.flatMap readSpadAnswers ++ readSpadAnswers sp ++ false :: true :: rest →
        exec (.tsIsfake m) s = .next (errorEnd .noPresence 0 (setPresence false (onLine s (before ++
          writeSpadSlots s.params m l.tgt (sp.getD 2 0) (sp.getD 3 0) 0x1F ++ [.reset true]) rest)))) ∧
      (∀ t0 ts, s.clockIn = t0 :: ts →
        s.bus = bad.flatMap readSpadAnswers ++ readSpadAnswers sp ++ false :: false :: true :: true :: rest →
        exec (.tsIsfake m) s = .next (errorEnd .noPresence 0
          { setPresence false (onLine s (probeSlots s.params m l.tgt bad sp ++ [.read true, .reset true]) rest) with
            clockIn := ts })) ∧
      ∀ t0 t1 t2 ts, s.clockIn = t0 :: t1 :: t2 :: ts →
        deadlinePassed t0 (ticks s.params l s.params.fakeWindowMs) t1 = true →
        (s.bus = bad.flatMap readSpadAnswers ++ readSpadAnswers sp ++ false :: false :: false :: true :: true :: rest →
          exec (.tsIsfake m) s = .next (errorEnd .noPresence 0
            { setPresence false (onLine s
                (probeSlots s.params m l.tgt bad sp ++ [.read false, .read true, .reset true]) rest) with
              clockIn := ts })) ∧
        ∀ t3 ts', ts = t3 :: ts' → deadlinePassed t2 (ticks s.params l s.params.convTimeoutMs) t3 = true →
          s.bus = bad.flatMap readSpadAnswers ++ readSpadAnswers sp ++
            false :: false :: false :: false :: true :: rest →
          exec (.tsIsfake m) s = .next (errorEnd .noPresence 0
            { setPresence false (onLine s
                (probeSlots s.params m l.tgt bad sp ++ [.read false, .read false, .reset true]) rest) with
              clockIn := ts' })) ∧
  ∀ (m : Addressing) (s : State) (l : Latch) (p : Poll) (rest : List Bool), Accepted s l → s.pos ≠ .start →
    s.poll = some p →
    (s.bus = true :: true :: rest →
      exec (.tsIsfake m) s =
        .next (errorEnd .noPresence 0 (setPresence false (onLine s [.read true, .reset true] rest)))) ∧
    (∀ t ts, s.pos = .drain → s.clockIn = t :: ts → s.bus = false :: true :: rest →
      p.budget.toNat ≤ (t - p.start).toNat →
      exec (.tsIsfake m) s = .next (errorEnd .noPresence 0
        { setPresence false (onLine s [.read false, .reset true] rest) with clockIn := ts })) ∧
    ∀ t t0 ts, s.pos = .poll → s.clockIn = t :: t0 :: ts → p.budget.toNat ≤ (t - p.start).toNat →
      (s.bus = false :: true :: true :: rest →
        exec (.tsIsfake m) s = .next (errorEnd .noPresence 0
          { setPresence false (onLine s [.read false, .read true, .reset true] rest) with clockIn := ts })) ∧
      ∀ t1 ts', ts = t1 :: ts' → s.bus = false :: false :: true :: rest →
        (ticks s.params l s.params.convTimeoutMs).toNat ≤ (t1 - t0).toNat →
        exec (.tsIsfake m) s = .next (errorEnd .noPresence 0
          { setPresence false (onLine s [.read false, .read false, .reset true] rest) with clockIn := ts' })

/-- 60_exceptions R472: budgets are exact products, saturated, and zero for a slow oscillator; a deadline has passed
when the elapsed ticks, modulo 2^32, reach the budget. -/
def Obligations.TimeoutArithmetic : Prop :=
  (∀ (p : Params) (l : Latch) (ms : Nat),
    (ticks p l ms).toNat = min (ms * (l.foscl.toNat / (1000 * p.ctDiv))) (2 ^ 32 - 1) ∧
    (l.foscl.toNat < 1000 * p.ctDiv → ticks p l ms = 0)) ∧
  (∀ start budget now : Word, deadlinePassed start budget now = true ↔
    (budget.toNat : Int) ≤ ((now.toNat : Int) - (start.toNat : Int)) % 2 ^ 32) ∧
  ∀ start now : Word, deadlinePassed start 0 now = true

/-! ## The host port -/

/-- 20_memory R103: the refused accesses, and the writes that are ignored without being refused. -/
def Obligations.RefusedAndIgnoredAccesses : Prop :=
  ∀ (s : State) (w : AccessWidth) (off : Nat) (v : Word),
    (¬ (w = .word ∧ off % 4 = 0 ∧ Mapped s.params off) →
      hostRead w off s = (0, setAccerr s) ∧ hostWrite w off v s = setAccerr s) ∧
    (off % 4 = 0 →
      off ∈ [0x014, 0x018, 0x01C, 0x020, 0x038] ∨ (0x040 ≤ off ∧ off < 0x040 + 8 * s.params.crcCapacity) ∨
        (0x400 ≤ off ∧ off < 0x400 + 32 * s.params.maxDevices) →
      hostWrite .word off v s = s)

/-- 20_memory R111: what a host write does while a command runs. -/
def Obligations.WritesWhileBusy : Prop :=
  ∀ (s : State) (off : Nat) (v : Word), s.status.busy = true →
    (off ∈ [0x000, 0x008, 0x00C, 0x010, 0x024, 0x028, 0x030, 0x034] ∨
        (off % 4 = 0 ∧ (0x100 ≤ off ∧ off < 0x200 ∨ 0x200 ≤ off ∧ off < 0x200 + 8 * s.params.maxDevices)) →
      hostWrite .word off v s = { s with status := { s.status with ovr := true } }) ∧
    hostWrite .word 0x004 v s = { s with status := { s.status with
      done := s.status.done && !v.getLsbD 1
      ovr := s.status.ovr && !v.getLsbD 3
      accerr := s.status.accerr && !v.getLsbD 4 } } ∧
    hostWrite .word 0x02C v s = { s with corrOffset := v }

/-- 20_memory R114: a host read of a mapped word has no side effect (the count of draws is the model's, log entry 2),
and reading a register again gives the same word. -/
def Obligations.ReadsHaveNoSideEffect : Prop :=
  ∀ (s : State) (off : Nat), off % 4 = 0 → Mapped s.params off →
    { (hostRead .word off s).2 with draws := s.draws } = s ∧
    (off < 0x100 → (hostRead .word off (hostRead .word off s).2).1 = (hostRead .word off s).1)

/-- 10_state R31, R32, R33, R45, R50, 20_memory R112, 30_encoding R152: every plain register reads its current value in
every state, CMD that of LCMD, ROMCOUNT as eight bits. While no command runs, a host write of a read/write register
replaces exactly it, and reads back; ROMCOUNT takes a value up to MAX_DEVICES, and more is ignored and sets ACCERR.
Whether or not a command runs, a write of STATUS clears those of DONE, OVR and ACCERR to which it writes 1, and nothing
else: CLRDONE clears DONE, CLRSTICKY clears OVR and ACCERR. -/
def Obligations.RegistersReadBack : Prop :=
  (∀ s : State,
    hostRead .word 0x000 s = (s.lcmd, s) ∧ hostRead .word 0x008 s = (s.arg0, s) ∧ hostRead .word 0x00C s = (s.arg1, s) ∧
    hostRead .word 0x010 s = (s.arg2, s) ∧ hostRead .word 0x014 s = (s.result0, s) ∧
    hostRead .word 0x018 s = (s.result1, s) ∧ hostRead .word 0x024 s = (s.targetLo, s) ∧
    hostRead .word 0x028 s = (s.targetHi, s) ∧ hostRead .word 0x02C s = (s.corrOffset, s) ∧
    hostRead .word 0x030 s = (s.fosc, s) ∧ hostRead .word 0x034 s = (s.romCount.setWidth 32, s) ∧
    (hostRead .word 0x034 s).1.toNat < 256) ∧
  (∀ (s : State) (v : Word), s.status.busy = false →
    hostWrite .word 0x008 v s = { s with arg0 := v } ∧ hostWrite .word 0x00C v s = { s with arg1 := v } ∧
    hostWrite .word 0x010 v s = { s with arg2 := v } ∧ hostWrite .word 0x024 v s = { s with targetLo := v } ∧
    hostWrite .word 0x028 v s = { s with targetHi := v } ∧ hostWrite .word 0x02C v s = { s with corrOffset := v } ∧
    hostWrite .word 0x030 v s = { s with fosc := v } ∧
    (∀ off ∈ [0x008, 0x00C, 0x010, 0x024, 0x028, 0x02C, 0x030],
      hostRead .word off (hostWrite .word off v s) = (v, hostWrite .word off v s)) ∧
    (v.toNat ≤ s.params.maxDevices →
      hostWrite .word 0x034 v s = { s with romCount := v.setWidth 8 } ∧
      (hostRead .word 0x034 (hostWrite .word 0x034 v s)).1 = v) ∧
    (s.params.maxDevices < v.toNat →
      hostWrite .word 0x034 v s = { s with status := { s.status with accerr := true } })) ∧
  (∀ s : State,
    (∀ v : Word, hostWrite .word 0x004 v s = { s with status := { s.status with
      done := s.status.done && !v.getLsbD 1
      ovr := s.status.ovr && !v.getLsbD 3
      accerr := s.status.accerr && !v.getLsbD 4 } }) ∧
    hostWrite .word 0x004 0x00000002 s = { s with status := { s.status with done := false } } ∧
    hostWrite .word 0x004 0x00000018 s = { s with status := { s.status with ovr := false, accerr := false } }) ∧
  State.reset.romCount = 0

/-- 20_memory R102: RAM words are little-endian, written and read, while no command runs; a write keeps every other
byte. -/
def Obligations.RamWordsAreLittleEndian : Prop :=
  ∀ (s : State) (off : Nat), off % 4 = 0 → s.status.busy = false →
    (∀ (v : Word), (0x100 ≤ off ∧ off < 0x200 ∨ 0x200 ≤ off ∧ off < 0x200 + 8 * s.params.maxDevices) →
      ∀ t, t = hostWrite .word off v s →
        memGet t.ram off = some (v.extractLsb' 0 8) ∧ memGet t.ram (off + 1) = some (v.extractLsb' 8 8) ∧
        memGet t.ram (off + 2) = some (v.extractLsb' 16 8) ∧ memGet t.ram (off + 3) = some (v.extractLsb' 24 8) ∧
        (∀ a, (a < off ∨ off + 4 ≤ a) → memGet t.ram a = memGet s.ram a) ∧ { t with ram := s.ram } = s) ∧
    ∀ b0 b1 b2 b3 : Byte,
      (0x100 ≤ off ∧ off < 0x200 ∨ 0x200 ≤ off ∧ off < 0x200 + 8 * s.params.maxDevices ∨
        0x400 ≤ off ∧ off < 0x400 + 32 * s.params.maxDevices) →
      memGet s.ram off = some b0 → memGet s.ram (off + 1) = some b1 → memGet s.ram (off + 2) = some b2 →
      memGet s.ram (off + 3) = some b3 → hostRead .word off s = ((b3 ++ b2 ++ b1 ++ b0 : Word), s)

/-- 20_memory R112, 10_state R57: what a host read of RAM returns, while a command runs and while none does: for each byte
that nothing has written since reset, or that the running command may write, a free value, a new one for each byte; for
every other byte its contents. That an unwritten byte is drawn, and that a command counts as writing from its acceptance
on, whether or not it will end with an error, are the model's choices (log entry 2). -/
def Obligations.RamReadsWhileBusy : Prop :=
  ∀ (s : State) (off : Nat) (w : Word) (t : State), off % 4 = 0 →
    (0x100 ≤ off ∧ off < 0x200 ∨ 0x200 ≤ off ∧ off < 0x200 + 8 * s.params.maxDevices ∨
      0x400 ≤ off ∧ off < 0x400 + 32 * s.params.maxDevices) →
    hostRead .word off s = (w, t) →
    ∃ (d : Nat) (n : Nat → Nat), t = { s with draws := d } ∧
      ∀ k, k < 4 →
        (Drawn s (off + k) →
          s.draws ≤ n k ∧ n k < d ∧ w.extractLsb' (8 * k) 8 = Config.freeByte (n k) ∧
          ∀ j, j < k → Drawn s (off + j) → n j < n k) ∧
        (¬ Drawn s (off + k) → ∃ b, memGet s.ram (off + k) = some b ∧ w.extractLsb' (8 * k) 8 = b)

/-- 10_state R33, R34, R36, R37, R38, 41_bus R261, 60_exceptions R450: what STATUS, BUSCFG and DEVCFG read, field by
field, reserved bits as 0; the numbers of the error codes, the sequencer states and the speed modes; and which byte of the
target is which. -/
def Obligations.RegisterFields : Prop :=
  [ErrCode.none, .illegal, .crcCfg, .crcDup, .crcFull, .crcInput, .badPin, .noPresence, .badId, .integrity, .timeout,
    .badArg, .overflow].map errBits = [0, 1, 2, 3, 4, 5, 6, 7, 8, 9, 10, 11, 12] ∧
  [SeqState.idle, .addressed, .converting, .readingSpad, .done, .error, .searching, .busyOther].map seqBits =
    [0, 1, 2, 3, 4, 5, 6, 7] ∧
  [Speed.standard, .high, .overload].map speedBits = [0, 1, 2] ∧
  ∀ s : State,
    (∀ w, w = (hostRead .word 0x004 s).1 →
      w.getLsbD 0 = s.status.busy ∧ w.getLsbD 1 = s.status.done ∧ w.getLsbD 2 = s.status.presence ∧
      w.getLsbD 3 = s.status.ovr ∧ w.getLsbD 4 = s.status.accerr ∧ w.getLsbD 5 = s.status.rbool ∧
      w.extractLsb' 6 2 = 0 ∧ w.extractLsb' 8 4 = errBits s.status.errcode ∧
      w.extractLsb' 12 3 = seqBits s.status.seqState ∧ w.extractLsb' 15 17 = 0) ∧
    (∀ w, w = (hostRead .word 0x01C s).1 →
      w.extractLsb' 0 2 = speedBits s.busCfg.speed ∧ w.extractLsb' 2 6 = 0 ∧ w.extractLsb' 8 8 = s.busCfg.pin ∧
      w.getLsbD 16 = s.busCfg.configured ∧ w.extractLsb' 17 15 = 0) ∧
    (∀ w, w = (hostRead .word 0x020 s).1 →
      w.extractLsb' 0 4 = s.devCfg.res ∧ w.getLsbD 4 = s.devCfg.alarmsConf ∧ w.extractLsb' 5 3 = 0 ∧
      w.extractLsb' 8 8 = s.devCfg.th ∧ w.extractLsb' 16 8 = s.devCfg.tl ∧ w.extractLsb' 24 8 = s.devCfg.cfgb) ∧
    ∀ k, k < 8 → (romBytes (targetId s))[k]? =
      some (if k < 4 then s.targetLo.extractLsb' (8 * k) 8 else s.targetHi.extractLsb' (8 * (k - 4)) 8)

/-- 10_state R47, R48: what CRCCOUNT, CRCPOLY[i] and CRCCFG[i] read. -/
def Obligations.RegistryRegisters : Prop :=
  ∀ (s : State) (i : Nat), i < s.params.crcCapacity →
    (hostRead .word 0x038 s).1 = BitVec.ofNat 32 s.registry.length ∧
    (s.registry.length ≤ i → hostRead .word (0x040 + 8 * i) s = (0, s) ∧ hostRead .word (0x044 + 8 * i) s = (0, s)) ∧
    ∀ sl, s.registry[i]? = some sl →
      hostRead .word (0x040 + 8 * i) s = (sl.poly, s) ∧
      ∀ w, w = (hostRead .word (0x044 + 8 * i) s).1 →
        w.extractLsb' 0 6 = BitVec.ofNat 6 (widthBits sl.width) ∧ w.extractLsb' 6 2 = 0 ∧ w.getLsbD 8 = sl.refin ∧
        w.getLsbD 9 = sl.refout ∧ w.extractLsb' 10 21 = 0 ∧ w.getLsbD 31 = true

/-- 20_memory R110, R111, R116, 41_bus R257: while a command runs, a host access can change nothing but the W1C bits,
ACCERR, OVR and CORR_OFFSET (and the model's record of what was read and drawn). Accesses whose time has come are
performed, one at a time and in the host's order, before the next sequencer step acts, be it the command's last; a later
one waits one step less (the list is log entry 5). -/
def Obligations.HostCannotDisturb : Prop :=
  (∀ (s : State) (a : HostAccess), s.status.busy = true →
    { hostAccess a s with
      status := { (hostAccess a s).status with done := s.status.done, ovr := s.status.ovr, accerr := s.status.accerr }
      corrOffset := s.corrOffset
      hostReads := s.hostReads
      draws := s.draws } = s) ∧
  ∀ (α : Type) (s : State) (inSlot : Bool) (f : State → α × State) (g : State → State),
    (s.host = [] → sequencerStep inSlot f s = .ok (f s) ∧ (lastStep g : Seq α) s = .error (.next (g s))) ∧
    (∀ k e rest, s.host = ⟨k + 1, e⟩ :: rest →
      sequencerStep inSlot f s = .ok (f { s with host := ⟨k, e⟩ :: rest }) ∧
      (lastStep g : Seq α) s = .error (.next (g { s with host := ⟨k, e⟩ :: rest }))) ∧
    ∀ a rest, s.host = ⟨0, .access a⟩ :: rest →
      sequencerStep inSlot f s = sequencerStep inSlot f (hostAccess a { s with host := rest }) ∧
      (lastStep g : Seq α) s = lastStep g (hostAccess a { s with host := rest })

/-! ## Reset -/

/-- 70_reset_and_hazards R500, R501: the reset input, when its time has come, resets the block in the step it falls in,
even while a command runs, and at whatever step of the command's rule, a slot, a clock reading, a write or the end. -/
def Obligations.ResetAbandonsEverything : Prop :=
  (∀ (s : State) (c : Bool) (rest : List HostItem), s.Inv → s.host = ⟨0, .reset c⟩ :: rest →
    ∃ t, step s = .next t ∧ BlockReset t ∧ t.driveLow = 0 ∧ t.host = rest ∧ t.params = s.params) ∧
  ∀ (α : Type) (s : State) (c : Bool) (rest : List HostItem), s.host = ⟨0, .reset c⟩ :: rest →
    (∀ (inSlot : Bool) (f : State → α × State), ∃ t, sequencerStep inSlot f s = .error (.next t) ∧ BlockReset t ∧
      t.driveLow = 0 ∧ t.host = rest ∧ t.params = s.params) ∧
    ∀ f : State → State, ∃ t, (lastStep f : Seq α) s = .error (.next t) ∧ BlockReset t ∧
      t.driveLow = 0 ∧ t.host = rest ∧ t.params = s.params

/-- 70_reset_and_hazards R502, R503: the reset value of every state the spec gives one, as the host reads it and in the
block. -/
def Obligations.ResetState : Prop :=
  (∀ off ∈ [0x000, 0x004, 0x008, 0x00C, 0x010, 0x014, 0x018, 0x01C, 0x020, 0x024, 0x028, 0x02C, 0x030, 0x034,
      0x048, 0x04C, 0x050, 0x054, 0x058, 0x05C], hostRead .word off State.reset = (0, State.reset)) ∧
    hostRead .word 0x038 State.reset = (1, State.reset) ∧
    hostRead .word 0x040 State.reset = (0x31, State.reset) ∧
    hostRead .word 0x044 State.reset = (0x80000308, State.reset) ∧
    State.reset.status.busy = false ∧ State.reset.status.seqState = .idle ∧ State.reset.status.errcode = .none ∧
    State.reset.registry.map CrcSlot.table = [genTable 0x31 .w8] ∧ State.reset.driveLow = 0 ∧
    State.reset.latch = none ∧ State.reset.search = none ∧ State.reset.readPass = none ∧ State.reset.poll = none ∧
    State.reset.capture = none

/-- The invariant holds at reset. -/
def Obligations.ResetHasInvariant : Prop := State.reset.Inv

/-! ## Every step -/

/-- From every state with the invariant, a step answers a next state, never a fault or a refusal, and the next state has
the invariant and the same parameters, whatever the host, the bus and the clock do. The invariant collects 10_state R34,
R45 to R56, 20_memory R104, R112, R116, 30_encoding R146, 40_crc R206, R208, 41_bus R259, R260 and 43_session R360. That
no step faults is the model's DESIGN CHOICE: a RAM byte that nothing has written since reset is drawn, by CRC.CALC,
OW.WMULTI, a multi-mode read and the host (log entry 2: 10_state R57 and 93 U1 prefer a fault and allow a draw), and the
model's own two faults are for states without the invariant (log entry 10). So is what one step is (log entries 1, 4). -/
def Obligations.StepKeepsInvariant : Prop :=
  ∀ s : State, s.Inv → ∃ t, step s = .next t ∧ t.Inv ∧ t.params = s.params

/-- 20_memory R122 (an inference the spec marks as its own, `[derived: from rule R121 …]`): what happened on the line is
never changed, merged, reordered or dropped: a step only adds to it, even one that resets the block. -/
def Obligations.LineOnlyGrows : Prop :=
  ∀ s t : State, step s = .next t → ∃ new, t.line = new ++ s.line

/-! ## Frames -/

/-- What no command changes: LCMD, the operand, target, correction and oscillator registers, OVR, ACCERR, the parameters
(10_state R31, R33, 60_exceptions R453, R454). -/
def Obligations.NoCommandChangesOperands : Prop :=
  ∀ (i : Instr) (s t : State), s.host = [] → exec i s = .next t → Untouched s t

/-- 10_state R35, R36, R37, R45: which commands write BUSCFG, DEVCFG, ROMCOUNT, PRESENCE and RBOOL; no other command
does. -/
def Obligations.RegisterFrame : Prop :=
  ∀ (i : Instr) (s t : State), s.host = [] → exec i s = .next t →
    (i ≠ .owCfgbus → i ≠ .owSpeed → t.busCfg = s.busCfg) ∧
    ((∀ m, i ≠ .tsConfig m) ∨ t.status.errcode ≠ .none → t.devCfg = s.devCfg) ∧
    ((∀ m, i ≠ .owSearch m) → t.romCount = s.romCount) ∧
    (resetsBus i = false → t.status.presence = s.status.presence) ∧
    (writesRbool i = false → t.status.rbool = s.status.rbool)

/-- 20_memory R104, R105: every byte a command does not store to reads as before, whether the command ends well, fails
or goes on polling. -/
def Obligations.MemoryFrame : Prop :=
  ∀ (i : Instr) (s t : State) (l : Latch), Accepted s l → exec i s = .next t →
    MemoryOutside (storedBytes i s l) s t

/-- 40_crc R213, 41_bus R260, R262: the CRC commands and the two that configure the bus issue no slot and read no
clock. -/
def Obligations.SilentCommandsFrame : Prop :=
  ∀ (i : Instr) (s t : State), s.host = [] → silent i = true → exec i s = .next t → NoTraffic s t
end

