-- ==== Sys2Proof/Laws/State.lean ====
section
/-! SUPPORT. What every field holds after each named update of the state, so that no later proof unfolds a record update.
Each theorem is a conjunction with one equation a field, which simp uses one by one. -/

namespace Sys2Proof.Machine

@[simp] theorem setAccerr_fields (s : State) :
    (setAccerr s).params = s.params ∧ (setAccerr s).lcmd = s.lcmd ∧ (setAccerr s).status.busy = s.status.busy ∧
    (setAccerr s).status.done = s.status.done ∧ (setAccerr s).status.presence = s.status.presence ∧
    (setAccerr s).status.ovr = s.status.ovr ∧ (setAccerr s).status.accerr = true ∧
    (setAccerr s).status.rbool = s.status.rbool ∧ (setAccerr s).status.errcode = s.status.errcode ∧
    (setAccerr s).status.seqState = s.status.seqState ∧ (setAccerr s).arg0 = s.arg0 ∧ (setAccerr s).arg1 = s.arg1 ∧
    (setAccerr s).arg2 = s.arg2 ∧ (setAccerr s).result0 = s.result0 ∧ (setAccerr s).result1 = s.result1 ∧
    (setAccerr s).busCfg = s.busCfg ∧ (setAccerr s).devCfg = s.devCfg ∧ (setAccerr s).targetLo = s.targetLo ∧
    (setAccerr s).targetHi = s.targetHi ∧ (setAccerr s).corrOffset = s.corrOffset ∧ (setAccerr s).fosc = s.fosc ∧
    (setAccerr s).romCount = s.romCount ∧ (setAccerr s).registry = s.registry ∧ (setAccerr s).ram = s.ram ∧
    (setAccerr s).driveLow = s.driveLow ∧ (setAccerr s).latch = s.latch ∧ (setAccerr s).pos = s.pos ∧
    (setAccerr s).search = s.search ∧ (setAccerr s).readPass = s.readPass ∧ (setAccerr s).devices = s.devices ∧
    (setAccerr s).poll = s.poll ∧ (setAccerr s).capture = s.capture ∧ (setAccerr s).host = s.host ∧
    (setAccerr s).hostReads = s.hostReads ∧ (setAccerr s).bus = s.bus ∧ (setAccerr s).line = s.line ∧
    (setAccerr s).clockIn = s.clockIn ∧ (setAccerr s).clockReads = s.clockReads ∧ (setAccerr s).draws = s.draws :=
  by repeat' constructor

@[simp] theorem setOvr_fields (s : State) :
    (setOvr s).params = s.params ∧ (setOvr s).lcmd = s.lcmd ∧ (setOvr s).status.busy = s.status.busy ∧
    (setOvr s).status.done = s.status.done ∧ (setOvr s).status.presence = s.status.presence ∧
    (setOvr s).status.ovr = true ∧ (setOvr s).status.accerr = s.status.accerr ∧
    (setOvr s).status.rbool = s.status.rbool ∧ (setOvr s).status.errcode = s.status.errcode ∧
    (setOvr s).status.seqState = s.status.seqState ∧ (setOvr s).arg0 = s.arg0 ∧ (setOvr s).arg1 = s.arg1 ∧
    (setOvr s).arg2 = s.arg2 ∧ (setOvr s).result0 = s.result0 ∧ (setOvr s).result1 = s.result1 ∧
    (setOvr s).busCfg = s.busCfg ∧ (setOvr s).devCfg = s.devCfg ∧ (setOvr s).targetLo = s.targetLo ∧
    (setOvr s).targetHi = s.targetHi ∧ (setOvr s).corrOffset = s.corrOffset ∧ (setOvr s).fosc = s.fosc ∧
    (setOvr s).romCount = s.romCount ∧ (setOvr s).registry = s.registry ∧ (setOvr s).ram = s.ram ∧
    (setOvr s).driveLow = s.driveLow ∧ (setOvr s).latch = s.latch ∧ (setOvr s).pos = s.pos ∧
    (setOvr s).search = s.search ∧ (setOvr s).readPass = s.readPass ∧ (setOvr s).devices = s.devices ∧
    (setOvr s).poll = s.poll ∧ (setOvr s).capture = s.capture ∧ (setOvr s).host = s.host ∧
    (setOvr s).hostReads = s.hostReads ∧ (setOvr s).bus = s.bus ∧ (setOvr s).line = s.line ∧
    (setOvr s).clockIn = s.clockIn ∧ (setOvr s).clockReads = s.clockReads ∧ (setOvr s).draws = s.draws :=
  by repeat' constructor

@[simp] theorem setPresence_fields (b : Bool) (s : State) :
    (setPresence b s).params = s.params ∧ (setPresence b s).lcmd = s.lcmd ∧
    (setPresence b s).status.busy = s.status.busy ∧ (setPresence b s).status.done = s.status.done ∧
    (setPresence b s).status.presence = b ∧ (setPresence b s).status.ovr = s.status.ovr ∧
    (setPresence b s).status.accerr = s.status.accerr ∧ (setPresence b s).status.rbool = s.status.rbool ∧
    (setPresence b s).status.errcode = s.status.errcode ∧ (setPresence b s).status.seqState = s.status.seqState ∧
    (setPresence b s).arg0 = s.arg0 ∧ (setPresence b s).arg1 = s.arg1 ∧ (setPresence b s).arg2 = s.arg2 ∧
    (setPresence b s).result0 = s.result0 ∧ (setPresence b s).result1 = s.result1 ∧
    (setPresence b s).busCfg = s.busCfg ∧ (setPresence b s).devCfg = s.devCfg ∧
    (setPresence b s).targetLo = s.targetLo ∧ (setPresence b s).targetHi = s.targetHi ∧
    (setPresence b s).corrOffset = s.corrOffset ∧ (setPresence b s).fosc = s.fosc ∧
    (setPresence b s).romCount = s.romCount ∧ (setPresence b s).registry = s.registry ∧
    (setPresence b s).ram = s.ram ∧ (setPresence b s).driveLow = s.driveLow ∧ (setPresence b s).latch = s.latch ∧
    (setPresence b s).pos = s.pos ∧ (setPresence b s).search = s.search ∧ (setPresence b s).readPass = s.readPass ∧
    (setPresence b s).devices = s.devices ∧ (setPresence b s).poll = s.poll ∧ (setPresence b s).capture = s.capture ∧
    (setPresence b s).host = s.host ∧ (setPresence b s).hostReads = s.hostReads ∧ (setPresence b s).bus = s.bus ∧
    (setPresence b s).line = s.line ∧ (setPresence b s).clockIn = s.clockIn ∧
    (setPresence b s).clockReads = s.clockReads ∧ (setPresence b s).draws = s.draws :=
  by repeat' constructor

@[simp] theorem setRbool_fields (b : Bool) (s : State) :
    (setRbool b s).params = s.params ∧ (setRbool b s).lcmd = s.lcmd ∧ (setRbool b s).status.busy = s.status.busy ∧
    (setRbool b s).status.done = s.status.done ∧ (setRbool b s).status.presence = s.status.presence ∧
    (setRbool b s).status.ovr = s.status.ovr ∧ (setRbool b s).status.accerr = s.status.accerr ∧
    (setRbool b s).status.rbool = b ∧ (setRbool b s).status.errcode = s.status.errcode ∧
    (setRbool b s).status.seqState = s.status.seqState ∧ (setRbool b s).arg0 = s.arg0 ∧
    (setRbool b s).arg1 = s.arg1 ∧ (setRbool b s).arg2 = s.arg2 ∧ (setRbool b s).result0 = s.result0 ∧
    (setRbool b s).result1 = s.result1 ∧ (setRbool b s).busCfg = s.busCfg ∧ (setRbool b s).devCfg = s.devCfg ∧
    (setRbool b s).targetLo = s.targetLo ∧ (setRbool b s).targetHi = s.targetHi ∧
    (setRbool b s).corrOffset = s.corrOffset ∧ (setRbool b s).fosc = s.fosc ∧ (setRbool b s).romCount = s.romCount ∧
    (setRbool b s).registry = s.registry ∧ (setRbool b s).ram = s.ram ∧ (setRbool b s).driveLow = s.driveLow ∧
    (setRbool b s).latch = s.latch ∧ (setRbool b s).pos = s.pos ∧ (setRbool b s).search = s.search ∧
    (setRbool b s).readPass = s.readPass ∧ (setRbool b s).devices = s.devices ∧ (setRbool b s).poll = s.poll ∧
    (setRbool b s).capture = s.capture ∧ (setRbool b s).host = s.host ∧ (setRbool b s).hostReads = s.hostReads ∧
    (setRbool b s).bus = s.bus ∧ (setRbool b s).line = s.line ∧ (setRbool b s).clockIn = s.clockIn ∧
    (setRbool b s).clockReads = s.clockReads ∧ (setRbool b s).draws = s.draws :=
  by repeat' constructor

@[simp] theorem setSeq_fields (q : SeqState) (s : State) :
    (setSeq q s).params = s.params ∧ (setSeq q s).lcmd = s.lcmd ∧ (setSeq q s).status.busy = s.status.busy ∧
    (setSeq q s).status.done = s.status.done ∧ (setSeq q s).status.presence = s.status.presence ∧
    (setSeq q s).status.ovr = s.status.ovr ∧ (setSeq q s).status.accerr = s.status.accerr ∧
    (setSeq q s).status.rbool = s.status.rbool ∧ (setSeq q s).status.errcode = s.status.errcode ∧
    (setSeq q s).status.seqState = q ∧ (setSeq q s).arg0 = s.arg0 ∧ (setSeq q s).arg1 = s.arg1 ∧
    (setSeq q s).arg2 = s.arg2 ∧ (setSeq q s).result0 = s.result0 ∧ (setSeq q s).result1 = s.result1 ∧
    (setSeq q s).busCfg = s.busCfg ∧ (setSeq q s).devCfg = s.devCfg ∧ (setSeq q s).targetLo = s.targetLo ∧
    (setSeq q s).targetHi = s.targetHi ∧ (setSeq q s).corrOffset = s.corrOffset ∧ (setSeq q s).fosc = s.fosc ∧
    (setSeq q s).romCount = s.romCount ∧ (setSeq q s).registry = s.registry ∧ (setSeq q s).ram = s.ram ∧
    (setSeq q s).driveLow = s.driveLow ∧ (setSeq q s).latch = s.latch ∧ (setSeq q s).pos = s.pos ∧
    (setSeq q s).search = s.search ∧ (setSeq q s).readPass = s.readPass ∧ (setSeq q s).devices = s.devices ∧
    (setSeq q s).poll = s.poll ∧ (setSeq q s).capture = s.capture ∧ (setSeq q s).host = s.host ∧
    (setSeq q s).hostReads = s.hostReads ∧ (setSeq q s).bus = s.bus ∧ (setSeq q s).line = s.line ∧
    (setSeq q s).clockIn = s.clockIn ∧ (setSeq q s).clockReads = s.clockReads ∧ (setSeq q s).draws = s.draws :=
  by repeat' constructor

@[simp] theorem writeOneClear_fields (v : Word) (s : State) :
    (writeOneClear v s).params = s.params ∧ (writeOneClear v s).lcmd = s.lcmd ∧
    (writeOneClear v s).status.busy = s.status.busy ∧
    (writeOneClear v s).status.done = (s.status.done && !v.getLsbD 1) ∧
    (writeOneClear v s).status.presence = s.status.presence ∧
    (writeOneClear v s).status.ovr = (s.status.ovr && !v.getLsbD 3) ∧
    (writeOneClear v s).status.accerr = (s.status.accerr && !v.getLsbD 4) ∧
    (writeOneClear v s).status.rbool = s.status.rbool ∧ (writeOneClear v s).status.errcode = s.status.errcode ∧
    (writeOneClear v s).status.seqState = s.status.seqState ∧ (writeOneClear v s).arg0 = s.arg0 ∧
    (writeOneClear v s).arg1 = s.arg1 ∧ (writeOneClear v s).arg2 = s.arg2 ∧ (writeOneClear v s).result0 = s.result0 ∧
    (writeOneClear v s).result1 = s.result1 ∧ (writeOneClear v s).busCfg = s.busCfg ∧
    (writeOneClear v s).devCfg = s.devCfg ∧ (writeOneClear v s).targetLo = s.targetLo ∧
    (writeOneClear v s).targetHi = s.targetHi ∧ (writeOneClear v s).corrOffset = s.corrOffset ∧
    (writeOneClear v s).fosc = s.fosc ∧ (writeOneClear v s).romCount = s.romCount ∧
    (writeOneClear v s).registry = s.registry ∧ (writeOneClear v s).ram = s.ram ∧
    (writeOneClear v s).driveLow = s.driveLow ∧ (writeOneClear v s).latch = s.latch ∧
    (writeOneClear v s).pos = s.pos ∧ (writeOneClear v s).search = s.search ∧
    (writeOneClear v s).readPass = s.readPass ∧ (writeOneClear v s).devices = s.devices ∧
    (writeOneClear v s).poll = s.poll ∧ (writeOneClear v s).capture = s.capture ∧ (writeOneClear v s).host = s.host ∧
    (writeOneClear v s).hostReads = s.hostReads ∧ (writeOneClear v s).bus = s.bus ∧
    (writeOneClear v s).line = s.line ∧ (writeOneClear v s).clockIn = s.clockIn ∧
    (writeOneClear v s).clockReads = s.clockReads ∧ (writeOneClear v s).draws = s.draws :=
  by repeat' constructor

@[simp] theorem storeBytes_fields (off : Nat) (bs : List Byte) (s : State) :
    (storeBytes off bs s).params = s.params ∧ (storeBytes off bs s).lcmd = s.lcmd ∧
    (storeBytes off bs s).status = s.status ∧ (storeBytes off bs s).arg0 = s.arg0 ∧
    (storeBytes off bs s).arg1 = s.arg1 ∧ (storeBytes off bs s).arg2 = s.arg2 ∧
    (storeBytes off bs s).result0 = s.result0 ∧ (storeBytes off bs s).result1 = s.result1 ∧
    (storeBytes off bs s).busCfg = s.busCfg ∧ (storeBytes off bs s).devCfg = s.devCfg ∧
    (storeBytes off bs s).targetLo = s.targetLo ∧ (storeBytes off bs s).targetHi = s.targetHi ∧
    (storeBytes off bs s).corrOffset = s.corrOffset ∧ (storeBytes off bs s).fosc = s.fosc ∧
    (storeBytes off bs s).romCount = s.romCount ∧ (storeBytes off bs s).registry = s.registry ∧
    (storeBytes off bs s).ram = memSetBytes s.ram off bs ∧ (storeBytes off bs s).driveLow = s.driveLow ∧
    (storeBytes off bs s).latch = s.latch ∧ (storeBytes off bs s).pos = s.pos ∧
    (storeBytes off bs s).search = s.search ∧ (storeBytes off bs s).readPass = s.readPass ∧
    (storeBytes off bs s).devices = s.devices ∧ (storeBytes off bs s).poll = s.poll ∧
    (storeBytes off bs s).capture = s.capture ∧ (storeBytes off bs s).host = s.host ∧
    (storeBytes off bs s).hostReads = s.hostReads ∧ (storeBytes off bs s).bus = s.bus ∧
    (storeBytes off bs s).line = s.line ∧ (storeBytes off bs s).clockIn = s.clockIn ∧
    (storeBytes off bs s).clockReads = s.clockReads ∧ (storeBytes off bs s).draws = s.draws :=
  by repeat' constructor

@[simp] theorem pullLow_fields (p : Byte) (s : State) :
    (pullLow p s).params = s.params ∧ (pullLow p s).lcmd = s.lcmd ∧ (pullLow p s).status = s.status ∧
    (pullLow p s).arg0 = s.arg0 ∧ (pullLow p s).arg1 = s.arg1 ∧ (pullLow p s).arg2 = s.arg2 ∧
    (pullLow p s).result0 = s.result0 ∧ (pullLow p s).result1 = s.result1 ∧ (pullLow p s).busCfg = s.busCfg ∧
    (pullLow p s).devCfg = s.devCfg ∧ (pullLow p s).targetLo = s.targetLo ∧ (pullLow p s).targetHi = s.targetHi ∧
    (pullLow p s).corrOffset = s.corrOffset ∧ (pullLow p s).fosc = s.fosc ∧ (pullLow p s).romCount = s.romCount ∧
    (pullLow p s).registry = s.registry ∧ (pullLow p s).ram = s.ram ∧
    (pullLow p s).driveLow = s.driveLow ||| pinMask p ∧ (pullLow p s).latch = s.latch ∧ (pullLow p s).pos = s.pos ∧
    (pullLow p s).search = s.search ∧ (pullLow p s).readPass = s.readPass ∧ (pullLow p s).devices = s.devices ∧
    (pullLow p s).poll = s.poll ∧ (pullLow p s).capture = s.capture ∧ (pullLow p s).host = s.host ∧
    (pullLow p s).hostReads = s.hostReads ∧ (pullLow p s).bus = s.bus ∧ (pullLow p s).line = .low p :: s.line ∧
    (pullLow p s).clockIn = s.clockIn ∧ (pullLow p s).clockReads = s.clockReads ∧ (pullLow p s).draws = s.draws :=
  by repeat' constructor

@[simp] theorem releaseLine_fields (p : Byte) (s : State) :
    (releaseLine p s).params = s.params ∧ (releaseLine p s).lcmd = s.lcmd ∧ (releaseLine p s).status = s.status ∧
    (releaseLine p s).arg0 = s.arg0 ∧ (releaseLine p s).arg1 = s.arg1 ∧ (releaseLine p s).arg2 = s.arg2 ∧
    (releaseLine p s).result0 = s.result0 ∧ (releaseLine p s).result1 = s.result1 ∧
    (releaseLine p s).busCfg = s.busCfg ∧ (releaseLine p s).devCfg = s.devCfg ∧
    (releaseLine p s).targetLo = s.targetLo ∧ (releaseLine p s).targetHi = s.targetHi ∧
    (releaseLine p s).corrOffset = s.corrOffset ∧ (releaseLine p s).fosc = s.fosc ∧
    (releaseLine p s).romCount = s.romCount ∧ (releaseLine p s).registry = s.registry ∧
    (releaseLine p s).ram = s.ram ∧ (releaseLine p s).driveLow = s.driveLow &&& ~~~ pinMask p ∧
    (releaseLine p s).latch = s.latch ∧ (releaseLine p s).pos = s.pos ∧ (releaseLine p s).search = s.search ∧
    (releaseLine p s).readPass = s.readPass ∧ (releaseLine p s).devices = s.devices ∧
    (releaseLine p s).poll = s.poll ∧ (releaseLine p s).capture = s.capture ∧ (releaseLine p s).host = s.host ∧
    (releaseLine p s).hostReads = s.hostReads ∧ (releaseLine p s).bus = s.bus ∧
    (releaseLine p s).line = .release p :: s.line ∧ (releaseLine p s).clockIn = s.clockIn ∧
    (releaseLine p s).clockReads = s.clockReads ∧ (releaseLine p s).draws = s.draws :=
  by repeat' constructor

@[simp] theorem delayFor_fields (t : Nat) (s : State) :
    (delayFor t s).params = s.params ∧ (delayFor t s).lcmd = s.lcmd ∧ (delayFor t s).status = s.status ∧
    (delayFor t s).arg0 = s.arg0 ∧ (delayFor t s).arg1 = s.arg1 ∧ (delayFor t s).arg2 = s.arg2 ∧
    (delayFor t s).result0 = s.result0 ∧ (delayFor t s).result1 = s.result1 ∧
    (delayFor t s).busCfg = s.busCfg ∧ (delayFor t s).devCfg = s.devCfg ∧
    (delayFor t s).targetLo = s.targetLo ∧ (delayFor t s).targetHi = s.targetHi ∧
    (delayFor t s).corrOffset = s.corrOffset ∧ (delayFor t s).fosc = s.fosc ∧
    (delayFor t s).romCount = s.romCount ∧ (delayFor t s).registry = s.registry ∧
    (delayFor t s).ram = s.ram ∧ (delayFor t s).driveLow = s.driveLow ∧ (delayFor t s).latch = s.latch ∧
    (delayFor t s).pos = s.pos ∧ (delayFor t s).search = s.search ∧ (delayFor t s).readPass = s.readPass ∧
    (delayFor t s).devices = s.devices ∧ (delayFor t s).poll = s.poll ∧ (delayFor t s).capture = s.capture ∧
    (delayFor t s).host = s.host ∧ (delayFor t s).hostReads = s.hostReads ∧ (delayFor t s).bus = s.bus ∧
    (delayFor t s).line = .delay t :: s.line ∧ (delayFor t s).clockIn = s.clockIn ∧
    (delayFor t s).clockReads = s.clockReads ∧ (delayFor t s).draws = s.draws :=
  by repeat' constructor

@[simp] theorem drawByte_fields (s : State) :
    (drawByte s).2.params = s.params ∧ (drawByte s).2.lcmd = s.lcmd ∧ (drawByte s).2.status = s.status ∧
    (drawByte s).2.arg0 = s.arg0 ∧ (drawByte s).2.arg1 = s.arg1 ∧ (drawByte s).2.arg2 = s.arg2 ∧
    (drawByte s).2.result0 = s.result0 ∧ (drawByte s).2.result1 = s.result1 ∧ (drawByte s).2.busCfg = s.busCfg ∧
    (drawByte s).2.devCfg = s.devCfg ∧ (drawByte s).2.targetLo = s.targetLo ∧ (drawByte s).2.targetHi = s.targetHi ∧
    (drawByte s).2.corrOffset = s.corrOffset ∧ (drawByte s).2.fosc = s.fosc ∧ (drawByte s).2.romCount = s.romCount ∧
    (drawByte s).2.registry = s.registry ∧ (drawByte s).2.ram = s.ram ∧ (drawByte s).2.driveLow = s.driveLow ∧
    (drawByte s).2.latch = s.latch ∧ (drawByte s).2.pos = s.pos ∧ (drawByte s).2.search = s.search ∧
    (drawByte s).2.readPass = s.readPass ∧ (drawByte s).2.devices = s.devices ∧ (drawByte s).2.poll = s.poll ∧
    (drawByte s).2.capture = s.capture ∧ (drawByte s).2.host = s.host ∧ (drawByte s).2.hostReads = s.hostReads ∧
    (drawByte s).2.bus = s.bus ∧ (drawByte s).2.line = s.line ∧ (drawByte s).2.clockIn = s.clockIn ∧
    (drawByte s).2.clockReads = s.clockReads ∧ (drawByte s).2.draws = s.draws + 1 :=
  by repeat' constructor

@[simp] theorem endCommand_fields (c : ErrCode) (q : SeqState) (r0 r1 : Word) (s : State) :
    (endCommand c q r0 r1 s).params = s.params ∧ (endCommand c q r0 r1 s).lcmd = s.lcmd ∧
    (endCommand c q r0 r1 s).status.busy = false ∧ (endCommand c q r0 r1 s).status.done = true ∧
    (endCommand c q r0 r1 s).status.presence = s.status.presence ∧
    (endCommand c q r0 r1 s).status.ovr = s.status.ovr ∧ (endCommand c q r0 r1 s).status.accerr = s.status.accerr ∧
    (endCommand c q r0 r1 s).status.rbool = s.status.rbool ∧ (endCommand c q r0 r1 s).status.errcode = c ∧
    (endCommand c q r0 r1 s).status.seqState = q ∧ (endCommand c q r0 r1 s).arg0 = s.arg0 ∧
    (endCommand c q r0 r1 s).arg1 = s.arg1 ∧ (endCommand c q r0 r1 s).arg2 = s.arg2 ∧
    (endCommand c q r0 r1 s).result0 = r0 ∧ (endCommand c q r0 r1 s).result1 = r1 ∧
    (endCommand c q r0 r1 s).busCfg = s.busCfg ∧ (endCommand c q r0 r1 s).devCfg = s.devCfg ∧
    (endCommand c q r0 r1 s).targetLo = s.targetLo ∧ (endCommand c q r0 r1 s).targetHi = s.targetHi ∧
    (endCommand c q r0 r1 s).corrOffset = s.corrOffset ∧ (endCommand c q r0 r1 s).fosc = s.fosc ∧
    (endCommand c q r0 r1 s).romCount = s.romCount ∧ (endCommand c q r0 r1 s).registry = s.registry ∧
    (endCommand c q r0 r1 s).ram = s.ram ∧ (endCommand c q r0 r1 s).driveLow = 0 ∧
    (endCommand c q r0 r1 s).latch = none ∧ (endCommand c q r0 r1 s).pos = .start ∧
    (endCommand c q r0 r1 s).search = none ∧ (endCommand c q r0 r1 s).readPass = none ∧
    (endCommand c q r0 r1 s).devices = [] ∧ (endCommand c q r0 r1 s).poll = none ∧
    (endCommand c q r0 r1 s).capture = none ∧ (endCommand c q r0 r1 s).host = s.host ∧
    (endCommand c q r0 r1 s).hostReads = s.hostReads ∧ (endCommand c q r0 r1 s).bus = s.bus ∧
    (endCommand c q r0 r1 s).line = s.line ∧ (endCommand c q r0 r1 s).clockIn = s.clockIn ∧
    (endCommand c q r0 r1 s).clockReads = s.clockReads ∧ (endCommand c q r0 r1 s).draws = s.draws :=
  by repeat' constructor

@[simp] theorem accept_fields (w : Word) (s : State) :
    (accept w s).params = s.params ∧ (accept w s).lcmd = w ∧ (accept w s).status.busy = true ∧
    (accept w s).status.done = false ∧ (accept w s).status.presence = s.status.presence ∧
    (accept w s).status.ovr = s.status.ovr ∧ (accept w s).status.accerr = s.status.accerr ∧
    (accept w s).status.rbool = false ∧ (accept w s).status.errcode = .none ∧
    (accept w s).status.seqState = (if (commandFields w).opc = 0x20 then SeqState.searching else SeqState.busyOther) ∧
    (accept w s).arg0 = s.arg0 ∧ (accept w s).arg1 = s.arg1 ∧ (accept w s).arg2 = s.arg2 ∧ (accept w s).result0 = 0 ∧
    (accept w s).result1 = 0 ∧ (accept w s).busCfg = s.busCfg ∧ (accept w s).devCfg = s.devCfg ∧
    (accept w s).targetLo = s.targetLo ∧ (accept w s).targetHi = s.targetHi ∧
    (accept w s).corrOffset = s.corrOffset ∧ (accept w s).fosc = s.fosc ∧ (accept w s).romCount = s.romCount ∧
    (accept w s).registry = s.registry ∧ (accept w s).ram = s.ram ∧ (accept w s).driveLow = s.driveLow ∧
    (accept w s).latch = some
        { a0 := s.arg0, a1 := s.arg1, a2 := s.arg2, corr := s.corrOffset, foscl := foscEff s, tgt := targetId s } ∧
    (accept w s).pos = .start ∧ (accept w s).search = none ∧ (accept w s).readPass = none ∧
    (accept w s).devices = [] ∧ (accept w s).poll = none ∧ (accept w s).capture = none ∧ (accept w s).host = s.host ∧
    (accept w s).hostReads = s.hostReads ∧ (accept w s).bus = s.bus ∧ (accept w s).line = s.line ∧
    (accept w s).clockIn = s.clockIn ∧ (accept w s).clockReads = s.clockReads ∧ (accept w s).draws = s.draws :=
  by repeat' constructor

end Sys2Proof.Machine
end

