-- ==== Sys2Proof/Laws/Memory.lean ====
section
/-! SUPPORT. Memory: reading what was written, leaving the rest alone, keeping the canonical form; and that a wider value
is the value of its bytes. -/

namespace Sys2Proof.Machine

/-- Reading after one write: the byte written, or what was there. -/
theorem memGet_memSet (m : List Host.Cell) (a : Nat) (b : Byte) (x : Nat) :
    memGet (memSet m a b) x = if x = a then some b else memGet m x := by
  induction m with
  | nil => simp [memSet, memGet]
  | cons c m ih =>
    obtain ⟨k, v⟩ := c
    simp only [memSet]
    split
    · simp [memGet]
    · split
      · subst k; simp only [memGet]; split <;> rfl
      · simp only [memGet, ih]
        by_cases h : x = k
        · subst h; simp_all [eq_comm]
        · simp [h]

/-- Reading after a write of consecutive bytes. -/
theorem memGet_memSetBytes (m : List Host.Cell) (off : Nat) (bs : List Byte) (x : Nat) :
    memGet (memSetBytes m off bs) x =
      if off ≤ x ∧ x < off + bs.length then bs[x - off]? else memGet m x := by
  induction bs generalizing m off with
  | nil => simp [memSetBytes]
  | cons b bs ih =>
    simp only [memSetBytes, ih, memGet_memSet, List.length_cons]
    by_cases h1 : x = off
    · subst h1; simp
    · by_cases h2 : off + 1 ≤ x ∧ x < off + 1 + bs.length
      · have h3 : off ≤ x ∧ x < off + (bs.length + 1) := by omega
        have h4 : x - off = (x - (off + 1)) + 1 := by omega
        simp [h2, h3, h4]
      · have h3 : ¬ (off ≤ x ∧ x < off + (bs.length + 1)) := by omega
        rw [if_neg h2, if_neg h3, if_neg h1]

theorem risingFrom_mono {lo lo' : Nat} {m : List Host.Cell} (h : risingFrom lo m = true) (hle : lo' ≤ lo) :
    risingFrom lo' m = true := by
  cases m with
  | nil => rfl
  | cons c m => obtain ⟨k, v⟩ := c; simp_all [risingFrom]; omega

theorem risingFrom_memSet {lo a : Nat} {m : List Host.Cell} (b : Byte) (h : risingFrom lo m = true) (ha : lo ≤ a) :
    risingFrom lo (memSet m a b) = true := by
  induction m generalizing lo with
  | nil => simp [memSet, risingFrom, ha]
  | cons c m ih =>
    obtain ⟨k, v⟩ := c
    simp only [risingFrom, Bool.and_eq_true, decide_eq_true_eq] at h
    simp only [memSet]
    split
    · simp only [risingFrom, Bool.and_eq_true, decide_eq_true_eq]; exact ⟨ha, by omega, h.2⟩
    · split
      · subst k; simpa [risingFrom, ha] using h.2
      · simp only [risingFrom, Bool.and_eq_true, decide_eq_true_eq]
        exact ⟨h.1, ih h.2 (by omega)⟩

/-- A write keeps the canonical form. -/
theorem memWf_memSet {m : List Host.Cell} (a : Nat) (b : Byte) (h : memWf m = true) : memWf (memSet m a b) = true :=
  risingFrom_memSet b h (Nat.zero_le a)

/-- A write of consecutive bytes keeps the canonical form. -/
theorem memWf_memSetBytes {m : List Host.Cell} (off : Nat) (bs : List Byte) (h : memWf m = true) :
    memWf (memSetBytes m off bs) = true := by
  induction bs generalizing m off with
  | nil => exact h
  | cons b bs ih => exact ih (off + 1) (memWf_memSet off b h)

/-- The memory after reset is canonical. -/
theorem memWf_reset : memWf State.reset.ram = true := rfl

theorem mem_memSet {m : List Host.Cell} {a : Nat} {b : Byte} {c : Host.Cell} (h : c ∈ memSet m a b) :
    c.1 = a ∨ c ∈ m := by
  induction m with
  | nil => simp [memSet] at h; exact .inl (by rw [h])
  | cons d m ih =>
    obtain ⟨k, v⟩ := d
    simp only [memSet] at h
    split at h
    · rcases List.mem_cons.1 h with rfl | h
      · exact .inl rfl
      · exact .inr h
    · split at h
      · rcases List.mem_cons.1 h with rfl | h
        · exact .inl rfl
        · exact .inr (List.mem_cons_of_mem _ h)
      · rcases List.mem_cons.1 h with rfl | h
        · exact .inr (List.mem_cons_self ..)
        · exact (ih h).imp id (List.mem_cons_of_mem _)

/-- A listed offset after a write is one of those written, or was listed. -/
theorem mem_memSetBytes {m : List Host.Cell} {off : Nat} {bs : List Byte} {c : Host.Cell}
    (h : c ∈ memSetBytes m off bs) : (off ≤ c.1 ∧ c.1 < off + bs.length) ∨ c ∈ m := by
  induction bs generalizing m off with
  | nil => exact .inr h
  | cons b bs ih =>
    rcases ih h with h | h
    · left; simp only [List.length_cons]; omega
    · rcases mem_memSet h with h | h
      · left; simp only [List.length_cons]; omega
      · exact .inr h

/-- `ramRange`, offset by offset. -/
theorem ramRange_iff (p : Params) (off n : Nat) :
    ramRange p off n = true ↔ ∀ k, k < n → inRam p (off + k) = true := by
  simp [ramRange]

/-- The DBUF bytes are in RAM. -/
theorem inRam_dbuf {p : Params} {a : Nat} (h1 : dbufBase ≤ a) (h2 : a < dbufBase + dbufSize) : inRam p a = true := by
  simp [inRam, inDbuf, h1, h2]

/-- A range inside DBUF. -/
theorem ramRange_dbuf {p : Params} {off n : Nat} (h : off + n ≤ dbufSize) : ramRange p (dbufBase + off) n = true := by
  rw [ramRange_iff]; intro k hk; exact inRam_dbuf (by omega) (by omega)

/-- A range inside ROMTAB. -/
theorem ramRange_romtab {p : Params} {off n : Nat} (h : off + n ≤ 8 * p.maxDevices) :
    ramRange p (romtabBase + off) n = true := by
  rw [ramRange_iff]; intro k hk
  have h1 : romtabBase ≤ romtabBase + off + k := by omega
  have h2 : romtabBase + off + k < romtabBase + 8 * p.maxDevices := by omega
  simp [inRam, inRomtab, h1, h2]

/-- A range inside RESTAB. -/
theorem ramRange_restab {p : Params} {off n : Nat} (h : off + n ≤ 32 * p.maxDevices) :
    ramRange p (restabBase + off) n = true := by
  rw [ramRange_iff]; intro k hk
  have h1 : restabBase ≤ restabBase + off + k := by omega
  have h2 : restabBase + off + k < restabBase + 32 * p.maxDevices := by omega
  simp [inRam, inRestab, h1, h2]

/-- Bytes that were written read back without a draw. -/
theorem ramBytes_written {s : State} {a n : Nat} {data : List Byte} (hlen : data.length = n)
    (h : ∀ k, k < n → memGet s.ram (a + k) = data[k]?) : ramBytes a n s = (data, s) := by
  induction n generalizing a data with
  | zero => simp_all [ramBytes]
  | succ n ih =>
    cases data with
    | nil => simp at hlen
    | cons b bs =>
      have h0 := h 0 (by omega)
      have ht := ih (a := a + 1) (data := bs) (by simpa using hlen) (fun k hk => by
        have := h (k + 1) (by omega)
        rw [show a + 1 + k = a + (k + 1) by omega, this]; simp)
      simp only [Nat.add_zero, List.getElem?_cons_zero] at h0
      simp [ramBytes, ramByte, h0, ht]

/-- A block read keeps everything but the count of draws. -/
theorem ramBytes_frame (a n : Nat) (s : State) : (ramBytes a n s).2 = { s with draws := (ramBytes a n s).2.draws } := by
  induction n generalizing a s with
  | zero => rfl
  | succ n ih =>
    simp only [ramBytes]
    rw [ih]
    simp only [ramByte, drawByte]
    split <;> rfl

/-- A block read gives as many bytes as asked for. -/
theorem ramBytes_length (a n : Nat) (s : State) : (ramBytes a n s).1.length = n := by
  induction n generalizing a s with
  | zero => rfl
  | succ n ih => simp [ramBytes, ih]

/-! ## Wider values and their bytes -/

theorem byteBits_length (b : Byte) : (byteBits b).length = 8 := by simp [byteBits]

/-- A byte is the byte of its bits. -/
theorem byteOfBits_byteBits (b : Byte) : byteOfBits (byteBits b) = b := by
  revert b; decide +kernel

theorem romBytes_length (r : RomId) : (romBytes r).length = 8 := by simp [romBytes]

theorem wordBytes_length (w : Word) : (wordBytes w).length = 4 := by simp [wordBytes]

/-- A ROM id is the id of its bytes. -/
theorem romOfBytes_romBytes (r : RomId) : romOfBytes (romBytes r) = r := by
  apply BitVec.eq_of_getLsbD_eq
  intro i hi
  simp only [romBytes, romOfBytes, List.range_succ, List.range_zero, List.nil_append, List.cons_append, List.map_cons,
    List.map_nil, List.foldr_cons, List.foldr_nil]
  interval_cases i <;> simp

/-- A word is the word of its bytes. -/
theorem wordOfBytes_wordBytes (w : Word) : wordOfBytes (wordBytes w) = w := by
  apply BitVec.eq_of_getLsbD_eq
  intro i hi
  simp only [wordBytes, wordOfBytes, List.range_succ, List.range_zero, List.nil_append, List.cons_append, List.map_cons,
    List.map_nil, List.foldr_cons, List.foldr_nil]
  interval_cases i <;> simp

end Sys2Proof.Machine
end

