-- ==== Sys2Proof/Laws/Sequencer.lean ====
section
/-! SUPPORT. What each sequencer operation does, said once: how a rule's pieces compose, and, when the host leaves the
block alone, what each step form, each slot and each shared procedure answers. -/

namespace Sys2Proof.Machine

/-! ## Composition -/

theorem seq_bind {α β : Type} (m : Seq α) (f : α → Seq β) (s : State) :
    (m >>= f) s = match m s with
      | .ok r => f r.1 r.2
      | .error o => .error o := by
  show StateT.bind m f s = _
  simp only [StateT.bind, bind, Except.bind]
  cases m s <;> rfl

/-- A piece that goes on hands its value and state to the rest. -/
theorem seq_bind_ok {α β : Type} {m : Seq α} {f : α → Seq β} {s s' : State} {a : α} (h : m s = .ok (a, s')) :
    (m >>= f) s = f a s' := by rw [seq_bind, h]

/-- A piece that ends the step ends it for the rest too. -/
theorem seq_bind_error {α β : Type} {m : Seq α} {f : α → Seq β} {s : State} {o : Halt} (h : m s = .error o) :
    (m >>= f) s = .error o := by rw [seq_bind, h]

theorem seq_get (s : State) : (get : Seq State) s = .ok (s, s) := rfl

theorem seq_pure {α : Type} (a : α) (s : State) : (pure a : Seq α) s = .ok (a, s) := rfl

theorem seq_get_bind {β : Type} (f : State → Seq β) (s : State) : (get >>= f) s = f s s := rfl

theorem seq_pure_bind {α β : Type} (a : α) (f : α → Seq β) (s : State) : ((pure a : Seq α) >>= f) s = f a s := rfl

/-- A hidden change always goes on. -/
theorem hidden_run (f : State → State) (s : State) : hidden f s = .ok ((), f s) := rfl

theorem suspend_run {α : Type} (s : State) : (suspend : Seq α) s = .error (.next s) := rfl

/-- Running a rule on an accepted command. -/
theorem runRule_latched {rule : Latch → Seq Unit} {s : State} {l : Latch} (h : s.latch = some l) :
    runRule rule s = match rule l s with
      | .ok r => .next r.2
      | .error o => o := by
  simp only [runRule, h]
  all_goals cases rule l s <;> rfl

/-- A rule that ends with an answer gives that answer. -/
theorem runRule_error {rule : Latch → Seq Unit} {s : State} {l : Latch} {o : Halt} (hl : s.latch = some l)
    (h : rule l s = .error o) : runRule rule s = o := by simp [runRule, hl, h]

/-! ## Steps while the host is quiet -/

theorem hostTurn_quiet {inSlot : Bool} {s : State} (h : s.host = []) : hostTurn inSlot s.host s = .ok s := by
  have : ({ s with host := [] } : State) = s := by rw [← h]
  simp [h, hostTurn, this]

/-- A step of a quiet machine is its action. -/
theorem sequencerStep_quiet {α : Type} {inSlot : Bool} {f : State → α × State} {s : State} (h : s.host = []) :
    sequencerStep inSlot f s = .ok (f s) := by
  simp [sequencerStep, hostTurn_quiet h]

/-- The last step of a quiet machine is the end. -/
theorem lastStep_quiet {α : Type} {f : State → State} {s : State} (h : s.host = []) :
    (lastStep f : Seq α) s = .error (.next (f s)) := by
  simp [lastStep, hostTurn_quiet h]

theorem update_quiet {f : State → State} {s : State} (h : s.host = []) : update f s = .ok ((), f s) :=
  sequencerStep_quiet h

theorem finish_quiet {α : Type} {r0 r1 : Word} {s : State} (h : s.host = []) :
    (finish r0 r1 : Seq α) s = .error (.next (okEnd r0 r1 s)) := lastStep_quiet h

theorem raise_quiet {α : Type} {c : ErrCode} {s : State} (h : s.host = []) :
    (raise c : Seq α) s = .error (.next (errorEnd c 0 s)) := lastStep_quiet h

theorem now_quiet {s : State} (h : s.host = []) : now s = .ok (readClock s) := sequencerStep_quiet h

theorem slotReset_quiet {s : State} (h : s.host = []) : slotReset s = .ok (resetSlot s) := sequencerStep_quiet h

theorem slotRead_quiet {s : State} (h : s.host = []) : slotRead s = .ok (readSlot s) := sequencerStep_quiet h

theorem slotWrite_quiet {b : Bool} {s : State} (h : s.host = []) : slotWrite b s = .ok ((), writeSlot b s) :=
  sequencerStep_quiet h

theorem memWrite_quiet {off : Nat} {bs : List Byte} {s : State} (h : s.host = [])
    (hr : ramRange s.params off bs.length = true) : memWrite off bs s = .ok ((), storeBytes off bs s) := by
  simp [memWrite, hr, update_quiet h]

theorem memRead_run {off n : Nat} {s : State} (hr : ramRange s.params off n = true) :
    memRead off n s = .ok (ramBytes off n s) := by
  simp [memRead, hr]

/-! ## Slots -/

theorem pinMask_self (p : Byte) : (pinMask p).getLsbD p.toNat = true := by
  have hp : p.toNat < 256 := p.isLt
  simp [pinMask, hp]

theorem released_mask (d : BitVec 256) (p : Byte) : (d ||| pinMask p) &&& ~~~ pinMask p = d &&& ~~~ pinMask p := by
  ext i hi
  simp only [BitVec.getElem_and, BitVec.getElem_or, BitVec.getElem_not]
  cases (pinMask p)[i] <;> simp

theorem released_twice (d : BitVec 256) (p : Byte) : d &&& ~~~ pinMask p &&& ~~~ pinMask p = d &&& ~~~ pinMask p := by
  rw [BitVec.and_assoc, BitVec.and_self]

/-- Between slots the line only ever moves to released. -/
theorem onLine_onLine (s : State) (a b : List Slot) (r1 r2 : List Bool) :
    onLine (onLine s a r1) b r2 = onLine s (a ++ b) r2 := by
  simp only [onLine, traffic, List.flatMap_append, List.reverse_append, List.append_assoc]
  congr 1
  cases a <;> cases b <;> simp [released_twice]

theorem onLine_nil (s : State) : onLine s [] s.bus = s := rfl

@[simp] theorem onLine_host (s : State) (ss : List Slot) (r : List Bool) : (onLine s ss r).host = s.host := rfl
@[simp] theorem onLine_bus (s : State) (ss : List Slot) (r : List Bool) : (onLine s ss r).bus = r := rfl
@[simp] theorem onLine_params (s : State) (ss : List Slot) (r : List Bool) : (onLine s ss r).params = s.params := rfl
@[simp] theorem onLine_registry (s : State) (ss : List Slot) (r : List Bool) : (onLine s ss r).registry = s.registry := rfl
@[simp] theorem onLine_busCfg (s : State) (ss : List Slot) (r : List Bool) : (onLine s ss r).busCfg = s.busCfg := rfl

/-- `slot_reset()`: the presence result is that the sample read 0 (41_bus R252). -/
theorem resetSlot_eq (s : State) (v : Bool)
    (hv : v = nextAnswer s [.delay (s.params.tp s.busCfg.speed).rstSample, .release s.busCfg.pin,
      .delay (s.params.tp s.busCfg.speed).rstLow, .low s.busCfg.pin]) :
    resetSlot s = (!v, setPresence (!v) (onLine s [.reset v] s.bus.tail)) := by
  subst hv
  simp [resetSlot, sampleLine, lineLevel, deviceLevel, nextAnswer, pullLow, releaseLine, delayFor, pinMask_self,
    released_mask, onLine, traffic, slotWave, setPresence]
  all_goals cases s.bus <;> rfl

/-- `slot_read()`: the bit is the sample (41_bus R254). -/
theorem readSlot_eq (s : State) (v : Bool)
    (hv : v = nextAnswer s [.delay (s.params.tp s.busCfg.speed).rSample, .release s.busCfg.pin,
      .delay (s.params.tp s.busCfg.speed).w1Low, .low s.busCfg.pin]) :
    readSlot s = (v, onLine s [.read v] s.bus.tail) := by
  subst hv
  simp [readSlot, sampleLine, lineLevel, deviceLevel, nextAnswer, pullLow, releaseLine, delayFor, pinMask_self,
    released_mask, onLine, traffic, slotWave]
  all_goals cases s.bus <;> rfl

/-- `slot_write(b)` samples nothing (41_bus R253). -/
theorem writeSlot_eq (b : Bool) (s : State) : writeSlot b s = onLine s [.write b] s.bus := by
  cases b <;>
    simp [writeSlot, pullLow, releaseLine, delayFor, released_mask, onLine, traffic, slotWave]

theorem resetSlot_answer {s : State} {v : Bool} {rest : List Bool} (h : s.bus = v :: rest) :
    resetSlot s = (!v, setPresence (!v) (onLine s [.reset v] rest)) := by
  rw [resetSlot_eq s v (by simp [nextAnswer, h]), h]; rfl

theorem readSlot_answer {s : State} {v : Bool} {rest : List Bool} (h : s.bus = v :: rest) :
    readSlot s = (v, onLine s [.read v] rest) := by
  rw [readSlot_eq s v (by simp [nextAnswer, h]), h]; rfl

theorem slotReset_answer {s : State} {v : Bool} {rest : List Bool} (hq : s.host = []) (h : s.bus = v :: rest) :
    slotReset s = .ok (!v, setPresence (!v) (onLine s [.reset v] rest)) := by
  rw [slotReset_quiet hq, resetSlot_answer h]

theorem slotRead_answer {s : State} {v : Bool} {rest : List Bool} (hq : s.host = []) (h : s.bus = v :: rest) :
    slotRead s = .ok (v, onLine s [.read v] rest) := by
  rw [slotRead_quiet hq, readSlot_answer h]

/-! ## Bytes on the line -/

theorem writeBits_quiet {bs : List Bool} {s : State} (h : s.host = []) :
    writeBits bs s = .ok ((), onLine s (bs.map .write) s.bus) := by
  induction bs generalizing s with
  | nil => rfl
  | cons b bs ih =>
    rw [writeBits, seq_bind_ok (slotWrite_quiet h), writeSlot_eq, ih (by simpa using h), onLine_onLine]
    rfl

theorem writeByte_quiet {v : Byte} {s : State} (h : s.host = []) :
    writeByte v s = .ok ((), onLine s (sent [v]) s.bus) := by
  rw [writeByte, writeBits_quiet h]; simp [sent]

theorem writeBytes_quiet {vs : List Byte} {s : State} (h : s.host = []) :
    writeBytes vs s = .ok ((), onLine s (sent vs) s.bus) := by
  induction vs generalizing s with
  | nil => rfl
  | cons v vs ih =>
    rw [writeBytes, seq_bind_ok (writeByte_quiet h), ih (by simpa using h), onLine_onLine]
    simp [sent]

theorem readBits_answers {vs rest : List Bool} {s : State} (h : s.host = []) (hb : s.bus = vs ++ rest) :
    readBits vs.length s = .ok (vs, onLine s (vs.map .read) rest) := by
  induction vs generalizing s with
  | nil => simp at hb; subst hb; rfl
  | cons v vs ih =>
    rw [List.length_cons, readBits, seq_bind_ok (slotRead_answer h (by simpa using hb)),
      seq_bind_ok (ih (by simpa using h) (by simp)), seq_pure, onLine_onLine]
    rfl

theorem readByte_answers {v : Byte} {rest : List Bool} {s : State} (h : s.host = []) (hb : s.bus = byteBits v ++ rest) :
    readByte s = .ok (v, onLine s (received [v]) rest) := by
  have := readBits_answers h hb
  rw [byteBits_length] at this
  rw [readByte, seq_bind_ok this, seq_pure, byteOfBits_byteBits]
  simp [received]

theorem readBytes_answers {vs : List Byte} {rest : List Bool} {s : State} (h : s.host = [])
    (hb : s.bus = answers vs ++ rest) : readBytes vs.length s = .ok (vs, onLine s (received vs) rest) := by
  induction vs generalizing s with
  | nil => simp [answers] at hb; subst hb; rfl
  | cons v vs ih =>
    rw [List.length_cons, readBytes,
      seq_bind_ok (readByte_answers (rest := answers vs ++ rest) h (by simpa [answers] using hb)),
      seq_bind_ok (ih (by simpa using h) (by simp)), seq_pure, onLine_onLine]
    simp [received]

/-! ## Shared procedures -/

/-- A requirement that holds is no step. -/
theorem require_true (c : ErrCode) : require true c = pure () := rfl

/-- A requirement that fails raises its error. -/
theorem require_false (c : ErrCode) : require false c = raise c := rfl

theorem busCheck_configured {s : State} (h : s.busCfg.configured = true) : busCheck s = .ok ((), s) := by
  rw [busCheck, seq_get_bind, h]; rfl

theorem busCheck_unconfigured {s : State} (h : s.busCfg.configured = false) (hq : s.host = []) :
    busCheck s = .error (.next (errorEnd .badPin 0 s)) := by
  rw [busCheck, seq_get_bind, h, require_false, raise_quiet hq]

theorem checkTarget_valid {s : State} {l : Latch} (h : validId s l.tgt = true) : checkTarget l s = .ok ((), s) := by
  rw [checkTarget, seq_get_bind, h]; rfl

theorem checkTarget_invalid {s : State} {l : Latch} (h : validId s l.tgt = false) (hq : s.host = []) :
    checkTarget l s = .error (.next (errorEnd .badId 0 s)) := by
  rw [checkTarget, seq_get_bind, h, require_false, raise_quiet hq]

/-- The target check of a command with a valid target, or with none (43_session R352). -/
theorem checkSingle_ok {s : State} {m : Addressing} {l : Latch} (h : TargetOk s m l) :
    checkSingle m l s = .ok ((), s) := by
  cases m with
  | multi => rfl
  | single =>
    have h' : l.tgt ≠ 0 ∧ crc8 s (romBytes l.tgt) = 0 := h
    exact checkTarget_valid (by simp [validId, h'.2]; exact h'.1)

theorem needPresence_answer {s : State} {rest : List Bool} (hq : s.host = []) (h : s.bus = false :: rest) :
    needPresence s = .ok ((), setPresence true (onLine s [.reset false] rest)) := by
  rw [needPresence, seq_bind_ok (slotReset_answer hq h)]; rfl

theorem needPresence_none {s : State} {rest : List Bool} (hq : s.host = []) (h : s.bus = true :: rest) :
    needPresence s = .error (.next (errorEnd .noPresence 0 (setPresence false (onLine s [.reset true] rest)))) := by
  rw [needPresence, seq_bind_ok (slotReset_answer hq h), Bool.not_true, require_false]
  exact raise_quiet hq

theorem matchRom_quiet {id : RomId} {s : State} (h : s.host = []) :
    matchRom id s = .ok ((), onLine s (sent (addressBytes s.params .single id)) s.bus) := by
  rw [matchRom, seq_get_bind, seq_bind_ok (writeByte_quiet h), writeBytes_quiet (by simpa using h), onLine_onLine]
  simp [sent, addressBytes]

theorem skipRom_quiet {id : RomId} {s : State} (h : s.host = []) :
    skipRom s = .ok ((), onLine s (sent (addressBytes s.params .multi id)) s.bus) := by
  rw [skipRom, seq_get_bind, writeByte_quiet h]; rfl

theorem onLine_setPresence (b : Bool) (s : State) (ss : List Slot) (r : List Bool) :
    onLine (setPresence b s) ss r = setPresence b (onLine s ss r) := rfl

theorem onLine_setSeq (q : SeqState) (s : State) (ss : List Slot) (r : List Bool) :
    onLine (setSeq q s) ss r = setSeq q (onLine s ss r) := rfl

/-- The address step when a device answers its reset (43_session R351). -/
theorem address_answer {m : Addressing} {id : RomId} {s : State} {rest : List Bool} (hq : s.host = [])
    (h : s.bus = false :: rest) :
    address m id s =
      .ok ((), setSeq .addressed (setPresence true (onLine s (addressSlots s.params m id) rest))) := by
  have hq' : (setPresence true (onLine s [.reset false] rest)).host = [] := hq
  rw [address, seq_bind_ok (needPresence_answer hq h)]
  cases m with
  | multi =>
    simp only []
    rw [seq_bind_ok (skipRom_quiet (id := id) hq'), update_quiet (by simpa using hq), onLine_setPresence, onLine_onLine]
    rfl
  | single =>
    simp only []
    rw [seq_bind_ok (matchRom_quiet hq'), update_quiet (by simpa using hq), onLine_setPresence, onLine_onLine]
    rfl

/-- The address step when no device answers its reset (43_session R351). -/
theorem address_none {m : Addressing} {id : RomId} {s : State} {rest : List Bool} (hq : s.host = [])
    (h : s.bus = true :: rest) :
    address m id s = .error (.next (errorEnd .noPresence 0 (setPresence false (onLine s [.reset true] rest)))) := by
  rw [address, seq_bind_error (needPresence_none hq h)]

theorem writeSpad_answer {m : Addressing} {id : RomId} {th tl cf : Byte} {s : State} {rest : List Bool}
    (hq : s.host = []) (h : s.bus = false :: rest) :
    writeSpad m id th tl cf s =
      .ok ((), setSeq .addressed (setPresence true (onLine s
        (addressSlots s.params m id ++ sent [s.params.owcWriteSpad, th, tl, cf]) rest))) := by
  rw [writeSpad, seq_bind_ok (address_answer hq h), seq_get_bind, writeBytes_quiet (by simpa using hq), onLine_setSeq,
    onLine_setPresence, onLine_onLine]
  rfl

theorem startOperation_answer {m : Addressing} {id : RomId} {cmd : Byte} {s : State} {rest : List Bool}
    (hq : s.host = []) (h : s.bus = false :: rest) :
    startOperation m id cmd s =
      .ok ((), setSeq .converting (setPresence true (onLine s (addressSlots s.params m id ++ sent [cmd]) rest))) := by
  rw [startOperation, seq_bind_ok (address_answer hq h), seq_bind_ok (writeByte_quiet (by simpa using hq)),
    update_quiet (by simpa using hq), onLine_setSeq, onLine_setPresence, onLine_onLine]
  rfl

theorem readSpad_answers {sp : List Byte} {rest : List Bool} {s : State} (hq : s.host = []) (hlen : sp.length = 9)
    (hb : s.bus = answers sp ++ rest) :
    readSpad s = .ok (sp, setSeq .readingSpad (onLine s (sent [s.params.owcReadSpad] ++ received sp) rest)) := by
  have hq' : (setSeq .readingSpad (onLine s (sent [s.params.owcReadSpad]) s.bus)).host = [] := hq
  have := readBytes_answers (vs := sp) (rest := rest) hq' hb
  rw [hlen] at this
  rw [readSpad, seq_get_bind, seq_bind_ok (writeByte_quiet hq), seq_bind_ok (update_quiet (by simpa using hq)), this,
    onLine_setSeq, onLine_onLine]

end Sys2Proof.Machine
end

