-- ==== Sys2Proof/Laws/Triple.lean ====
section
/-! SUPPORT. Reasoning about a rule piece by piece: `Meets P m Q E` says that from every state with P the piece m, if it
goes on, does so with Q, and, if it ends the machine's step, gives an answer with E. One lemma for each way pieces are put
together, one for each kind of step, and one for each loop. -/

namespace Sys2Proof.Machine

/-- From P, the piece goes on with Q or ends the step with an answer that has E. -/
def Meets {α : Type} (P : State → Prop) (m : Seq α) (Q : α → State → Prop) (E : Halt → Prop) : Prop :=
  ∀ s, P s → match m s with
    | .ok r => Q r.1 r.2
    | .error o => E o

/-- The answer is a next state with E, never a fault or a refusal. -/
def Always (E : State → Prop) (o : Halt) : Prop := ∃ t, o = .next t ∧ E t

/-- If the answer is a next state, that has E. -/
def IfNext (E : State → Prop) (o : Halt) : Prop := ∀ t, o = .next t → E t

theorem always_next {E : State → Prop} {t : State} (h : E t) : Always E (.next t) := ⟨t, rfl, h⟩

theorem ifNext_next {E : State → Prop} {t : State} (h : E t) : IfNext E (.next t) := fun _ e => by cases e; exact h

theorem ifNext_fault {E : State → Prop} {f : Fault} : IfNext E (.fault f) := fun _ e => by cases e

variable {α β : Type} {P : State → Prop} {Q : α → State → Prop} {R : β → State → Prop} {E : Halt → Prop}

theorem meets_pure (a : α) (h : ∀ s, P s → Q a s) : Meets P (pure a : Seq α) Q E := fun s hs => h s hs

/-- Pieces in sequence. -/
theorem meets_bind {m : Seq α} {f : α → Seq β} (hm : Meets P m Q E) (hf : ∀ a, Meets (Q a) (f a) R E) :
    Meets P (m >>= f) R E := by
  intro s hs
  have h1 := hm s hs
  rw [seq_bind]
  cases h : m s with
  | ok r => rw [h] at h1; exact hf r.1 r.2 h1
  | error o => rw [h] at h1; exact h1

/-- Reading the state: the rest is checked for every state with P. -/
theorem meets_get_bind {f : State → Seq β} (h : ∀ s0, P s0 → Meets (fun s => s = s0) (f s0) R E) :
    Meets P (get >>= f) R E := fun s hs => h s hs s rfl

/-- Reading the state in front of a piece that answers from P whatever was read. -/
theorem meets_get {f : State → Seq β} (h : ∀ s0, P s0 → Meets P (f s0) R E) : Meets P (get >>= f) R E :=
  fun s hs => h s hs s hs

theorem meets_ite {c : Prop} [Decidable c] {m m' : Seq α} (h1 : c → Meets P m Q E) (h2 : ¬ c → Meets P m' Q E) :
    Meets P (if c then m else m') Q E := by
  split
  · exact h1 ‹_›
  · exact h2 ‹_›

/-- Weaken what is asked, strengthen what is known. -/
theorem meets_mono {P' : State → Prop} {Q' : α → State → Prop} {E' : Halt → Prop} {m : Seq α} (h : Meets P m Q E)
    (hp : ∀ s, P' s → P s) (hq : ∀ a s, Q a s → Q' a s) (he : ∀ o, E o → E' o) : Meets P' m Q' E' := by
  intro s hs
  have h1 := h s (hp s hs)
  revert h1
  cases m s with
  | ok r => exact hq _ _
  | error o => exact he o

/-- From one state known to have P. -/
theorem meets_at {m : Seq α} {s0 : State} (h : Meets P m Q E) (h0 : P s0) : Meets (fun s => s = s0) m Q E :=
  meets_mono h (fun _ e => e ▸ h0) (fun _ _ h => h) fun _ h => h

theorem meets_hidden {f : State → State} {Q : Unit → State → Prop}
    (h : ∀ s, P s → Q () (f s)) : Meets P (hidden f) Q E := fun s hs => h s hs

theorem meets_suspend (h : ∀ s, P s → E (.next s)) : Meets P (suspend : Seq α) Q E := fun s hs => h s hs

/-- What the host's turn does: it keeps P, or, by a reset, ends the step with E. -/
def HostKeeps (P : State → Prop) (E : Halt → Prop) : Prop :=
  ∀ s inSlot, P s → match hostTurn inSlot s.host s with
    | .ok t => P t
    | .error o => E o

/-- One step: the host's turn keeps P, then the action. -/
theorem meets_step {inSlot : Bool} {f : State → α × State} (hh : HostKeeps P E) (h : ∀ s, P s → Q (f s).1 (f s).2) :
    Meets P (sequencerStep inSlot f) Q E := by
  intro s hs
  have h1 := hh s inSlot hs
  unfold sequencerStep
  revert h1
  cases hostTurn inSlot s.host s with
  | ok t => exact h t
  | error o => exact id

/-- The last step: the host's turn keeps P, then the end. -/
theorem meets_lastStep {f : State → State} (hh : HostKeeps P E) (h : ∀ s, P s → E (.next (f s))) :
    Meets P (lastStep f : Seq α) Q E := by
  intro s hs
  have h1 := hh s false hs
  unfold lastStep
  revert h1
  cases hostTurn false s.host s with
  | ok t => exact h t
  | error o => exact id

/-- A quiet host does nothing. -/
theorem hostKeeps_quiet (h : ∀ s, P s → s.host = []) : HostKeeps P E := by
  intro s b hs
  rw [hostTurn_quiet (h s hs)]
  exact hs

/-- A property each host access keeps, whatever list the host still has, and that a reset turns into E. -/
theorem hostKeeps_of (hacc : ∀ a s, P s → P (hostAccess a s)) (hhost : ∀ l s, P s → P { s with host := l })
    (hreset : ∀ c s, P s → E (.next (resetInput c s))) : HostKeeps P E := by
  intro s b hs
  generalize hl : s.host = l
  clear hl
  induction l generalizing s with
  | nil => exact hhost [] s hs
  | cons it rest ih =>
    obtain ⟨w, e⟩ := it
    cases w with
    | succ k => exact hhost _ s hs
    | zero =>
      cases e with
      | access a => exact ih _ (hacc a s hs)
      | reset c => exact hreset _ _ (hhost rest s hs)

/-- A block read of RAM inside the windows. -/
theorem meets_memRead {off n : Nat} {Q : List Byte → State → Prop}
    (h : ∀ s, P s → ramRange s.params off n = true → Q (ramBytes off n s).1 (ramBytes off n s).2)
    (hf : ∀ s, P s → ramRange s.params off n = false → E (.fault (.unmapped off))) : Meets P (memRead off n) Q E := by
  intro s hs
  unfold memRead
  cases hr : ramRange s.params off n with
  | true => exact h s hs hr
  | false => exact hf s hs hr

/-- A block write of RAM inside the windows. -/
theorem meets_memWrite {off : Nat} {bs : List Byte} {Q : Unit → State → Prop} (hh : HostKeeps P E)
    (h : ∀ s, P s → Q () (storeBytes off bs s))
    (hf : ∀ s, P s → ramRange s.params off bs.length = false → E (.fault (.unmapped off))) :
    Meets P (memWrite off bs) Q E := by
  intro s hs
  have h1 := meets_step (inSlot := false) (f := fun s => ((), storeBytes off bs s)) (Q := Q) hh h s hs
  unfold memWrite
  cases hr : ramRange s.params off bs.length with
  | true => exact h1
  | false => exact hf s hs hr

/-- A requirement: what follows it knows that the condition holds. -/
theorem meets_require {c : Bool} {code : ErrCode} {Q : Unit → State → Prop} (h : c = true → ∀ s, P s → Q () s)
    (he : Meets P (raise code : Seq Unit) Q E) : Meets P (require c code) Q E := by
  cases c with
  | true => exact meets_pure _ (h rfl)
  | false => exact he

/-- A rule run on an accepted command. -/
theorem runRule_meets {rule : Latch → Seq Unit} {s : State} {l : Latch} (hl : s.latch = some l)
    (h : Meets (fun t => t = s) (rule l) (fun _ t => E (.next t)) E) : E (runRule rule s) := by
  have h1 := h s rfl
  rw [runRule_latched hl]
  revert h1
  cases rule l s with
  | ok r => exact id
  | error o => exact id

/-! ## Repeated pieces: what each step form keeps, the loops keep -/

section Keeps

variable {P : State → Prop} {E : Halt → Prop}

/-- A piece keeps P, and ends the step only in E. -/
abbrev Keeps {α : Type} (P : State → Prop) (E : Halt → Prop) (m : Seq α) : Prop := Meets P m (fun _ => P) E

theorem keeps_writeBits (h : ∀ b, Keeps P E (slotWrite b)) (bs : List Bool) : Keeps P E (writeBits bs) := by
  induction bs with
  | nil => exact meets_pure _ fun _ hs => hs
  | cons b bs ih => exact meets_bind (h b) fun _ => ih

theorem keeps_writeByte (h : ∀ b, Keeps P E (slotWrite b)) (v : Byte) : Keeps P E (writeByte v) :=
  keeps_writeBits h _

theorem keeps_writeBytes (h : ∀ b, Keeps P E (slotWrite b)) (vs : List Byte) : Keeps P E (writeBytes vs) := by
  induction vs with
  | nil => exact meets_pure _ fun _ hs => hs
  | cons v vs ih => exact meets_bind (keeps_writeByte h v) fun _ => ih

theorem keeps_readBits (h : Keeps P E slotRead) (n : Nat) : Keeps P E (readBits n) := by
  induction n with
  | zero => exact meets_pure _ fun _ hs => hs
  | succ n ih => exact meets_bind h fun _ => meets_bind ih fun _ => meets_pure _ fun _ hs => hs

theorem keeps_readByte (h : Keeps P E slotRead) : Keeps P E readByte :=
  meets_bind (keeps_readBits h 8) fun _ => meets_pure _ fun _ hs => hs

theorem keeps_readBytes (h : Keeps P E slotRead) (n : Nat) : Keeps P E (readBytes n) := by
  induction n with
  | zero => exact meets_pure _ fun _ hs => hs
  | succ n ih => exact meets_bind (keeps_readByte h) fun _ => meets_bind ih fun _ => meets_pure _ fun _ hs => hs

/-- A list of bits received is as long as asked for. -/
theorem keeps_readBits_length (h : Keeps P E slotRead) (n : Nat) :
    Meets P (readBits n) (fun bs s => P s ∧ bs.length = n) E := by
  induction n with
  | zero => exact meets_pure _ fun _ h => ⟨h, rfl⟩
  | succ n ih => exact meets_bind h fun _ => meets_bind ih fun _ => meets_pure _ fun _ h => ⟨h.1, by simp [h.2]⟩

/-- A list of bytes received is as long as asked for. -/
theorem keeps_readBytes_length (h : Keeps P E slotRead) (n : Nat) :
    Meets P (readBytes n) (fun bs s => P s ∧ bs.length = n) E := by
  induction n with
  | zero => exact meets_pure _ fun _ h => ⟨h, rfl⟩
  | succ n ih =>
    exact meets_bind (keeps_readByte h) fun _ => meets_bind ih fun _ => meets_pure _ fun _ h => ⟨h.1, by simp [h.2]⟩

end Keeps

end Sys2Proof.Machine
end

