-- ==== Sys2Proof/Laws/Steps.lean ====
section
/-! SUPPORT. What a property keeps if each single step of the sequencer keeps it: `Steps P E` lists the single steps, and
every shared procedure of the rules then keeps P (or ends the machine's step with E). -/

namespace Sys2Proof.Machine

/-- Every single step that a rule with slots can make keeps P; both ends give E. -/
structure Steps (P : State → Prop) (E : Halt → Prop) : Prop where
  host : HostKeeps P E
  slots : ∀ ss r s, P s → P (onLine s ss r)
  presence : ∀ b s, P s → P (setPresence b s)
  seq : ∀ q s, q = .addressed ∨ q = .converting ∨ q = .readingSpad → P s → P (setSeq q s)
  clock : ∀ s, P s → P (readClock s).2
  draws : ∀ d s, P s → P { s with draws := d }
  fail : ∀ c s, c ≠ .none → P s → E (.next (errorEnd c 0 s))
  done : ∀ r0 r1 s, P s → E (.next (okEnd r0 r1 s))

/-- Moreover the per-command state (but the device list) may change, and a poll may wait. -/
structure PollSteps (P : State → Prop) (E : Halt → Prop) : Prop extends Steps P E where
  hidden : ∀ pos search readPass poll capture s, P s →
    P { s with pos := pos, search := search, readPass := readPass, poll := poll, capture := capture }
  waits : ∀ s, P s → E (.next s)

variable {α : Type} {P : State → Prop} {E : Halt → Prop}

namespace Steps

variable (h : Steps P E)
include h

theorem slotRead : Keeps P E slotRead :=
  meets_step h.host fun s hs => by rw [readSlot_eq s _ rfl]; exact h.slots [_] _ s hs

theorem slotWrite (b : Bool) : Keeps P E (slotWrite b) :=
  meets_step h.host fun s hs => by simp only [writeSlot_eq]; exact h.slots _ _ s hs

theorem slotReset : Keeps P E slotReset :=
  meets_step h.host fun s hs => by rw [resetSlot_eq s _ rfl]; exact h.presence _ _ (h.slots _ _ s hs)

theorem now : Keeps P E now := meets_step h.host fun s hs => h.clock s hs

theorem raise {c : ErrCode} (hc : c ≠ .none) {Q : α → State → Prop} : Meets P (raise c : Seq α) Q E :=
  meets_lastStep h.host fun s hs => h.fail c s hc hs

theorem finish (r0 r1 : Word) {Q : α → State → Prop} : Meets P (finish r0 r1 : Seq α) Q E :=
  meets_lastStep h.host fun s hs => h.done r0 r1 s hs

theorem require {c : Bool} {code : ErrCode} (hc : code ≠ .none) : Keeps P E (require c code) :=
  meets_require (fun _ _ hs => hs) (h.raise hc)

theorem busCheck : Keeps P E busCheck := meets_get fun _ _ => h.require (by decide)

theorem checkTarget (l : Latch) : Keeps P E (checkTarget l) := meets_get fun _ _ => h.require (by decide)

theorem checkSingle (m : Addressing) (l : Latch) : Keeps P E (checkSingle m l) := by
  cases m with
  | single => exact h.checkTarget l
  | multi => exact meets_pure _ fun _ hs => hs

theorem writeByte (v : Byte) : Keeps P E (writeByte v) := keeps_writeByte h.slotWrite v

theorem writeBytes (vs : List Byte) : Keeps P E (writeBytes vs) := keeps_writeBytes h.slotWrite vs

theorem readByte : Keeps P E readByte := keeps_readByte h.slotRead

theorem needPresence : Keeps P E needPresence := meets_bind h.slotReset fun _ => h.require (by decide)

theorem matchRom (id : RomId) : Keeps P E (matchRom id) :=
  meets_get fun _ _ => meets_bind (h.writeByte _) fun _ => h.writeBytes _

theorem skipRom : Keeps P E skipRom := meets_get fun _ _ => h.writeByte _

theorem updateSeq {q : SeqState} (hq : q = .addressed ∨ q = .converting ∨ q = .readingSpad) :
    Keeps P E (update (setSeq q)) :=
  meets_step h.host fun s hs => h.seq q s hq hs

theorem address (m : Addressing) (id : RomId) : Keeps P E (address m id) := by
  refine meets_bind h.needPresence fun _ => ?_
  cases m with
  | multi => exact meets_bind h.skipRom fun _ => h.updateSeq (by simp)
  | single => exact meets_bind (h.matchRom id) fun _ => h.updateSeq (by simp)

theorem writeSpad (m : Addressing) (id : RomId) (th tl cf : Byte) : Keeps P E (writeSpad m id th tl cf) :=
  meets_bind (h.address m id) fun _ => meets_get fun _ _ => h.writeBytes _

theorem startOperation (m : Addressing) (id : RomId) (cmd : Byte) : Keeps P E (startOperation m id cmd) :=
  meets_bind (h.address m id) fun _ => meets_bind (h.writeByte _) fun _ => h.updateSeq (by simp)

theorem readSpad : Meets P readSpad (fun bs s => P s ∧ bs.length = 9) E :=
  meets_get fun _ _ => meets_bind (h.writeByte _) fun _ => meets_bind (h.updateSeq (by simp)) fun _ =>
    keeps_readBytes_length h.slotRead 9

theorem ramBytes (a n : Nat) {s : State} (hs : P s) : P (ramBytes a n s).2 := by
  rw [ramBytes_frame]; exact h.draws _ s hs

/-- A block read inside the windows, whatever the windows hold. -/
theorem memRead {off n : Nat} (hr : ∀ s, P s → ramRange s.params off n = true ∨ E (.fault (.unmapped off))) :
    Keeps P E (memRead off n) :=
  meets_memRead (fun _ hs _ => h.ramBytes off n hs) fun s hs e => (hr s hs).resolve_left (by simp [e])

theorem sendRam {off n : Nat}
    (hr : ∀ k s, k < n → P s → ramRange s.params (off + k) 1 = true ∨ E (.fault (.unmapped (off + k)))) :
    Keeps P E (sendRam off n) := by
  induction n generalizing off with
  | zero => exact meets_pure _ fun _ hs => hs
  | succ n ih =>
    refine meets_bind (h.memRead fun s hs => hr 0 s (by omega) hs) fun bs => meets_bind (h.writeBytes bs) fun _ => ?_
    refine ih fun k s hk hs => ?_
    have := hr (k + 1) s (by omega) hs
    rwa [show off + (k + 1) = off + 1 + k by omega] at this

/-- A block write that P allows. -/
theorem memWrite {off : Nat} {bs : List Byte} (hw : ∀ s, P s → P (storeBytes off bs s))
    (hr : ∀ s, P s → ramRange s.params off bs.length = true ∨ E (.fault (.unmapped off))) :
    Keeps P E (memWrite off bs) :=
  meets_memWrite h.host (fun s hs => hw s hs) fun s hs e => (hr s hs).resolve_left (by simp [e])

theorem receiveRam {off n : Nat} (hw : ∀ k b s, k < n → P s → P (storeBytes (off + k) [b] s))
    (hr : ∀ k s, k < n → P s → ramRange s.params (off + k) 1 = true ∨ E (.fault (.unmapped (off + k)))) :
    Keeps P E (receiveRam off n) := by
  induction n generalizing off with
  | zero => exact meets_pure _ fun _ hs => hs
  | succ n ih =>
    refine meets_bind h.readByte fun v =>
      meets_bind (h.memWrite (fun s hs => hw 0 v s (by omega) hs) fun s hs => hr 0 s (by omega) hs) fun _ => ?_
    refine ih (fun k b s hk hs => ?_) fun k s hk hs => ?_
    · have := hw (k + 1) b s (by omega) hs
      rwa [show off + (k + 1) = off + 1 + k by omega] at this
    · have := hr (k + 1) s (by omega) hs
      rwa [show off + (k + 1) = off + 1 + k by omega] at this

theorem readIds {off n : Nat}
    (hr : ∀ k s, k < n → P s → ramRange s.params (off + 8 * k) 8 = true ∨ E (.fault (.unmapped (off + 8 * k)))) :
    Meets P (readIds off n) (fun ids s => P s ∧ ids.length = n) E := by
  induction n generalizing off with
  | zero => exact meets_pure _ fun _ hs => ⟨hs, rfl⟩
  | succ n ih =>
    refine meets_bind (h.memRead fun s hs => hr 0 s (by omega) hs) fun bs => ?_
    refine meets_bind (ih fun k s hk hs => ?_) fun ids => meets_pure _ fun s hs => ⟨hs.1, by simp [hs.2]⟩
    have := hr (k + 1) s (by omega) hs
    rwa [show off + 8 * (k + 1) = off + 8 + 8 * k by omega] at this

/-- The device list, if P allows a list as long as ROMCOUNT says, or of the one target. -/
theorem prepareList (m : Addressing) (l : Latch)
    (hd : ∀ ids n s, P s → ids.length = n → n = 1 ∨ (∃ s0, P s0 ∧ n = s0.romCount.toNat) → P { s with devices := ids })
    (hr : ∀ s0 k s, P s0 → k < s0.romCount.toNat → P s →
      ramRange s.params (romtabBase + 8 * k) 8 = true ∨ E (.fault (.unmapped (romtabBase + 8 * k)))) :
    Keeps P E (prepareList m l) := by
  cases m with
  | single =>
    exact meets_bind (h.checkTarget l) fun _ => meets_hidden fun s hs => hd _ _ s hs rfl (.inl rfl)
  | multi =>
    refine meets_get fun s0 h0 => meets_bind (h.require (by decide)) fun _ => ?_
    refine meets_bind (h.readIds fun k s hk hs => hr s0 k s h0 hk hs) fun ids => ?_
    exact meets_hidden fun s hs => hd _ _ s hs.1 hs.2 (.inr ⟨s0, h0, rfl⟩)

end Steps

namespace PollSteps

variable (h : PollSteps P E)
include h

theorem startPoll (l : Latch) (ms : Nat) (pos : SeqPos) : Keeps P E (startPoll l ms pos) :=
  meets_bind h.now fun _ => meets_hidden fun s hs => h.hidden pos s.search s.readPass (some _) s.capture s hs

theorem pollOnce : Keeps P E pollOnce :=
  meets_bind h.slotRead fun _ => meets_ite (fun _ => meets_pure _ fun _ hs => hs) fun _ =>
    meets_bind h.now fun _ => meets_get fun _ _ =>
      meets_ite (fun _ => meets_pure _ fun _ hs => hs) fun _ => meets_suspend fun s hs => h.waits s hs

omit h in
theorem beforePoll {m : Seq Unit} (hm : Keeps P E m) : Keeps P E (beforePoll m) :=
  meets_get fun _ _ => meets_ite (fun _ => hm) fun _ => meets_pure _ fun _ hs => hs

theorem eepromCommand (m : Addressing) (cmd : Byte) (l : Latch) : Keeps P E (eepromCommand m cmd l) := by
  refine meets_bind (beforePoll ?_) fun _ => meets_bind h.pollOnce fun _ =>
    meets_bind (h.require (by decide)) fun _ => h.finish _ _
  exact meets_bind h.busCheck fun _ => meets_bind (h.checkSingle m l) fun _ =>
    meets_bind (h.startOperation _ _ _) fun _ => meets_get fun _ _ => h.startPoll _ _ _

theorem captureSpad (m : Addressing) (l : Latch) (n : Nat) : Keeps P E (captureSpad m l n) := by
  induction n with
  | zero => exact h.raise (by decide)
  | succ n ih =>
    refine meets_bind (h.address m _) fun _ => meets_bind (meets_mono h.readSpad (fun _ hs => hs) (fun _ _ hs => hs.1)
      fun _ ho => ho) fun sp => meets_get fun _ _ => meets_ite (fun _ => ?_) fun _ => ih
    exact meets_hidden fun s hs => h.hidden s.pos s.search s.readPass s.poll (some _) s hs

theorem reportFake (hb : ∀ b s, P s → P (setRbool b s)) (m : Addressing) (l : Latch) (f : Bool) :
    Keeps P E (reportFake m l f) :=
  meets_get fun _ _ => meets_bind (h.writeSpad _ _ _ _ _) fun _ =>
    meets_bind (meets_step h.host fun s hs => hb f s hs) fun _ => h.finish _ _

theorem isfakeRule (hb : ∀ b s, P s → P (setRbool b s)) (m : Addressing) (l : Latch) : Keeps P E (isfakeRule m l) := by
  refine meets_bind (beforePoll ?_) fun _ => meets_bind (meets_get fun _ _ => meets_ite
    (fun _ => meets_pure _ fun _ hs => hs) fun _ => ?_) fun _ =>
      meets_bind h.pollOnce fun _ => h.reportFake hb m l true
  · exact meets_bind h.busCheck fun _ => meets_bind (h.checkSingle m l) fun _ => meets_get fun _ _ =>
      meets_bind (h.captureSpad _ _ _) fun _ => meets_get fun _ _ => meets_bind (h.writeSpad _ _ _ _ _) fun _ =>
        meets_bind (h.startOperation _ _ _) fun _ => h.startPoll _ _ _
  · exact meets_bind h.pollOnce fun _ => meets_get fun _ _ => meets_ite (fun _ => h.reportFake hb m l false) fun _ =>
      h.startPoll _ _ _

end PollSteps

/-! ## Read passes -/

theorem recordBytes_length (k : ReadKind) (c : Word) (sp : List Byte) (ok : Bool) :
    (recordBytes k c sp ok).length = sp.length + 23 := by
  simp [recordBytes, wordBytes_length]

/-- What a read pass keeps, record by record: A j holds when j records are done. -/
structure PassSteps (n : Nat) (A : Nat → State → Prop) (E : Halt → Prop) : Prop where
  steps : ∀ j, Steps (A j) E
  index : ∀ j s, A j s → (readPassOf s).index = j
  record : ∀ j bs s, j < n → bs.length = 32 → A j s → A j (storeBytes (restabBase + 32 * j) bs s)
  range : ∀ j s, j < n → A j s →
    ramRange s.params (restabBase + 32 * j) 32 = true ∨ E (.fault (.unmapped (restabBase + 32 * j)))
  count : ∀ j rp s, rp.index = j + 1 → A j s → A (j + 1) { s with readPass := some rp }

namespace PassSteps

variable {n : Nat} {A : Nat → State → Prop} (h : PassSteps n A E)
include h

theorem writeRecord {j : Nat} (hj : j < n) (k : ReadKind) (c : Word) {sp : List Byte} (ok : Bool) (hs : sp.length = 9) :
    Keeps (A j) E (writeRecord j k c sp ok) := by
  have hl : (recordBytes k c sp ok).length = 32 := by rw [recordBytes_length, hs]
  exact (h.steps j).memWrite (fun s hA => h.record j _ s hj hl hA) fun s hA => hl ▸ h.range j s hj hA

theorem countRecord {j : Nat} (ok : Bool) : Meets (A j) (countRecord ok) (fun _ => A (j + 1)) E :=
  meets_hidden fun s hA => h.count j _ s (by simp [h.index j s hA]) hA

theorem readDevice {j : Nat} (hj : j < n) (k : ReadKind) (l : Latch) (id : RomId) :
    Meets (A j) (readDevice k l id) (fun _ => A (j + 1)) E := by
  refine meets_get fun s0 h0 => ?_
  simp only [h.index j s0 h0]
  refine meets_ite (fun _ => ?_) fun _ => ?_
  · refine meets_bind (h.steps j).needPresence fun _ => meets_bind ((h.steps j).matchRom id) fun _ =>
      meets_bind ((h.steps j).updateSeq (by simp)) fun _ => ?_
    refine meets_bind (h.steps j).readSpad fun sp => meets_get fun s1 h1 => ?_
    exact meets_bind (meets_mono (h.writeRecord hj k l.corr _ h1.2) (fun _ h => h.1) (fun _ _ h => h) fun _ h => h)
      fun _ => h.countRecord _
  · exact meets_bind (h.writeRecord hj k l.corr _ (by simp)) fun _ => h.countRecord _

/-- A whole pass over a list of ids. -/
theorem readDevices (k : ReadKind) (l : Latch) (ids : List RomId) (j : Nat) (hj : j + ids.length = n) :
    Meets (A j) (readDevices k l ids) (fun _ => A n) E := by
  induction ids generalizing j with
  | nil => exact meets_pure _ fun s h => by simpa [← hj] using h
  | cons id ids ih =>
    exact meets_bind (h.readDevice (by simp at hj; omega) k l id) fun _ => ih (j + 1) (by simp at hj; omega)

end PassSteps

/-- Passes, each from a state with P and n devices, in which records may be written as A says. -/
theorem keeps_readPasses (hP : PollSteps P E) (hA : ∀ s0, P s0 → ∃ A, PassSteps s0.devices.length A E ∧
      (∀ rp, rp.index = 0 → A 0 { s0 with readPass := some rp }) ∧
      (∀ s, A 0 s → s.devices.length = s0.devices.length) ∧ (∀ s, A s0.devices.length s → P s))
    (k : ReadKind) (l : Latch) (n : Nat) : Keeps P E (readPasses k l n) := by
  induction n with
  | zero => exact hP.raise (by decide)
  | succ n ih =>
    intro s0 h0
    obtain ⟨A, hp, hstart, hlen, hend⟩ := hA s0 h0
    have h1 := hstart ⟨(readPassOf s0).attempt, 0, 0⟩ rfl
    unfold readPasses startPass
    rw [seq_bind_ok (hidden_run _ s0)]
    revert h1
    generalize ({ s0 with readPass := some ⟨(readPassOf s0).attempt, 0, 0⟩ } : State) = u
    intro h1
    refine (meets_get (P := A 0) (R := fun _ => P) (E := E) fun s1 h1 => ?_) u h1
    refine meets_bind (meets_mono (hp.readDevices k l s1.devices 0 (by have := hlen s1 h1; omega)) (fun _ h => h)
      (fun _ s h => hend s h) fun _ h => h) fun _ => ?_
    refine meets_get fun s2 h2 => meets_ite (fun _ => ?_) fun _ => ?_
    · exact meets_bind (hP.require (by decide)) fun _ => hP.finish _ _
    · exact meets_bind (Q := fun _ => P)
        (meets_hidden fun s h => hP.hidden s.pos s.search (some _) s.poll s.capture s h) fun _ => ih

theorem keeps_readAll (hP : PollSteps P E) (hA : ∀ s0, P s0 → ∃ A, PassSteps s0.devices.length A E ∧
      (∀ rp, rp.index = 0 → A 0 { s0 with readPass := some rp }) ∧
      (∀ s, A 0 s → s.devices.length = s0.devices.length) ∧ (∀ s, A s0.devices.length s → P s))
    (k : ReadKind) (l : Latch) : Keeps P E (readAll k l) :=
  meets_bind (Q := fun _ => P) (meets_hidden fun s h => hP.hidden s.pos s.search (some _) s.poll s.capture s h)
    fun _ => meets_get fun _ _ => keeps_readPasses hP hA k l _

/-! ## The search -/

theorem romtabImage_length (p : Params) (ids : List RomId) : (romtabImage p ids).length = 8 * p.maxDevices := by
  simp [romtabImage, romBytes_length, List.length_flatMap]; omega

theorem ramRange_image (p : Params) (ids : List RomId) : ramRange p romtabBase (romtabImage p ids).length = true := by
  have := ramRange_romtab (p := p) (off := 0) (n := (romtabImage p ids).length) (by rw [romtabImage_length]; omega)
  simpa using this

/-- Moreover ROMTAB and ROMCOUNT may take a list of ids with G. -/
structure TableSteps (p : Params) (G : List RomId → Prop) (P : State → Prop) (E : Halt → Prop) : Prop extends
    Steps P E where
  params : ∀ s, P s → s.params = p
  table : ∀ ids s, P s → P (storeBytes romtabBase (romtabImage p ids) s)
  count : ∀ ids s, G ids → P s → P { s with romCount := BitVec.ofNat 8 ids.length }
  empty : G []

/-- What a search keeps: its single steps keep P, its two ends give E, and the search state may change as long as S holds
of it. -/
structure SearchSteps (p : Params) (G : List RomId → Prop) (S : SearchState → Prop) (P : State → Prop) (E : Halt → Prop) :
    Prop where
  slotRead : Keeps P E slotRead
  slotWrite : ∀ b, Keeps P E (slotWrite b)
  slotReset : Keeps P E slotReset
  now : Keeps P E now
  fails : ∀ e, e ≠ .none → ∀ Q : Unit → State → Prop, Meets P (searchFail e) Q E
  succeeds : ∀ ids, G ids → ∀ Q : Unit → State → Prop, Meets P (searchSucceed ids) Q E
  noneFound : Keeps P E (searchSucceed [] : Seq Bool)
  params : ∀ s, P s → s.params = p
  known : ∀ s, P s → S (searchOf s)
  search : ∀ st s, S st → P s → P { s with search := some st }
  walk : ∀ rom lastZero st, S st → S { st with rom := rom, lastZero := lastZero }
  restart : ∀ st, S st → S { st with found := [], lastDisc := -1, prev := 0 }
  failed : ∀ st, S st → S { st with failures := st.failures + 1 }
  keep : ∀ s, P s → acceptable s (searchOf s) = true → (searchOf s).found.length ≠ p.maxDevices →
    G ((searchOf s).found ++ [(searchOf s).rom]) ∧
      S { searchOf s with found := (searchOf s).found ++ [(searchOf s).rom], prev := (searchOf s).rom,
                          lastDisc := (searchOf s).lastZero }

namespace TableSteps

variable {p : Params} {G : List RomId → Prop} (h : TableSteps p G P E)
include h

theorem storeTable (ids : List RomId) {s0 : State} (h0 : P s0) :
    Keeps P E (Machine.memWrite romtabBase (romtabImage s0.params ids)) := by
  rw [h.params s0 h0]
  exact h.memWrite (fun s hs => h.table ids s hs) fun s hs => .inl (by rw [h.params s hs]; exact ramRange_image p ids)

theorem searchFail {e : ErrCode} (he : e ≠ .none) {Q : α → State → Prop} : Meets P (searchFail e : Seq α) Q E :=
  meets_get fun _ h0 => meets_bind (h.storeTable [] h0) fun _ =>
    meets_bind (Q := fun _ => P) (meets_step h.host fun s hs => h.count [] s h.empty hs) fun _ => h.raise he

theorem searchSucceed {ids : List RomId} (hg : G ids) {Q : α → State → Prop} :
    Meets P (searchSucceed ids : Seq α) Q E :=
  meets_get fun _ h0 => meets_bind (h.storeTable ids h0) fun _ =>
    meets_bind (Q := fun _ => P) (meets_step h.host fun s hs => h.count ids s hg hs) fun _ => h.finish _ _

theorem searchRequire {c : Bool} {e : ErrCode} (he : e ≠ .none) : Keeps P E (searchRequire c e) :=
  meets_ite (fun _ => meets_pure _ fun _ hs => hs) fun _ => h.searchFail he

end TableSteps

namespace SearchSteps

variable {p : Params} {G : List RomId → Prop} {S : SearchState → Prop} (h : SearchSteps p G S P E)
include h

theorem searchRequire {c : Bool} {e : ErrCode} (he : e ≠ .none) : Keeps P E (searchRequire c e) :=
  meets_ite (fun _ => meets_pure _ fun _ hs => hs) fun _ => h.fails e he _

theorem setSearch {f : SearchState → SearchState} (hf : ∀ st, S st → S (f st)) : Keeps P E (setSearch f) :=
  meets_hidden fun s hs => h.search _ s (hf _ (h.known s hs)) hs

theorem searchBit (m : SearchMode) (i : Nat) : Keeps P E (searchBit m i) := by
  refine meets_bind h.slotRead fun b => meets_bind h.slotRead fun cb => meets_get fun s0 h0 => ?_
  refine meets_ite (fun _ => meets_ite (fun _ => h.noneFound) fun _ => meets_pure _ fun _ hs => hs) fun _ => ?_
  refine meets_bind (Q := fun _ => P) (h.setSearch fun _ _ => ?_) fun _ =>
    meets_bind (h.slotWrite _) fun _ => meets_pure _ fun _ hs => hs
  exact h.walk _ _ _ (h.known s0 h0)

theorem searchWalk (m : SearchMode) (i n : Nat) : Keeps P E (searchWalk m i n) := by
  induction n generalizing i with
  | zero => exact meets_pure _ fun _ hs => hs
  | succ n ih =>
    exact meets_bind (h.searchBit m i) fun _ => meets_ite (fun _ => ih _) fun _ => meets_pure _ fun _ hs => hs

/-- A pass: its candidate is acceptable if it answers true. -/
theorem searchPass (m : SearchMode) (l : Latch) :
    Meets P (searchPass m l) (fun ok s => P s ∧ (ok = true → acceptable s (searchOf s) = true)) E := by
  refine meets_bind h.now fun t => meets_get fun s0 h0 => meets_bind (h.searchRequire (by decide)) fun _ => ?_
  refine meets_bind h.slotReset fun pr => meets_bind (h.searchRequire (by decide)) fun _ => ?_
  refine meets_bind (keeps_writeByte h.slotWrite _) fun _ => meets_bind (h.setSearch fun st hs => h.walk 0 (-1) st hs)
      fun _ => ?_
  refine meets_bind (h.searchWalk m 0 64) fun ok => meets_get_bind fun s1 h1 => meets_pure _ fun s e => ?_
  subst e
  exact ⟨h1, fun hk => by simp at hk; exact hk.2⟩

theorem searchKeep : Meets (fun s => P s ∧ acceptable s (searchOf s) = true) searchKeep (fun _ => P) E := by
  intro s0 h0
  unfold Machine.searchKeep
  rw [seq_get_bind]
  by_cases hlen : (searchOf s0).found.length = s0.params.maxDevices
  · rw [show ((searchOf s0).found.length != s0.params.maxDevices) = false by simp [hlen]]
    have := meets_bind (R := fun _ => P) (f := fun _ => (do
      Machine.setSearch fun st => { st with found := st.found ++ [st.rom], prev := st.rom, lastDisc := st.lastZero }
      if (searchOf s0).lastZero = -1 then Machine.searchSucceed ((searchOf s0).found ++ [(searchOf s0).rom])
      else pure ()))
      (Q := fun (_ : Unit) (_ : State) => False) (h.fails .overflow (by decide) _)
      (fun _ _ hf => hf.elim) s0 h0.1
    exact this
  · rw [show ((searchOf s0).found.length != s0.params.maxDevices) = true by simp [hlen]]
    obtain ⟨hg, hS⟩ := h.keep s0 h0.1 h0.2 (h.params s0 h0.1 ▸ hlen)
    refine (meets_bind (P := fun s => s = s0) (Q := fun _ s => s = s0) (R := fun _ => P) (meets_pure _ fun _ e => e)
        fun _ =>
      meets_bind (Q := fun _ => P) (meets_hidden fun s e => ?_) fun _ =>
        meets_ite (fun _ => h.succeeds _ hg _) fun _ => meets_pure _ fun _ hs => hs) s0 rfl
    subst e
    exact h.search _ s hS h0.1

theorem searchPasses (m : SearchMode) (l : Latch) (n : Nat) : Keeps P E (searchPasses m l n) := by
  induction n with
  | zero => exact h.fails _ (by decide) _
  | succ n ih =>
    refine meets_bind (h.searchPass m l) fun ok => meets_ite (fun hok => ?_) fun _ => meets_pure () fun _ hs => hs.1
    exact meets_bind (meets_mono h.searchKeep (fun _ hs => ⟨hs.1, hs.2 hok⟩) (fun _ _ h => h) fun _ h => h) fun _ => ih

/-- The runs never go on: each ends the command or is followed by another, and the last by INTEGRITY. -/
theorem searchRuns (m : SearchMode) (l : Latch) (n : Nat) (Q : Unit → State → Prop) :
    Meets P (searchRuns m l n) Q E := by
  induction n with
  | zero => exact h.fails _ (by decide) _
  | succ n ih =>
    refine meets_get fun s0 h0 => meets_bind (h.searchPasses m l _) fun _ => ?_
    refine meets_bind (h.setSearch h.failed) fun _ => meets_get fun s1 h1 => ?_
    exact meets_bind (h.searchRequire (by decide)) fun _ => meets_bind (h.setSearch h.restart) fun _ => ih

/-- The whole rule: P0 before the search has a state, P from then on. -/
theorem searchRule {P0 : State → Prop}
    (hn : Meets P0 Machine.now (fun t s => P { s with search := some (freshSearch t) }) E)
    (hf : ∀ Q : Unit → State → Prop, Meets P0 (searchFail .badPin) Q E) (m : SearchMode) (l : Latch)
    (Q : Unit → State → Prop) : Meets P0 (searchRule m l) Q E :=
  meets_get fun _ _ => meets_bind (Q := fun _ => P0) (meets_ite (fun _ => meets_pure _ fun _ hs => hs) fun _ => hf _)
      fun _ =>
    meets_bind hn fun _ => meets_bind (Q := fun _ => P) (meets_hidden fun _ h1 => h1) fun _ => h.searchRuns m l _ Q

end SearchSteps

end Sys2Proof.Machine
end

