-- ==== Sys2Proof/Laws/Commands.lean ====
section
/-! SUPPORT. What the procedures of the transport, search and session commands answer while the host leaves the block
alone, said once for each. -/

namespace Sys2Proof.Machine

/-! ## Transport -/

/-- A speed operand, by its three legal values. -/
theorem speedOf_eq (v : Word) : speedOf v = if 2 < v.toNat then none else some (if v = 0 then .standard else if v =
    1 then .high else .overload) := by
  unfold speedOf
  by_cases h : 2 < v.toNat
  · rw [if_pos h, if_neg, if_neg, if_neg]
    all_goals (rintro rfl; simp at h)
  · rw [if_neg h]
    have : v.toNat = 0 ∨ v.toNat = 1 ∨ v.toNat = 2 := by omega
    have hv : v = 0 ∨ v = 1 ∨ v = 2 := by
      rcases this with h | h | h
      · left; exact BitVec.eq_of_toNat_eq h
      · right; left; exact BitVec.eq_of_toNat_eq h
      · right; right; exact BitVec.eq_of_toNat_eq h
    rcases hv with rfl | rfl | rfl <;> rfl

/-- The range check of the DBUF commands; DBUF_SIZE has one legal value. -/
theorem checkDbufRange_eq (l : Latch) :
    checkDbufRange l = require (decide (l.a0.toNat + l.a1.toNat ≤ 256)) .badArg := by
  simp only [checkDbufRange, Params.dbufSize_eq]
  rfl

/-- n read slots, whatever the bus answers. -/
theorem readBits_any (n : Nat) {s : State} (h : s.host = []) : ∃ vs : List Bool, vs.length = n ∧
    vs.take s.bus.length = s.bus.take n ∧ readBits n s = .ok (vs, onLine s (vs.map .read) (s.bus.drop n)) := by
  induction n generalizing s with
  | zero => exact ⟨[], rfl, by simp, rfl⟩
  | succ n ih =>
    have h1 := slotRead_quiet h
    rw [readSlot_eq s _ rfl] at h1
    obtain ⟨vs, hl, ht, hr⟩ := ih (s := onLine s [.read (nextAnswer s _)] s.bus.tail) h
    refine ⟨nextAnswer s [.delay (s.params.tp s.busCfg.speed).rSample, .release s.busCfg.pin,
      .delay (s.params.tp s.busCfg.speed).w1Low, .low s.busCfg.pin] :: vs, by simp [hl], ?_, ?_⟩
    · cases hb : s.bus with
      | nil => simp
      | cons v rest => simp only [onLine_bus, hb] at ht; simp [nextAnswer, hb]; simpa using ht
    · rw [readBits, seq_bind_ok h1, seq_bind_ok hr, seq_pure, onLine_onLine]
      simp

/-- Eight bits are the bits of their byte. -/
theorem byteBits_byteOfBits (vs : List Bool) (h : vs.length = 8) : byteBits (byteOfBits vs) = vs := by
  match vs, h with
  | [a,b,c,d,e,f,g,i], _ => revert a b c d e f g i; decide +kernel

/-- A byte received, whatever the bus answers. -/
theorem readByte_any {s : State} (h : s.host = []) : ∃ v : Byte, (answers [v]).take s.bus.length = s.bus.take 8 ∧
    readByte s = .ok (v, onLine s (received [v]) (s.bus.drop 8)) := by
  obtain ⟨vs, hl, ht, hr⟩ := readBits_any 8 h
  refine ⟨byteOfBits vs, ?_, ?_⟩
  · simp [answers, byteBits_byteOfBits vs hl, ht]
  · rw [readByte, seq_bind_ok hr, seq_pure]
    simp [received, byteBits_byteOfBits vs hl]

/-- Slots and RAM reads do not touch each other. -/
theorem ramByte_onLine (a : Nat) (s : State) (ss : List Slot) (r : List Bool) : ramByte a (onLine s ss r) =
    ((ramByte a s).1, onLine (ramByte a s).2 ss r) := by
  unfold ramByte
  show (match memGet s.ram a with | some b => (b, onLine s ss r) | none => drawByte (onLine s ss r)) = _
  cases memGet s.ram a <;> rfl

/-- Slots and RAM reads do not touch each other. -/
theorem ramBytes_onLine (a n : Nat) (s : State) (ss : List Slot) (r : List Bool) : ramBytes a n (onLine s ss r) =
    ((ramBytes a n s).1, onLine (ramBytes a n s).2 ss r) := by
  induction n generalizing a s with
  | zero => rfl
  | succ n ih => simp only [ramBytes, ramByte_onLine, ih]

/-- A RAM read changes at most the draws. -/
theorem ramByte_frame (a : Nat) (s : State) : (ramByte a s).2 = { s with draws := (ramByte a s).2.draws } := by
  unfold ramByte; split <;> rfl

/-- Bytes of RAM sent over the line. -/
theorem sendRam_quiet (off n : Nat) {s : State} (h : s.host = []) (hr : ∀ k, k < n → inRam s.params (off + k) = true) :
    sendRam off n s = .ok ((), onLine (ramBytes off n s).2 (sent (ramBytes off n s).1) s.bus) := by
  induction n generalizing off s with
  | zero => rfl
  | succ n ih =>
    have hr0 : ramRange s.params off 1 = true := by
      rw [ramRange_iff]; intro k hk; exact hr k (by omega)
    have hf := ramByte_frame off s
    have hb : (ramByte off s).2.bus = s.bus := by rw [hf]
    have hh : (ramByte off s).2.host = [] := by rw [hf]; exact h
    have hp : (ramByte off s).2.params = s.params := by rw [hf]
    rw [sendRam, seq_bind_ok (memRead_run hr0)]
    have e1 : ramBytes off 1 s = ([(ramByte off s).1], (ramByte off s).2) := rfl
    rw [e1, seq_bind_ok (writeBytes_quiet hh), ih (off + 1) (by exact hh) (fun k hk => by
      have := hr (k + 1) (by omega)
      rw [show off + 1 + k = off + (k + 1) by omega, onLine_params, hp]; exact this)]
    rw [ramBytes_onLine, onLine_bus, onLine_onLine, hb]
    simp only [ramBytes, sent, List.flatMap_cons, List.flatMap_nil, List.append_nil]

/-- Bytes received into RAM, whatever the bus answers. -/
theorem receiveRam_quiet (off n : Nat) {s : State} (h : s.host = []) (hr : ∀ k, k < n → inRam s.params (off + k) = true) :
    ∃ data : List Byte, data.length = n ∧ (answers data).take s.bus.length = s.bus.take (8 * n) ∧
      receiveRam off n s = .ok ((), storeBytes off data (onLine s (received data) (s.bus.drop (8 * n)))) := by
  induction n generalizing off s with
  | zero => exact ⟨[], rfl, by simp [answers], rfl⟩
  | succ n ih =>
    obtain ⟨v, hv, hrb⟩ := readByte_any h
    obtain ⟨data, hl, ht, hrr⟩ := ih (off + 1) (s := storeBytes off [v] (onLine s (received [v]) (s.bus.drop 8))) h
        (fun k hk => by
      have := hr (k + 1) (by omega)
      rw [show off + 1 + k = off + (k + 1) by omega]; exact this)
    refine ⟨v :: data, by simp [hl], ?_, ?_⟩
    · have e : answers (v :: data) = answers [v] ++ answers data := by simp [answers]
      have l8 : (answers [v]).length = 8 := by simp [answers, byteBits_length]
      have ht' : (answers data).take (s.bus.drop 8).length = (s.bus.drop 8).take (8 * n) := ht
      rw [e, List.take_append, l8, hv, show s.bus.length - 8 =
          (s.bus.drop 8).length by simp, ht', show 8 * (n + 1) = 8 + 8 * n by omega, List.take_add]
    · have hr0 : ramRange s.params off 1 = true := by
        rw [ramRange_iff]; intro k hk; exact hr k (by omega)
      rw [receiveRam, seq_bind_ok hrb, seq_bind_ok (memWrite_quiet (by exact h) hr0), hrr]
      have : onLine (storeBytes off [v] (onLine s (received [v]) (s.bus.drop 8))) (received data)
          ((s.bus.drop 8).drop (8 * n)) =
          storeBytes off [v] (onLine s (received [v] ++ received data) (s.bus.drop (8 * (n + 1)))) := by
        rw [show onLine (storeBytes off [v] (onLine s (received [v]) (s.bus.drop 8))) (received data)
            ((s.bus.drop 8).drop (8 * n)) =
            storeBytes off [v] (onLine (onLine s (received [v]) (s.bus.drop 8)) (received data)
            ((s.bus.drop 8).drop (8 * n))) from rfl, onLine_onLine, List.drop_drop]
        rw [show 8 + 8 * n = 8 * (n + 1) by omega]
      have hbus : (storeBytes off [v] (onLine s (received [v]) (s.bus.drop 8))).bus = s.bus.drop 8 := rfl
      rw [hbus, this]
      simp [storeBytes, memSetBytes, received]

/-! ## Search -/

/-- The empty ROM table. -/
theorem image_nil (p : Params) : romtabImage p [] = List.replicate (8 * p.maxDevices) 0 := by
  unfold romtabImage
  have : ∀ n, (List.range n).flatMap (fun j => romBytes (([] : List RomId).getD j 0)) = List.replicate (8 * n) 0 := by
    intro n
    induction n with
    | zero => rfl
    | succ n ih =>
      rw [List.range_succ, List.flatMap_append, ih, show 8 * (n+1) = 8 * n + 8 by omega, List.replicate_add]
      congr 1
      simp [romBytes, List.range_succ, List.replicate_succ]
  exact this _

/-- The failing end of a search (42_search R313). -/
theorem searchFail_quiet {α : Type} {e : ErrCode} {s : State} (h : s.host = []) : (searchFail e : Seq α) s =
    .error (.next (errorEnd e 0
    { storeBytes romtabBase (List.replicate (8 * s.params.maxDevices) 0) s with romCount := 0 })) := by
  rw [searchFail, seq_get_bind, seq_bind_ok (memWrite_quiet h (ramRange_image _ _)),
      seq_bind_ok (update_quiet (by exact h)), raise_quiet (by exact h), image_nil]

/-- A ROM bit set. -/
theorem setRomBit_bit (r : RomId) (i k : Nat) (d : Bool) (hi : i < 64) (hk : k < 64) :
    (setRomBit r i d).getLsbD k = if k = i then d else r.getLsbD k := by
  unfold setRomBit
  have e : (1#64 <<< i).getLsbD k = decide (k = i) := by
    rw [BitVec.getLsbD_shiftLeft, BitVec.getLsbD_one]
    by_cases h : k = i
    · subst h; simp [hk]
    · simp only [h, decide_false]
      by_cases h2 : k < i
      · simp [h2]
      · simp only [Bool.and_eq_false_iff, decide_eq_false_iff_not]; right; simp; omega
  cases d
  · simp only [Bool.false_eq_true, if_false, BitVec.getLsbD_and, BitVec.getLsbD_not, e, hk, decide_true, Bool.true_and]
    by_cases h : k = i <;> simp [h]
  · simp only [if_true, BitVec.getLsbD_or, e]
    by_cases h : k = i <;> simp [h]

/-- The good end of a search (42_search R314). -/
theorem searchSucceed_quiet {α : Type} {ids : List RomId} {s : State} (h : s.host = []) :
    (searchSucceed ids : Seq α) s = .error (.next (okEnd (BitVec.ofNat 32 ids.length) 0
      { storeBytes romtabBase (romtabImage s.params ids) s with romCount := BitVec.ofNat 8 ids.length })) := by
  rw [searchSucceed, seq_get_bind, seq_bind_ok (memWrite_quiet h (ramRange_image _ _)),
      seq_bind_ok (update_quiet (by exact h)), finish_quiet (by exact h)]

/-- The clock read. -/
theorem now_answer {t : Word} {ts : List Word} {s : State} (hq : s.host = []) (h : s.clockIn = t :: ts) : now s =
    .ok (t, { s with clockIn := ts }) := by
  rw [now_quiet hq, readClock, h]

/-- A search on a configured bus, past its start. -/
theorem searchRule_start (m : SearchMode) (s : State) (l : Latch) (t0 : Word) (ts : List Word) (h : BusReady s l)
    (hc : s.clockIn = t0 :: ts) :
    searchRule m l s = searchRuns m l s.params.searchRepeat { s with clockIn := ts, search := some (freshSearch t0) } := by
  rw [searchRule, seq_get_bind, h.configured]
  show (pure () >>= _ : Seq Unit) s = _
  rw [seq_pure_bind, seq_bind_ok (now_answer h.quiet hc), seq_bind_ok (hidden_run _ _)]

/-! ## Sessions -/

/-- Legal operands of TS.CONFIG are accepted. -/
theorem configOk {p : Params} {l : Latch} (h9 : 9 ≤ l.a0.toNat) (h12 : l.a0.toNat ≤ 12) (h : l.a2.toInt ≤ l.a1.toInt)
    : ∃ d, configOperands p l = some d := by
  unfold configOperands resolutionOperand alarmBytes
  rw [if_neg (by omega)]
  by_cases he : l.a1.toInt = l.a2.toInt
  · rw [if_pos he]; exact ⟨_, rfl⟩
  · rw [if_neg he, if_neg (by omega)]; exact ⟨_, rfl⟩

/-- The part before the poll runs at the first step. -/
theorem beforePoll_start {m : Seq Unit} {s : State} (h : s.pos = .start) : beforePoll m s = m s := by
  rw [beforePoll, seq_get_bind, if_pos h]

/-- The part before the poll does not run again. -/
theorem beforePoll_later {m : Seq Unit} {s : State} (h : s.pos ≠ .start) : beforePoll m s = .ok ((), s) := by
  rw [beforePoll, seq_get_bind, if_neg h]; rfl

/-- A valid target is a valid id. -/
theorem validId_target {s : State} {l : Latch} (h : TargetOk s .single l) : validId s l.tgt = true := by
  have h' : l.tgt ≠ 0 ∧ crc8 s (romBytes l.tgt) = 0 := h
  simp [validId, h'.2]; exact h'.1

/-- Ids read from ROMTAB. -/
theorem readIds_run {off n : Nat} {s : State} (ids : List RomId) (hl : ids.length = n) (hr : ∀ k,
    k < n → ramRange s.params (off + 8 * k) 8 = true)
    (h : ∀ j k, j < n → k < 8 → memGet s.ram (off + 8 * j + k) = some ((ids.getD j 0).extractLsb' (8 * k) 8)) :
        readIds off n s = .ok (ids, s) := by
  induction n generalizing off ids with
  | zero => cases ids with
    | nil => rfl
    | cons a b => simp at hl
  | succ n ih =>
    cases ids with
    | nil => simp at hl
    | cons id ids =>
      have hb : ramBytes off 8 s = (romBytes id, s) := ramBytes_written (romBytes_length id) fun k hk => by
        have := h 0 k (by omega) hk
        rw [Nat.mul_zero, Nat.add_zero] at this
        rw [this]
        simp [romBytes, hk]
      rw [readIds, seq_bind_ok (a := romBytes id) (s' := s) ((memRead_run (by simpa using hr 0 (by omega))).trans
          (by rw [hb])), seq_bind_ok (ih ids (by simpa using hl) (fun k hk => by
          have := hr (k+1) (by omega)
          rwa [show off + 8 * (k + 1) = off + 8 + 8 * k by omega] at this) (fun j k hj hk => by
          have := h (j+1) k (by omega) hk
          rwa [show off + 8 * (j + 1) + k = off + 8 + 8 * j + k by omega] at this)), seq_pure, romOfBytes_romBytes]

/-- The device list (43_session R360). -/
theorem prepareList_run {s : State} {m l ids} (hd : DeviceList s m l ids) (hn : ids.length ≤ s.params.maxDevices) :
    prepareList m l s = .ok ((), { s with devices := ids }) := by
  cases m with
  | single =>
    obtain ⟨h1, rfl⟩ := hd
    rw [prepareList, seq_bind_ok (checkTarget_valid (validId_target h1))]; rfl
  | multi =>
    obtain ⟨h1, h2, h3⟩ := hd
    have hne : (s.romCount != 0) = true := by simpa using h2
    rw [prepareList, seq_get_bind, hne]
    show (pure () >>= _ : Seq Unit) s = _
    rw [seq_pure_bind, seq_bind_ok (readIds_run ids h1 (fun k hk => by
      exact ramRange_romtab (by omega)) (fun j k hj hk => h3 j k (by omega) hk))]
    rfl

/-- The alarm bytes of TS.CONFIG. -/
theorem alarm_run {p : Params} {l : Latch} {th tl : Byte} {conf : Bool} {hi lo : Int} (h1 : hi = l.a1.toInt)
    (h2 : lo = l.a2.toInt) (hle : lo ≤ hi)
   (he : (th, tl, conf) = (if hi = lo then (0x7F, 0x80, false) else (encAlarm p hi, encAlarm p lo, true))) :
       alarmBytes p l = some (th, tl, conf) := by
  subst h1 h2
  rw [he]
  unfold alarmBytes
  by_cases h : l.a1.toInt = l.a2.toInt
  · rw [if_pos h, if_pos h]
  · rw [if_neg h, if_neg (by omega), if_neg h]

/-- A poll slot that reads 1. -/
theorem pollOnce_one {u : State} {r : List Bool} (h1 : u.host = []) (h2 : u.bus = true :: r) : pollOnce u =
    .ok (true, onLine u [.read true] r) := by
  rw [pollOnce, seq_bind_ok (slotRead_answer h1 h2)]; rfl

/-- A poll slot that reads 0: the deadline decides. -/
theorem pollOnce_zero {u : State} {r : List Bool} {t ts} {p : Poll} (h1 : u.host = []) (h2 : u.bus = false :: r)
    (h3 : u.clockIn = t :: ts) (h4 : u.poll = some p) :
    pollOnce u = if deadlinePassed p.start p.budget t then .ok (false,
        { onLine u [.read false] r with clockIn := ts }) else .error
        (.next { onLine u [.read false] r with clockIn := ts }) := by
  rw [pollOnce, seq_bind_ok (slotRead_answer h1 h2)]
  show pollDeadline _ = _
  rw [pollDeadline, seq_bind_ok (now_answer (t := t) (ts := ts) (by exact h1) (by exact h3)), seq_get_bind]
  show (if deadlinePassed (u.poll.getD _).start (u.poll.getD _).budget t = true then _ else _ : Seq Bool) _ = _
  rw [h4]
  show (if deadlinePassed p.start p.budget t = true then _ else _ : Seq Bool) _ = _
  split <;> rfl

/-- TS.SAVE and TS.RESTORE up to their poll. -/
theorem eeprom_start {m cmd l} {s : State} {t0 ts rest} (h : BusReady s l) (ht : TargetOk s m l) (hc : s.clockIn =
    t0 :: ts) (hb : s.bus = false :: rest) :
    eepromStart m cmd l s =
        .ok ((), { setSeq .converting (setPresence true (onLine s (operationSlots s.params m l.tgt cmd) rest)) with clockIn := ts, pos := .poll, poll := some { start := t0, budget := ticks s.params l s.params.eeTimeoutMs } }) := by
  rw [eepromStart, seq_bind_ok (busCheck_configured h.configured), seq_bind_ok (checkSingle_ok ht),
      seq_bind_ok (startOperation_answer h.quiet hb), seq_get_bind, startPoll,
      seq_bind_ok (now_answer (t := t0) (ts := ts) (by exact h.quiet) (by exact hc)), hidden_run]
  rfl

/-- The end of TS.ISFAKE. -/
theorem report_run {m l fake} {u : State} {c : Capture} {rest} (hq : u.host = []) (hc : u.capture = some c)
    (hb : u.bus = false :: rest) :
    reportFake m l fake u =
        .error (.next (okEnd (boolWord fake) 0
        (setRbool fake (setPresence true (onLine u (writeSpadSlots u.params m l.tgt c.th c.tl c.cf) rest))))) := by
  have : captureOf u = c := by simp [captureOf, hc]
  rw [reportFake, seq_get_bind, this, seq_bind_ok (writeSpad_answer hq hb), seq_bind_ok (update_quiet (by exact hq)),
      finish_quiet (by exact hq)]
  rfl

/-- Capture tries that fail. -/
theorem capture_run {m l} (bad : List (List Byte)) (n : Nat) {u : State} {rest : List Bool} (hq : u.host =
    []) (hbad : ∀ sp ∈ bad, sp.length = 9 ∧ crc8 u sp ≠ 0)
    (hb : u.bus = bad.flatMap readSpadAnswers ++ rest) (hne : bad ≠ []) :
    captureSpad m l (bad.length + n) u =
        captureSpad m l n (setSeq .readingSpad
        (setPresence true (onLine u (bad.flatMap (readSpadSlots u.params m l.tgt)) rest))) := by
  induction bad generalizing u with
  | nil => exact absurd rfl hne
  | cons sp bad ih =>
    have h9 := hbad sp (by simp)
    rw [show (sp :: bad).length + n = (bad.length + n) + 1 by simp; omega, captureSpad]
    rw [seq_bind_ok (address_answer hq (rest := answers sp ++ (bad.flatMap readSpadAnswers ++ rest))
        (by rw [hb]; simp [readSpadAnswers])), seq_bind_ok (readSpad_answers (by exact hq) h9.1 (by rfl)),
        seq_get_bind]
    have hcr : ∀ w : State, w.registry = u.registry → (crc8 w sp == 0) = false := by
      intro w hw; have : crc8 w sp = crc8 u sp := by simp only [crc8, hw]
      rw [this]; simpa using h9.2
    rw [hcr _ (by rfl)]
    simp only [Bool.false_eq_true, if_false]
    have e : ∀ r, onLine u (readSpadSlots u.params m l.tgt sp) r =
        onLine (onLine u (addressSlots u.params m l.tgt) (answers sp ++ r))
        (sent [u.params.owcReadSpad] ++ received sp) r := by
      intro r
      rw [onLine_onLine u]; simp [readSpadSlots]
    by_cases hm : bad = []
    · subst hm
      simp only [List.flatMap_nil, List.nil_append, List.flatMap_cons, List.append_nil, List.length_nil, Nat.zero_add]
      rw [e]
      rfl
    · have h1 := ih (u := setSeq .readingSpad
          (setPresence true (onLine u (readSpadSlots u.params m l.tgt sp) (bad.flatMap readSpadAnswers ++ rest))))
          (by exact hq) (fun sp hsp => hbad sp (by simp [hsp])) (by rfl) hm
      rw [List.flatMap_cons, ← onLine_onLine u _ _ (bad.flatMap readSpadAnswers ++ rest)]
      rw [e] at *
      exact h1

/-- TS.ISFAKE past its capture, up to its first poll. -/
theorem probe_tail {m l} {w : State} {c : Capture} {t0 ts rest} (hq : w.host = []) (hc : w.capture = some c)
    (hck : w.clockIn = t0 :: ts) (hb : w.bus = false :: false :: rest) :
    (do
      let s ← get
      writeSpad m l.tgt (captureOf s).th (captureOf s).tl (cfgByte 9)
      startOperation m l.tgt s.params.owcConvertT
      startPoll l s.params.fakeWindowMs .poll : Seq Unit) w = .ok ((), { setSeq .converting (setPresence true (onLine w
        (writeSpadSlots w.params m l.tgt c.th c.tl 0x1F ++ operationSlots w.params m l.tgt w.params.owcConvertT) rest)) with
        clockIn := ts, pos := .poll, poll := some { start := t0, budget := ticks w.params l w.params.fakeWindowMs } }) := by
  have : captureOf w = c := by simp [captureOf, hc]
  rw [seq_get_bind, this, seq_bind_ok (writeSpad_answer hq hb),
      seq_bind_ok (startOperation_answer (by exact hq) (by rfl)), startPoll,
      seq_bind_ok (now_answer (t := t0) (ts := ts) (by exact hq) (by exact hck)), hidden_run]
  rw [show cfgByte 9 = 0x1F from rfl]
  have e : onLine w (writeSpadSlots w.params m l.tgt c.th c.tl 0x1F ++ operationSlots w.params m l.tgt
      w.params.owcConvertT) rest =
    onLine (onLine w (addressSlots w.params m l.tgt ++ sent [w.params.owcWriteSpad, c.th, c.tl, 0x1F])
        (false :: rest)) (addressSlots w.params m l.tgt ++ sent [w.params.owcConvertT]) rest :=
        (onLine_onLine _ _ _ _ _).symm
  rw [e]
  generalize hX : addressSlots w.params m l.tgt ++ sent [w.params.owcWriteSpad, c.th, c.tl, 0x1F] = X
  generalize hY : onLine w X (false :: rest) = Y
  have hp : Y.params = w.params := by subst hY; rfl
  rw [← hp]
  rfl

/-! ## A device that is absent -/

/-- The address step of a write of the scratch-pad meets no device. -/
theorem writeSpad_absent {m id th tl cf} {s : State} {rest : List Bool} (hq : s.host = []) (hb : s.bus = true :: rest) :
    writeSpad m id th tl cf s =
        .error (.next (errorEnd .noPresence 0 (setPresence false (onLine s [.reset true] rest)))) := by
  rw [writeSpad]; exact seq_bind_error (address_none hq hb)

/-- So does that of an operation. -/
theorem startOperation_absent {m id cmd} {s : State} {rest : List Bool} (hq : s.host = []) (hb : s.bus = true :: rest) :
    startOperation m id cmd s =
        .error (.next (errorEnd .noPresence 0 (setPresence false (onLine s [.reset true] rest)))) := by
  rw [startOperation]; exact seq_bind_error (address_none hq hb)

/-- So does that of the end of TS.ISFAKE. -/
theorem reportFake_absent {m l fake} {s : State} {rest : List Bool} (hq : s.host = []) (hb : s.bus = true :: rest) :
    reportFake m l fake s = .error (.next (errorEnd .noPresence 0 (setPresence false (onLine s [.reset true] rest)))) := by
  rw [reportFake, seq_get_bind]; exact seq_bind_error (writeSpad_absent hq hb)

/-- So does that of a capture. -/
theorem captureSpad_absent {m l n} {s : State} {rest : List Bool} (hq : s.host = []) (hb : s.bus = true :: rest) :
    captureSpad m l (n + 1) s =
        .error (.next (errorEnd .noPresence 0 (setPresence false (onLine s [.reset true] rest)))) := by
  rw [captureSpad]; exact seq_bind_error (address_none hq hb)

/-- The capture of TS.ISFAKE, after tries that fail. -/
theorem capture_good {m l} {bad : List (List Byte)} {s : State} {sp : List Byte} {rest : List Bool} {N : Nat}
    (hq : s.host = []) (hbad : ∀ sp ∈ bad, sp.length = 9 ∧ crc8 s sp ≠ 0)
    (hN : bad.length < N) (h9 : sp.length = 9) (hcrc : crc8 s sp = 0) (hbus : s.bus =
        bad.flatMap readSpadAnswers ++ (readSpadAnswers sp ++ rest)) :
    captureSpad m l N s =
        .ok ((), { setSeq .readingSpad (setPresence true (onLine s (bad.flatMap (readSpadSlots s.params m l.tgt) ++ readSpadSlots s.params m l.tgt sp) rest)) with capture := some { th := sp.getD 2 0, tl := sp.getD 3 0, cf := sp.getD 4 0 } }) := by
  obtain ⟨k, hk⟩ : ∃ k, N = bad.length + (k + 1) := ⟨N - bad.length - 1, by omega⟩
  have one : ∀ (u : State), u.host = [] → u.registry = s.registry → u.bus =
      readSpadAnswers sp ++ rest → captureSpad m l (k + 1) u =
      .ok ((), { setSeq .readingSpad (setPresence true (onLine u (readSpadSlots u.params m l.tgt sp) rest)) with capture := some { th := sp.getD 2 0, tl := sp.getD 3 0, cf := sp.getD 4 0 } }) := by
    intro u h1 h2 h3
    rw [captureSpad, seq_bind_ok (address_answer h1 (rest := answers sp ++ rest) h3),
        seq_bind_ok (readSpad_answers (by exact h1) h9 (by rfl)), seq_get_bind]
    have hcr : ∀ w : State, w.registry = u.registry → (crc8 w sp == 0) = true := by
      intro w hw; have : crc8 w sp = crc8 s sp := by simp only [crc8, hw, h2]
      rw [this, hcrc]; rfl
    rw [hcr _ (by rfl)]
    simp only [if_true]
    rw [keepCapture, hidden_run, show onLine u (readSpadSlots u.params m l.tgt sp) rest =
        onLine (onLine u (addressSlots u.params m l.tgt) (answers sp ++ rest))
        (sent [u.params.owcReadSpad] ++ received sp) rest from by
      rw [onLine_onLine u]; simp [readSpadSlots]]
    rfl
  rw [hk]
  by_cases hne : bad = []
  · subst hne
    rw [List.length_nil, Nat.zero_add]
    exact one s hq rfl (by simpa using hbus)
  · rw [capture_run bad (k + 1) hq hbad hbus hne, one _ (by exact hq) (by rfl) (by rfl),
        ← onLine_onLine s _ _ (readSpadAnswers sp ++ rest)]
    rfl

/-! ## The steps that start TS.CONVREAD and TS.ISFAKE, and the polls of TS.ISFAKE -/

/-- TS.CONVREAD up to its poll. -/
theorem convread_start {m l} {s : State} {ids : List RomId} {t0 ts rest} (h : BusReady s l) (hd : DeviceList s m l ids)
    (hl : ids.length ≤ s.params.maxDevices) (hc : s.clockIn = t0 :: ts) (hb : s.bus = false :: rest) :
    convreadStart m l s = .ok ((), { setSeq .converting (setPresence true
        (onLine s (operationSlots s.params m l.tgt s.params.owcConvertT) rest)) with
      clockIn := ts, pos := .poll, poll := some { start := t0, budget := ticks s.params l s.params.convTimeoutMs }
      devices := ids }) := by
  rw [convreadStart, seq_bind_ok (busCheck_configured h.configured), seq_bind_ok (prepareList_run hd hl), seq_get_bind,
    seq_bind_ok (startOperation_answer (by exact h.quiet) (by exact hb)), startPoll,
    seq_bind_ok (now_answer (t := t0) (ts := ts) (by exact h.quiet) (by exact hc)), hidden_run]
  rfl

/-- TS.ISFAKE up to its first poll. -/
theorem probe_run {m l} {s : State} {bad : List (List Byte)} {sp : List Byte} {c : Capture} {t0 ts rest}
    (h : BusReady s l) (ht : TargetOk s m l) (hbad : ∀ x ∈ bad, x.length = 9 ∧ crc8 s x ≠ 0)
    (hlen : bad.length < s.params.readRepeat) (h9 : sp.length = 9) (hcrc : crc8 s sp = 0)
    (hc : c = { th := sp.getD 2 0, tl := sp.getD 3 0, cf := sp.getD 4 0 }) (hck : s.clockIn = t0 :: ts)
    (hbus : s.bus = bad.flatMap readSpadAnswers ++ readSpadAnswers sp ++ false :: false :: rest) :
    probeDevice m l s = .ok ((), { setSeq .converting (setPresence true
        (onLine s (probeSlots s.params m l.tgt bad sp) rest)) with
      clockIn := ts, pos := .poll, capture := some c
      poll := some { start := t0, budget := ticks s.params l s.params.fakeWindowMs } }) := by
  have cap := capture_good (m := m) (l := l) h.quiet hbad hlen h9 hcrc (rest := false :: false :: rest)
    (by rw [hbus]; simp)
  obtain ⟨A, hA⟩ : ∃ A, A = bad.flatMap (readSpadSlots s.params m l.tgt) ++ readSpadSlots s.params m l.tgt sp :=
    ⟨_, rfl⟩
  rw [← hc, ← hA] at cap
  have run : probeDevice m l s = .ok ((), { setSeq .converting (setPresence true
      (onLine (onLine s A (false :: false :: rest)) (writeSpadSlots s.params m l.tgt c.th c.tl 0x1F ++
        operationSlots s.params m l.tgt s.params.owcConvertT) rest)) with
      clockIn := ts, pos := .poll, capture := some c
      poll := some { start := t0, budget := ticks s.params l s.params.fakeWindowMs } }) := by
    rw [probeDevice, seq_bind_ok (busCheck_configured h.configured), seq_bind_ok (checkSingle_ok ht), seq_get_bind,
      seq_bind_ok cap]
    refine (probe_tail (c := c) (t0 := t0) (ts := ts) (rest := rest) ?_ ?_ ?_ ?_).trans ?_
    · exact h.quiet
    · rfl
    · exact hck
    · rfl
    · rfl
  rw [run, onLine_onLine, hA, hc, probeSlots, List.append_assoc _ (writeSpadSlots _ _ _ _ _ _)]

/-- TS.ISFAKE from its first poll on. -/
def isfakePolls (m : Addressing) (l : Latch) : Seq Unit := do
  beforeDrain (windowPoll m l)
  let _ ← pollOnce
  reportFake m l true

section
variable {m : Addressing} {l : Latch} {s : State} {c : Capture} {p : Poll} {rest : List Bool} {t t0 : Word}
  {ts : List Word}

/-- Done in the window. -/
theorem isfake_done (hq : s.host = []) (hc : s.capture = some c) (hpos : s.pos = .poll) (hb : s.bus = true :: false :: rest) :
    isfakePolls m l s = .error (.next (okEnd 0 0 (setRbool false (setPresence true (onLine s
      (.read true :: writeSpadSlots s.params m l.tgt c.th c.tl c.cf) rest))))) := by
  refine seq_bind_error ?_
  rw [beforeDrain, seq_get_bind, if_neg (by rw [hpos]; simp), windowPoll, seq_bind_ok (pollOnce_one hq hb), seq_get_bind]
  show reportFake m l false _ = _
  rw [report_run (by exact hq) (by exact hc) (by rfl), onLine_onLine]
  rfl

/-- A slot that reads 0 in time, in either poll. -/
theorem isfake_waits (hq : s.host = []) (hp : s.poll = some p) (hb : s.bus = false :: rest) (hck : s.clockIn = t :: ts)
    (hd : deadlinePassed p.start p.budget t = false) :
    isfakePolls m l s = .error (.next { onLine s [.read false] rest with clockIn := ts }) := by
  have h0 := pollOnce_zero hq hb hck hp
  rw [if_neg (by rw [hd]; simp)] at h0
  by_cases hdr : s.pos = .drain
  · rw [isfakePolls, seq_bind_ok (a := ()) (s' := s) (by rw [beforeDrain, seq_get_bind, if_pos hdr]; rfl), seq_bind_error h0]
  · refine seq_bind_error ?_
    rw [beforeDrain, seq_get_bind, if_neg hdr, windowPoll, seq_bind_error h0]

/-- The window passes: the second poll starts in the same step. -/
theorem isfake_window (hq : s.host = []) (hpos : s.pos = .poll) (hp : s.poll = some p) (hb : s.bus = false :: rest)
    (hck : s.clockIn = t :: t0 :: ts) (hd : deadlinePassed p.start p.budget t = true) :
    isfakePolls m l s = isfakePolls m l { onLine s [.read false] rest with
      clockIn := ts, pos := .drain, poll := some { start := t0, budget := ticks s.params l s.params.convTimeoutMs } } := by
  have h0 := pollOnce_zero hq hb hck hp
  rw [if_pos hd] at h0
  have hw : beforeDrain (windowPoll m l) s = .ok ((), { onLine s [.read false] rest with
      clockIn := ts, pos := .drain, poll := some { start := t0, budget := ticks s.params l s.params.convTimeoutMs } }) := by
    rw [beforeDrain, seq_get_bind, if_neg (by rw [hpos]; simp), windowPoll, seq_bind_ok h0, seq_get_bind]
    show startPoll l s.params.convTimeoutMs .drain _ = _
    rw [startPoll, seq_bind_ok (now_answer (t := t0) (ts := ts) (by exact hq) (by rfl)), hidden_run]
    rfl
  rw [isfakePolls, seq_bind_ok hw, seq_bind_ok (a := ()) (by rw [beforeDrain, seq_get_bind, if_pos (by rfl)]; rfl)]

/-- The second poll is done. -/
theorem isfake_fake (hq : s.host = []) (hc : s.capture = some c) (hpos : s.pos = .drain) (hb : s.bus = true :: false :: rest) :
    isfakePolls m l s = .error (.next (okEnd 1 0 (setRbool true (setPresence true (onLine s
      (.read true :: writeSpadSlots s.params m l.tgt c.th c.tl c.cf) rest))))) := by
  rw [isfakePolls, seq_bind_ok (a := ()) (s' := s) (by rw [beforeDrain, seq_get_bind, if_pos hpos]; rfl),
    seq_bind_ok (pollOnce_one hq hb), report_run (by exact hq) (by exact hc) (by rfl), onLine_onLine]
  rfl

/-- The second poll's deadline passes. -/
theorem isfake_gives_up (hq : s.host = []) (hc : s.capture = some c) (hpos : s.pos = .drain) (hp : s.poll = some p)
    (hb : s.bus = false :: false :: rest) (hck : s.clockIn = t :: ts) (hd : deadlinePassed p.start p.budget t = true) :
    isfakePolls m l s = .error (.next (okEnd 1 0 { setRbool true (setPresence true (onLine s
      (.read false :: writeSpadSlots s.params m l.tgt c.th c.tl c.cf) rest)) with clockIn := ts })) := by
  have h0 := pollOnce_zero hq hb hck hp
  rw [if_pos hd] at h0
  rw [isfakePolls, seq_bind_ok (a := ()) (s' := s) (by rw [beforeDrain, seq_get_bind, if_pos hpos]; rfl),
    seq_bind_ok h0, report_run (by exact hq) (by exact hc) (by rfl),
    show onLine s (.read false :: writeSpadSlots s.params m l.tgt c.th c.tl c.cf) rest =
      onLine (onLine s [.read false] (false :: rest)) (writeSpadSlots s.params m l.tgt c.th c.tl c.cf) rest from
      (onLine_onLine s [.read false] _ (false :: rest) rest).symm]
  rfl

/-- The second poll is done, and no device answers the restore. -/
theorem isfake_fake_absent (hq : s.host = []) (hpos : s.pos = .drain) (hb : s.bus = true :: true :: rest) :
    isfakePolls m l s =
      .error (.next (errorEnd .noPresence 0 (setPresence false (onLine s [.read true, .reset true] rest)))) := by
  rw [isfakePolls, seq_bind_ok (a := ()) (s' := s) (by rw [beforeDrain, seq_get_bind, if_pos hpos]; rfl),
    seq_bind_ok (pollOnce_one hq hb), reportFake_absent (by exact hq) (by rfl), onLine_onLine]
  rfl

/-- The second poll's deadline passes, and no device answers the restore. -/
theorem isfake_gives_up_absent (hq : s.host = []) (hpos : s.pos = .drain) (hp : s.poll = some p)
    (hb : s.bus = false :: true :: rest) (hck : s.clockIn = t :: ts) (hd : deadlinePassed p.start p.budget t = true) :
    isfakePolls m l s = .error (.next (errorEnd .noPresence 0
      { setPresence false (onLine s [.read false, .reset true] rest) with clockIn := ts })) := by
  have h0 := pollOnce_zero hq hb hck hp
  rw [if_pos hd] at h0
  rw [isfakePolls, seq_bind_ok (a := ()) (s' := s) (by rw [beforeDrain, seq_get_bind, if_pos hpos]; rfl),
    seq_bind_ok h0, reportFake_absent (by exact hq) (by rfl),
    show onLine s [Slot.read false, Slot.reset true] rest = onLine (onLine s [.read false] (true :: rest)) [.reset true] rest
      from (onLine_onLine s [.read false] [.reset true] (true :: rest) rest).symm]
  rfl
end

/-- A second presence pulse changes nothing. -/
theorem setPresence_again {u : State} (h : u.status.presence = true) : setPresence true u = u := by
  simp only [setPresence, ← h]

end Sys2Proof.Machine
end

