-- ==== Sys2Proof/Laws/Crc.lean ====
section
/-! SUPPORT. The CRC engine's definitions bit by bit: masks, reflection's width, one turn of the division loop and its
linearity (40_crc R200 to R205). -/

namespace Sys2Proof.Machine

/-- A value that fits W bits has no bit at or above W. -/
theorem high_zero {w : CrcWidth} {v : Word} (h : v.toNat ≤ (widthMask w).toNat) {i : Nat} (hi : widthBits w ≤ i) :
    v.getLsbD i = false := by
  by_cases h32 : 32 ≤ i
  · exact BitVec.getLsbD_of_ge _ _ h32
  · rw [BitVec.getLsbD, Nat.testBit_lt_two_pow]
    have : v.toNat < 2 ^ widthBits w := by cases w <;> simp [widthMask, widthBits] at h ⊢ <;> omega
    exact Nat.lt_of_lt_of_le this (Nat.pow_le_pow_right (by decide) hi)

/-- An entry of the table is the division of its index. -/
theorem getD_genTable (poly : Word) (w : CrcWidth) {b : Nat} (hb : b < 256) : (genTable poly w).getD b 0 =
    tableEntry poly w b := by
  have h : b < crcTableEntries := hb
  simp [genTable, List.getD, h]

/-- mask_W, bit by bit. -/
theorem mask_bit (w : CrcWidth) (i : Nat) : (widthMask w).getLsbD i = decide (i < widthBits w) := by
  by_cases h : i < 32
  · cases w <;> (interval_cases i <;> rfl)
  · rw [BitVec.getLsbD_of_ge _ _ (by omega)]
    have : ¬ i < widthBits w := by cases w <;> simp only [widthBits] <;> omega
    simp [this]

/-- One turn of the division loop, bit by bit. -/
theorem divideBit_bit (poly : Word) (w : CrcWidth) (r : Word) (i : Nat) :
    (divideBit poly w r).getLsbD i =
        (decide (i < widthBits w) &&
        (((decide (0 < i) && r.getLsbD (i-1)) ^^ (r.getLsbD (widthBits w - 1) && poly.getLsbD i)))) := by
  have hw : widthBits w ≤ 32 := by cases w <;> decide
  unfold divideBit
  by_cases hi : i < widthBits w
  · have h32 : i < 32 := by omega
    split
    · rename_i h
      rw [BitVec.getLsbD_and, BitVec.getLsbD_xor, mask_bit, BitVec.getLsbD_shiftLeft, h]
      by_cases h0 : i = 0
      · subst h0; simp [hi]
      · simp [hi, h32, show ¬ i < 1 by omega, show 0 < i by omega]
    · rename_i h
      rw [BitVec.getLsbD_and, mask_bit, BitVec.getLsbD_shiftLeft]
      simp only [Bool.not_eq_true] at h
      rw [h]
      by_cases h0 : i = 0
      · subst h0; simp [hi]
      · simp [hi, h32, show ¬ i < 1 by omega, show 0 < i by omega]
  · split <;> simp only [BitVec.getLsbD_and, mask_bit] <;> simp [hi]

/-- The division loop is linear. -/
theorem divideBit_xor (poly : Word) (w : CrcWidth) (x y : Word) : divideBit poly w (x ^^^ y) =
    divideBit poly w x ^^^ divideBit poly w y := by
  apply BitVec.eq_of_getLsbD_eq
  intro i hi
  simp only [divideBit_bit, BitVec.getLsbD_xor]
  cases decide (i < widthBits w) <;> cases decide (0 < i) <;> cases x.getLsbD (i-1) <;> cases y.getLsbD (i-1) <;>
      cases x.getLsbD (widthBits w - 1) <;> cases y.getLsbD (widthBits w - 1) <;> cases poly.getLsbD i <;> rfl

/-- So is any number of its turns. -/
theorem divideBits_xor (poly : Word) (w : CrcWidth) (n : Nat) (x y : Word) : divideBits poly w n (x ^^^ y) =
    divideBits poly w n x ^^^ divideBits poly w n y := by
  induction n generalizing x y with
  | zero => rfl
  | succ n ih => simp only [divideBits, divideBit_xor, ih]

/-- A masked value fits W bits. -/
theorem mask_le (w : CrcWidth) (x : Word) : (x &&& widthMask w).toNat ≤ (widthMask w).toNat := by
  rw [BitVec.toNat_and]; exact Nat.and_le_right

/-- A turn of the loop leaves W bits. -/
theorem divideBit_le (poly : Word) (w : CrcWidth) (r : Word) : (divideBit poly w r).toNat ≤ (widthMask w).toNat := by
  unfold divideBit; split <;> exact mask_le _ _

/-- So do any number of turns. -/
theorem divideBits_le (poly : Word) (w : CrcWidth) (n : Nat) (r : Word) (hr : r.toNat ≤ (widthMask w).toNat) :
    (divideBits poly w n r).toNat ≤ (widthMask w).toNat := by
  induction n generalizing r with
  | zero => exact hr
  | succ n ih => exact ih _ (divideBit_le _ _ _)

/-- Reflecting a byte twice gives it back. -/
theorem rev_rev (b : Byte) : b.reverse.reverse = b := by
  apply BitVec.eq_of_getLsbD_eq
  intro i hi
  rw [BitVec.getLsbD_reverse, BitVec.getMsbD_eq_getLsbD, BitVec.getLsbD_reverse, BitVec.getMsbD_eq_getLsbD]
  simp [hi, show 7 - i < 8 by omega, show 7 - (7 - i) = i by omega]

/-- The register keeps to W bits. -/
theorem fold_le (sl : CrcSlot) (m : List Byte) (c : Word) (h : c.toNat ≤ (widthMask sl.width).toNat) :
    (m.foldl (crcUpdate sl) c).toNat ≤ (widthMask sl.width).toNat := by
  induction m generalizing c with
  | nil => exact h
  | cons b m ih => exact ih _ (mask_le _ _)

/-- The three widths are read from their numbers. -/
theorem widthOf_bits (w : CrcWidth) : widthOf (BitVec.ofNat 32 (widthBits w)) = some w := by cases w <;> decide

/-- CRC_WIDTHS has one legal value: a width operand is one of the three numbers. -/
@[simp] theorem widthOperand_eq (p : Params) (v : Word) : widthOperand p v = widthOf v := by
  simp only [widthOperand, Params.crcWidths_eq]
  split
  · rfl
  · rename_i h
    unfold widthOf
    split
    · subst v; exact absurd (by decide) h
    · split
      · subst v; exact absurd (by decide) h
      · split
        · subst v; exact absurd (by decide) h
        · rfl

end Sys2Proof.Machine
end

