-- ==== Sys2Proof/Laws/HostPort.lean ====
section
/-! SUPPORT. What the host port can do: a read changes nothing but the draws and ACCERR; an access while a command runs
keeps BUSY, the parameters and the per-command state. -/

namespace Sys2Proof.Machine

theorem params_resetInput (c : Bool) (s : State) : (resetInput c s).params = s.params := rfl

theorem hostByte_frame (a : Nat) (s : State) : ∃ d, (hostByte a s).2 = { s with draws := d } := by
  unfold hostByte ramByte drawByte
  split
  · exact ⟨_, rfl⟩
  · split
    · exact ⟨s.draws, rfl⟩
    · exact ⟨_, rfl⟩

theorem hostBytes_frame (a n : Nat) (s : State) : ∃ d, (hostBytes a n s).2 = { s with draws := d } := by
  induction n generalizing a s with
  | zero => exact ⟨s.draws, rfl⟩
  | succ n ih =>
    obtain ⟨d, hd⟩ := hostByte_frame a s
    obtain ⟨e, he⟩ := ih (a + 1) (hostByte a s).2
    refine ⟨e, ?_⟩
    show (hostBytes (a + 1) n (hostByte a s).2).2 = _
    rw [he, hd]

theorem readPort_frame (p : Port) (off : Nat) (s : State) : ∃ d, (readPort p off s).2 = { s with draws := d } := by
  cases p <;> first
    | exact ⟨s.draws, rfl⟩
    | exact hostBytes_frame off 4 s

theorem hostRead_frame (w : AccessWidth) (off : Nat) (s : State) :
    ∃ d b, (hostRead w off s).2 = { s with draws := d, status := { s.status with accerr := b } } := by
  unfold hostRead
  split
  · obtain ⟨d, hd⟩ := readPort_frame (by assumption) off s
    exact ⟨d, s.status.accerr, hd⟩
  · exact ⟨s.draws, true, rfl⟩

theorem romtab_range {p : Params} {off : Nat} (h4 : off % 4 = 0) (h : inDbuf p off = true ∨ inRomtab p off =
    true) : ramRange p off 4 = true := by
  rw [ramRange_iff]
  intro k hk
  rcases h with h | h
  · simp only [inDbuf, Bool.and_eq_true, decide_eq_true_eq] at h
    simp only [dbufBase, Params.dbufSize_eq, dbufSize] at h
    exact inRam_dbuf (by simp only [dbufBase]; omega) (by simp only [dbufBase, dbufSize]; omega)
  · simp only [inRomtab, Bool.and_eq_true, decide_eq_true_eq] at h
    simp only [romtabBase] at h
    have h1 : 0x200 ≤ off + k := by omega
    have h2 : off + k < 0x200 + 8 * p.maxDevices := by omega
    simp [inRam, inRomtab, romtabBase, h1, h2]

theorem portAt_ram {p : Params} {off : Nat} (h : portAt p off = some .dbuf ∨ portAt p off = some .romtab) :
    inDbuf p off = true ∨ inRomtab p off = true := by
  unfold portAt at h
  split at h <;> simp_all
  split at h
  · split at h <;> simp_all
  · split at h
    · simp_all
    · split at h
      · simp_all
      · split at h <;> simp_all

theorem busy_hostAccess {s : State} (a : HostAccess) (h : s.status.busy = true) : (hostAccess a s).status.busy = true := by
  cases a with
  | read w addr =>
    simp only [hostAccess]
    split
    · obtain ⟨d, b, e⟩ := hostRead_frame w (by assumption) s
      simp [e, h]
    · exact h
  | write w addr v =>
    simp only [hostAccess]
    split
    · unfold hostWrite
      split
      · rename_i port _
        split
        · exact h
        · cases port <;> simp_all [writePort, droppedWhileBusy, writeOneClear]
      · exact h
    · exact h


theorem params_hostAccess (a : HostAccess) (s : State) : (hostAccess a s).params = s.params := by
  cases a with
  | read w addr =>
    simp only [hostAccess]
    split
    · obtain ⟨d, b, e⟩ := hostRead_frame w (by assumption) s
      simp [e]
    · rfl
  | write w addr v =>
    simp only [hostAccess]
    split
    · unfold hostWrite
      split
      · split
        · rfl
        · rename_i port _ _
          cases port <;> first
            | rfl
            | (simp only [writePort, writeRomCount]; split <;> rfl)
      · rfl
    · rfl


/-- The per-command state (10_state R52 to R55). -/
structure HiddenView where
  pos : SeqPos
  search : Option SearchState
  readPass : Option ReadPass
  devices : List RomId
  poll : Option Poll
  capture : Option Capture

/-- The per-command state of a machine. -/
def hiddenOf (s : State) : HiddenView := ⟨s.pos, s.search, s.readPass, s.devices, s.poll, s.capture⟩

theorem hidden_hostAccess (a : HostAccess) (s : State) (h : s.status.busy = true) :
    hiddenOf (hostAccess a s) = hiddenOf s := by
  cases a with
  | read w addr =>
    simp only [hostAccess]
    split
    · obtain ⟨d, b, e⟩ := hostRead_frame w (by assumption) s
      simp [e, hiddenOf]
    · rfl
  | write w addr v =>
    simp only [hostAccess]
    split
    · unfold hostWrite
      split
      · split
        · rfl
        · rename_i port _ hd
          cases port <;> first
            | rfl
            | (simp only [writePort, writeRomCount]; split <;> rfl)
            | simp [h, droppedWhileBusy] at hd
      · rfl
    · rfl

/-! ## Which port is where -/

/-- CRC_CAPACITY is 1..8. -/
theorem cap_le (p : Params) : 1 ≤ p.crcCapacity ∧ p.crcCapacity ≤ 8 := by simp [Params.crcCapacity]

/-- MAX_DEVICES is 1..64. -/
theorem dev_le (p : Params) : 1 ≤ p.maxDevices ∧ p.maxDevices ≤ 64 := by simp [Params.maxDevices]

/-- The map above the fixed registers. -/
theorem portAt_high (p : Params) {off : Nat} (h : 0x040 ≤ off) : portAt p off =
    if off < 0x040 + 8 * p.crcCapacity then
      if (off - 0x040) % 8 = 0 then some (.crcPoly ((off - 0x040) / 8)) else some (.crcCfg ((off - 0x040) / 8))
    else if inDbuf p off then some .dbuf
    else if inRomtab p off then some .romtab
    else if inRestab p off then some .restab
    else none := by
  unfold portAt
  split <;> first | omega | skip
  simp [h]

/-- DBUF. -/
theorem portAt_dbuf (p : Params) {off : Nat} (h1 : 0x100 ≤ off) (h2 : off < 0x200) : portAt p off = some .dbuf := by
  have := cap_le p
  rw [portAt_high p (by omega), if_neg (by omega),
      if_pos (by simp only [inDbuf, Bool.and_eq_true, decide_eq_true_eq]; simp only [dbufBase, Params.dbufSize_eq, dbufSize]; omega)]

/-- ROMTAB. -/
theorem portAt_romtab (p : Params) {off : Nat} (h1 : 0x200 ≤ off) (h2 : off < 0x200 + 8 * p.maxDevices) : portAt p
    off = some .romtab := by
  have := cap_le p
  rw [portAt_high p (by omega), if_neg (by omega),
      if_neg (by simp only [inDbuf, Bool.and_eq_true, decide_eq_true_eq]; simp only [dbufBase, Params.dbufSize_eq, dbufSize]; omega), if_pos (by simp only [inRomtab, Bool.and_eq_true, decide_eq_true_eq]; simp only [romtabBase]; omega)]

/-- RESTAB. -/
theorem portAt_restab (p : Params) {off : Nat} (h1 : 0x400 ≤ off) (h2 : off < 0x400 + 32 * p.maxDevices) : portAt p
    off = some .restab := by
  have := cap_le p; have := dev_le p
  rw [portAt_high p (by omega), if_neg (by omega),
      if_neg (by simp only [inDbuf, Bool.and_eq_true, decide_eq_true_eq]; simp only [dbufBase, Params.dbufSize_eq, dbufSize]; omega), if_neg (by simp only [inRomtab, Bool.and_eq_true, decide_eq_true_eq]; simp only [romtabBase]; omega), if_pos (by simp only [inRestab, Bool.and_eq_true, decide_eq_true_eq]; simp only [restabBase]; omega)]

/-- The registry registers. -/
theorem portAt_crc (p : Params) {off : Nat} (h1 : 0x040 ≤ off) (h2 : off < 0x040 + 8 * p.crcCapacity) : portAt p off =
    some (.crcPoly ((off - 0x040) / 8)) ∨ portAt p off = some (.crcCfg ((off - 0x040) / 8)) := by
  rw [portAt_high p h1, if_pos h2]; split <;> simp

/-- Nothing is mapped elsewhere. -/
theorem portAt_none (p : Params) {off : Nat} (h : ¬ Mapped p off) : portAt p off = none := by
  simp only [Mapped, not_or] at h
  obtain ⟨h0, h1, h2, h3, h4⟩ := h
  by_cases h5 : 0x040 ≤ off
  · rw [portAt_high p h5, if_neg (by omega),
        if_neg (by simp only [inDbuf, Bool.and_eq_true, decide_eq_true_eq]; simp only [dbufBase, Params.dbufSize_eq, dbufSize]; omega), if_neg (by simp only [inRomtab, Bool.and_eq_true, decide_eq_true_eq]; simp only [romtabBase]; omega), if_neg (by simp only [inRestab, Bool.and_eq_true, decide_eq_true_eq]; simp only [restabBase]; omega)]
  · have : off < 0x40 := by omega
    unfold portAt
    split
    all_goals first
      | (exfalso; simp at h0; done)
      | skip
    rw [if_neg (by omega),
        if_neg (by simp only [inDbuf, Bool.and_eq_true, decide_eq_true_eq]; simp only [dbufBase, Params.dbufSize_eq, dbufSize]; omega), if_neg (by simp only [inRomtab, Bool.and_eq_true, decide_eq_true_eq]; simp only [romtabBase]; omega), if_neg (by simp only [inRestab, Bool.and_eq_true, decide_eq_true_eq]; simp only [restabBase]; omega)]

/-! ## Reading RAM -/

/-- Which bytes the running command may write (20_memory R112). -/
theorem mayWrite_iff {s : State} {l : Latch} (hl : s.latch = some l) (a : Nat) : mayWrite s a = true ↔ Unsettled s l a := by
  have hrec : ∀ m : Addressing, (inRestab s.params a && decide (a < restabBase + 32 * recordCount m s)) = true ↔
      0x400 ≤ a ∧ a < 0x400 + 32 * (match m with
        | .single => 1
        | .multi => s.romCount.toNat) ∧ a < 0x400 + 32 * s.params.maxDevices := by
    intro m
    simp only [inRestab, Bool.and_eq_true, decide_eq_true_eq]
    cases m <;> simp only [restabBase, recordCount] <;> omega
  unfold mayWrite Unsettled
  rw [hl]
  cases decode s.lcmd with
  | none => simp
  | some i =>
    cases i with
    | owRmulti =>
      simp only [inDbuf, Bool.and_eq_true, decide_eq_true_eq]
      simp only [dbufBase, Params.dbufSize_eq, dbufSize]
      omega
    | owSearch m =>
      simp only [inRomtab, Bool.and_eq_true, decide_eq_true_eq]
      simp only [romtabBase]
    | tsReadtemp m => exact hrec m
    | tsReadalarm m => exact hrec m
    | tsConvread m => exact hrec m
    | _ => simp

/-- A host read of a RAM byte, in any state. -/
theorem hostByte_cases (a : Nat) (s : State) :
    (Drawn s a ∧ hostByte a s = (Config.freeByte s.draws, { s with draws := s.draws + 1 })) ∨
    (¬ Drawn s a ∧ ∃ b, memGet s.ram a = some b ∧ hostByte a s = (b, s)) := by
  have hw : (s.status.busy && mayWrite s a) = true ↔ s.status.busy = true ∧ ∃ l, s.latch = some l ∧ Unsettled s l a := by
    rw [Bool.and_eq_true]
    refine and_congr_right fun _ => ?_
    cases hl : s.latch with
    | none => simp [mayWrite, hl]
    | some l => simp [mayWrite_iff hl]
  unfold hostByte ramByte drawByte Drawn
  rw [← hw]
  by_cases h : (s.status.busy && mayWrite s a) = true
  · exact .inl ⟨.inr h, by rw [if_pos h]⟩
  · rw [if_neg h]
    cases memGet s.ram a with
    | none => exact .inl ⟨.inl rfl, rfl⟩
    | some b => exact .inr ⟨by simpa using h, b, rfl, rfl⟩

/-- The count of draws does not matter to it. -/
theorem drawn_draws (s : State) (a d : Nat) : Drawn { s with draws := d } a ↔ Drawn s a := Iff.rfl

/-- The bytes of a RAM read: the draws are new, one for each byte. -/
theorem hostBytes_spec (off n : Nat) (s : State) :
    ∃ (d : Nat) (f : Nat → Nat), (hostBytes off n s).2 = { s with draws := d } ∧ s.draws ≤ d ∧
        (hostBytes off n s).1.length = n ∧
      ∀ k, k < n →
        (Drawn s (off + k) → s.draws ≤ f k ∧ f k < d ∧
            (hostBytes off n s).1[k]? = some (Config.freeByte (f k)) ∧ ∀ j, j < k → Drawn s (off + j) → f j < f k) ∧
        (¬ Drawn s (off + k) → ∃ b, memGet s.ram (off + k) = some b ∧ (hostBytes off n s).1[k]? = some b) := by
  induction n generalizing off s with
  | zero => exact ⟨s.draws, fun _ => 0, rfl, Nat.le_refl _, rfl, fun k hk => by omega⟩
  | succ n ih =>
    have hs : ∀ k, off + 1 + k = off + (k + 1) := fun k => by omega
    rcases hostByte_cases off s with ⟨hu, he⟩ | ⟨hu, b, hm, he⟩
    · obtain ⟨d, f, h1, h2, h3, h4⟩ := ih (off + 1) { s with draws := s.draws + 1 }
      simp only [drawn_draws, hs] at h2 h4
      have e : hostBytes off (n + 1) s =
          (Config.freeByte s.draws :: (hostBytes (off + 1) n { s with draws := s.draws + 1 }).1,
          (hostBytes (off + 1) n { s with draws := s.draws + 1 }).2) := by
        simp only [hostBytes, he]
      rw [e]
      refine ⟨d, fun k => match k with | 0 => s.draws | k + 1 => f k, h1, by omega, by simp [h3], fun k hk => ?_⟩
      cases k with
      | zero => exact ⟨fun _ => ⟨Nat.le_refl _, by simp only []; omega, rfl, fun j hj => by omega⟩, fun hn => absurd hu hn⟩
      | succ k =>
        refine ⟨fun hd => ?_, fun hn => by simpa using (h4 k (by omega)).2 hn⟩
        obtain ⟨a1, a2, a3, a4⟩ := (h4 k (by omega)).1 hd
        refine ⟨by simp only []; omega, a2, by simpa using a3, fun j hj hdj => ?_⟩
        cases j with
        | zero => simp only []; omega
        | succ j => exact a4 j (by omega) hdj
    · obtain ⟨d, f, h1, h2, h3, h4⟩ := ih (off + 1) s
      simp only [hs] at h4
      have e : hostBytes off (n + 1) s = (b :: (hostBytes (off + 1) n s).1, (hostBytes (off + 1) n s).2) := by
        simp only [hostBytes, he]
      rw [e]
      refine ⟨d, fun k => match k with | 0 => 0 | k + 1 => f k, h1, h2, by simp [h3], fun k hk => ?_⟩
      cases k with
      | zero => exact ⟨fun hd => absurd hd hu, fun _ => ⟨b, hm, rfl⟩⟩
      | succ k =>
        refine ⟨fun hd => ?_, fun hn => by simpa using (h4 k (by omega)).2 hn⟩
        obtain ⟨a1, a2, a3, a4⟩ := (h4 k (by omega)).1 hd
        refine ⟨a1, a2, by simpa using a3, fun j hj hdj => ?_⟩
        cases j with
        | zero => exact absurd hdj hu
        | succ j => exact a4 j (by omega) hdj

/-- Byte k of a word is byte k of its bytes (20_memory R102). -/
theorem wordOfBytes_byte (bs : List Byte) (h : bs.length = 4) (k : Nat) (hk : k < 4) : bs[k]? =
    some ((wordOfBytes bs).extractLsb' (8 * k) 8) := by
  obtain ⟨a, b, c, d, rfl⟩ : ∃ a b c d, bs = [a, b, c, d] := by
    match bs, h with
    | [a, b, c, d], _ => exact ⟨a, b, c, d, rfl⟩
  have : k = 0 ∨ k = 1 ∨ k = 2 ∨ k = 3 := by omega
  rcases this with rfl | rfl | rfl | rfl
  all_goals
    simp only [List.getElem?_cons_zero, List.getElem?_cons_succ, Option.some.injEq, wordOfBytes, List.foldr]
    apply BitVec.eq_of_getLsbD_eq
    intro i hi
    interval_cases i <;> simp

/-! ## The host's list -/

/-- The host's list does not matter to an access. -/
theorem hostAccess_host (a : HostAccess) (s : State) (h : List HostItem) :
    hostAccess a { s with host := h } = { hostAccess a s with host := h } := by
  have hb : ∀ off n (s : State), hostBytes off n { s with host := h } = ((hostBytes off n s).1, { (hostBytes off n s).2 with host := h }) := by
    intro off n
    induction n generalizing off with
    | zero => intro s; rfl
    | succ n ih =>
      intro s
      have h1 : hostByte off { s with host := h } = ((hostByte off s).1, { (hostByte off s).2 with host := h }) := by
        simp only [hostByte, ramByte, drawByte, show mayWrite { s with host := h } off = mayWrite s off from rfl]
        split
        · rfl
        · split <;> rfl
      simp only [hostBytes, h1, ih]
  cases a with
  | read w addr =>
    simp only [hostAccess]
    split
    · rename_i off _
      have hr : hostRead w off { s with host := h } = ((hostRead w off s).1, { (hostRead w off s).2 with host := h }) := by
        simp only [hostRead]
        cases accessPort s.params w off with
        | none => rfl
        | some port =>
          cases port
          case dbuf | romtab | restab => simp only [readPort, hostWord, hb]
          all_goals rfl
      rw [hr]
    · rfl
  | write w addr v =>
    simp only [hostAccess]
    split
    · rename_i off _
      simp only [hostWrite]
      cases accessPort s.params w off with
      | none => rfl
      | some port =>
        dsimp only
        split
        · rfl
        · cases port
          case romCount => simp only [writePort, writeRomCount]; split <;> rfl
          all_goals rfl
    · rfl

/-- Nor to the host's turn. -/
theorem hostTurn_host (inSlot : Bool) (l : List HostItem) (s : State) (h : List HostItem) :
    hostTurn inSlot l { s with host := h } = hostTurn inSlot l s := by
  induction l generalizing s with
  | nil => rfl
  | cons e rest ih =>
    obtain ⟨k, e⟩ := e
    cases k with
    | zero =>
      cases e with
      | access a => simp only [hostTurn, hostAccess_host, ih]
      | reset c => rfl
    | succ k => rfl

/-- An access whose time has come, in the host's turn. -/
theorem hostTurn_access (inSlot : Bool) {a : HostAccess} {rest : List HostItem} {s : State}
    (h : s.host = ⟨0, .access a⟩ :: rest) :
    hostTurn inSlot s.host s = hostTurn inSlot (hostAccess a { s with host := rest }).host (hostAccess a { s with host := rest }) := by
  rw [hostAccess_host, h]
  show hostTurn inSlot rest (hostAccess a s) = _
  exact (hostTurn_host _ _ _ _).symm

end Sys2Proof.Machine
end

