-- ==== Sys2Proof/Laws/Invariant.lean ====
section
/-! SUPPORT. The invariant, operation by operation: the host port, the reset input and the two command ends keep it, and
so does each single step of a running command. -/

namespace Sys2Proof.Machine

/-- The invariant does not look at these fields. -/
theorem inv_agents {s : State} (h : s.Inv) (ho : List HostItem) (hr : List Word) (b : List Bool) (li : List LineEvent)
    (ci : List Word) (cr d : Nat) :
    ({ s with host := ho, hostReads := hr, bus := b, line := li, clockIn := ci, clockReads := cr, draws := d } :
        State).Inv := by
  cases h; constructor <;> assumption

theorem inv_resetInput {s : State} (c : Bool) : (resetInput c s).Inv := by
  refine ⟨rfl, ?_, Nat.zero_le _, rfl, ?_, ?_, ?_, ?_, rfl, ?_, rfl, ?_, ?_, Nat.zero_le _⟩
  · intro c h; cases h
  · intro sl h; simp [resetInput, State.reset] at h; subst h; rfl
  · intro sl h; simp [resetInput, State.reset] at h; subst h; decide
  · simp [resetInput, State.reset]
  · show 1 ≤ _; simp [Params.crcCapacity]
  · intro h; cases h
  · intro h; cases h
  · intro _; simp [resetInput, State.reset, statusReset]

theorem inv_flags {s : State} (h : s.Inv) (o a : Bool) (p r : Bool):
    ({ s with status := { s.status with ovr := o, accerr := a, presence := p, rbool := r } } : State).Inv := by
  cases h; constructor <;> assumption

theorem inv_hostRead {s : State} (h : s.Inv) (w : AccessWidth) (off : Nat) : (hostRead w off s).2.Inv := by
  obtain ⟨d, b, e⟩ := hostRead_frame w off s
  rw [e]
  exact inv_agents (inv_flags h s.status.ovr b s.status.presence s.status.rbool) s.host s.hostReads s.bus s.line
      s.clockIn s.clockReads d

theorem inv_storeBytes {s : State} (h : s.Inv) (off : Nat) (bs : List Byte)
    (hr : ramRange s.params off bs.length = true) : (storeBytes off bs s).Inv := by
  rw [ramRange_iff] at hr
  refine { h with ramWf := memWf_memSetBytes _ _ h.ramWf, ramIn := ?_ }
  intro c hc
  rcases mem_memSetBytes hc with hc | hc
  · have := hr (c.1 - off) (by omega)
    rwa [show off + (c.1 - off) = c.1 by omega] at this
  · exact h.ramIn c hc

theorem inv_accept {s : State} (w : Word) (h : s.Inv) : (accept w s).Inv := by
  refine ⟨h.ramWf, h.ramIn, h.romCount, h.slotZero, h.tables, h.polys, h.distinct, h.capacity, h.released, h.pin, rfl,
      ?_, ?_, Nat.zero_le _⟩
  · intro _
    simp only [accept_fields, true_and]
    split <;> simp
  · intro h; cases h

theorem inv_writeOneClear {s : State} (v : Word) (h : s.Inv) : (writeOneClear v s).Inv := by
  refine { h with running := ?_ }
  intro hb
  have := h.running hb
  simp_all

theorem inv_hostWrite {s : State} (h : s.Inv) (w : AccessWidth) (off : Nat) (v : Word) : (hostWrite w off v s).Inv := by
  unfold hostWrite
  split
  · rename_i port hp
    split
    · exact inv_flags h true s.status.accerr s.status.presence s.status.rbool
    · have hram : (port = .dbuf ∨ port = .romtab) → ramRange s.params off (wordBytes v).length = true := by
        intro hport
        unfold accessPort at hp
        split at hp
        · rename_i hc
          rw [wordBytes_length]
          apply romtab_range hc.2
          apply portAt_ram
          rcases hport with rfl | rfl <;> simp [hp]
        · cases hp
      cases port <;> first
        | exact h
        | exact inv_accept v h
        | exact inv_writeOneClear v h
        | exact inv_storeBytes h off _ (hram (by simp))
        | (cases h; constructor <;> assumption)
        | skip
      · show (writeRomCount v s).Inv
        unfold writeRomCount
        split
        · exact inv_flags h s.status.ovr true s.status.presence s.status.rbool
        · rename_i hv
          refine { h with romCount := ?_ }
          simp
          exact Nat.le_trans (Nat.mod_le _ _) (by omega)
  · exact inv_flags h s.status.ovr true s.status.presence s.status.rbool

theorem inv_hostAccess {s : State} (a : HostAccess) (h : s.Inv) : (hostAccess a s).Inv := by
  cases a with
  | read w addr =>
    simp only [hostAccess]
    split
    · have := inv_hostRead h w (by assumption)
      exact inv_agents this _ _ _ _ _ _ _
    · exact h
  | write w addr v =>
    simp only [hostAccess]
    split
    · exact inv_hostWrite h _ _ _
    · exact h

/-- A command is running, under the invariant, and its per-command state has F. -/
structure Mid (p : Params) (F : HiddenView → Prop) (s : State) : Prop where
  inv : s.Inv
  busy : s.status.busy = true
  params : s.params = p
  extra : F (hiddenOf s)

/-- A state the machine may step to. -/
structure Good (p : Params) (s : State) : Prop where
  inv : s.Inv
  params : s.params = p

variable {p : Params} {s : State} {F : HiddenView → Prop}

theorem mid_host : HostKeeps (Mid p F) (Always (Good p)) :=
  hostKeeps_of
    (fun a s h => ⟨inv_hostAccess a h.inv, busy_hostAccess a h.busy, (params_hostAccess a s).trans h.params,
      hidden_hostAccess a s h.busy ▸ h.extra⟩)
    (fun l s h => ⟨inv_agents h.inv l s.hostReads s.bus s.line s.clockIn s.clockReads s.draws, h.busy, h.params, h.extra⟩)
    (fun c _ h => always_next ⟨inv_resetInput c, h.params⟩)

theorem inv_ok (r0 r1 : Word) (h : s.Inv) : (okEnd r0 r1 s).Inv := by
  refine ⟨h.ramWf, h.ramIn, h.romCount, h.slotZero, h.tables, h.polys, h.distinct, h.capacity, rfl, h.pin, rfl, ?_,
      ?_, Nat.zero_le _⟩
  · intro h; cases h
  · intro _; simp [okEnd]

theorem inv_err (c : ErrCode) (hc : c ≠ .none) (r0 : Word) (h : s.Inv) : (errorEnd c r0 s).Inv := by
  refine ⟨h.ramWf, h.ramIn, h.romCount, h.slotZero, h.tables, h.polys, h.distinct, h.capacity, rfl, h.pin, rfl, ?_,
      ?_, Nat.zero_le _⟩
  · intro h; cases h
  · intro _; simp [errorEnd, hc]

theorem mid_agents (h : Mid p F s) (ho : List HostItem) (hr : List Word) (b : List Bool) (li : List LineEvent)
    (ci : List Word) (cr d : Nat) :
    Mid p F { s with host := ho, hostReads := hr, bus := b, line := li, clockIn := ci, clockReads := cr, draws := d } :=
  ⟨inv_agents h.inv _ _ _ _ _ _ _, h.busy, h.params, h.extra⟩

theorem mid_onLine (h : Mid p F s) (ss : List Slot) (r : List Bool) : Mid p F (onLine s ss r) := by
  have : onLine s ss r = { s with line := (traffic s ss).reverse ++ s.line, bus := r } := by
    have := h.inv.released
    simp only [onLine]
    cases ss <;> simp [this]
  rw [this]
  exact mid_agents h _ _ _ _ _ _ _

theorem mid_presence (b : Bool) (h : Mid p F s) : Mid p F (setPresence b s) :=
  ⟨inv_flags h.inv s.status.ovr s.status.accerr b s.status.rbool, h.busy, h.params, h.extra⟩

theorem mid_rbool (b : Bool) (h : Mid p F s) : Mid p F (setRbool b s) :=
  ⟨inv_flags h.inv s.status.ovr s.status.accerr s.status.presence b, h.busy, h.params, h.extra⟩

/-- A running sequencer state. -/
def Running (q : SeqState) : Prop := q ≠ .idle ∧ q ≠ .done ∧ q ≠ .error

theorem mid_seq {q : SeqState} (hq : Running q) (h : Mid p F s) : Mid p F (setSeq q s) := by
  refine ⟨{ h.inv with running := ?_, resting := ?_ }, h.busy, h.params, h.extra⟩
  · intro hb
    have := h.inv.running hb
    simp_all [Running]
  · intro hb
    have := h.busy
    simp_all

/-- The per-command state may change while a command runs. -/
theorem mid_hidden {F' : HiddenView → Prop} (h : Mid p F s) (v : HiddenView) (hd : v.devices.length ≤ p.maxDevices)
    (hv : F' v) :
    Mid p F' { s with
      pos := v.pos, search := v.search, readPass := v.readPass, devices := v.devices, poll := v.poll, capture :=
          v.capture } := by
  refine ⟨{ h.inv with resting := ?_, devices := ?_ }, h.busy, h.params, hv⟩
  · intro hb
    have := h.busy
    simp_all
  · rw [h.params]; exact hd

theorem mid_devices (h : Mid p F s) : s.devices.length ≤ p.maxDevices := h.params ▸ h.inv.devices

/-- Every single step of a running command keeps the invariant, and both ends leave it. -/
theorem mid_steps : Steps (Mid p F) (Always (Good p)) where
  host := mid_host
  slots := fun ss r _ h => mid_onLine h ss r
  presence := fun b _ h => mid_presence b h
  seq := fun q _ hq h => mid_seq (by rcases hq with rfl | rfl | rfl <;> simp [Running]) h
  clock := fun s h => by
    unfold readClock
    split <;> exact mid_agents h _ _ _ _ _ _ _
  draws := fun _ _ h => mid_agents h _ _ _ _ _ _ _
  fail := fun c _ hc h => always_next ⟨inv_err c hc 0 h.inv, h.params⟩
  done := fun r0 r1 _ h => always_next ⟨inv_ok r0 r1 h.inv, h.params⟩

/-- Nothing in particular. -/
def Any (_ : HiddenView) : Prop := True

theorem mid_any (h : Mid p F s) : Mid p Any s := ⟨h.inv, h.busy, h.params, trivial⟩

theorem mid_pollSteps : PollSteps (Mid p Any) (Always (Good p)) where
  toSteps := mid_steps
  hidden := fun pos search readPass poll capture s h =>
    mid_hidden h ⟨pos, search, readPass, s.devices, poll, capture⟩ (mid_devices h) trivial
  waits := fun _ h => always_next ⟨h.inv, h.params⟩

theorem mid_storeBytes {off : Nat} {bs : List Byte} (hr : ramRange p off bs.length = true) (h : Mid p F s) :
    Mid p F (storeBytes off bs s) :=
  ⟨inv_storeBytes h.inv _ _ (by rw [h.params]; exact hr), h.busy, h.params, h.extra⟩

theorem mid_romCount {n : Byte} (hn : n.toNat ≤ p.maxDevices) (h : Mid p F s) : Mid p F { s with romCount := n } :=
  ⟨{ h.inv with romCount := by rw [h.params]; exact hn }, h.busy, h.params, h.extra⟩

/-- During a search the list of ids fits ROMTAB. -/
def Fits (p : Params) (v : HiddenView) : Prop := (v.search.getD (freshSearch 0)).found.length ≤ p.maxDevices

theorem mid_tableSteps : TableSteps p (fun ids => ids.length ≤ p.maxDevices) (Mid p F) (Always (Good p)) where
  toSteps := mid_steps
  params := fun _ h => h.params
  table := fun ids _ h => mid_storeBytes (ramRange_image p ids) h
  count := fun ids _ hl h => mid_romCount (by simp; exact Nat.le_trans (Nat.mod_le _ _) hl) h
  empty := Nat.zero_le _

theorem mid_searchSteps :
    SearchSteps p (fun ids => ids.length ≤ p.maxDevices) (fun st => st.found.length ≤ p.maxDevices) (Mid p (Fits p))
      (Always (Good p)) where
  slotRead := mid_steps.slotRead
  slotWrite := mid_steps.slotWrite
  slotReset := mid_steps.slotReset
  now := mid_steps.now
  fails := fun _ he _ => mid_tableSteps.searchFail he
  succeeds := fun _ hg _ => mid_tableSteps.searchSucceed hg
  noneFound := mid_tableSteps.searchSucceed (Nat.zero_le _)
  params := fun _ h => h.params
  known := fun _ h => h.extra
  search := fun st s hst h => mid_hidden h { hiddenOf s with search := some st } (mid_devices h) hst
  walk := fun _ _ _ h => h
  restart := fun _ _ => Nat.zero_le _
  failed := fun _ h => h
  keep := fun s h _ hlen => by
    have h1 : (searchOf s).found.length ≤ p.maxDevices := h.extra
    constructor <;> (simp; omega)

/-- The search keeps the invariant. -/
theorem mid_searchRule (m : SearchMode) (l : Latch) : Keeps (Mid p Any) (Always (Good p)) (searchRule m l) :=
  mid_searchSteps.searchRule
    (meets_mono mid_steps.now (fun _ h => h)
      (fun t _ h => mid_hidden h { hiddenOf _ with search := some (freshSearch t) } (mid_devices h) (Nat.zero_le _))
      fun _ h => h)
    (fun _ => mid_tableSteps.searchFail (by decide)) m l _

/-- In a pass over the device list: j records are done. -/
def AtRecord (ds : List RomId) (j : Nat) (v : HiddenView) : Prop :=
  v.devices = ds ∧ (v.readPass.getD { attempt := 1, nvalid := 0, index := 0 }).index = j

theorem mid_passSteps (ds : List RomId) (hds : ds.length ≤ p.maxDevices) :
    PassSteps ds.length (fun j => Mid p (AtRecord ds j)) (Always (Good p)) where
  steps := fun _ => mid_steps
  index := fun _ _ h => h.extra.2
  record := fun j bs _ hj hl h => mid_storeBytes (by rw [hl]; exact ramRange_restab (by omega)) h
  range := fun j _ hj h => .inl (by rw [h.params]; exact ramRange_restab (by omega))
  count := fun j rp s hrp h => mid_hidden h { hiddenOf s with readPass := some rp } (mid_devices h) ⟨h.extra.1, hrp⟩

/-- The scratch-pad read passes keep the invariant. -/
theorem mid_readAll (k : ReadKind) (l : Latch) : Keeps (Mid p Any) (Always (Good p)) (readAll k l) := by
  refine keeps_readAll mid_pollSteps (fun s0 h0 => ⟨_, mid_passSteps s0.devices (mid_devices h0), fun rp hrp => ?_,
    fun s h => by rw [show s.devices = s0.devices from h.extra.1], fun s h => mid_any h⟩) k l
  exact mid_hidden h0 { hiddenOf s0 with readPass := some rp } (mid_devices h0) ⟨rfl, hrp⟩

/-- The device list keeps the invariant. -/
theorem mid_prepareList (m : Addressing) (l : Latch) : Keeps (Mid p Any) (Always (Good p)) (prepareList m l) := by
  refine mid_steps.prepareList m l (fun ids n s h hl hn => ?_) fun s0 k s h0 hk h => .inl ?_
  · refine mid_hidden h { hiddenOf s with devices := ids } ?_ trivial
    rcases hn with rfl | ⟨s0, h0, rfl⟩
    · simp [hl, Params.maxDevices]
    · rw [show ({ hiddenOf s with devices := ids } : HiddenView).devices = ids from rfl, hl, ← h0.params]
      exact h0.inv.romCount
  · have := h0.inv.romCount
    rw [h0.params] at this
    rw [h.params]
    exact ramRange_romtab (by omega)

end Sys2Proof.Machine
end

