-- ==== Sys2Proof/Laws/Frames.lean ====
section
/-! SUPPORT. Frames while the host leaves the block alone: what is closed under the steps a command makes holds after it
(`exec_free`, `exec_reads`), and a field a command never writes keeps its value (`field_frame`). -/

namespace Sys2Proof.Machine

/-- Closure of a view of a quiet state under the steps every command may make (but presence). -/
structure Base (V : State → Prop) (E : Halt → Prop) : Prop where
  slots : ∀ ss r s, V s → V (onLine s ss r)
  seq : ∀ q s, V s → V (setSeq q s)
  clock : ∀ ci cr s, V s → V { s with clockIn := ci, clockReads := cr }
  draws : ∀ d s, V s → V { s with draws := d }
  fault : ∀ f, E (.fault f)
  fail : ∀ c r s, c ≠ .none → V s → E (.next (errorEnd c r s))
  done : ∀ r0 r1 s, V s → E (.next (okEnd r0 r1 s))
  waits : ∀ s, V s → E (.next s)

/-- Closure under changes of the hidden per-command state. -/
def Hid (V : State → Prop) : Prop := ∀ pos search readPass poll capture s, V s → V { s with pos := pos, search := search, readPass := readPass, poll := poll, capture := capture }

/-- Closure under a write of PRESENCE. -/
def Pres (V : State → Prop) : Prop := ∀ b s, V s → V (setPresence b s)

variable {V : State → Prop} {E : Halt → Prop} {p : Params}

/-- A quiet state with given parameters and a view. -/
structure Qt (p : Params) (V : State → Prop) (s : State) : Prop where
  quiet : s.host = []
  params : s.params = p
  view : V s

theorem qh : HostKeeps (Qt p V) E := hostKeeps_quiet fun _ h => h.quiet

theorem readClock_frame' (s : State) : ∃ ci cr, (readClock s).2 = { s with clockIn := ci, clockReads := cr } := by
  unfold readClock; split
  · exact ⟨_, _, rfl⟩
  · exact ⟨s.clockIn, _, rfl⟩

namespace Base
variable (h : Base V E)
include h

theorem steps (hp : Pres V) : Steps (Qt p V) E where
  host := qh
  slots := fun ss r s hs => ⟨hs.1, hs.2, h.slots ss r s hs.3⟩
  presence := fun b s hs => ⟨hs.1, hs.2, hp b s hs.3⟩
  seq := fun q s _ hs => ⟨hs.1, hs.2, h.seq q s hs.3⟩
  clock := fun s hs => by obtain ⟨a, b, e⟩ := readClock_frame' s; rw [e]; exact ⟨hs.1, hs.2, h.clock a b s hs.3⟩
  draws := fun d s hs => ⟨hs.1, hs.2, h.draws d s hs.3⟩
  fail := fun c s hc hs => h.fail c 0 s hc hs.3
  done := fun a b s hs => h.done a b s hs.3

theorem polls (hp : Pres V) (hh : Hid V) : PollSteps (Qt p V) E where
  toSteps := h.steps hp
  hidden := fun p a b c d s hs => ⟨hs.1, hs.2, hh p a b c d s hs.3⟩
  waits := fun s hs => h.waits s hs.3

theorem pass (n j : Nat) : Base (fun s => V s ∧ s.devices.length = n ∧ (readPassOf s).index = j) E where
  slots := fun ss r s hs => ⟨h.slots ss r s hs.1, hs.2⟩
  seq := fun q s hs => ⟨h.seq q s hs.1, hs.2⟩
  clock := fun a b s hs => ⟨h.clock a b s hs.1, hs.2⟩
  draws := fun d s hs => ⟨h.draws d s hs.1, hs.2⟩
  waits := fun s hs => h.waits s hs.1
  fault := h.fault
  fail := fun c r s hc hs => h.fail c r s hc hs.1
  done := fun a b s hs => h.done a b s hs.1

theorem slotRead : Keeps (Qt p V) E slotRead := meets_step qh fun s hs => by rw [readSlot_eq s _ rfl]; exact ⟨hs.1, hs.2, h.slots [_] _ s hs.3⟩
theorem slotWrite (b : Bool) : Keeps (Qt p V) E (slotWrite b) := meets_step qh fun s hs => by simp only [writeSlot_eq]; exact ⟨hs.1, hs.2, h.slots _ _ s hs.3⟩
theorem fin (a b) {α} {Q : α → State → Prop} : Meets (Qt p V) (finish a b : Seq α) Q E := meets_lastStep qh fun s hs => h.done a b s hs.3
theorem rai (c) (hc : c ≠ .none) {α} {Q : α → State → Prop} : Meets (Qt p V) (raise c : Seq α) Q E := meets_lastStep qh fun s hs => h.fail c 0 s hc hs.3
theorem req (b c) (hc : c ≠ .none) : Keeps (Qt p V) E (require b c) := meets_require (fun _ _ h => h) (h.rai c hc)
theorem busc : Keeps (Qt p V) E busCheck := meets_get fun _ _ => h.req _ _ (by decide)

theorem readAll (hp : Pres V) (hh : Hid V) (hst : ∀ j bs s, bs.length = 32 → V s → j < s.devices.length → V (storeBytes (restabBase + 32 * j) bs s)) (k l) : Keeps (Qt p V) E (readAll k l) := by
  refine keeps_readAll (h.polls hp hh) (fun s0 h0 => ⟨fun j => Qt p (fun s => V s ∧ s.devices.length = s0.devices.length ∧ (readPassOf s).index = j), ?_, ?_, ?_, ?_⟩) k l
  · refine ⟨fun j => (h.pass _ j).steps fun b s hs => ⟨hp b s hs.1, hs.2⟩, fun j s h => h.view.2.2, fun j bs s hj hl hA => ⟨hA.1, hA.2, hst j bs s hl hA.3.1 (by rw [hA.3.2.1]; exact hj), hA.3.2⟩, fun j s _ _ => .inr (h.fault _), fun j rp s hrp hA => ⟨hA.1, hA.2, hh s.pos s.search (some rp) s.poll s.capture s hA.3.1, hA.3.2.1, hrp⟩⟩
  · exact fun rp hrp => ⟨h0.1, h0.2, hh s0.pos s0.search (some rp) s0.poll s0.capture s0 h0.3, rfl, hrp⟩
  · exact fun s h => h.view.2.1
  · exact fun s h => ⟨h.1, h.2, h.3.1⟩

theorem search (hp : Pres V) (hh : Hid V) (ht : ∀ ids s, s.params = p → V s → V (storeBytes romtabBase (romtabImage p ids) s)) (hc : ∀ n s, V s → V { s with romCount := n }) (m l) : Keeps (Qt p V) E (searchRule m l) := by
  have ts : TableSteps p (fun _ => True) (Qt p V) E :=
    { toSteps := h.steps hp, params := fun _ h => h.params, table := fun ids s hs => ⟨hs.1, hs.2, ht ids s hs.2 hs.3⟩, count := fun ids s _ hs => ⟨hs.1, hs.2, hc _ s hs.3⟩, empty := trivial }
  have ss : SearchSteps p (fun _ => True) (fun _ => True) (Qt p V) E :=
    { slotRead := h.slotRead, slotWrite := h.slotWrite, slotReset := (h.steps hp).slotReset, now := (h.steps hp).now, fails := fun e he Q => ts.searchFail he, succeeds := fun ids hg Q => ts.searchSucceed hg, noneFound := ts.searchSucceed trivial, params := fun _ h => h.params, known := fun _ _ => trivial, search := fun st s _ hs => ⟨hs.1, hs.2, hh s.pos (some st) s.readPass s.poll s.capture s hs.3⟩, walk := fun _ _ _ _ => trivial, restart := fun _ _ => trivial, failed := fun _ _ => trivial, keep := fun _ _ _ _ => ⟨trivial, trivial⟩ }
  exact ss.searchRule (meets_mono (h.steps hp).now (fun _ h => h) (fun t s hs => ⟨hs.1, hs.2, hh s.pos (some _) s.readPass s.poll s.capture s hs.3⟩) fun _ h => h) (fun Q => ts.searchFail (by decide)) m l _

theorem run {rule : Latch → Seq Unit} {s : State} (hs : Qt p V s) (hr : ∀ l, s.latch = some l → Keeps (Qt p V) E (rule l)) : E (runRule rule s) := by
  cases hl : s.latch with
  | none => simp only [runRule, hl]; exact h.fault _
  | some l => exact runRule_meets hl (meets_mono (hr l hl) (fun t e => e ▸ hs) (fun _ t ht => h.waits t ht.view) fun _ h => h)

theorem sendRam (off n) : Keeps (Qt p V) E (sendRam off n) := by
  induction n generalizing off with
  | zero => exact meets_pure _ fun _ h => h
  | succ n ih =>
    refine meets_bind (Q := fun _ => Qt p V) (meets_memRead (fun s hs _ => ?_) fun s hs _ => h.fault _) fun bs => meets_bind (keeps_writeBytes h.slotWrite bs) fun _ => ih _
    rw [ramBytes_frame]; exact ⟨hs.1, hs.2, h.draws _ s hs.3⟩

theorem receiveRam (off n) (hst : ∀ k b s, k < n → V s → V (storeBytes (off + k) [b] s)) : Keeps (Qt p V) E (receiveRam off n) := by
  induction n generalizing off with
  | zero => exact meets_pure _ fun _ h => h
  | succ n ih =>
    refine meets_bind (keeps_readByte h.slotRead) fun v => meets_bind (Q := fun _ => Qt p V) (meets_memWrite qh (fun s hs => ⟨hs.1, hs.2, hst 0 v s (by omega) hs.3⟩) fun s hs _ => h.fault _) fun _ => ih _ fun k b s hk hs => ?_
    rw [show off + 1 + k = off + (k + 1) by omega]; exact hst (k + 1) b s (by omega) hs

end Base

/-- All commands but the three that read scratch-pads. -/
def reads : Instr → Bool
  | .tsReadtemp _ | .tsReadalarm _ | .tsConvread _ => true
  | _ => false

theorem exec_free (h : Base V E) (hh : Hid V) (i : Instr) (s0 : State) (hi : reads i = false)
  (hp : resetsBus i = true → Pres V)
  (hr : writesRbool i = true → ∀ b s, V s → V (setRbool b s))
  (hb : i = .owCfgbus ∨ i = .owSpeed → ∀ c d s, V s → V { s with busCfg := c, driveLow := d })
  (hreg : i = .crcReg → ∀ l s sl, registerCheck l s = .ok sl → V s → V { s with registry := s.registry ++ [sl] })
  (hrx : i = .owRmulti → ∀ l, s0.latch = some l → l.a0.toNat + l.a1.toNat ≤ 256 → ∀ k b s, k < l.a1.toNat → V s → V (storeBytes (dbufBase + l.a0.toNat + k) [b] s))
  (htab : (∃ m, i = .owSearch m) → ∀ ids s, s.params = s0.params → V s → V (storeBytes romtabBase (romtabImage s0.params ids) s))
  (hcnt : (∃ m, i = .owSearch m) → ∀ n s, V s → V { s with romCount := n })
  (hcfg : (∃ m, i = .tsConfig m) → ∀ d s, V s → E (.next (okEnd 0 0 { s with devCfg := d })))
  (hq : s0.host = []) (hv : V s0) : E (exec i s0) := by
  have hs : Qt s0.params V s0 := ⟨hq, rfl, hv⟩
  have rb : ∀ {i}, writesRbool i = true → (writesRbool i = true → ∀ b s, V s → V (setRbool b s)) → Keeps (Qt s0.params V) E readBoolean := fun hi hr =>
    meets_bind h.busc fun _ => meets_bind h.slotRead fun v => meets_bind (Q := fun _ => Qt s0.params V) (meets_step qh fun s hs => ⟨hs.1, hs.2, hr hi v s hs.3⟩) fun _ => h.fin _ _
  cases i with
  | crcReg =>
    refine h.run hs fun l _ => meets_lastStep qh fun s hs => ?_
    unfold registerPoly
    split
    · exact h.done _ _ _ (hreg rfl l s _ (by assumption) hs.3)
    · rename_i e he
      refine h.fail _ _ _ ?_ hs.3
      unfold registerCheck at he
      repeat' split at he
      all_goals first | (injection he with he; subst he; decide) | cases he
  | crcCalc =>
    refine h.run hs fun l _ => meets_lastStep qh fun s hs => ?_
    unfold computeCrc
    split
    · exact h.fail _ _ _ (by decide) hs.3
    · split
      · exact h.fail _ _ _ (by decide) hs.3
      · refine h.done _ _ _ ?_
        rw [ramBytes_frame]; exact h.draws _ _ hs.3
  | owCfgbus =>
    refine h.run hs fun l _ => meets_lastStep qh fun s hs => ?_
    unfold configureBus
    split
    · exact h.fail _ _ _ (by decide) hs.3
    · split
      · exact h.fail _ _ _ (by decide) hs.3
      · exact h.done _ _ _ (hb (.inl rfl) _ _ _ hs.3)
  | owSpeed =>
    refine h.run hs fun l _ => meets_lastStep qh fun s hs => ?_
    unfold configureSpeed
    split
    · exact h.fail _ _ _ (by decide) hs.3
    · exact h.done _ _ _ (hb (.inr rfl) _ s.driveLow _ hs.3)
  | owReset =>
    exact h.run hs fun l _ => meets_bind h.busc fun _ => meets_bind (h.steps (hp rfl)).slotReset fun v => meets_bind (Q := fun _ => Qt s0.params V) (meets_step qh fun s hs => ⟨hs.1, hs.2, hr rfl v s hs.3⟩) fun _ => h.fin _ _
  | owWbit => exact h.run hs fun l _ => meets_bind h.busc fun _ => meets_bind (h.slotWrite _) fun _ => h.fin _ _
  | owRbit => exact h.run hs fun l _ => rb (i := .owRbit) rfl hr
  | owWbyte => exact h.run hs fun l _ => meets_bind h.busc fun _ => meets_bind (keeps_writeByte h.slotWrite _) fun _ => h.fin _ _
  | owRbyte => exact h.run hs fun l _ => meets_bind h.busc fun _ => meets_bind (keeps_readByte h.slotRead) fun _ => h.fin _ _
  | owWmulti => exact h.run hs fun l _ => meets_bind (checkDbufRange_eq l ▸ h.req _ _ (by decide)) fun _ => meets_bind h.busc fun _ => meets_bind (h.sendRam _ _) fun _ => h.fin _ _
  | owRmulti =>
    refine h.run hs fun l hl => ?_
    by_cases hc : l.a0.toNat + l.a1.toNat ≤ 256
    · exact meets_bind (checkDbufRange_eq l ▸ h.req _ _ (by decide)) fun _ => meets_bind h.busc fun _ => meets_bind (h.receiveRam _ _ (hrx rfl l hl hc)) fun _ => h.fin _ _
    · refine meets_bind (Q := fun _ _ => False) ?_ fun _ s hf => hf.elim
      have : checkDbufRange l = raise .badArg := by
        rw [checkDbufRange_eq, decide_eq_false hc]; rfl
      rw [this]; exact h.rai _ (by decide)
  | owSearch m => exact h.run hs fun l _ => h.search (hp rfl) hh (htab ⟨m, rfl⟩) (hcnt ⟨m, rfl⟩) m l
  | tsConfig m =>
    refine h.run hs fun l _ => meets_get fun s1 _ => ?_
    split
    · exact h.rai _ (by decide)
    · rename_i d _
      have st := h.steps (p := s0.params) (hp rfl)
      refine meets_bind h.busc fun _ => meets_bind (st.checkSingle m l) fun _ => meets_bind (st.writeSpad _ _ _ _ _) fun _ => ?_
      refine meets_bind (Q := fun _ s => s.host = [] ∧ ∃ u, V u ∧ s = { u with devCfg := d }) (meets_step qh fun s hs => ⟨hs.1, s, hs.3, rfl⟩) fun _ => ?_
      refine meets_lastStep (hostKeeps_quiet fun _ h => h.1) ?_
      rintro s ⟨_, u, hu, rfl⟩
      exact hcfg ⟨m, rfl⟩ d u hu
  | tsConvert m =>
    have st := h.steps (p := s0.params) (hp rfl)
    exact h.run hs fun l _ => meets_bind h.busc fun _ => meets_bind (st.checkSingle m l) fun _ => meets_get fun _ _ => meets_bind (st.startOperation _ _ _) fun _ => h.fin _ _
  | tsIsdone => exact h.run hs fun l _ => rb (i := .tsIsdone) rfl hr
  | tsConvread m => cases hi
  | tsReadtemp m => cases hi
  | tsReadalarm m => cases hi
  | tsSave m => exact h.run hs fun l _ => (h.polls (hp rfl) hh).eepromCommand _ _ _
  | tsRestore m => exact h.run hs fun l _ => (h.polls (hp rfl) hh).eepromCommand _ _ _
  | tsIsfake m => exact h.run hs fun l _ => (h.polls (hp rfl) hh).isfakeRule (fun b s hs => ⟨hs.1, hs.2, hr rfl b s hs.3⟩) m l

/-- The three that read scratch-pads, from V to W once the device list is there. -/
theorem exec_reads {W : State → Prop} (h : Base V E) (hW : Base W E) (hhW : Hid W) (i : Instr) (s0 : State)
  (hi : reads i = true)
  (hpW : Pres W)
  (hprep : ∀ m l, (i = .tsReadtemp m ∨ i = .tsReadalarm m ∨ i = .tsConvread m ∧ s0.pos = .start) → Meets (fun s => s = s0) (prepareList m l) (fun _ => Qt s0.params W) E)
  (hlater : ∀ m, i = .tsConvread m → s0.pos ≠ .start → W s0)
  (hrec : ∀ j bs s, bs.length = 32 → W s → j < s.devices.length → W (storeBytes (restabBase + 32 * j) bs s))
  (hq : s0.host = []) (hv : V s0) : E (exec i s0) := by
  have hs : Qt s0.params V s0 := ⟨hq, rfl, hv⟩
  have pl := hW.polls (p := s0.params) hpW hhW
  have fin : ∀ {rule : Latch → Seq Unit}, (∀ l, s0.latch = some l → Meets (fun s => s = s0) (rule l) (fun _ => Qt s0.params W) E) → E (runRule rule s0) := by
    intro rule hr
    cases hl : s0.latch with
    | none => simp only [runRule, hl]; exact h.fault _
    | some l => exact runRule_meets hl (meets_mono (hr l hl) (fun t e => e) (fun _ t ht => hW.waits t ht.view) fun _ h => h)
  have bc : Meets (fun s => s = s0) busCheck (fun _ s => s = s0) E := by
    refine meets_get_bind fun s1 h1 => ?_
    subst h1
    refine meets_require (fun _ _ h => h) (meets_lastStep (hostKeeps_quiet fun s e => e ▸ hq) fun s e => by subst e; exact h.fail _ 0 s (by decide) hv)
  have rd : ∀ k m, (i = .tsReadtemp m ∨ i = .tsReadalarm m ∨ i = .tsConvread m ∧ s0.pos = .start) → E (runRule (fun l => readCommand k m l) s0) := fun k m hm => fin fun l _ =>
    meets_bind bc fun _ => meets_bind (hprep m l hm) fun _ => hW.readAll hpW hhW hrec k l
  cases i with
  | tsReadtemp m => exact rd .temp m (.inl rfl)
  | tsReadalarm m => exact rd .alarm m (.inr (.inl rfl))
  | tsConvread m =>
    refine fin fun l _ => ?_
    refine meets_bind (Q := fun _ => Qt s0.params W) ?_ fun _ => meets_bind pl.pollOnce fun _ => meets_bind (hW.req _ _ (by decide)) fun _ => hW.readAll hpW hhW hrec _ _
    refine meets_get_bind fun s1 h1 => ?_
    subst h1
    refine meets_ite (fun hpos => ?_) fun hpos => meets_pure _ fun s e => by subst e; exact ⟨hq, rfl, hlater m rfl hpos⟩
    exact meets_bind bc fun _ => meets_bind (hprep m l (.inr (.inr ⟨rfl, hpos⟩))) fun _ => meets_get fun _ _ => meets_bind (pl.toSteps.startOperation _ _ _) fun _ => pl.startPoll _ _ _
  | _ => cases hi

theorem exec_all (h : Base V E) (hh : Hid V) (i : Instr) (s0 : State)
  (hp : Pres V)
  (hr : ∀ b s, V s → V (setRbool b s))
  (hb : ∀ c d s, V s → V { s with busCfg := c, driveLow := d })
  (hreg : ∀ l s sl, registerCheck l s = .ok sl → V s → V { s with registry := s.registry ++ [sl] })
  (hst : ∀ off bs s, V s → V (storeBytes off bs s))
  (hcnt : ∀ n s, V s → V { s with romCount := n })
  (hdev : ∀ n s, V s → V { s with devices := n })
  (hcfg : ∀ d s, V s → E (.next (okEnd 0 0 { s with devCfg := d })))
  (hq : s0.host = []) (hv : V s0) : E (exec i s0) := by
  cases hi : reads i with
  | false => exact exec_free h hh i s0 hi (fun _ => hp) (fun _ => hr) (fun _ => hb) (fun _ => hreg) (fun _ _ _ _ k b s _ hs => hst _ _ s hs) (fun _ ids s _ hs => hst _ _ s hs) (fun _ => hcnt) (fun _ => hcfg) hq hv
  | true =>
    refine exec_reads h h hh i s0 hi hp (fun m l _ => ?_) (fun _ _ _ => hv) (fun j bs s _ hs _ => hst _ _ s hs) hq hv
    exact meets_mono ((h.steps (p := s0.params) hp).prepareList m l (fun ids n s hs _ _ => ⟨hs.1, hs.2, hdev _ s hs.3⟩) fun _ _ _ _ _ _ => .inr (h.fault _)) (fun s e => by subst e; exact ⟨hq, rfl, hv⟩) (fun _ _ h => h) fun _ h => h

/-- A field that only some commands touch. -/
theorem field_frame {α : Type} (f : State → α) (i : Instr) (s t : State) (hq : s.host = []) (he : exec i s = .next t)
  (h1 : ∀ ss r u, f (onLine u ss r) = f u) (h2 : ∀ q u, f (setSeq q u) = f u) (h3 : ∀ ci cr u, f { u with clockIn := ci, clockReads := cr } = f u) (h4 : ∀ d u, f { u with draws := d } = f u)
  (h5 : ∀ c r u, f (errorEnd c r u) = f u) (h6 : ∀ a b u, f (okEnd a b u) = f u)
  (h7 : ∀ pos search readPass poll capture u, f { u with pos := pos, search := search, readPass := readPass, poll := poll, capture := capture } = f u)
  (hp : resetsBus i = true → ∀ b u, f (setPresence b u) = f u)
  (hr : writesRbool i = true → ∀ b u, f (setRbool b u) = f u)
  (hb : i = .owCfgbus ∨ i = .owSpeed → ∀ c d u, f { u with busCfg := c, driveLow := d } = f u)
  (hreg : i = .crcReg → ∀ l u sl, registerCheck l u = .ok sl → f { u with registry := u.registry ++ [sl] } = f u)
  (hst : ∀ off bs u, f (storeBytes off bs u) = f u)
  (hcnt : (∃ m, i = .owSearch m) → ∀ n u, f { u with romCount := n } = f u)
  (hdev : ∀ n u, f { u with devices := n } = f u)
  (hcfg : (∃ m, i = .tsConfig m) → ∀ d u, f { u with devCfg := d } = f u) : f t = f s := by
  have hB : Base (fun u => f u = f s) (IfNext (fun u => f u = f s)) :=
    ⟨fun a b u h => (h1 a b u).trans h, fun a u h => (h2 a u).trans h, fun a b u h => (h3 a b u).trans h, fun a u h => (h4 a u).trans h, fun _ => ifNext_fault, fun a b u _ h => ifNext_next ((h5 a b u).trans h), fun a b u h => ifNext_next ((h6 a b u).trans h), fun u h => ifNext_next h⟩
  have hH : Hid (fun u => f u = f s) := fun a b c d e u h => (h7 a b c d e u).trans h
  cases hi : reads i with
  | false => exact exec_free hB hH i s hi (fun h b u hu => (hp h b u).trans hu) (fun h b u hu => (hr h b u).trans hu) (fun h b c u hu => (hb h b c u).trans hu) (fun h l u sl hc hu => (hreg h l u sl hc).trans hu) (fun _ _ _ _ k b u _ hs => (hst _ _ u).trans hs) (fun _ ids u _ hs => (hst _ _ u).trans hs) (fun h n u hs => (hcnt h n u).trans hs) (fun h d u hs => ifNext_next ((h6 0 0 _).trans ((hcfg h d u).trans hs))) hq rfl t he
  | true =>
    have hpp : Pres (fun u => f u = f s) := fun b u h => (hp (by cases i <;> simp_all [reads, resetsBus]) b u).trans h
    refine exec_reads hB hB hH i s hi hpp (fun m l _ => ?_) (fun _ _ _ => rfl) (fun j bs u _ hs _ => (hst _ _ u).trans hs) hq rfl t he
    exact meets_mono ((hB.steps (p := s.params) hpp).prepareList m l (fun ids n u hs _ _ => ⟨hs.1, hs.2, (hdev _ u).trans hs.3⟩) fun _ _ _ _ _ _ => .inr ifNext_fault) (fun u e => by subst e; exact ⟨hq, rfl, rfl⟩) (fun _ _ h => h) fun _ h => h

end Sys2Proof.Machine
end

