-- ==== Sys2Proof/Laws/PerInstr.lean ====
section
/-! SUPPORT. One fact of every command, by constructor: the fields of its word (30_encoding R140, R143). -/

namespace Sys2Proof.Laws.Fields

/-- The word of a command has its opcode in 7:0, its mode in bit 8, nothing above, and a mode only where the command has
two variants. -/
def Statement (i : Instr) : Prop :=
  commandFields (encode i) = { rsv := 0, mode := modeOf i, opc := opcodeOf i } ∧
    (modeOf i = true → opcodeOf i ∈ modalOpcodes)

theorem crcReg : Statement .crcReg := ⟨rfl, by decide⟩

theorem crcCalc : Statement .crcCalc := ⟨rfl, by decide⟩

theorem owCfgbus : Statement .owCfgbus := ⟨rfl, by decide⟩

theorem owSpeed : Statement .owSpeed := ⟨rfl, by decide⟩

theorem owReset : Statement .owReset := ⟨rfl, by decide⟩

theorem owWbit : Statement .owWbit := ⟨rfl, by decide⟩

theorem owRbit : Statement .owRbit := ⟨rfl, by decide⟩

theorem owWbyte : Statement .owWbyte := ⟨rfl, by decide⟩

theorem owRbyte : Statement .owRbyte := ⟨rfl, by decide⟩

theorem owWmulti : Statement .owWmulti := ⟨rfl, by decide⟩

theorem owRmulti : Statement .owRmulti := ⟨rfl, by decide⟩

theorem owSearch (m : SearchMode) : Statement (.owSearch m) := by cases m <;> exact ⟨rfl, by decide⟩

theorem tsConfig (m : Addressing) : Statement (.tsConfig m) := by cases m <;> exact ⟨rfl, by decide⟩

theorem tsConvert (m : Addressing) : Statement (.tsConvert m) := by cases m <;> exact ⟨rfl, by decide⟩

theorem tsIsdone : Statement .tsIsdone := ⟨rfl, by decide⟩

theorem tsConvread (m : Addressing) : Statement (.tsConvread m) := by cases m <;> exact ⟨rfl, by decide⟩

theorem tsReadtemp (m : Addressing) : Statement (.tsReadtemp m) := by cases m <;> exact ⟨rfl, by decide⟩

theorem tsReadalarm (m : Addressing) : Statement (.tsReadalarm m) := by cases m <;> exact ⟨rfl, by decide⟩

theorem tsSave (m : Addressing) : Statement (.tsSave m) := by cases m <;> exact ⟨rfl, by decide⟩

theorem tsRestore (m : Addressing) : Statement (.tsRestore m) := by cases m <;> exact ⟨rfl, by decide⟩

theorem tsIsfake (m : Addressing) : Statement (.tsIsfake m) := by cases m <;> exact ⟨rfl, by decide⟩

end Sys2Proof.Laws.Fields
end

