-- ==== Sys2Proof/Laws/Reads.lean ====
section
/-! SUPPORT. The scratch-pad read passes while the host leaves the block alone (43_session R361 to R364): one device, one
pass, all passes, and passes that an
absent device ends. A later pass writes over the records of the one before. -/

namespace Sys2Proof.Machine

/-! ## Writing over what was written -/

/-- The later write of a byte stands. -/
theorem memSet_memSet (m : List Host.Cell) (a : Nat) (b b' : Byte) : memSet (memSet m a b) a b' = memSet m a b' := by
  induction m with
  | nil => simp [memSet]
  | cons c m ih =>
    obtain ⟨k, v⟩ := c
    simp only [memSet]
    split
    · simp [memSet]
    · split
      · simp [memSet]
      · simp only [memSet, ih]; rw [if_neg ‹_›, if_neg ‹_›]

/-- Writes of two bytes commute. -/
theorem memSet_comm (m : List Host.Cell) {a c : Nat} (b d : Byte) (h : a < c) : memSet (memSet m a b) c d =
    memSet (memSet m c d) a b := by
  induction m with
  | nil => simp [memSet, h, show ¬ c < a by omega, show ¬ c = a by omega]
  | cons e m ih =>
    obtain ⟨k, v⟩ := e
    simp only [memSet]
    rcases Nat.lt_trichotomy a k with h1 | h1 | h1
    · rw [if_pos h1]
      rcases Nat.lt_trichotomy c k with h2 | h2 | h2
      · rw [if_pos h2]; simp [memSet, h2, h, show ¬ c < a by omega, show ¬ c = a by omega]
      · subst h2; simp [memSet, h, show ¬ c < a by omega, show ¬ c = a by omega]
      · rw [if_neg (by omega), if_neg (by omega)];
            simp [memSet, h1, show ¬ c <
            a by omega, show ¬ c = a by omega, show ¬ c < k by omega, show ¬ c = k by omega]
    · subst h1
      simp [memSet, show ¬ c < a by omega, show ¬ c = a by omega]
    · rw [if_neg (by omega), if_neg (by omega), if_neg (by omega), if_neg (by omega)]
      simp only [memSet, ih]
      rw [if_neg (by omega), if_neg (by omega), if_neg (by omega), if_neg (by omega)]

/-- A write below a block commutes with it. -/
theorem memSetBytes_memSet (m : List Host.Cell) (off a : Nat) (b : Byte) (bs : List Byte) (h : a < off) :
    memSetBytes (memSet m a b) off bs = memSet (memSetBytes m off bs) a b := by
  induction bs generalizing m off with
  | nil => rfl
  | cons c bs ih => simp only [memSetBytes]; rw [memSet_comm m b c h, ih _ _ (by omega)]

/-- The later write of a block stands. -/
theorem memSetBytes_twice (m : List Host.Cell) (off : Nat) (bs cs : List Byte) (h : bs.length = cs.length) :
    memSetBytes (memSetBytes m off bs) off cs = memSetBytes m off cs := by
  induction bs generalizing m off cs with
  | nil => cases cs with
    | nil => rfl
    | cons c cs => simp at h
  | cons b bs ih =>
    cases cs with
    | nil => simp at h
    | cons c cs =>
      simp only [memSetBytes]
      rw [← memSetBytes_memSet (memSet m off b) (off + 1) off c bs (by omega), memSet_memSet, ih _ _ _ (by simpa using h)]

/-- A block in two parts. -/
theorem memSetBytes_append (m : List Host.Cell) (off : Nat) (bs cs : List Byte) :
    memSetBytes m off (bs ++ cs) = memSetBytes (memSetBytes m off bs) (off + bs.length) cs := by
  induction bs generalizing m off with
  | nil => rfl
  | cons b bs ih => simp only [List.cons_append, memSetBytes, ih, List.length_cons]; congr 1; omega

/-! ## One pass -/

/-- The fields a read pass changes. -/
def passState (u : State) (line : List LineEvent) (bus : List Bool) (drive : BitVec 256) (ram : List Host.Cell)
    (pres : Bool) (seq : SeqState) (rp : ReadPass) : State :=
  { u with line := line, bus := bus, driveLow := drive, ram := ram, status := { u.status with presence := pres, seqState := seq }, readPass := some rp }

/-- The state after the devices of a pass, counted from rp on. -/
def passEnd (u : State) (kind : ReadKind) (corr : Word) (rp : ReadPass) (ids : List RomId) (sps : List (List Byte))
    (rest : List Bool) : State :=
  passState u (onLine u (passSlots u ids sps) rest).line rest (onLine u (passSlots u ids sps) rest).driveLow
    (memSetBytes u.ram (restabBase + 32 * rp.index) (passRecords u kind corr ids sps))
    (if ids.any (validId u) then true else u.status.presence) (if ids.any (validId u) then .readingSpad else
        u.status.seqState)
    { rp with nvalid := rp.nvalid + validCount u ids sps, index := rp.index + ids.length }

/-- A record counted. -/
theorem countRecord_run {ok : Bool} {u : State} {rp : ReadPass} (h : u.readPass = some rp) :
    countRecord ok u = .ok ((),
        { u with readPass := some { rp with nvalid := rp.nvalid + (if ok then 1 else 0), index := rp.index + 1 } }) := by
  rw [countRecord, hidden_run]; simp only [readPassOf, h, Option.getD_some]

/-- A device with a valid id. -/
theorem readDevice_valid {kind l id} {u : State} {rp : ReadPass} {sp rest} (hq : u.host = []) (hrp : u.readPass =
    some rp) (hv : validId u id = true)
    (hl : sp.length = 9) (hb : u.bus = readSpadAnswers sp ++ rest) (hr : rp.index < u.params.maxDevices) :
    readDevice kind l id u = .ok ((), passState u (onLine u (readSpadSlots u.params .single id sp) rest).line rest
        (onLine u (readSpadSlots u.params .single id sp) rest).driveLow
      (memSetBytes u.ram (restabBase + 32 * rp.index) (recordBytes kind l.corr sp (validRead u id sp))) true .readingSpad
      { rp with nvalid := rp.nvalid + (if validRead u id sp then 1 else 0), index := rp.index + 1 }) := by
  have hrp' : readPassOf u = rp := by simp [readPassOf, hrp]
  have hlen : (recordBytes kind l.corr sp (crc8 u sp == 0)).length = 32 := by rw [recordBytes_length, hl]
  have hvr : validRead u id sp = (crc8 u sp == 0) := by rw [validRead, hv, Bool.true_and]
  have e : onLine u (readSpadSlots u.params .single id sp) rest =
      onLine (onLine (onLine u [.reset false] (answers sp ++ rest)) (sent (addressBytes u.params .single id))
      (answers sp ++ rest)) (sent [u.params.owcReadSpad] ++ received sp) rest := by
    rw [onLine_onLine u, onLine_onLine]; simp [readSpadSlots, addressSlots]
  rw [e, hvr]
  rw [readDevice, seq_get_bind, if_pos hv, hrp', readValid,
      seq_bind_ok (needPresence_answer hq (rest := answers sp ++ rest) hb),
    seq_bind_ok (matchRom_quiet (by exact hq)), seq_bind_ok (update_quiet (by exact hq)),
        seq_bind_ok (readSpad_answers (rest := rest) (by exact hq) hl rfl), seq_get_bind]
  have hrun : ∀ w : State, w.host = [] → w.registry = u.registry → w.params = u.params → w.readPass = some rp →
      (do
        writeRecord rp.index kind l.corr sp (crc8 w sp == 0)
        countRecord (crc8 w sp == 0) : Seq Unit) w = .ok ((), { w with
          ram := memSetBytes w.ram (restabBase + 32 * rp.index) (recordBytes kind l.corr sp (crc8 u sp == 0))
          readPass := some { rp with nvalid := rp.nvalid + (if crc8 u sp == 0 then 1 else 0), index := rp.index + 1 }
              }) := by
    intro w h1 h2 h3 h4
    have : crc8 w sp = crc8 u sp := by simp only [crc8, h2]
    rw [this, writeRecord, seq_bind_ok (memWrite_quiet h1 (by rw [hlen, h3]; exact ramRange_restab (by omega)))]
    rw [countRecord_run (rp := rp) (by exact h4)]
    rfl
  refine (hrun _ ?_ ?_ ?_ ?_).trans ?_
  · exact hq
  · rfl
  · rfl
  · exact hrp
  generalize recordBytes kind l.corr sp (crc8 u sp == 0) = R
  generalize (crc8 u sp == 0) = ok
  rfl

/-- An invalid id. -/
theorem readDevice_invalid {kind l id} {u : State} {rp : ReadPass} (hq : u.host = []) (hrp : u.readPass = some rp)
    (hv : validId u id = false)
    (hr : rp.index < u.params.maxDevices) :
    readDevice kind l id u =
        .ok ((), passState u u.line u.bus u.driveLow (memSetBytes u.ram (restabBase + 32 * rp.index)
        (recordBytes kind l.corr (List.replicate 9 0) false)) u.status.presence u.status.seqState
        { rp with index := rp.index + 1 }) := by
  have hrp' : readPassOf u = rp := by simp [readPassOf, hrp]
  have hlen : (recordBytes kind l.corr (List.replicate 9 0) false).length = 32 := by rw [recordBytes_length]; rfl
  rw [readDevice, seq_get_bind, hv, if_neg (by simp), hrp', skipInvalid, writeRecord,
      seq_bind_ok (memWrite_quiet hq (by rw [hlen]; exact ramRange_restab (p := u.params) (by omega)))]
  generalize recordBytes kind l.corr (List.replicate 9 0) false = R
  generalize restabBase + 32 * rp.index = off
  exact countRecord_run (u := storeBytes off R u) (rp := rp) hrp

/-- One device and then the pass. -/
theorem passEnd_valid (u : State) (kind : ReadKind) (corr : Word) (rp : ReadPass) (id : RomId) (ids : List RomId)
    (sp : List Byte) (sps : List (List Byte)) (r1 rest : List Bool) (hv : validId u id = true) (h9 : sp.length = 9) :
    passEnd (passState u (onLine u (readSpadSlots u.params .single id sp) r1).line r1
        (onLine u (readSpadSlots u.params .single id sp) r1).driveLow
      (memSetBytes u.ram (restabBase + 32 * rp.index) (recordBytes kind corr sp (validRead u id sp))) true .readingSpad
      { rp with nvalid := rp.nvalid + (if validRead u id sp then 1 else 0), index := rp.index + 1 }) kind corr
          { rp with nvalid := rp.nvalid + (if validRead u id sp then 1 else 0), index := rp.index + 1 } ids sps rest =
    passEnd u kind corr rp (id :: ids) (sp :: sps) rest := by
  have hs1 : passSlots u (id :: ids) (sp :: sps) = readSpadSlots u.params .single id sp ++ passSlots u ids sps := by
    simp [passSlots, hv]
  have hs2 : passRecords u kind corr (id :: ids) (sp :: sps) =
      recordBytes kind corr sp (validRead u id sp) ++ passRecords u kind corr ids sps := by
    simp [passRecords]
  have hs3 : validCount u (id :: ids) (sp :: sps) = (if validRead u id sp then 1 else 0) + validCount u ids sps := by
    simp only [validCount, List.zip_cons_cons, List.filter_cons]
    split <;> simp; omega
  have hlen : (recordBytes kind corr sp (validRead u id sp)).length = 32 := by rw [recordBytes_length, h9]
  rw [passEnd, passEnd, hs1, hs2, hs3, memSetBytes_append, hlen, ← onLine_onLine u _ _ r1 rest]
  simp only [List.any_cons, hv, Bool.true_or, if_true, List.length_cons]
  generalize readSpadSlots u.params .single id sp = A
  generalize recordBytes kind corr sp (validRead u id sp) = R
  show passState u (onLine (onLine u A r1) (passSlots u ids sps) rest).line rest
      (onLine (onLine u A r1) (passSlots u ids sps) rest).driveLow
      (memSetBytes (memSetBytes u.ram (restabBase + 32 * rp.index) R) (restabBase + 32 * (rp.index + 1))
      (passRecords u kind corr ids sps))
    (if (ids.any (validId u)) = true then true else true) (if (ids.any (validId u)) =
        true then .readingSpad else .readingSpad) _ = _
  congr 1
  · simp
  · simp
  · show ReadPass.mk rp.attempt (rp.nvalid + (if validRead u id sp then 1 else 0) + validCount u ids sps)
        (rp.index + 1 + ids.length) = ReadPass.mk rp.attempt _ _
    congr 1 <;> omega

/-- An invalid id and then the pass. -/
theorem passEnd_invalid (u : State) (kind : ReadKind) (corr : Word) (rp : ReadPass) (id : RomId) (ids : List RomId)
    (sps : List (List Byte)) (rest : List Bool) (hv : validId u id = false) :
    passEnd (passState u u.line u.bus u.driveLow (memSetBytes u.ram (restabBase + 32 * rp.index)
        (recordBytes kind corr (List.replicate 9 0) false)) u.status.presence u.status.seqState
        { rp with index := rp.index + 1 }) kind corr { rp with index := rp.index + 1 } ids sps rest =
    passEnd u kind corr rp (id :: ids) (List.replicate 9 0 :: sps) rest := by
  have hvr : validRead u id (List.replicate 9 0) = false := by rw [validRead, hv]; rfl
  have hs1 : passSlots u (id :: ids) (List.replicate 9 0 :: sps) = passSlots u ids sps := by
    simp [passSlots, hv]
  have hs2 : passRecords u kind corr (id :: ids) (List.replicate 9 0 :: sps) =
      recordBytes kind corr (List.replicate 9 0) false ++ passRecords u kind corr ids sps := by
    rw [← hvr]; simp only [passRecords, List.zip_cons_cons, List.flatMap_cons]
  have hs3 : validCount u (id :: ids) (List.replicate 9 0 :: sps) = validCount u ids sps := by
    simp only [validCount, List.zip_cons_cons, List.filter_cons, hvr]; simp
  have hlen : (recordBytes kind corr (List.replicate 9 0) false).length = 32 := by rw [recordBytes_length]; rfl
  rw [passEnd, passEnd, hs1, hs2, hs3, memSetBytes_append, hlen]
  simp only [List.any_cons, hv, Bool.false_or, List.length_cons]
  generalize recordBytes kind corr (List.replicate 9 0) false = R
  show passState u (onLine u (passSlots u ids sps) rest).line rest (onLine u (passSlots u ids sps) rest).driveLow
      (memSetBytes (memSetBytes u.ram (restabBase + 32 * rp.index) R) (restabBase + 32 * (rp.index + 1))
      (passRecords u kind corr ids sps))
    (if (ids.any (validId u)) = true then true else u.status.presence) (if (ids.any (validId u)) =
        true then .readingSpad else u.status.seqState) _ = _
  congr 1
  show ReadPass.mk rp.attempt (rp.nvalid + validCount u ids sps) (rp.index + 1 + ids.length) = ReadPass.mk rp.attempt _ _
  congr 1; omega

/-- The devices of a pass. -/
theorem readDevices_run {kind l} (ids : List RomId) (sps : List (List Byte)) {u : State} {rp : ReadPass} {rest}
    (hq : u.host = []) (hrp : u.readPass = some rp)
    (hl : sps.length = ids.length) (h9 : ∀ sp ∈ sps, sp.length = 9) (hz : ∀ x ∈ ids.zip sps, validId u x.1 =
        false → x.2 = List.replicate 9 0)
    (hb : u.bus = passAnswers u ids sps ++ rest) (hr : rp.index + ids.length ≤ u.params.maxDevices) :
    readDevices kind l ids u = .ok ((), passEnd u kind l.corr rp ids sps rest) := by
  induction ids generalizing sps u rp with
  | nil =>
    cases sps with
    | cons a b => simp at hl
    | nil =>
      simp [passAnswers] at hb
      subst hb
      rw [readDevices, seq_pure]
      congr 2
      show u = passState u u.line u.bus u.driveLow u.ram u.status.presence u.status.seqState rp
      rw [passState, ← hrp]
  | cons id ids ih =>
    cases sps with
    | nil => simp at hl
    | cons sp sps =>
      simp only [List.length_cons] at hl hr
      have hz' : ∀ x ∈ ids.zip sps, validId u x.1 = false → x.2 = List.replicate 9 0 :=
          fun x hx => hz x (by simp only [List.zip_cons_cons, List.mem_cons]; right; exact hx)
      have hsp9 := h9 sp (by simp)
      by_cases hv : validId u id = true
      · have hb' : u.bus = readSpadAnswers sp ++ (passAnswers u ids sps ++ rest) := by
          rw [hb]; simp [passAnswers, hv]
        rw [readDevices, seq_bind_ok (readDevice_valid hq hrp hv hsp9 hb' (by omega)),
            ← passEnd_valid u kind l.corr rp id ids sp sps (passAnswers u ids sps ++ rest) rest hv hsp9]
        refine ih sps ?_ ?_ (by omega) (fun sp h => h9 sp (by simp [h])) ?_ ?_ ?_
        · exact hq
        · rfl
        · exact hz'
        · rfl
        · show rp.index + 1 + _ ≤ u.params.maxDevices; omega
      · have hv : validId u id = false := by simpa using hv
        have hsp : sp = List.replicate 9 0 := hz (id, sp) (by simp) hv
        have hb' : u.bus = passAnswers u ids sps ++ rest := by
          rw [hb]; simp [passAnswers, hv]
        subst hsp
        rw [readDevices, seq_bind_ok (readDevice_invalid hq hrp hv (by omega)),
            ← passEnd_invalid u kind l.corr rp id ids sps rest hv]
        generalize recordBytes kind l.corr (List.replicate 9 0) false = R
        generalize restabBase + 32 * rp.index = off
        refine ih sps ?_ ?_ (by omega) (fun sp h => h9 sp (by simp [h])) ?_ ?_ ?_
        · exact hq
        · rfl
        · exact hz'
        · exact hb'
        · show rp.index + 1 + _ ≤ u.params.maxDevices; omega

/-! ## All passes -/

/-- The records of a pass are 32 bytes a device. -/
theorem passRecords_length (u : State) (kind corr) (ids : List RomId) (sps : List (List Byte)) (hl : sps.length =
    ids.length) (h9 : ∀ sp ∈ sps, sp.length = 9) :
    (passRecords u kind corr ids sps).length = 32 * ids.length := by
  induction ids generalizing sps with
  | nil => cases sps <;> simp_all [passRecords]
  | cons id ids ih =>
    cases sps with
    | nil => simp at hl
    | cons sp sps =>
      have := ih sps (by simpa using hl) (fun sp h => h9 sp (by simp [h]))
      simp only [passRecords, List.zip_cons_cons, List.flatMap_cons, List.length_append, recordBytes_length,
          h9 sp (by simp), List.length_cons] at *
      omega

/-- The good end after a pass. -/
theorem ok_passEnd (u : State) (kind corr rp ids sps rest r0 r1) (hi : rp.index = 0) :
    okEnd r0 r1 (passEnd u kind corr rp ids sps rest) = okEnd r0 r1 (storeBytes restabBase (passRecords u kind corr ids sps)
      (if ids.any (validId u) then setPresence true (onLine u (passSlots u ids sps) rest) else onLine u
          (passSlots u ids sps) rest)) := by
  unfold passEnd
  rw [hi]
  cases ids.any (validId u) <;> rfl

/-- The failing end after a pass. -/
theorem err_passEnd (u : State) (kind corr rp ids sps rest c) (hi : rp.index = 0) :
    errorEnd c 0 (passEnd u kind corr rp ids sps rest) =
        errorEnd c 0 (storeBytes restabBase (passRecords u kind corr ids sps)
      (if ids.any (validId u) then setPresence true (onLine u (passSlots u ids sps) rest) else onLine u
          (passSlots u ids sps) rest)) := by
  unfold passEnd
  rw [hi]
  cases ids.any (validId u) <;> rfl

/-- The end of the last pass. -/
theorem endPasses_run {u : State} (hq : u.host = []) (n k : Nat) : endPasses n k u =
    .error (.next (if n = 0 then errorEnd .integrity 0 u else okEnd (BitVec.ofNat 32 n) (BitVec.ofNat 32 k) u)) := by
  unfold endPasses
  by_cases h : n = 0
  · subst h; exact seq_bind_error (raise_quiet hq)
  · have : (n != 0) = true := by simpa using h
    rw [this, if_neg h]
    exact finish_quiet hq

/-- One pass. -/
theorem readEnd_one (u : State) (kind corr ids sps rest) : readEnd u kind corr ids [sps] rest =
    (if validCount u ids sps = 0 then errorEnd .integrity 0 (passEnd u kind corr ⟨1, 0, 0⟩ ids sps rest) else okEnd
    (BitVec.ofNat 32 (validCount u ids sps)) (BitVec.ofNat 32 ids.length)
    (passEnd u kind corr ⟨1, 0, 0⟩ ids sps rest)) := by
  rw [ok_passEnd _ _ _ _ _ _ _ _ _ rfl, err_passEnd _ _ _ _ _ _ _ _ rfl]
  simp only [readEnd, List.getLastD, List.flatMap_cons, List.flatMap_nil, List.append_nil]
  rfl

/-- A pass and then more. -/
theorem readEnd_more (u : State) (kind corr rp) (ids : List RomId) (sps : List (List Byte))
    (more : List (List (List Byte))) (r1 rest) (hi : rp.index = 0) (hm : more ≠ []) (rp' : ReadPass)
    (hl : sps.length = ids.length) (h9 : ∀ sp ∈ sps, sp.length = 9) (hs : ∀ sps ∈ more, sps.length = ids.length ∧
        ∀ sp ∈ sps, sp.length = 9) :
    readEnd { passEnd u kind corr rp ids sps r1 with readPass := some rp' } kind corr ids more rest =
        readEnd u kind corr ids (sps :: more) rest := by
  have hlast : (sps :: more).getLastD [] = more.getLastD [] := by
    cases more with
    | nil => exact absurd rfl hm
    | cons a b => simp [List.getLastD]
  have hmem : more.getLastD [] ∈ more := by
    rw [List.getLastD_eq_getLast?, List.getLast?_eq_some_getLast hm]; exact List.getLast_mem hm
  have hlen : (passRecords u kind corr ids sps).length = (passRecords u kind corr ids (more.getLastD [])).length := by
    rw [passRecords_length u kind corr ids sps hl h9, passRecords_length u kind corr ids _ (hs _ hmem).1 (hs _ hmem).2]
  unfold readEnd
  rw [hlast]
  simp only []
  show (if validCount u ids (more.getLastD []) = 0 then _ else _) = _
  have hst : ∀ (E : State → State), (E = errorEnd .integrity 0 ∨ ∃ a b, E = okEnd a b) → E
      (storeBytes restabBase (passRecords u kind corr ids (more.getLastD []))
      (if ids.any (validId u) then setPresence true
      (onLine { passEnd u kind corr rp ids sps r1 with readPass := some rp' } (more.flatMap (passSlots u ids)) rest)
      else onLine { passEnd u kind corr rp ids sps r1 with readPass := some rp' } (more.flatMap (passSlots u ids))
      rest)) =
      E (storeBytes restabBase (passRecords u kind corr ids (more.getLastD []))
          (if ids.any (validId u) then setPresence true (onLine u ((sps :: more).flatMap (passSlots u ids)) rest) else
          onLine u ((sps :: more).flatMap (passSlots u ids)) rest)) := by
    rintro E (rfl | ⟨a, b, rfl⟩)
    all_goals
      have ht := memSetBytes_twice u.ram restabBase _ _ hlen
      rw [List.flatMap_cons, ← onLine_onLine u _ _ r1 rest]
      unfold passEnd
      rw [hi]
      cases h : ids.any (validId u)
    all_goals simp only [Bool.false_eq_true, if_false, if_true]
    all_goals simp only [storeBytes, errorEnd, okEnd, endCommand, passState, setPresence, onLine]
    all_goals simp only [Nat.mul_zero, Nat.add_zero, ht]
    all_goals rfl
  rw [show validCount u ids (more.getLastD []) = validCount u ids (more.getLastD []) from rfl]
  have h1 := hst (errorEnd .integrity 0) (.inl rfl)
  have h2 := hst (okEnd (BitVec.ofNat 32 (validCount u ids (more.getLastD []))) (BitVec.ofNat 32 ids.length))
      (.inr ⟨_, _, rfl⟩)
  rw [← h1, ← h2]
  rfl

/-- All passes from some attempt on. -/
theorem readPasses_run {kind l} (passes : List (List (List Byte))) {u : State} {a n : Nat} {ids : List RomId}
    {rest : List Bool} (hq : u.host = []) (hd : u.devices = ids)
    (ha : (readPassOf u).attempt = a) (hn : a + n = u.params.readRepeat + 1) 
    (hne : passes ≠ []) (hb : passes.length ≤ n) (hs : ∀ sps ∈ passes, sps.length = ids.length ∧ ∀ sp ∈ sps, sp.length = 9)
    (hz : ∀ sps ∈ passes, ∀ x ∈ ids.zip sps, validId u x.1 = false → x.2 = List.replicate 9 0)
    (hr : ∀ sps ∈ passes.dropLast, validCount u ids sps ≠ ids.length)
    (he : validCount u ids (passes.getLastD []) = ids.length ∨ passes.length = n)
    (hbus : u.bus = readAnswers u ids passes ++ rest) (hl : ids.length ≤ u.params.maxDevices) :
    readPasses kind l n u = .error (.next (readEnd u kind l.corr ids passes rest)) := by
  induction passes generalizing u a n with
  | nil => exact absurd rfl hne
  | cons sps more ih =>
    obtain ⟨n, rfl⟩ : ∃ k, n = k + 1 := ⟨n - 1, by simp at hb; omega⟩
    have hsp := hs sps (by simp)
    have hpass : readDevices kind l ids { u with readPass := some ⟨a, 0, 0⟩ } =
        .ok ((), passEnd u kind l.corr ⟨a, 0, 0⟩ ids sps (readAnswers u ids more ++ rest)) := by
      have := readDevices_run (kind := kind) (l := l) ids sps (u := { u with readPass := some ⟨a, 0, 0⟩ })
          (rp := ⟨a, 0, 0⟩) (rest := readAnswers u ids more ++ rest) hq rfl hsp.1 hsp.2 (hz sps (by simp)) (by
        show u.bus = _
        rw [hbus]
        simp only [readAnswers, List.flatMap_cons, List.append_assoc]
        rfl) (by show 0 + ids.length ≤ u.params.maxDevices; omega)
      rw [this]; rfl
    rw [readPasses, startPass, seq_bind_ok (hidden_run _ _), seq_get_bind, ha]
    rw [seq_bind_ok ((congrArg (fun d => readDevices kind l d { u with readPass := some ⟨a, 0, 0⟩ }) hd).trans hpass),
        seq_get_bind]
    have e1 : (readPassOf (passEnd u kind l.corr ⟨a, 0, 0⟩ ids sps (readAnswers u ids more ++ rest))) =
        ⟨a, 0 + validCount u ids sps, 0 + ids.length⟩ := rfl
    have e2 : (passEnd u kind l.corr ⟨a, 0, 0⟩ ids sps (readAnswers u ids more ++ rest)).devices = ids := hd
    have e3 : (passEnd u kind l.corr ⟨a, 0, 0⟩ ids sps (readAnswers u ids more ++ rest)).params = u.params := rfl
    have e4 : (passEnd u kind l.corr ⟨a, 0, 0⟩ ids sps (readAnswers u ids more ++ rest)).host = [] := hq
    rw [e1, e2, e3]
    simp only [Nat.zero_add]
    by_cases hm : more = []
    · subst hm
      rw [if_pos (by rcases he with h | h
                     · left; exact h
                     · right; simp at h; omega), endPasses_run e4, readEnd_one]
      simp only [readAnswers, List.flatMap_nil, List.nil_append]
      rw [ok_passEnd _ _ _ _ _ _ _ _ _ rfl, ok_passEnd _ _ _ _ _ _ _ _ _ rfl, err_passEnd _ _ _ _ _ _ _ _ rfl,
          err_passEnd _ _ _ _ _ _ _ _ rfl]
    · have hmp : 1 ≤ more.length := by
        rcases more with _ | _
        · exact absurd rfl hm
        · simp
      simp only [List.length_cons] at hb
      have hnv : validCount u ids sps ≠ ids.length := hr sps (by
        cases more with
        | nil => exact absurd rfl hm
        | cons x y => simp [List.dropLast])
      rw [if_neg (by rintro (h | h)
                     · exact hnv h
                     · omega)]
      rw [nextAttempt, seq_bind_ok (hidden_run _ _), e1]
      rw [← readEnd_more u kind l.corr ⟨a, 0, 0⟩ ids sps more (readAnswers u ids more ++ rest) rest rfl hm ⟨a + 1,
          validCount u ids sps, ids.length⟩ hsp.1 hsp.2 (fun x hx => hs x (by simp [hx]))]
      simp only [Nat.zero_add]
      refine ih (u := { passEnd u kind l.corr ⟨a, 0, 0⟩ ids sps (readAnswers u ids more ++ rest) with readPass := some ⟨a + 1, validCount u ids sps, ids.length⟩ }) (a := a + 1) e4 e2 rfl ?_ hm (by omega) (fun x hx => hs x (by simp [hx])) (fun x hx => hz x (by simp [hx])) ?_ ?_ rfl hl
      · show a + 1 + n = u.params.readRepeat + 1; omega
      · intro x hx
        refine hr x ?_
        cases more with
        | nil => exact absurd rfl hm
        | cons p q => simp only [List.dropLast_cons_cons, List.mem_cons]; right; exact hx
      · cases more with
        | nil => exact absurd rfl hm
        | cons p q =>
          rcases he with h | h
          · exact .inl h
          · right; simpa using h

/-- Which passes are made depends on the registry and the parameters only. -/
theorem readPasses_congr {s t : State} {ids passes} (h : ReadPasses s ids passes) (hr : t.registry = s.registry)
    (hp : t.params = s.params) : ReadPasses t ids passes := by
  have hc : crc8 t = crc8 s := by funext bs; simp only [crc8, hr]
  have h1 : validId t = validId s := by funext id; simp only [validId, hc]
  have h2 : validCount t = validCount s := by funext a b; simp only [validCount, validRead, h1, hc]
  exact ⟨h.some, hp ▸ h.bounded, h.shape, h1 ▸ h.skipped, h2 ▸ h.retried, by rw [h2, hp]; exact h.ended⟩

/-- The per-command state does not outlive the command. -/
theorem readEnd_hidden (u : State) (d : List RomId) (rp : Option ReadPass) (po : Option Poll) (ps : SeqPos)
    (q : SeqState) (kind corr ids passes rest) :
    readEnd { u with devices := d, readPass := rp, poll := po, pos := ps, status := { u.status with seqState := q } }
        kind corr ids passes rest = readEnd u kind corr ids passes rest := by
  have key : ∀ E : State → State, (E = errorEnd .integrity 0 ∨ ∃ a b, E = okEnd a b) → ∀ c : Bool, ∀ A R,
      E (storeBytes restabBase R
      (if c = true then setPresence true
          (onLine { u with devices := d, readPass := rp, poll := po, pos := ps, status := { u.status with seqState := q } } A rest) else onLine { u with devices := d, readPass := rp, poll := po, pos := ps, status := { u.status with seqState := q } } A rest)) =
      E (storeBytes restabBase R (if c = true then setPresence true (onLine u A rest) else onLine u A rest)) := by
    rintro E (rfl | ⟨a, b, rfl⟩) c A R <;> cases c <;> rfl
  unfold readEnd
  simp only []
  rw [← key _ (.inl rfl), ← key (okEnd _ _) (.inr ⟨_, _, rfl⟩)]
  rfl

/-- All passes of a read command. -/
theorem readAll_run {kind l} (passes : List (List (List Byte))) {u : State} {ids : List RomId} {rest : List Bool}
    (hq : u.host = []) (hd : u.devices = ids)
   (h : ReadPasses u ids passes) (hbus : u.bus = readAnswers u ids passes ++ rest) (hl : ids.length ≤ u.params.maxDevices) :
    readAll kind l u = .error (.next (readEnd u kind l.corr ids passes rest)) := by
  rw [readAll, seq_bind_ok (hidden_run _ _), seq_get_bind]
  refine (readPasses_run (u := { u with readPass := some ⟨1, 0, 0⟩ }) passes (a := 1) hq hd rfl
      (by show 1 + u.params.readRepeat = u.params.readRepeat + 1; omega) h.some h.bounded h.shape h.skipped h.retried
      h.ended hbus hl).trans ?_
  congr 2
  exact readEnd_hidden u u.devices _ u.poll u.pos u.status.seqState kind l.corr ids passes rest

/-! ## A device that is absent -/

/-- Devices in two parts. -/
theorem readDevices_append {kind l} (a b : List RomId) (u : State) :
    readDevices kind l (a ++ b) u = (readDevices kind l a >>= fun _ => readDevices kind l b) u := by
  induction a generalizing u with
  | nil => rfl
  | cons id a ih =>
    show (readDevice kind l id >>= fun _ => readDevices kind l (a ++ b)) u = _
    simp only [readDevices, seq_bind]
    cases readDevice kind l id u with
    | error o => rfl
    | ok r => exact (ih r.2).trans (seq_bind _ _ _)

/-- A list of reads pairs with no more devices than it has reads. -/
theorem zip_take (ids : List RomId) (sps : List (List Byte)) : (ids.take sps.length).zip sps = ids.zip sps := by
  induction ids generalizing sps with
  | nil => simp
  | cons id ids ih => cases sps <;> simp [ih]

/-- What an end with NO_PRESENCE in the midst of a pass leaves. -/
theorem absent_passEnd (u : State) (kind corr rp) (ids : List RomId) (sps r1 rest) (hi : rp.index = 0) :
    errorEnd .noPresence 0 (setPresence false (onLine (passEnd u kind corr rp (ids.take sps.length) sps r1)
        [.reset true] rest)) =
      interruptedEnd u kind corr ids [] sps rest := by
  unfold interruptedEnd
  have e1 : passSlots u (ids.take sps.length) sps = passSlots u ids sps := by simp only [passSlots, zip_take]
  have e2 : passRecords u kind corr (ids.take sps.length) sps =
      passRecords u kind corr ids sps := by simp only [passRecords, zip_take]
  have e3 : passRecords u kind corr ids (([] : List (List (List Byte))).getLastD []) = [] := by simp [passRecords]
  rw [e3, List.flatMap_nil, List.nil_append, ← onLine_onLine u _ _ r1 rest]
  unfold passEnd
  rw [hi, e1, e2]
  cases (ids.take sps.length).any (validId u) <;> rfl

/-- The devices of a pass as far as one that is absent. -/
theorem readDevices_absent {kind l} {ids : List RomId} {sps : List (List Byte)} {u : State} {rp : ReadPass} {rest}
    (hq : u.host = []) (hrp : u.readPass = some rp) (hi : rp.index = 0)
    (hl : sps.length < ids.length) (h9 : ∀ sp ∈ sps, sp.length = 9) (hz : ∀ x ∈ ids.zip sps, validId u x.1 =
        false → x.2 = List.replicate 9 0)
    (hv : validId u (ids.getD sps.length 0) = true)
    (hb : u.bus = passAnswers u ids sps ++ true :: rest) (hr : ids.length ≤ u.params.maxDevices) :
    readDevices kind l ids u = .error (.next (interruptedEnd u kind l.corr ids [] sps rest)) := by
  have hsplit : ids = ids.take sps.length ++ (ids[sps.length] :: ids.drop (sps.length + 1)) := by
    rw [List.getElem_cons_drop, List.take_append_drop]
  have e1 : passAnswers u (ids.take sps.length) sps = passAnswers u ids sps := by simp only [passAnswers, zip_take]
  have hrun := readDevices_run (kind := kind) (l := l) (ids.take sps.length) sps (u := u) (rp := rp)
      (rest := true :: rest) hq hrp (by simp; omega) h9 (by rw [zip_take]; exact hz) (by rw [e1]; exact hb)
      (by simp; omega)
  conv_lhs => rw [hsplit]
  rw [readDevices_append, seq_bind_ok hrun]
  rw [List.getD_eq_getElem _ _ hl] at hv
  obtain ⟨w, hw⟩ : ∃ w, w = passEnd u kind l.corr rp (ids.take sps.length) sps (true :: rest) := ⟨_, rfl⟩
  have hwh : w.host = [] := by rw [hw]; exact hq
  have hwb : w.bus = true :: rest := by rw [hw]; rfl
  have hwv : validId w ids[sps.length] = true := by rw [hw]; exact hv
  rw [← absent_passEnd u kind l.corr rp ids sps (true :: rest) rest hi, ← hw]
  rw [readDevices]
  refine seq_bind_error ?_
  rw [readDevice, seq_get_bind, if_pos hwv, readValid]
  exact seq_bind_error (needPresence_none hwh hwb)

/-- A whole pass before the passes of an interrupted read. -/
theorem interruptedEnd_more (u : State) (kind corr rp) (ids : List RomId) (p : List (List Byte))
    (more : List (List (List Byte))) (sps r1 rest) (hi : rp.index = 0) (rp' : ReadPass)
    (hl : p.length = ids.length) (h9 : ∀ sp ∈ p, sp.length = 9) (hs : ∀ q ∈ more, q.length = ids.length ∧ ∀ sp ∈ q,
        sp.length = 9) :
    interruptedEnd { passEnd u kind corr rp ids p r1 with readPass := some rp' } kind corr ids more sps rest =
        interruptedEnd u kind corr ids (p :: more) sps rest := by
  unfold interruptedEnd
  have e1 : (p :: more).flatMap (passSlots u ids) ++ passSlots u ids sps ++ [Slot.reset true] =
      passSlots u ids p ++ (more.flatMap (passSlots u ids) ++ passSlots u ids sps ++ [Slot.reset true]) := by simp
  rw [e1, ← onLine_onLine u _ _ r1 rest]
  have hram : memSetBytes (memSetBytes u.ram restabBase (passRecords u kind corr ids p)) restabBase
      (passRecords u kind corr ids (more.getLastD [])) =
      memSetBytes u.ram restabBase (passRecords u kind corr ids ((p :: more).getLastD [])) := by
    cases more with
    | nil => simp [passRecords, memSetBytes]
    | cons a b =>
      have hm : (a :: b) ≠ [] := by simp
      have hmem : (a :: b).getLastD [] ∈ a :: b := by
        rw [List.getLastD_eq_getLast?, List.getLast?_eq_some_getLast hm]; exact List.getLast_mem hm
      have hlast : (p :: a :: b).getLastD [] = (a :: b).getLastD [] := by simp [List.getLastD]
      rw [hlast]
      exact memSetBytes_twice _ _ _ _
          (by rw [passRecords_length u kind corr ids p hl h9, passRecords_length u kind corr ids _ (hs _ hmem).1 (hs _ hmem).2])
  have hE : ∀ (A : List Slot) (R S : List Byte),
      memSetBytes (memSetBytes u.ram restabBase (passRecords u kind corr ids p)) restabBase R =
      memSetBytes u.ram restabBase S → ∀ T,
      errorEnd .noPresence 0
          (setPresence false (storeBytes restabBase T
          (storeBytes restabBase R (onLine { passEnd u kind corr rp ids p r1 with readPass := some rp' } A rest)))) =
      errorEnd .noPresence 0
          (setPresence false (storeBytes restabBase T
          (storeBytes restabBase S (onLine (onLine u (passSlots u ids p) r1) A rest)))) := by
    intro A R S h T
    unfold passEnd
    rw [hi]
    simp only [storeBytes, errorEnd, endCommand, passState, setPresence, onLine]
    simp only [Nat.mul_zero, Nat.add_zero, h]
    rfl
  exact hE _ _ _ hram _

/-- All passes from some attempt on, as far as a device that is absent. -/
theorem readPasses_absent {kind l} (passes : List (List (List Byte))) {u : State} {a n : Nat} {ids : List RomId}
    {sps : List (List Byte)} {rest : List Bool} (hq : u.host = []) (hd : u.devices = ids)
    (ha : (readPassOf u).attempt = a) (hn : a + n = u.params.readRepeat + 1) (hb : passes.length < n)
    (hs : ∀ p ∈ passes, p.length = ids.length ∧ ∀ sp ∈ p, sp.length = 9)
    (hz : ∀ p ∈ passes ++ [sps], ∀ x ∈ ids.zip p, validId u x.1 = false → x.2 = List.replicate 9 0)
    (hr : ∀ p ∈ passes, validCount u ids p ≠ ids.length)
    (hsl : sps.length < ids.length) (hs9 : ∀ sp ∈ sps, sp.length = 9) (hv : validId u (ids.getD sps.length 0) = true)
    (hbus : u.bus = interruptedAnswers u ids passes sps ++ rest) (hl : ids.length ≤ u.params.maxDevices) :
    readPasses kind l n u = .error (.next (interruptedEnd u kind l.corr ids passes sps rest)) := by
  induction passes generalizing u a n with
  | nil =>
    obtain ⟨n, rfl⟩ : ∃ k, n = k + 1 := ⟨n - 1, by simp at hb; omega⟩
    rw [readPasses, startPass, seq_bind_ok (hidden_run _ _), seq_get_bind, ha]
    have := readDevices_absent (kind := kind) (l := l) (ids := ids) (sps := sps)
        (u := { u with readPass := some ⟨a, 0, 0⟩ }) (rp := ⟨a, 0, 0⟩) (rest := rest) hq rfl rfl hsl hs9
        (hz sps (by simp)) hv
      (by show u.bus = _; rw [hbus]; simp [interruptedAnswers, readAnswers]; rfl) hl
    rw [seq_bind_error ((congrArg (fun d => readDevices kind l d { u with readPass := some ⟨a, 0, 0⟩ }) hd).trans this)]
    rfl
  | cons p more ih =>
    obtain ⟨n, rfl⟩ : ∃ k, n = k + 1 := ⟨n - 1, by simp at hb; omega⟩
    have hsp := hs p (by simp)
    simp only [List.length_cons] at hb
    have hpass : readDevices kind l ids { u with readPass := some ⟨a, 0, 0⟩ } =
        .ok ((), passEnd u kind l.corr ⟨a, 0, 0⟩ ids p (interruptedAnswers u ids more sps ++ rest)) := by
      have := readDevices_run (kind := kind) (l := l) ids p (u := { u with readPass := some ⟨a, 0, 0⟩ })
          (rp := ⟨a, 0, 0⟩) (rest := interruptedAnswers u ids more sps ++ rest) hq rfl hsp.1 hsp.2 (hz p (by simp))
          (by
        show u.bus = _
        rw [hbus]
        simp only [interruptedAnswers, readAnswers, List.flatMap_cons, List.append_assoc]
        rfl) (by show 0 + ids.length ≤ u.params.maxDevices; omega)
      rw [this]; rfl
    rw [readPasses, startPass, seq_bind_ok (hidden_run _ _), seq_get_bind, ha]
    rw [seq_bind_ok ((congrArg (fun d => readDevices kind l d { u with readPass := some ⟨a, 0, 0⟩ }) hd).trans hpass),
        seq_get_bind]
    have e1 : (readPassOf (passEnd u kind l.corr ⟨a, 0, 0⟩ ids p (interruptedAnswers u ids more sps ++ rest))) =
        ⟨a, 0 + validCount u ids p, 0 + ids.length⟩ := rfl
    have e2 : (passEnd u kind l.corr ⟨a, 0, 0⟩ ids p (interruptedAnswers u ids more sps ++ rest)).devices = ids := hd
    have e3 : (passEnd u kind l.corr ⟨a, 0, 0⟩ ids p (interruptedAnswers u ids more sps ++ rest)).params = u.params := rfl
    have e4 : (passEnd u kind l.corr ⟨a, 0, 0⟩ ids p (interruptedAnswers u ids more sps ++ rest)).host = [] := hq
    rw [e1, e2, e3]
    simp only [Nat.zero_add]
    have hnv : validCount u ids p ≠ ids.length := hr p (by simp)
    rw [if_neg (by rintro (h | h)
                   · exact hnv h
                   · omega)]
    rw [nextAttempt, seq_bind_ok (hidden_run _ _), e1]
    rw [← interruptedEnd_more u kind l.corr ⟨a, 0, 0⟩ ids p more sps (interruptedAnswers u ids more sps ++ rest) rest
        rfl ⟨a + 1, validCount u ids p, ids.length⟩ hsp.1 hsp.2 (fun x hx => hs x (by simp [hx]))]
    simp only [Nat.zero_add]
    refine ih (u := { passEnd u kind l.corr ⟨a, 0, 0⟩ ids p (interruptedAnswers u ids more sps ++ rest) with readPass := some ⟨a + 1, validCount u ids p, ids.length⟩ }) (a := a + 1) e4 e2 rfl ?_ (by omega) (fun x hx => hs x (by simp [hx])) (fun x hx => hz x (by simp only [List.mem_append, List.mem_cons] at hx ⊢; tauto)) (fun x hx => hr x (by simp [hx])) hv rfl hl
    show a + 1 + n = u.params.readRepeat + 1; omega

/-- The per-command state and PRESENCE do not outlive such an end. -/
theorem interruptedEnd_hidden (u : State) (d : List RomId) (rp : Option ReadPass) (po : Option Poll) (ps : SeqPos)
    (b : Bool) (q : SeqState) (kind corr ids passes sps rest) :
    interruptedEnd { u with devices := d, readPass := rp, poll := po, pos := ps, status := { u.status with presence := b, seqState := q } } kind corr ids passes sps rest = interruptedEnd u kind corr ids passes sps rest := by
  have key : ∀ (A : List Slot) (R T : List Byte),
      errorEnd .noPresence 0 (setPresence false (storeBytes restabBase T (storeBytes restabBase R
      (onLine { u with devices := d, readPass := rp, poll := po, pos := ps, status := { u.status with presence := b, seqState := q } } A rest)))) =
      errorEnd .noPresence 0
          (setPresence false (storeBytes restabBase T (storeBytes restabBase R (onLine u A rest)))) :=
          fun _ _ _ => rfl
  unfold interruptedEnd
  rw [← key]
  all_goals rfl

/-- All passes of a read command, as far as a device that is absent. -/
theorem readAll_absent {kind l} {passes : List (List (List Byte))} {sps} {u : State} {ids : List RomId}
    {rest : List Bool} (hq : u.host = []) (hd : u.devices = ids)
   (h : ReadInterrupted u ids passes sps) (hbus : u.bus = interruptedAnswers u ids passes sps ++ rest)
       (hl : ids.length ≤ u.params.maxDevices) :
    readAll kind l u = .error (.next (interruptedEnd u kind l.corr ids passes sps rest)) := by
  rw [readAll, seq_bind_ok (hidden_run _ _), seq_get_bind]
  refine (readPasses_absent (u := { u with readPass := some ⟨1, 0, 0⟩ }) passes (a := 1) hq hd rfl
      (by show 1 + u.params.readRepeat = u.params.readRepeat + 1; omega) h.bounded
    (fun p hp => ⟨(h.retried p hp).1, h.shape p (by simp [hp])⟩) h.skipped (fun p hp => (h.retried p hp).2)
        h.unfinished (h.shape sps (by simp)) h.next hbus hl).trans ?_
  congr 2

/-- Which reads are interrupted depends on the registry and the parameters only. -/
theorem readInterrupted_congr {s t : State} {ids passes sps} (h : ReadInterrupted s ids passes sps) (hr : t.registry =
    s.registry) (hp : t.params = s.params) : ReadInterrupted t ids passes sps := by
  have hc : crc8 t = crc8 s := by funext bs; simp only [crc8, hr]
  have h1 : validId t = validId s := by funext id; simp only [validId, hc]
  have h2 : validCount t = validCount s := by funext a b; simp only [validCount, validRead, h1, hc]
  exact ⟨hp ▸ h.bounded, h2 ▸ h.retried, h.unfinished, h.shape, h1 ▸ h.skipped, h1 ▸ h.next⟩

end Sys2Proof.Machine
end

