-- ==== Sys2Proof/Laws/Search.lean ====
section
/-! SUPPORT. What the pieces of a ROM search do while the host leaves the block alone (42_search): one ROM bit, one pass,
an enumeration of devices that answer as in 95_test_vectors §1, and all passes so far. -/

namespace Sys2Proof.Machine

/-! ## The ROM table -/

/-- ROMTAB with ids that fit, the rest zero. -/
theorem image_eq (p : Params) {ids : List RomId} (h : ids.length ≤ p.maxDevices) :
    romtabImage p ids = ids.flatMap romBytes ++ List.replicate (8 * (p.maxDevices - ids.length)) 0 := by
  have zeros : ∀ n, (List.range n).flatMap (fun j => romBytes (ids.getD (ids.length + j) 0)) =
      List.replicate (8 * n) 0 := by
    intro n
    induction n with
    | zero => rfl
    | succ n ih =>
      rw [List.range_succ, List.flatMap_append, ih, show 8 * (n + 1) = 8 * n + 8 by omega, List.replicate_add]
      congr 1
      simp [romBytes, List.range_succ, List.replicate_succ]
  have front : (List.range ids.length).flatMap (fun j => romBytes (ids.getD j 0)) = ids.flatMap romBytes := by
    rw [List.flatMap_def, List.flatMap_def]
    congr 1
    apply List.ext_getElem
    · simp
    · intro i h1 h2
      simp at h1
      simp [List.getD, h1]
  obtain ⟨n, hn⟩ := Nat.exists_eq_add_of_le h
  unfold romtabImage
  rw [hn, List.range_add, List.flatMap_append, front, List.flatMap_map, Nat.add_sub_cancel_left]
  exact congrArg _ (zeros n)

/-- The good end of a search, with ids that fit (42_search R314). -/
theorem searchSucceed_eq {α : Type} {ids : List RomId} {s : State} (hq : s.host = [])
    (h : ids.length ≤ s.params.maxDevices) :
    (searchSucceed ids : Seq α) s = .error (.next (okEnd (BitVec.ofNat 32 ids.length) 0 (withRomtab ids s))) := by
  rw [searchSucceed_quiet hq, image_eq _ h]; rfl

/-- The failing end of a search (42_search R313). -/
theorem searchFail_eq {α : Type} {e : ErrCode} {s : State} (hq : s.host = []) :
    (searchFail e : Seq α) s = .error (.next (errorEnd e 0 (withRomtab [] s))) := searchFail_quiet hq

/-! ## A search under way -/

/-- The state s after these slots, with what the bus and the clock answer from then on and the search state; `presence`
is what the last reset slot read, if there was one. -/
def walked (s : State) (presence : Option Bool) (ss : List Slot) (rest : List Bool) (clock : List Word)
    (st : SearchState) : State :=
  { onLine (match presence with
      | none => s
      | some b => setPresence b s) ss rest with clockIn := clock, search := some st }

section
variable {s : State} {p : Option Bool} {ss : List Slot} {rest : List Bool} {ck : List Word} {st : SearchState}

@[simp] theorem walked_host : (walked s p ss rest ck st).host = s.host := by cases p <;> rfl
@[simp] theorem walked_bus : (walked s p ss rest ck st).bus = rest := rfl
@[simp] theorem walked_clockIn : (walked s p ss rest ck st).clockIn = ck := rfl
@[simp] theorem walked_params : (walked s p ss rest ck st).params = s.params := by cases p <;> rfl
@[simp] theorem walked_searchOf : searchOf (walked s p ss rest ck st) = st := rfl
@[simp] theorem walked_crc8 (bs : List Byte) : crc8 (walked s p ss rest ck st) bs = crc8 s bs := by cases p <;> rfl

/-- More slots. -/
theorem walked_onLine (new : List Slot) (rest' : List Bool) :
    onLine (walked s p ss rest ck st) new rest' = walked s p (ss ++ new) rest' ck st := by
  unfold walked
  rw [← onLine_onLine _ ss new rest rest']
  rfl

/-- A reset slot. -/
theorem walked_presence (b : Bool) : setPresence b (walked s p ss rest ck st) = walked s (some b) ss rest ck st := by
  cases p <;> rfl

theorem slotRead_walked {b : Bool} (hq : s.host = []) :
    slotRead (walked s p ss (b :: rest) ck st) = .ok (b, walked s p (ss ++ [.read b]) rest ck st) := by
  rw [slotRead_answer (by simpa using hq) rfl, walked_onLine]

theorem slotWrite_walked {b : Bool} (hq : s.host = []) :
    slotWrite b (walked s p ss rest ck st) = .ok ((), walked s p (ss ++ [.write b]) rest ck st) := by
  rw [slotWrite_quiet (by simpa using hq), writeSlot_eq, walked_bus, walked_onLine]

theorem writeByte_walked {v : Byte} (hq : s.host = []) :
    writeByte v (walked s p ss rest ck st) = .ok ((), walked s p (ss ++ sent [v]) rest ck st) := by
  rw [writeByte_quiet (by simpa using hq), walked_bus, walked_onLine]

theorem setSearch_walked (f : SearchState → SearchState) :
    setSearch f (walked s p ss rest ck st) = .ok ((), walked s p ss rest ck (f st)) := rfl

/-- A ROM bit that devices answer. -/
theorem searchBit_walked {m : SearchMode} {i : Nat} {b cb : Bool} (hq : s.host = []) (h : (b && cb) = false) :
    searchBit m i (walked s p ss (b :: cb :: rest) ck st) =
      .ok (true, walked s p (ss ++ [.read b, .read cb, .write (searchBranch b cb i st).1]) rest ck
        (searchBranch b cb i st).2) := by
  rw [searchBit, seq_bind_ok (slotRead_walked hq), seq_bind_ok (slotRead_walked hq), seq_get_bind, h, walked_searchOf]
  show takeBranch _ _ = _
  rw [takeBranch, seq_bind_ok (setSearch_walked _), seq_bind_ok (slotWrite_walked hq), seq_pure]
  simp

/-- A ROM bit that no device answers. -/
theorem searchBit_none {m : SearchMode} {i : Nat} (hq : s.host = []) :
    searchBit m i (walked s p ss (true :: true :: rest) ck st) =
      if noAlarm m i st then .error (.next (okEnd 0 0 (withRomtab []
        (walked s p (ss ++ [.read true, .read true]) rest ck st))))
      else .ok (false, walked s p (ss ++ [.read true, .read true]) rest ck st) := by
  rw [searchBit, seq_bind_ok (slotRead_walked hq), seq_bind_ok (slotRead_walked hq), seq_get_bind, walked_searchOf,
    List.append_assoc]
  by_cases h : noAlarm m i st = true
  · rw [if_pos h]
    simp only [Bool.and_self, if_true, h]
    exact searchSucceed_eq (by simpa using hq) (by simp)
  · rw [if_neg h]
    simp only [Bool.and_self, if_true, h]
    rfl

end

/-! ## Devices on the line -/

/-- The device a pass finds is in the search all the way. -/
theorem mem_inSearch {ds : List RomId} {id : RomId} (h : id ∈ ds) (i : Nat) : id ∈ inSearch ds id i := by
  simp [inSearch, h]

theorem inSearch_iff {ds : List RomId} {id x : RomId} {i : Nat} :
    x ∈ inSearch ds id i ↔ x ∈ ds ∧ ∀ k, k < i → x.getLsbD k = id.getLsbD k := by
  simp [inSearch]

/-- Devices that agree at a ROM bit answer it and its complement. -/
theorem searchPair_cases {ds : List RomId} {id : RomId} (h : id ∈ ds) (i : Nat) :
    searchPair ds id i = (id.getLsbD i, !id.getLsbD i) ∨
      searchPair ds id i = (false, false) ∧ ∃ x ∈ inSearch ds id i, x.getLsbD i = !id.getLsbD i := by
  have hm := mem_inSearch h i
  by_cases he : ∃ x ∈ inSearch ds id i, x.getLsbD i = !id.getLsbD i
  · right
    refine ⟨?_, he⟩
    obtain ⟨x, hx, hb⟩ := he
    simp only [searchPair, Prod.mk.injEq]
    cases hid : id.getLsbD i
    · rw [hid] at hb
      exact ⟨List.all_eq_false.2 ⟨id, hm, by simp [hid]⟩, List.all_eq_false.2 ⟨x, hx, by simp [hb]⟩⟩
    · rw [hid] at hb
      exact ⟨List.all_eq_false.2 ⟨x, hx, by simp [hb]⟩, List.all_eq_false.2 ⟨id, hm, by simp [hid]⟩⟩
  · left
    have same : ∀ x ∈ inSearch ds id i, x.getLsbD i = id.getLsbD i := by
      intro x hx
      by_contra hne
      exact he ⟨x, hx, by cases hx' : x.getLsbD i <;> cases hi : id.getLsbD i <;> simp_all⟩
    simp only [searchPair, Prod.mk.injEq]
    cases hid : id.getLsbD i
    · exact ⟨List.all_eq_false.2 ⟨id, hm, by simp [hid]⟩, List.all_eq_true.2 fun x hx => by simp [same x hx, hid]⟩
    · exact ⟨List.all_eq_true.2 fun x hx => by simp [same x hx, hid], List.all_eq_false.2 ⟨id, hm, by simp [hid]⟩⟩

/-- Some device answers. -/
theorem searchPair_answered {ds : List RomId} {id : RomId} (h : id ∈ ds) (i : Nat) :
    ((searchPair ds id i).1 && (searchPair ds id i).2) = false := by
  rcases searchPair_cases h i with e | ⟨e, _⟩ <;> rw [e] <;> simp

/-- The search takes the branches of this id wherever the devices disagree. -/
def Steers (ds : List RomId) (id : RomId) (st : SearchState) : Prop :=
  ∀ i, i < 64 → searchPair ds id i = (false, false) → discrepancyBit st i = id.getLsbD i

/-- One ROM bit of a search so steered. -/
theorem searchBranch_steered {ds : List RomId} {id : RomId} {st : SearchState} {i : Nat} (h : id ∈ ds)
    (hs : Steers ds id st) (hi : i < 64) :
    searchBranch (searchPair ds id i).1 (searchPair ds id i).2 i st = (id.getLsbD i, { st with
      rom := setRomBit st.rom i (id.getLsbD i)
      lastZero := if searchPair ds id i = (false, false) ∧ id.getLsbD i = false then (i : Int) else st.lastZero }) := by
  have hsi := hs i hi
  rcases searchPair_cases h i with e | ⟨e, _⟩
  · rw [e]
    cases id.getLsbD i <;> simp [searchBranch]
  · have := hsi e
    rw [e]
    simp [searchBranch, this]

/-- lastZero after n ROM bits from bit i on. -/
def zeroFrom (ds : List RomId) (id : RomId) : Nat → Nat → Int → Int
  | _, 0, z => z
  | i, n + 1, z =>
    zeroFrom ds id (i + 1) n (if searchPair ds id i = (false, false) ∧ id.getLsbD i = false then (i : Int) else z)

/-- It is the last discrepancy taken as 0, if there is one. -/
theorem zeroFrom_cases (ds : List RomId) (id : RomId) (i n : Nat) (z : Int) :
    (zeroFrom ds id i n z = z ∧
        ∀ k, i ≤ k → k < i + n → ¬ (searchPair ds id k = (false, false) ∧ id.getLsbD k = false)) ∨
      ∃ k, i ≤ k ∧ k < i + n ∧ zeroFrom ds id i n z = (k : Int) ∧ searchPair ds id k = (false, false) ∧
        id.getLsbD k = false ∧
        ∀ j, k < j → j < i + n → ¬ (searchPair ds id j = (false, false) ∧ id.getLsbD j = false) := by
  induction n generalizing i z with
  | zero => left; exact ⟨rfl, fun k h1 h2 => by omega⟩
  | succ n ih =>
    simp only [zeroFrom]
    rcases ih (i + 1) (if searchPair ds id i = (false, false) ∧ id.getLsbD i = false then (i : Int) else z) with
      ⟨h1, h2⟩ | ⟨k, h1, h2, h3, h4, h5, h6⟩
    · by_cases hc : searchPair ds id i = (false, false) ∧ id.getLsbD i = false
      · right
        exact ⟨i, by omega, by omega, by rw [h1, if_pos hc], hc.1, hc.2, fun j hj hj' => h2 j (by omega) (by omega)⟩
      · left
        refine ⟨by rw [h1, if_neg hc], fun k hk hk' => ?_⟩
        by_cases e : k = i
        · subst e; exact hc
        · exact h2 k (by omega) (by omega)
    · right
      exact ⟨k, by omega, by omega, h3, h4, h5, fun j hj hj' => h6 j hj (by omega)⟩

/-! ## A pass -/

section
variable {s : State} {p : Option Bool} {ss : List Slot} {rest : List Bool} {ck : List Word} {st : SearchState}

/-- n ROM bits of a walk from bit i on, and k more to go. -/
theorem searchWalk_bits {m : SearchMode} {ds : List RomId} {id : RomId} (hq : s.host = []) (h : id ∈ ds) (n k i : Nat)
    (hs : n = 0 ∨ Steers ds id st) (hn : i + n ≤ 64) (hrom : ∀ j, j < i → st.rom.getLsbD j = id.getLsbD j) :
    ∃ rom : RomId, (∀ j, j < i + n → rom.getLsbD j = id.getLsbD j) ∧
      searchWalk m i (n + k) (walked s p ss
        (((List.range' i n).flatMap fun j => [(searchPair ds id j).1, (searchPair ds id j).2]) ++ rest) ck st) =
      searchWalk m (i + n) k (walked s p (ss ++ (List.range' i n).flatMap fun j =>
          [.read (searchPair ds id j).1, .read (searchPair ds id j).2, .write (id.getLsbD j)]) rest ck
        { st with rom := rom, lastZero := zeroFrom ds id i n st.lastZero }) := by
  induction n generalizing i ss st with
  | zero =>
    refine ⟨st.rom, hrom, ?_⟩
    simp [zeroFrom]
  | succ n ih =>
    have hs' : Steers ds id st := by rcases hs with h0 | h0 <;> [omega; exact h0]
    obtain ⟨rom, h1, h2⟩ := ih (i := i + 1)
      (ss := ss ++ [.read (searchPair ds id i).1, .read (searchPair ds id i).2, .write (id.getLsbD i)])
      (st := { st with
        rom := setRomBit st.rom i (id.getLsbD i)
        lastZero := if searchPair ds id i = (false, false) ∧ id.getLsbD i = false then (i : Int) else st.lastZero })
      (.inr hs') (by omega) (by
        intro j hj
        show (setRomBit st.rom i _).getLsbD j = _
        rw [setRomBit_bit _ _ _ _ (by omega) (by omega)]
        split
        · subst j; rfl
        · exact hrom j (by omega))
    refine ⟨rom, fun j hj => h1 j (by omega), ?_⟩
    rw [List.range'_succ, List.flatMap_cons, List.flatMap_cons, show n + 1 + k = (n + k) + 1 by omega, searchWalk]
    have hbit := searchBit_walked (s := s) (p := p) (ss := ss) (ck := ck) (st := st) (m := m) (i := i)
      (rest := ((List.range' (i + 1) n).flatMap fun j => [(searchPair ds id j).1, (searchPair ds id j).2]) ++ rest)
      hq (searchPair_answered h i)
    rw [searchBranch_steered h hs' (by omega)] at hbit
    rw [List.append_assoc]
    refine (seq_bind_ok hbit).trans ?_
    show searchWalk m (i + 1) (n + k) _ = _
    rw [h2, List.append_assoc, show i + 1 + n = i + (n + 1) by omega]
    rfl

/-- A walk over all ROM bits. -/
theorem searchWalk_all {m : SearchMode} {ds : List RomId} {id : RomId} (hq : s.host = []) (h : id ∈ ds)
    (hs : Steers ds id st) :
    searchWalk m 0 64 (walked s p ss (walkAnswers ds id 64 ++ rest) ck st) =
      .ok (true, walked s p (ss ++ walkSlots ds id 64) rest ck
        { st with rom := id, lastZero := zeroFrom ds id 0 64 st.lastZero }) := by
  obtain ⟨rom, h1, h2⟩ := searchWalk_bits (s := s) (p := p) (ss := ss) (rest := rest) (ck := ck) (st := st) (m := m) hq h
    64 0 0 (.inr hs) (by omega) (by intro j hj; omega)
  have e : rom = id := BitVec.eq_of_getLsbD_eq fun i hi => h1 i (by omega)
  subst e
  rw [← List.range_eq_range'] at h2
  exact h2

/-- A walk that is aborted at bit n. -/
theorem searchWalk_aborted {m : SearchMode} {ds : List RomId} {id : RomId} {n : Nat} (hq : s.host = []) (h : id ∈ ds)
    (hs : n = 0 ∨ Steers ds id st) (hn : n < 64) (hna : ∀ rom z, noAlarm m n { st with rom := rom, lastZero := z } =
        false) :
    ∃ rom z, searchWalk m 0 64 (walked s p ss (walkAnswers ds id n ++ [true, true] ++ rest) ck st) =
      .ok (false, walked s p (ss ++ (walkSlots ds id n ++ [.read true, .read true])) rest ck
        { st with rom := rom, lastZero := z }) := by
  obtain ⟨rom, h1, h2⟩ := searchWalk_bits (s := s) (p := p) (ss := ss) (rest := true :: true :: rest) (ck := ck) (st := st)
    (m := m) hq h n (64 - n) 0 hs (by omega) (by intro j hj; omega)
  refine ⟨rom, zeroFrom ds id 0 n st.lastZero, ?_⟩
  rw [show n + (64 - n) = 64 by omega, ← List.range_eq_range'] at h2
  rw [List.append_assoc]
  refine h2.trans ?_
  rw [show 64 - n = (63 - n) + 1 by omega, searchWalk, Nat.zero_add]
  have hb := searchBit_none (s := s) (p := p) (m := m) (i := n) (rest := rest) (ck := ck)
    (ss := ss ++ (List.range n).flatMap fun j =>
      [.read (searchPair ds id j).1, .read (searchPair ds id j).2, .write (id.getLsbD j)])
    (st := { st with rom := rom, lastZero := zeroFrom ds id 0 n st.lastZero }) hq
  rw [hna, List.append_assoc] at hb
  refine (seq_bind_ok hb).trans ?_
  rfl

/-- A pass as far as its walk, in time, with a presence pulse. -/
theorem searchPass_start {m : SearchMode} {l : Latch} {t : Word} (hq : s.host = [])
    (ht : deadlinePassed st.start (ticks s.params l s.params.searchTimeoutMs) t = false) :
    searchPass m l (walked s p ss (false :: rest) (t :: ck) st) =
      (do let ok ← searchWalk m 0 64
          let s ← get
          pure (ok && acceptable s (searchOf s)) : Seq Bool)
        (walked s (some true) (ss ++ searchStart s.params m) rest ck { st with rom := 0, lastZero := -1 }) := by
  have hn : now (walked s p ss (false :: rest) (t :: ck) st) = .ok (t, walked s p ss (false :: rest) ck st) :=
    now_answer (by simpa using hq) rfl
  rw [searchPass, seq_bind_ok hn, seq_get_bind, walked_searchOf, walked_params, ht]
  show (pure () >>= _ : Seq Bool) _ = _
  rw [seq_pure_bind, seq_bind_ok (slotReset_answer (rest := rest) (by simpa using hq) rfl)]
  show (pure () >>= _ : Seq Bool) _ = _
  rw [seq_pure_bind, walked_onLine, Bool.not_false, walked_presence, seq_bind_ok (writeByte_walked hq),
    seq_bind_ok (setSearch_walked _), List.append_assoc]
  rfl

theorem searchPass_timeout {m : SearchMode} {l : Latch} {t : Word} (hq : s.host = [])
    (ht : deadlinePassed st.start (ticks s.params l s.params.searchTimeoutMs) t = true) :
    searchPass m l (walked s p ss rest (t :: ck) st) =
      .error (.next (errorEnd .timeout 0 (withRomtab [] (walked s p ss rest ck st)))) := by
  have hn : now (walked s p ss rest (t :: ck) st) = .ok (t, walked s p ss rest ck st) :=
    now_answer (by simpa using hq) rfl
  rw [searchPass, seq_bind_ok hn, seq_get_bind, walked_searchOf, walked_params, ht]
  exact seq_bind_error (searchFail_eq (by simpa using hq))

/-- No device answers the reset slot (42_search R302). -/
theorem searchPass_absent {m : SearchMode} {l : Latch} {t : Word} (hq : s.host = [])
    (ht : deadlinePassed st.start (ticks s.params l s.params.searchTimeoutMs) t = false) :
    searchPass m l (walked s p ss (true :: rest) (t :: ck) st) =
      .error (.next (errorEnd .noPresence 0 (withRomtab [] (walked s (some false) (ss ++ [.reset true]) rest ck st)))) := by
  have hn : now (walked s p ss (true :: rest) (t :: ck) st) = .ok (t, walked s p ss (true :: rest) ck st) :=
    now_answer (by simpa using hq) rfl
  rw [searchPass, seq_bind_ok hn, seq_get_bind, walked_searchOf, walked_params, ht]
  show (pure () >>= _ : Seq Bool) _ = _
  rw [seq_pure_bind, seq_bind_ok (slotReset_answer (rest := rest) (by simpa using hq) rfl), walked_onLine, Bool.not_true,
    walked_presence]
  exact seq_bind_error (searchFail_eq (by simpa using hq))

/-- A pass that walks all ROM bits, and whether its candidate is accepted (42_search R308). -/
theorem searchPass_walk {m : SearchMode} {l : Latch} {t : Word} {ds : List RomId} {id : RomId} (hq : s.host = [])
    (h : id ∈ ds) (hs : Steers ds id st)
    (ht : deadlinePassed st.start (ticks s.params l s.params.searchTimeoutMs) t = false) :
    searchPass m l (walked s p ss (false :: (walkAnswers ds id 64 ++ rest)) (t :: ck) st) =
      .ok (acceptable s { st with rom := id }, walked s (some true) (ss ++ (searchStart s.params m ++ walkSlots ds id 64))
        rest ck { st with rom := id, lastZero := zeroFrom ds id 0 64 (-1) }) := by
  rw [searchPass_start hq ht]
  have hw := searchWalk_all (s := s) (p := some true) (ss := ss ++ searchStart s.params m) (rest := rest) (ck := ck)
    (st := { st with rom := 0, lastZero := -1 }) (m := m) hq h hs
  refine (seq_bind_ok hw).trans ?_
  rw [seq_get_bind, seq_pure, walked_searchOf, Bool.true_and, List.append_assoc]
  simp [acceptable]

/-- A pass that is aborted. -/
theorem searchPass_aborted {m : SearchMode} {l : Latch} {t : Word} {ds : List RomId} {id : RomId} {n : Nat}
    (hq : s.host = []) (h : id ∈ ds) (hs : n = 0 ∨ Steers ds id st) (hn : n < 64)
    (hna : ∀ rom z, noAlarm m n { st with rom := rom, lastZero := z } = false)
    (ht : deadlinePassed st.start (ticks s.params l s.params.searchTimeoutMs) t = false) :
    ∃ rom z, searchPass m l (walked s p ss (false :: (walkAnswers ds id n ++ [true, true] ++ rest)) (t :: ck) st) =
      .ok (false, walked s (some true)
        (ss ++ (searchStart s.params m ++ (walkSlots ds id n ++ [.read true, .read true]))) rest ck
        { st with rom := rom, lastZero := z }) := by
  obtain ⟨rom, z, hw⟩ := searchWalk_aborted (s := s) (p := some true) (ss := ss ++ searchStart s.params m) (rest := rest)
    (ck := ck) (st := { st with rom := 0, lastZero := -1 }) (m := m) hq h hs hn (fun rom z => hna rom z)
  refine ⟨rom, z, ?_⟩
  rw [searchPass_start hq ht]
  refine (seq_bind_ok hw).trans ?_
  rw [seq_get_bind, seq_pure, Bool.false_and, List.append_assoc]

/-- After a good pass (42_search R310, R312). -/
theorem searchKeep_walked (hq : s.host = []) (hlen : st.found.length ≤ s.params.maxDevices) :
    searchKeep (walked s p ss rest ck st) =
      if st.found.length = s.params.maxDevices then
        .error (.next (errorEnd .overflow 0 (withRomtab [] (walked s p ss rest ck st))))
      else if st.lastZero = -1 then
        .error (.next (okEnd (BitVec.ofNat 32 (st.found.length + 1)) 0
          (withRomtab (st.found ++ [st.rom]) (walked s p ss rest ck st))))
      else .ok ((), walked s p ss rest ck
        { st with found := st.found ++ [st.rom], prev := st.rom, lastDisc := st.lastZero }) := by
  rw [searchKeep, seq_get_bind, walked_searchOf, walked_params]
  by_cases h : st.found.length = s.params.maxDevices
  · rw [if_pos h, h, bne_self_eq_false]
    exact seq_bind_error (searchFail_eq (by simpa using hq))
  · rw [if_neg h, bne_iff_ne.2 h]
    show (pure () >>= _ : Seq Unit) _ = _
    rw [seq_pure_bind, seq_bind_ok (setSearch_walked _)]
    by_cases hz : st.lastZero = -1
    · rw [if_pos hz, if_pos hz, searchSucceed_eq (by simpa using hq) (by simp; omega)]
      simp
      rfl
    · rw [if_neg hz, if_neg hz]; rfl

end

/-! ## The order of devices -/

/-- a comes before b: the first bit at which they differ is 0 in a. -/
def Before (a b : RomId) : Prop :=
  ∃ p, p < 64 ∧ (∀ j, j < p → a.getLsbD j = b.getLsbD j) ∧ a.getLsbD p = false ∧ b.getLsbD p = true

theorem reverse_testBit (a : RomId) (j : Nat) : a.reverse.toNat.testBit j = (decide (j < 64) && a.getLsbD (63 - j)) := by
  rw [BitVec.testBit_toNat, BitVec.getLsbD_reverse, BitVec.getMsbD_eq_getLsbD]

theorem before_lt {a b : RomId} (h : Before a b) : a.reverse.toNat < b.reverse.toNat := by
  obtain ⟨p, hp, h1, h2, h3⟩ := h
  refine Nat.lt_of_testBit (63 - p) ?_ ?_ fun j hj => ?_
  · rw [reverse_testBit, show 63 - (63 - p) = p by omega, h2]; simp
  · rw [reverse_testBit, show 63 - (63 - p) = p by omega, h3]; simp; omega
  · rw [reverse_testBit, reverse_testBit]
    by_cases hj2 : j < 64
    · rw [h1 (63 - j) (by omega)]
    · simp [hj2]

/-- Before is the order of reflect_64 (42_search R316). -/
theorem before_iff (a b : RomId) : Before a b ↔ a.reverse.toNat < b.reverse.toNat := by
  refine ⟨before_lt, fun h => ?_⟩
  have hne : ∃ p, p < 64 ∧ a.getLsbD p ≠ b.getLsbD p := by
    by_contra hc
    push Not at hc
    rw [BitVec.eq_of_getLsbD_eq (x := a) (y := b) fun i hi => hc i hi] at h
    omega
  classical
  have hp := Nat.find_spec hne
  have hm : ∀ j, j < Nat.find hne → a.getLsbD j = b.getLsbD j := by
    intro j hj
    have := Nat.find_min hne hj
    by_contra hc
    exact this ⟨by omega, hc⟩
  cases ha : a.getLsbD (Nat.find hne)
  · refine ⟨Nat.find hne, hp.1, hm, ha, ?_⟩
    have := hp.2
    rw [ha] at this
    cases hb : b.getLsbD (Nat.find hne)
    · rw [hb] at this; exact absurd rfl this
    · rfl
  · have hb : b.getLsbD (Nat.find hne) = false := by
      have := hp.2
      rw [ha] at this
      cases hb : b.getLsbD (Nat.find hne)
      · rfl
      · rw [hb] at this; exact absurd rfl this
    have := before_lt (a := b) (b := a) ⟨Nat.find hne, hp.1, fun j hj => (hm j hj).symm, hb, ha⟩
    omega

variable {ds : List RomId}

/-- No device lies between two neighbours, before the first or after the last. -/
theorem sorted_index (hs : InOrder ds) {i j : Nat} (hi : i < ds.length) (hj : j < ds.length) :
    Before ds[i] ds[j] ↔ i < j := by
  rw [before_iff]
  have hp := List.pairwise_iff_getElem.1 hs
  constructor
  · intro h
    by_contra hc
    by_cases e : i = j
    · subst e; omega
    · have := hp j i hj hi (by omega); omega
  · exact hp i j hi hj

/-- A discrepancy in the pass that finds id: another device branches off here. -/
theorem branch_off {id : RomId} (h : id ∈ ds) {i : Nat} (hd : searchPair ds id i = (false, false)) :
    ∃ x ∈ ds, (∀ k, k < i → x.getLsbD k = id.getLsbD k) ∧ x.getLsbD i = !id.getLsbD i := by
  rcases searchPair_cases h i with e | ⟨_, x, hx, hb⟩
  · rw [hd] at e; cases hb : id.getLsbD i <;> rw [hb] at e <;> simp at e
  · exact ⟨x, (inSearch_iff.1 hx).1, (inSearch_iff.1 hx).2, hb⟩

/-- Devices that branch off make a discrepancy. -/
theorem pair_of_branch {id x : RomId} (h : id ∈ ds) (hx : x ∈ ds) {i : Nat} (ha : ∀ k, k < i → x.getLsbD k = id.getLsbD k)
    (hb : x.getLsbD i = !id.getLsbD i) : searchPair ds id i = (false, false) := by
  have hm := mem_inSearch h i
  have hm' : x ∈ inSearch ds id i := inSearch_iff.2 ⟨hx, ha⟩
  simp only [searchPair, Prod.mk.injEq]
  cases hid : id.getLsbD i
  · rw [hid] at hb
    exact ⟨List.all_eq_false.2 ⟨id, hm, by simp [hid]⟩, List.all_eq_false.2 ⟨x, hm', by simp [hb]⟩⟩
  · rw [hid] at hb
    exact ⟨List.all_eq_false.2 ⟨x, hm', by simp [hb]⟩, List.all_eq_false.2 ⟨id, hm, by simp [hid]⟩⟩

/-- lastZero at the end of the pass that finds the k-th device is where the next one branches off. -/
theorem zero_next (hs : InOrder ds) {k : Nat} (hk : k + 1 < ds.length) :
    ∃ p : Nat, p < 64 ∧ zeroFrom ds ds[k] 0 64 (-1) = (p : Int) ∧
      (∀ j, j < p → ds[k].getLsbD j = ds[k+1].getLsbD j) ∧ ds[k].getLsbD p = false ∧ ds[k+1].getLsbD p = true := by
  obtain ⟨p, hp, h1, h2, h3⟩ := (sorted_index hs (by omega) hk).2 (Nat.lt_succ_self k)
  refine ⟨p, hp, ?_, h1, h2, h3⟩
  have hdisc : searchPair ds ds[k] p = (false, false) :=
    pair_of_branch (List.getElem_mem _) (List.getElem_mem hk) (fun j hj => (h1 j hj).symm) (by rw [h2, h3]; rfl)
  rcases zeroFrom_cases ds ds[k] 0 64 (-1) with ⟨_, hn⟩ | ⟨q, _, hq, he, hqd, hqb, hmax⟩
  · exact absurd ⟨hdisc, h2⟩ (hn p (by omega) (by omega))
  · rw [he]
    have hle : p ≤ q := by
      by_contra hc
      exact hmax p (by omega) (by omega) ⟨hdisc, h2⟩
    by_cases e : q = p
    · rw [e]
    · exfalso
      obtain ⟨x, hx, hxa, hxb⟩ := branch_off (List.getElem_mem (l := ds) (by omega : k < ds.length)) hqd
      rw [hqb] at hxb
      obtain ⟨j, hj, rfl⟩ := List.mem_iff_getElem.1 hx
      have a1 : Before ds[k] ds[j] := ⟨q, by omega, fun i hi => (hxa i hi).symm, hqb, hxb⟩
      have a2 : Before ds[j] ds[k+1] :=
          ⟨p, hp, fun i hi => by rw [hxa i (by omega), h1 i hi], by rw [hxa p (by omega), h2], h3⟩
      rw [sorted_index hs (by omega) hj] at a1
      rw [sorted_index hs hj hk] at a2
      omega

/-- lastZero is -1 at the end of the pass that finds the last device. -/
theorem zero_last (hs : InOrder ds) {k : Nat} (hk : k + 1 = ds.length) :
    zeroFrom ds ds[k] 0 64 (-1) = -1 := by
  rcases zeroFrom_cases ds ds[k] 0 64 (-1) with ⟨h, _⟩ | ⟨q, _, hq, he, hqd, hqb, hmax⟩
  · exact h
  · exfalso
    obtain ⟨x, hx, hxa, hxb⟩ := branch_off (List.getElem_mem (l := ds) (by omega : k < ds.length)) hqd
    rw [hqb] at hxb
    obtain ⟨j, hj, rfl⟩ := List.mem_iff_getElem.1 hx
    have a1 : Before ds[k] ds[j] := ⟨q, by omega, fun i hi => (hxa i hi).symm, hqb, hxb⟩
    rw [sorted_index hs (by omega) hj] at a1
    omega

/-- The search state before the pass that finds the k-th device. -/
def Ready (ds : List RomId) (k : Nat) (t0 : Word) (f : Nat) (st : SearchState) : Prop :=
  st.found = ds.take k ∧ st.start = t0 ∧ st.failures = f ∧
    match k with
    | 0 => st.lastDisc = -1
    | j + 1 => st.prev = ds.getD j 0 ∧ st.lastDisc = zeroFrom ds (ds.getD j 0) 0 64 (-1)

/-- The search is steered to the device that is next in the order (42_search R307, R316). -/
theorem ready_steers (hs : InOrder ds) {k : Nat} (hk : k < ds.length) {t0 f} {st : SearchState} (h : Ready ds k t0 f st) :
    Steers ds ds[k] st := by
  intro i hi hd
  obtain ⟨x, hx, hxa, hxb⟩ := branch_off (List.getElem_mem hk) hd
  obtain ⟨j, hj, rfl⟩ := List.mem_iff_getElem.1 hx
  cases k with
  | zero =>
    have hl : st.lastDisc = -1 := h.2.2.2
    unfold discrepancyBit
    rw [hl, if_neg (by omega), if_pos (by omega)]
    by_contra hc
    have hc' : ds[0].getLsbD i = true := by cases e : ds[0].getLsbD i <;> simp_all
    rw [hc'] at hxb
    have a : Before ds[j] ds[0] := ⟨i, hi, hxa, hxb, hc'⟩
    rw [sorted_index hs hj hk] at a
    omega
  | succ k =>
    obtain ⟨p, hp, hz, h1, h2, h3⟩ := zero_next hs hk
    have hprev : st.prev = ds[k] := by rw [h.2.2.2.1, List.getD_eq_getElem _ _ (by omega)]
    have hl : st.lastDisc = (p : Int) := by rw [h.2.2.2.2, List.getD_eq_getElem _ _ (by omega), hz]
    unfold discrepancyBit
    rw [hl, hprev]
    by_cases e : i = p
    · subst e; rw [if_pos rfl, h3]
    · rw [if_neg (by omega)]
      by_cases hlt : p < i
      · rw [if_pos (by omega)]
        by_contra hc
        have hc' : ds[k+1].getLsbD i = true := by cases e : ds[k+1].getLsbD i <;> simp_all
        rw [hc'] at hxb
        have a1 : Before ds[j] ds[k+1] := ⟨i, hi, hxa, hxb, hc'⟩
        have a2 : Before ds[k] ds[j] := ⟨p, hp, fun q hq => by rw [hxa q (by omega), h1 q hq], h2, by rw [hxa p hlt, h3]⟩
        rw [sorted_index hs hj hk] at a1
        rw [sorted_index hs (by omega) hj] at a2
        omega
      · rw [if_neg (by omega)]
        exact h1 i (by omega)

/-- What the last reset slot read, after n passes in which a device answered. -/
def pres (p : Option Bool) (n : Nat) : Option Bool := if n = 0 then p else some true

variable {s : State} {p : Option Bool} {ss : List Slot} {rest : List Bool} {ck : List Word} {st : SearchState}

/-- Its candidate has not been found before. -/
theorem acceptable_ready (hs : InOrder ds) {k : Nat} (hk : k < ds.length) {t0 f} (h : Ready ds k t0 f st) :
    acceptable s { st with rom := ds[k] } = true ↔ goodId s ds[k] := by
  have hn : ds[k] ∉ ds.take k := by
    intro hm
    obtain ⟨j, hj, he⟩ := List.mem_iff_getElem.1 hm
    rw [List.getElem_take] at he
    have := (List.pairwise_iff_getElem.1 hs) j k (by simp at hj; omega) hk (by simp at hj; omega)
    rw [he] at this; omega
  have hf : st.found = ds.take k := h.1
  simp [acceptable, goodId, hf, hn]

/-- One good pass that does not end the search. -/
theorem pass_good {m : SearchMode} {l : Latch} {t : Word} {t0 f} (hq : s.host = []) (hs : InOrder ds)
    {k : Nat} (hk : k < ds.length) (hg : goodId s ds[k]) (h : Ready ds k t0 f st)
    (ht : deadlinePassed t0 (ticks s.params l s.params.searchTimeoutMs) t = false) :
    searchPass m l (walked s p ss (false :: (walkAnswers ds ds[k] 64 ++ rest)) (t :: ck) st) =
      .ok (true, walked s (some true) (ss ++ (searchStart s.params m ++ walkSlots ds ds[k] 64)) rest ck
        { st with rom := ds[k], lastZero := zeroFrom ds ds[k] 0 64 (-1) }) := by
  rw [searchPass_walk hq (List.getElem_mem hk) (ready_steers hs hk h) (by rw [h.2.1]; exact ht),
      (acceptable_ready hs hk h).2 hg]

theorem goodAnswers_succ {n : Nat} (hn : n < ds.length) : goodAnswers ds (n + 1) =
    goodAnswers ds n ++ (false :: walkAnswers ds ds[n] 64) := by
  rw [goodAnswers, List.take_add_one, List.getElem?_eq_getElem hn, List.flatMap_append]; simp [goodAnswers]

theorem goodSlots_succ {pr : Params} {m} {n : Nat} (hn : n < ds.length) : goodSlots pr m ds (n + 1) =
    goodSlots pr m ds n ++ (searchStart pr m ++ walkSlots ds ds[n] 64) := by
  rw [goodSlots, List.take_add_one, List.getElem?_eq_getElem hn, List.flatMap_append]; simp [goodSlots]

/-- n good passes, none of which is the last. -/
theorem passes_good {m : SearchMode} {l : Latch} {t0 f} (hq : s.host = []) (hs : InOrder ds)
    (n N : Nat) (hn : n < ds.length ∨ n = 0) (hmax : n ≤ s.params.maxDevices) (hg : ∀ id ∈ ds.take n, goodId s id)
        (h : Ready ds 0 t0 f st)
    (ts : List Word) (htl : ts.length = n) (ht : ∀ t ∈ ts,
        deadlinePassed t0 (ticks s.params l s.params.searchTimeoutMs) t = false) :
    ∃ st', Ready ds n t0 f st' ∧
      searchPasses m l (n + N) (walked s p ss (goodAnswers ds n ++ rest) (ts ++ ck) st) =
        searchPasses m l N (walked s (pres p n) (ss ++ goodSlots s.params m ds n) rest ck st') := by
  induction n generalizing N rest ck ts with
  | zero =>
    obtain rfl := List.eq_nil_of_length_eq_zero htl
    exact ⟨st, h, by simp [goodAnswers, goodSlots, pres]⟩
  | succ n ih =>
    have hn' : n + 1 < ds.length := by omega
    have hlt : n < ds.length := by omega
    obtain ⟨ts', t, rfl⟩ : ∃ ts' t, ts = ts' ++ [t] := by
      refine ⟨ts.dropLast, ts.getLast (by intro e; simp [e] at htl), (List.dropLast_append_getLast _).symm⟩
    obtain ⟨st', hr, he⟩ := ih (N + 1) (rest := false :: (walkAnswers ds ds[n] 64 ++ rest)) (ck := t :: ck) (.inl hlt)
        (by omega)
      (fun id hid => hg id ((List.take_sublist_take_left (by omega)).subset hid)) ts' (by simpa using htl)
          (fun x hx => ht x (by simp [hx]))
    have hgn : goodId s ds[n] := hg _ (List.mem_take_iff_getElem.2 ⟨n, by omega, rfl⟩)
    refine ⟨{ st' with
      rom := ds[n], lastZero := zeroFrom ds ds[n] 0 64 (-1), found := st'.found ++ [ds[n]], prev := ds[n]
      lastDisc := zeroFrom ds ds[n] 0 64 (-1) }, ?_, ?_⟩
    · refine ⟨?_, hr.2.1, hr.2.2.1, ?_, ?_⟩
      · show st'.found ++ [ds[n]] = _
        rw [hr.1, List.take_add_one, List.getElem?_eq_getElem hlt]; rfl
      · rw [List.getD_eq_getElem _ _ hlt]
      · rw [List.getD_eq_getElem _ _ hlt]
    · rw [goodAnswers_succ hlt, show n + 1 + N = n + (N + 1) by omega]
      have e1 : goodAnswers ds n ++ (false :: walkAnswers ds ds[n] 64) ++ rest =
          goodAnswers ds n ++ (false :: (walkAnswers ds ds[n] 64 ++ rest)) := by simp
      have e2 : ts' ++ [t] ++ ck = ts' ++ t :: ck := by simp
      rw [e1, e2, he, searchPasses, seq_bind_ok (pass_good hq hs hlt hgn hr (ht t (by simp)))]
      simp only [if_true]
      have hlen : st'.found.length = n := by rw [hr.1]; simp; omega
      obtain ⟨z, hz, hze, _⟩ := zero_next hs hn'
      rw [seq_bind, searchKeep_walked hq (by show st'.found.length ≤ _; omega)]
      have hzz : ¬ zeroFrom ds ds[n] 0 64 (-1) = -1 := by rw [hze]; omega
      rw [if_neg (by show ¬ st'.found.length = _; omega), if_neg hzz]
      show searchPasses m l N _ = _
      rw [List.append_assoc, ← goodSlots_succ hlt]
      rfl

/-- A failed enumeration (42_search R306, R308): the passes end, and the search is as before its first pass once found and
lastDisc are cleared. -/
theorem run_failed {m : SearchMode} {l : Latch} {t0 f} (hq : s.host = []) (r : FailedRun) (hr : r.Ok s m)
    (h : Ready [] 0 t0 f st) (hf : st.found = [])
    (ts : List Word) (htl : ts.length = r.good + 1) (ht : ∀ t ∈ ts,
        deadlinePassed t0 (ticks s.params l s.params.searchTimeoutMs) t = false) :
    ∃ st', Ready [] 0 t0 f { st' with found := [], lastDisc := -1 } ∧
      searchPasses m l (s.params.maxDevices + 1) (walked s p ss (r.answers ++ rest) (ts ++ ck) st) =
        .ok ((), walked s (some true) (ss ++ r.slots s.params m) rest ck st') := by
  obtain ⟨ds, good, failure⟩ := r
  obtain ⟨⟨_, hs, hg⟩, hlt, hmax, hfail⟩ := hr
  simp only at hs hg hlt hmax hfail htl
  obtain ⟨ts', t, rfl⟩ : ∃ ts' t, ts = ts' ++ [t] :=
    ⟨ts.dropLast, ts.getLast (by intro e; simp [e] at htl), (List.dropLast_append_getLast _).symm⟩
  have h0 : Ready ds 0 t0 f st := ⟨by simpa using hf, h.2⟩
  have hnext : FailedRun.next ⟨ds, good, failure⟩ = ds[good] := List.getD_eq_getElem _ _ hlt
  have go : ∀ (B : List Bool), ∃ st', Ready ds good t0 f st' ∧
      searchPasses m l (s.params.maxDevices + 1) (walked s p ss (goodAnswers ds good ++ B) (ts' ++ t :: ck) st) =
        searchPasses m l (s.params.maxDevices + 1 - good) (walked s (pres p good) (ss ++ goodSlots s.params m ds good)
            B (t :: ck) st') := by
    intro B
    have := passes_good (p := p) (ss := ss) (rest := B) (ck := t :: ck) (m := m) (l := l) hq hs good
        (s.params.maxDevices + 1 - good) (.inl hlt) hmax hg h0 ts' (by simpa using htl)
        (fun x hx => ht x (by simp [hx]))
    rwa [show good + (s.params.maxDevices + 1 - good) = s.params.maxDevices + 1 by omega] at this
  obtain ⟨M, hM⟩ : ∃ M, s.params.maxDevices + 1 - good = M + 1 := ⟨s.params.maxDevices - good, by omega⟩
  have ht' := ht t (by simp)
  have e2 : ts' ++ [t] ++ ck = ts' ++ t :: ck := by simp
  have stop : ∀ (st1 : SearchState) (new : List Slot) (B : List Bool) (st2 : SearchState),
      searchPass m l (walked s (pres p good) (ss ++ goodSlots s.params m ds good) B (t :: ck) st1) =
          .ok (false, walked s (some true) (ss ++ goodSlots s.params m ds good ++ new) rest ck st2) →
      searchPasses m l (M + 1) (walked s (pres p good) (ss ++ goodSlots s.params m ds good) B (t :: ck) st1) =
          .ok ((), walked s (some true) (ss ++ goodSlots s.params m ds good ++ new) rest ck st2) := by
    intro st1 new B st2 hp
    rw [searchPasses, seq_bind_ok hp]; rfl
  have ready : ∀ (st1 st2 : SearchState), Ready ds good t0 f st1 → st2.start = st1.start → st2.failures =
      st1.failures → Ready [] 0 t0 f { st2 with found := [], lastDisc := -1 } :=
    fun st1 st2 h1 e1 e2 => ⟨rfl, e1.trans h1.2.1, e2.trans h1.2.2.1, rfl⟩
  cases failure with
  | aborted n =>
    simp only [FailedRun.answers, FailedRun.slots, hnext]
    obtain ⟨st1, hr1, he1⟩ := go (false :: (walkAnswers ds ds[good] n ++ [true, true] ++ rest))
    obtain ⟨rom, z, hp⟩ := searchPass_aborted (s := s) (p := pres p good) (ss := ss ++ goodSlots s.params m ds good)
        (rest := rest) (ck := ck) (st := st1) (m := m) (l := l) (t := t) (ds := ds) (id := ds[good]) (n := n) hq
        (List.getElem_mem hlt)
      (.inr (ready_steers hs hlt hr1)) hfail.1 (by
        intro rom z
        have hne := hfail.2
        have hfo : st1.found = ds.take good := hr1.1
        by_contra hc
        apply hne
        simp only [noAlarm, Bool.not_eq_false, Bool.and_eq_true, beq_iff_eq, List.isEmpty_iff] at hc
        refine ⟨hc.1.1.1, ?_, hc.1.1.2⟩
        have := hc.1.2
        rw [hfo, List.take_eq_nil_iff] at this
        rcases this with h | h
        · exact h
        · rw [h] at hlt; simp at hlt) (by rw [hr1.2.1]; exact ht')
    refine ⟨{ st1 with rom := rom, lastZero := z }, ready st1 _ hr1 rfl rfl, ?_⟩
    rw [e2]
    have e3 : goodAnswers ds good ++ (false :: (walkAnswers ds ds[good] n ++ [true, true])) ++ rest =
        goodAnswers ds good ++ (false :: (walkAnswers ds ds[good] n ++ [true, true] ++ rest)) := by simp
    rw [e3, he1, hM, stop st1 _ _ _ hp]
    simp
  | refused =>
    simp only [FailedRun.answers, FailedRun.slots, hnext]
    obtain ⟨st1, hr1, he1⟩ := go (false :: (walkAnswers ds ds[good] 64 ++ rest))
    have hp := searchPass_walk (s := s) (p := pres p good) (ss := ss ++ goodSlots s.params m ds good) (rest := rest)
        (ck := ck) (st := st1) (m := m) (l := l) (t := t) (ds := ds) (id := ds[good]) hq (List.getElem_mem hlt)
      (ready_steers hs hlt hr1) (by rw [hr1.2.1]; exact ht')
    have hac : acceptable s { st1 with rom := ds[good] } = false := by
      rw [Bool.eq_false_iff]
      intro hc
      exact hfail (by rw [hnext]; exact (acceptable_ready hs hlt hr1).1 hc)
    rw [hac] at hp
    refine ⟨{ st1 with rom := ds[good], lastZero := zeroFrom ds ds[good] 0 64 (-1) }, ready st1 _ hr1 rfl rfl, ?_⟩
    rw [e2]
    have e3 : goodAnswers ds good ++ (false :: (walkAnswers ds ds[good] 64)) ++ rest =
        goodAnswers ds good ++ (false :: (walkAnswers ds ds[good] 64 ++ rest)) := by simp
    rw [e3, he1, hM, stop st1 _ _ _ hp]
    simp
  | alone id =>
    simp only [FailedRun.answers, FailedRun.slots]
    obtain ⟨st1, hr1, he1⟩ := go (false :: (walkAnswers [id] id 64 ++ rest))
    have hp := searchPass_walk (s := s) (p := pres p good) (ss := ss ++ goodSlots s.params m ds good) (rest := rest)
        (ck := ck) (st := st1) (m := m) (l := l) (t := t) (ds := [id]) (id := id) hq (by simp)
      (fun i hi hd => by
        obtain ⟨x, hx, _, hb⟩ := branch_off (ds := [id]) (id := id) (by simp) hd
        simp at hx; subst hx
        cases h : x.getLsbD i <;> rw [h] at hb <;> simp at hb) (by rw [hr1.2.1]; exact ht')
    have hac : acceptable s { st1 with rom := id } = false := by
      rw [Bool.eq_false_iff]
      intro hc
      have hfo : st1.found = ds.take good := hr1.1
      simp only [acceptable, Bool.and_eq_true, beq_iff_eq, Bool.not_eq_true', List.contains_eq_mem,
          decide_eq_false_iff_not, hfo] at hc
      rcases hfail with hf1 | hf1
      · exact hf1 hc.1
      · exact hc.2 hf1
    rw [hac] at hp
    refine ⟨{ st1 with rom := id, lastZero := zeroFrom [id] id 0 64 (-1) }, ready st1 _ hr1 rfl rfl, ?_⟩
    rw [e2]
    have e3 : goodAnswers ds good ++ (false :: (walkAnswers [id] id 64)) ++ rest =
        goodAnswers ds good ++ (false :: (walkAnswers [id] id 64 ++ rest)) := by simp
    rw [e3, he1, hM, stop st1 _ _ _ hp]
    simp

/-- Failed enumerations, one after the other, with tries left (42_search R309). -/
theorem runs_failed {m : SearchMode} {l : Latch} {t0} (hq : s.host = []) (rs : List FailedRun) (f : Nat)
    (hr : ∀ r ∈ rs, r.Ok s m) (h : Ready [] 0 t0 f st) (N : Nat)
    (hf : f + rs.length < s.params.searchRepeat)
    (ts : List Word) (htl : ts.length = (rs.map fun r => r.good + 1).sum) (ht : ∀ t ∈ ts,
        deadlinePassed t0 (ticks s.params l s.params.searchTimeoutMs) t = false) :
    ∃ st', Ready [] 0 t0 (f + rs.length) st' ∧
      searchRuns m l (rs.length + N) (walked s p ss (rs.flatMap FailedRun.answers ++ rest) (ts ++ ck) st) =
        searchRuns m l N (walked s (pres p rs.length) (ss ++ rs.flatMap (FailedRun.slots s.params m)) rest ck st') := by
  induction rs generalizing f p ss st ts with
  | nil =>
    obtain rfl := List.eq_nil_of_length_eq_zero htl
    exact ⟨st, h, by simp [pres]⟩
  | cons r rs ih =>
    simp only [List.map_cons, List.sum_cons] at htl
    simp only [List.length_cons] at hf
    have e1 : ts = ts.take (r.good + 1) ++ ts.drop (r.good + 1) := (List.take_append_drop _ _).symm
    obtain ⟨st1, hr1, he1⟩ := run_failed (p := p) (ss := ss) (rest := rs.flatMap FailedRun.answers ++ rest)
        (ck := ts.drop (r.good + 1) ++ ck) (m := m) (l := l) hq r (hr r (by simp)) h (by simpa using h.1)
      (ts.take (r.good + 1)) (by rw [List.length_take]; omega) (fun x hx => ht x (List.mem_of_mem_take hx))
    obtain ⟨st2, hr2, he2⟩ := ih (f := f + 1) (p := some true) (ss := ss ++ r.slots s.params m)
        (st := { st1 with failures := st1.failures + 1, found := [], lastDisc := -1, prev := 0 })
        (fun x hx => hr x (by simp [hx]))
      ⟨rfl, hr1.2.1, by show st1.failures + 1 = _; rw [show st1.failures = f from hr1.2.2.1], rfl⟩ (by omega)
          (ts.drop (r.good + 1)) (by rw [List.length_drop]; omega) (fun x hx => ht x (List.mem_of_mem_drop hx))
    refine ⟨st2, by rw [show f + (r :: rs).length = f + 1 + rs.length by simp; omega]; exact hr2, ?_⟩
    rw [show (r :: rs).length + N = (rs.length + N) + 1 by simp; omega, searchRuns, seq_get_bind, walked_params]
    have e3 : (r :: rs).flatMap FailedRun.answers ++ rest = r.answers ++ (rs.flatMap FailedRun.answers ++ rest) := by simp
    have e4 : ts ++ ck = ts.take (r.good + 1) ++ (ts.drop (r.good + 1) ++ ck) := by rw [← List.append_assoc, ← e1]
    rw [e3, e4, seq_bind_ok he1, seq_bind_ok (setSearch_walked _), seq_get_bind, walked_searchOf, walked_params]
    have hlt : st1.failures + 1 < s.params.searchRepeat := by rw [show st1.failures = f from hr1.2.2.1]; omega
    rw [decide_eq_true hlt]
    show (pure () >>= _ : Seq Unit) _ = _
    rw [seq_pure_bind, seq_bind_ok (setSearch_walked _)]
    refine he2.trans ?_
    have e5 : pres (some true) rs.length = pres p (r :: rs).length := by simp [pres]
    rw [e5]
    simp

/-- As many failed enumerations as there are tries: INTEGRITY (42_search R309). -/
theorem runs_integrity {m : SearchMode} {l : Latch} {t0} (hq : s.host = []) (rs : List FailedRun) (hne : rs ≠ [])
    (f : Nat) (hr : ∀ r ∈ rs, r.Ok s m) (h : Ready [] 0 t0 f st) (N : Nat)
    (hf : f + rs.length = s.params.searchRepeat)
    (ts : List Word) (htl : ts.length = (rs.map fun r => r.good + 1).sum) (ht : ∀ t ∈ ts,
        deadlinePassed t0 (ticks s.params l s.params.searchTimeoutMs) t = false) :
    ∃ st', searchRuns m l (rs.length + N) (walked s p ss (rs.flatMap FailedRun.answers ++ rest) (ts ++ ck) st) =
        .error (.next (errorEnd .integrity 0
            (withRomtab [] (walked s (some true) (ss ++ rs.flatMap (FailedRun.slots s.params m)) rest ck st')))) := by
  obtain ⟨rs', r, rfl⟩ : ∃ rs' r, rs = rs' ++ [r] := ⟨rs.dropLast, rs.getLast hne, (List.dropLast_append_getLast _).symm⟩
  simp only [List.map_append, List.sum_append, List.map_cons, List.map_nil, List.sum_cons, List.sum_nil,
      List.length_append, List.length_cons, List.length_nil] at htl hf
  obtain ⟨st1, hr1, he1⟩ := runs_failed (p := p) (ss := ss) (rest := r.answers ++ rest)
      (ck := ts.drop ((rs'.map fun r => r.good + 1).sum) ++ ck) (m := m) (l := l) hq rs' f
      (fun x hx => hr x (by simp [hx])) h (N + 1) (by omega)
    (ts.take ((rs'.map fun r => r.good + 1).sum)) (by rw [List.length_take]; omega)
        (fun x hx => ht x (List.mem_of_mem_take hx))
  obtain ⟨st2, hr2, he2⟩ := run_failed (p := pres p rs'.length) (ss := ss ++ rs'.flatMap (FailedRun.slots s.params m))
      (rest := rest) (ck := ck) (m := m) (l := l) hq r (hr r (by simp)) hr1 (by simpa using hr1.1)
      (ts.drop ((rs'.map fun r => r.good + 1).sum)) (by rw [List.length_drop]; omega)
          (fun x hx => ht x (List.mem_of_mem_drop hx))
  refine ⟨{ st2 with failures := st2.failures + 1 }, ?_⟩
  · have e3 : (rs' ++ [r]).flatMap FailedRun.answers ++ rest =
        rs'.flatMap FailedRun.answers ++ (r.answers ++ rest) := by simp
    have e4 : ts ++ ck = ts.take ((rs'.map fun r => r.good + 1).sum) ++ (ts.drop ((rs'.map fun r => r.good + 1).sum)
        ++ ck) := by rw [← List.append_assoc, List.take_append_drop]
    rw [e3, e4, show (rs' ++ [r]).length + N = rs'.length + (N + 1) by simp; omega, he1, searchRuns, seq_get_bind,
      walked_params, seq_bind_ok he2, seq_bind_ok (setSearch_walked _), seq_get_bind, walked_searchOf, walked_params]
    have hge : ¬ st2.failures + 1 <
        s.params.searchRepeat := by rw [show st2.failures = f + rs'.length from hr2.2.2.1]; omega
    rw [decide_eq_false hge]
    rw [show (ss ++ rs'.flatMap (FailedRun.slots s.params m) ++ r.slots s.params m) =
        ss ++ (rs' ++ [r]).flatMap (FailedRun.slots s.params m) by simp]
    exact seq_bind_error (searchFail_eq (by simpa using hq))

/-- A search from its start. -/
theorem search_start {m : SearchMode} {l : Latch} {t0} {ts : List Word} (h : BusReady s l) (hc : s.clockIn = t0 :: ts) :
    searchRule m l s = searchRuns m l s.params.searchRepeat (walked s none [] s.bus ts (freshSearch t0)) := by
  rw [searchRule_start m s l t0 ts h hc]; rfl

/-- All passes so far, as far as the last run has gone. -/
theorem passes_made {m : SearchMode} {l : Latch} {t0} {ts later : List Word} {ps : SearchPasses} (h : BusReady s l)
    (hm : ps.Made s m l t0 ts) (hf : ps.failed.length < s.params.searchRepeat)
   (n : Nat) (hn : n < ps.devices.length ∨ n = 0) (hmax : n ≤ s.params.maxDevices) (hle : n ≤ ps.good)
   (hc : s.clockIn = t0 :: (ts ++ later)) (hb : s.bus =
       ps.failed.flatMap FailedRun.answers ++ (goodAnswers ps.devices n ++ rest)) :
   ∃ (ts' : List Word) (st : SearchState) (N M : Nat), ts'.length = ps.good - n ∧ (∀ t ∈ ts', t ∈ ts) ∧
       Ready ps.devices n t0 ps.failed.length st ∧ s.params.maxDevices + 1 = n + (M + 1) ∧
     searchRule m l s = (searchPasses m l (M + 1) >>= fun _ => do
        setSearch fun st => { st with failures := st.failures + 1 }
        let s ← get
        searchRequire (decide ((searchOf s).failures < s.params.searchRepeat)) .integrity
        setSearch fun st => { st with found := [], lastDisc := -1, prev := 0 }
        searchRuns m l N : Seq Unit) (walked s (pres none (ps.failed.length + n))
            (ps.failed.flatMap (FailedRun.slots s.params m) ++ goodSlots s.params m ps.devices n) rest (ts' ++ later)
            st) := by
  have hq := h.quiet
  obtain ⟨N, hN⟩ : ∃ N, s.params.searchRepeat = ps.failed.length + (N + 1) :=
      ⟨s.params.searchRepeat - ps.failed.length - 1, by omega⟩
  have hl := hm.readings
  unfold SearchPasses.count at hl
  obtain ⟨k, hk⟩ : ∃ k, k = (ps.failed.map fun r => r.good + 1).sum := ⟨_, rfl⟩
  rw [← hk] at hl
  obtain ⟨st1, hr1, he1⟩ := runs_failed (p := none) (ss := []) (rest := goodAnswers ps.devices n ++ rest)
      (ck := ts.drop k ++ later) (m := m) (l := l) (st := freshSearch t0) (t0 := t0) hq ps.failed 0 hm.failed ⟨rfl,
      rfl, rfl, rfl⟩ (N + 1) (by omega)
    (ts.take k) (by rw [List.length_take]; omega) (fun x hx => hm.inTime x (List.mem_of_mem_take hx))
  have h0 : Ready ps.devices 0 t0 (0 + ps.failed.length) st1 := ⟨by simpa using hr1.1, hr1.2⟩
  obtain ⟨M, hM⟩ : ∃ M, s.params.maxDevices + 1 = n + (M + 1) := ⟨s.params.maxDevices - n, by omega⟩
  obtain ⟨st2, hr2, he2⟩ := passes_good (p := pres none ps.failed.length)
      (ss := [] ++ ps.failed.flatMap (FailedRun.slots s.params m)) (rest := rest) (ck := (ts.drop k).drop n ++ later)
      (m := m) (l := l) hq hm.good.2.1 n (M + 1) hn hmax
    (fun id hid => hm.good.2.2 id ((List.take_sublist_take_left hle).subset hid)) h0 ((ts.drop k).take n)
        (by rw [List.length_take, List.length_drop]; omega)
        (fun x hx => hm.inTime x (List.mem_of_mem_drop (List.mem_of_mem_take hx)))
  refine ⟨(ts.drop k).drop n, st2, N, M, by rw [List.length_drop, List.length_drop]; omega,
    fun t ht => List.mem_of_mem_drop (List.mem_of_mem_drop ht), by simpa using hr2, hM, ?_⟩
  have e4 : ts ++ later = ts.take k ++ (ts.drop k ++ later) := by rw [← List.append_assoc, List.take_append_drop]
  have e5 : ts.drop k ++ later =
      (ts.drop k).take n ++ ((ts.drop k).drop n ++ later) := by rw [← List.append_assoc, List.take_append_drop]
  rw [search_start h hc, hb, hN, e4, he1, e5, searchRuns, seq_get_bind, walked_params, hM]
  have e6 : pres (pres none ps.failed.length) n = pres none (ps.failed.length + n) := by
    unfold pres; by_cases a : n = 0 <;> by_cases b : ps.failed.length = 0 <;> simp [a, b]
  rw [seq_bind, he2, seq_bind, e6, List.nil_append]

end Sys2Proof.Machine
end

