-- ==== Sys2Proof/Tests/Slice0.lean ====
section
/-! SUPPORT. The model's own tests: ill-formed words, words written out from the spec, one step of every command against
the vectors of 95_test_vectors (V<n>), and for every statement with hypotheses a state and operands that meet them. -/

namespace Sys2Proof.Tests

open Sys2Proof.Machine

/-! ## States -/

/-- Slot delays of a made-up profile. -/
def profile : Profile := ⟨6000, 64000, 60000, 10000, 9000, 55000, 480000, 70000, 0, 410000⟩

/-- Parameters with made-up numbers where 00_scope R11 says OPEN: 8 pins, the window at 0x1000, budgets of 1 ms and 1 s. -/
def params : Params :=
  { Config.params with
    pinCountPred := 7, blockBase := 0x1000, foscDefault := 2000, foscLegal := by decide, convTimeoutMs := 1
    eeTimeoutMs := 1, fakeWindowMs := 1, searchTimeoutMs := 1000, standardTp := profile, highTp := profile
    overloadTp := profile }

/-- Reset, with these parameters. -/
def fresh : State := { State.reset with params := params }

/-- The bus is configured for pin 0 at standard speed, and FOSC is that of 95_test_vectors. -/
def idle : State := { fresh with busCfg := ⟨.standard, 0, true⟩, fosc := 80000000 }

/-- The operand registers. -/
def args (a0 a1 a2 : Word) (s : State) : State := { s with arg0 := a0, arg1 := a1, arg2 := a2 }

/-- The target registers. -/
def target (id : RomId) (s : State) : State := { s with targetLo := id.setWidth 32, targetHi := id.extractLsb' 32 32 }

/-- The answers of the bus environment. -/
def bus (b : List Bool) (s : State) : State := { s with bus := b }

/-- The readings of the clock. -/
def clock (t : List Word) (s : State) : State := { s with clockIn := t }

/-- A command has been accepted. -/
def running (i : Instr) (s : State) : State := accept (encode i) s

/-- A command has been accepted and has gone as far as a poll with budget 100 that began at tick 0. -/
def polling (i : Instr) (pos : SeqPos) (s : State) : State :=
  { running i s with
    pos := pos, poll := some { start := 0, budget := 100 }, capture := some { th := 0x4B, tl := 0x46, cf := 0x7F } }

/-- The state after a step; a stop gives a state no test expects. -/
def after (o : Halt) : State :=
  match o with
  | .next t => t
  | _ => { State.reset with lcmd := 0xDEAD }

/-- STATUS and RESULT0 after one step of a command. -/
def ends (i : Instr) (s : State) : Word × Word :=
  let t := after (step (running i s))
  (statusWord t.status, t.result0)

/-- How many slots the line has seen. -/
def slotCount (s : State) : Nat := (s.line.filter fun e => match e with | .low _ => true | _ => false).length

/-- The RAM bytes from an offset on. -/
def bytesAt (s : State) (off n : Nat) : List Byte := (ramBytes off n s).1

/-- The ids S1, S2 and S3 of 95_test_vectors. -/
def s1 : RomId := 0x2900000000000128
def s2 : RomId := 0x7000000000000228
def s3 : RomId := 0x4700000000000328

/-! ## Well-formedness: one ill-formed word for each check -/

theorem test_opcode_refused : (commandFields 0x00000003).opcodeOk = false := by decide
theorem test_reserved_refused : (commandFields 0x00000232).reservedOk = false := by decide
theorem test_mode_refused : (commandFields 0x00000112).modeOk = false := by decide

/-! ## Parameters (00_scope R11, V17) -/

theorem test_params_fosc :
    (Params.ofNumbers? Config.params 4 16 1 3 3 2 1999).isNone = true ∧
      ((Params.ofNumbers? Config.params 4 16 1 3 3 2 2000).map Params.foscDefault) = some 2000 := by
  decide

theorem test_params_capacity :
    (Params.ofNumbers? Config.params 9 16 1 3 3 2 2000).isNone = true ∧
      (Params.ofNumbers? Config.params 8 65 1 3 3 2 2000).isNone = true := by
  decide

/-! ## Decoding: words from the opcode map (30_encoding R144) and V19 -/

theorem test_decode_crc : decode 0x00000002 = some .crcCalc ∧ decode 0x00000003 = none := by decide
theorem test_decode_transport : decode 0x00000011 = some .owSpeed ∧ decode 0x00000017 = some .owWmulti := by decide
theorem test_decode_search : decode 0x00000120 = some (.owSearch .alarmed) := by decide
theorem test_decode_session : decode 0x00000134 = some (.tsReadtemp .multi) ∧ decode 0x00000036 = some (.tsSave .single) := by
  decide
theorem test_decode_names_the_check :
    decodeNamed 0x000000FF = .error .opcode ∧ decodeNamed 0x00000132 = .error .mode ∧
      decodeNamed 0x80000001 = .error .reserved := ⟨rfl, rfl, rfl⟩

/-! ## One step of each command -/

/-- V9, row 6. -/
theorem test_crcReg :
    let t := after (step (running .crcReg (args 0x8005 16 3 fresh)))
    t.result0 = 1 ∧ statusWord t.status = 0x00004002 ∧ crcCfgWord t.registry 1 = 0x80000310 ∧
      (t.registry.map fun sl => sl.table.getD 0x80 0) = [0x7A, 0x8303] := by
  decide +kernel

/-- V9, row 4. -/
theorem test_crcReg_duplicate : ends .crcReg (args 0x31 16 0 fresh) = (0x00005302, 0) := by decide +kernel

/-- V1. -/
theorem test_crcCalc :
    ends .crcCalc (args 0x31 0 9
      (storeBytes 0x100 [0x31, 0x32, 0x33, 0x34, 0x35, 0x36, 0x37, 0x38, 0x39] fresh)) = (0x00004002, 0xA1) := by
  decide +kernel

/-- V8: an exact sum, no wrap. -/
theorem test_crcCalc_range : ends .crcCalc (args 0x31 1 0xFFFFFFFF fresh) = (0x00005502, 0xFF) := by decide +kernel

/-- V18, step 4. -/
theorem test_owCfgbus : busCfgWord (after (step (running .owCfgbus (args 5 2 0 fresh)))).busCfg = 0x00010502 := by
  decide +kernel

/-- V18, step 2, with 8 pins. -/
theorem test_owCfgbus_pin : ends .owCfgbus (args 8 0 0 fresh) = (0x00005602, 0) := by decide +kernel

/-- V18, step 6. -/
theorem test_owSpeed :
    busCfgWord (after (step (running .owSpeed
      (args 0 0 0 { fresh with busCfg := ⟨.overload, 5, true⟩ })))).busCfg = 0x00010500 := by
  decide +kernel

/-- V18, step 5: the whole word is compared. -/
theorem test_owSpeed_word : ends .owSpeed (args 0x100 0 0 idle) = (0x00005B02, 0) := by decide +kernel

/-- V18, step 8: an empty line. -/
theorem test_owReset_empty : ends .owReset (bus [true] idle) = (0x00004002, 0) := by decide +kernel

/-- V18, step 9: one device. -/
theorem test_owReset_device : ends .owReset (bus [false] idle) = (0x00004026, 1) := by decide +kernel

/-- V18, step 10, with the wave of 41_bus R253. -/
theorem test_owWbit :
    (after (step (running .owWbit (args 0xFFFFFFFE 0 0 idle)))).line = [.delay 10000, .release 0, .delay 60000, .low 0] := by
  decide +kernel

/-- V18, step 14. -/
theorem test_owRbit : ends .owRbit (bus [true] idle) = (0x00004022, 1) := by decide +kernel

/-- V18, step 12: A0[31:8] does not count; bit 0 goes first. -/
theorem test_owWbyte :
    (after (step (running .owWbyte (args 0x1BE 0 0 idle)))).line =
      (traffic idle ([false, true, true, true, true, true, false, true].map .write)).reverse := by
  decide +kernel

/-- V18, step 13. -/
theorem test_owRbyte :
    ends .owRbyte (bus [true, false, true, false, false, false, false, false] idle) = (0x00004002, 5) := by
  decide +kernel

/-- V18, step 15. -/
theorem test_owWmulti_range : ends .owWmulti (args 250 7 0 idle) = (0x00005B02, 0) := by decide +kernel

/-- V18, step 16: bytes in increasing offset order. -/
theorem test_owWmulti :
    (after (step (running .owWmulti (args 249 7 0 (storeBytes 0x1F9 [1, 2, 3, 4, 5, 6, 7] idle))))).line =
      (traffic idle (sent [1, 2, 3, 4, 5, 6, 7])).reverse := by
  decide +kernel

/-- V18, step 18. -/
theorem test_owRmulti :
    bytesAt (after (step (running .owRmulti (args 0 9 0 (bus (List.replicate 72 true) idle))))) 0x100 9 =
      List.replicate 9 0xFF := by
  decide +kernel

/-- V18, step 19 for the other direction: the bus is checked even when there is no byte. -/
theorem test_owRmulti_unconfigured : ends .owRmulti (args 0 0 0 fresh) = (0x00005602, 0) := by decide +kernel

/-- The answers of a pass that finds an id, with discrepancies at the given ROM bits. -/
def passOf (id : RomId) (discrepancies : List Nat) : List Bool :=
  false :: (List.range 64).flatMap fun i => if i ∈ discrepancies then [false, false] else [id.getLsbD i, !id.getLsbD i]

/-- V20: three devices, in the order of the table. -/
theorem test_owSearch :
    let t := after (step (running (.owSearch .all)
      (bus (passOf s2 [8] ++ passOf s1 [8, 9] ++ passOf s3 [8, 9]) (clock [0, 1, 2, 3] idle))))
    statusWord t.status = 0x00004006 ∧ t.result0 = 3 ∧ t.romCount = 3 ∧ slotCount t = 603 ∧
      bytesAt t 0x200 32 = romBytes s2 ++ romBytes s1 ++ romBytes s3 ++ List.replicate 8 0 := by
  decide +kernel

/-- V23: no device alarms. -/
theorem test_owSearch_noAlarm :
    let t := after (step (running (.owSearch .alarmed) (bus [false, true, true] (clock [0, 1] idle))))
    statusWord t.status = 0x00004006 ∧ t.romCount = 0 ∧ slotCount t = 11 := by
  decide +kernel

/-- V16, row 1. -/
theorem test_tsConfig :
    let t := after (step (running (.tsConfig .single) (args 12 30 0xFFFFFFF6 (target s1 (bus [false] idle)))))
    devCfgWord t.devCfg = 0x7FF61E1C ∧
      t.line = (traffic idle (.reset false :: sent ([0x55] ++ romBytes s1 ++ [0x4E, 0x1E, 0xF6, 0x7F]))).reverse := by
  decide +kernel

/-- V16, row 9: arguments first. -/
theorem test_tsConfig_argument : ends (.tsConfig .single) (args 8 30 0xFFFFFFF6 fresh) = (0x00005B02, 0) := by
  decide +kernel

/-- 43_session R358: reset, Skip ROM, Convert T. -/
theorem test_tsConvert :
    (after (step (running (.tsConvert .multi) (bus [false] idle)))).line =
      (traffic idle (.reset false :: sent [0xCC, 0x44])).reverse := by
  decide +kernel

/-- 43_session R359: the device is still busy. -/
theorem test_tsIsdone : ends .tsIsdone (bus [false] idle) = (0x00004002, 0) := by decide +kernel

/-- P3: the first poll slot reads 0, so the command goes on, and its result reads 0. -/
theorem test_tsConvread :
    ends (.tsConvread .single) (target s1 (bus [false, false] (clock [1000, 2000] idle))) = (0x00002005, 0) := by
  decide +kernel

/-- P3, variant: the deadline passes. -/
theorem test_tsConvread_timeout :
    statusWord (after (step (polling (.tsConvread .single) .poll
      (target s1 (bus [false] (clock [100] { idle with status.presence := true })))))).status = 0x00005A06 := by
  decide +kernel

/-- V10. -/
theorem test_tsReadtemp :
    let sp : List Byte := [0x50, 0x05, 0x4B, 0x46, 0x7F, 0xFF, 0x0C, 0x10, 0x1C]
    let t := after (step (running (.tsReadtemp .single) (target s1 (bus (readSpadAnswers sp) idle))))
    t.result0 = 1 ∧ t.result1 = 1 ∧
      bytesAt t 0x400 32 = sp ++ [1, 0, 0, 0x50, 0x05, 0, 0] ++ List.replicate 16 0 := by
  decide +kernel

/-- V13: presence and then nothing, three passes. -/
theorem test_tsReadtemp_integrity :
    let t := after (step (running (.tsReadtemp .single) (target s1 (bus
      ((List.range 3).flatMap fun _ => readSpadAnswers (List.replicate 9 0xFF)) idle))))
    statusWord t.status = 0x00005906 ∧ slotCount t = 459 ∧
      bytesAt t 0x400 32 = List.replicate 9 0xFF ++ List.replicate 23 0 := by
  decide +kernel

/-- V12. -/
theorem test_tsReadalarm :
    let sp : List Byte := [0x50, 0x05, 0x7D, 0xC9, 0x3F, 0xFF, 0x0C, 0x10, 0x07]
    bytesAt (after (step (running (.tsReadalarm .single) (target s1 (bus (readSpadAnswers sp) idle))))) 0x400 32 =
      sp ++ [1, 0x0A, 0, 0, 0, 0, 0, 0x7D, 0, 0, 0, 0xC9, 0xFF, 0xFF, 0xFF] ++ List.replicate 8 0 := by
  decide +kernel

/-- 43_session R369: the first poll slot reads 1. -/
theorem test_tsSave :
    let t := after (step (running (.tsSave .multi) (bus [false, true] (clock [0] idle))))
    statusWord t.status = 0x00004006 ∧
      t.line = (traffic idle (.reset false :: sent [0xCC, 0x48] ++ [.read true])).reverse := by
  decide +kernel

/-- 43_session R350, R352: a target of zero. -/
theorem test_tsSave_target : ends (.tsSave .single) idle = (0x00005802, 0) := by decide +kernel

/-- 43_session R370, R353: a later poll slot reads 1. -/
theorem test_tsRestore :
    statusWord (after (step (polling (.tsRestore .multi) .poll (bus [true] idle)))).status = 0x00004002 := by
  decide +kernel

/-- V15, genuine, with a device that is done at its first poll slot: 445 slots. -/
theorem test_tsIsfake :
    let sp : List Byte := [0x91, 0x01, 0x4B, 0x46, 0x7F, 0xFF, 0x0F, 0x10, 0x25]
    let t := after (step (running (.tsIsfake .single)
      (target s1 (bus (readSpadAnswers sp ++ [false, false, true, false]) (clock [1000] idle)))))
    statusWord t.status = 0x00004006 ∧ t.result0 = 0 ∧ slotCount t = 445 := by
  decide +kernel

/-- V15, never completes: the second poll's deadline passes, and the captured bytes go back. -/
theorem test_tsIsfake_fake :
    let t := after (step (polling (.tsIsfake .single) .drain
      (target s1 (bus [false, false] (clock [100] idle)))))
    statusWord t.status = 0x00004026 ∧ t.result0 = 1 ∧
      t.line = (traffic idle (.read false :: .reset false ::
        sent ([0x55] ++ romBytes s1 ++ [0x4E, 0x4B, 0x46, 0x7F]))).reverse := by
  decide +kernel

/-! ## The host port -/

/-- V25: a refused read and an ignored ROMCOUNT. -/
theorem test_hostPort_refused :
    (hostRead .word 0x03C idle).1 = 0 ∧ (hostRead .word 0x03C idle).2.status.accerr = true ∧
      (hostWrite .word 0x034 17 idle).status.accerr = true ∧ (hostWrite .word 0x034 17 idle).romCount = 0 ∧
      hostWrite .word 0x014 7 idle = idle := by
  decide +kernel

/-- V25: WR STATUS, 0x18 and WR STATUS, 0x2, with all three bits set and no command running. -/
theorem test_status_w1c :
    let s : State := { idle with status := { idle.status with done := true, ovr := true, accerr := true } }
    (hostWrite .word 0x004 0x00000018 s).status = { s.status with ovr := false, accerr := false } ∧
      (hostWrite .word 0x004 0x00000002 s).status = { s.status with done := false } := by
  decide

/-- V25: RAM words while idle. -/
theorem test_hostPort_word :
    (hostRead .word 0x200 (storeBytes 0x200 (romBytes s2) idle)).1 = 0x00000228 ∧
      (hostRead .word 0x204 (storeBytes 0x200 (romBytes s2) idle)).1 = 0x70000000 := by
  decide +kernel

/-! ## Witnesses: for each statement with hypotheses, states and operands that meet them -/

/-- The step answered a next state. -/
def goesOn (o : Halt) : Bool :=
  match o with
  | .next _ => true
  | _ => false

theorem goesOn_next {o : Halt} (h : goesOn o = true) : o = .next (after o) := by
  cases o <;> first | rfl | cases h

theorem witness_StepRunsDecodedCommand :
    ((running .crcReg idle).status.busy = true ∧ decode (running .crcReg idle).lcmd = some .crcReg) ∧
      decodeTableWord 16 0x0001 = some .crcReg ∧ decodeTableWord 32 0x00000138 = some (.tsIsfake .multi) := by
  decide +kernel

theorem witness_IllegalWordEnds :
    ¬ LegalWord 0x00000132 ∧ ¬ LegalWord 0x00000200 ∧ ¬ LegalWord 0x00000019 ∧ LegalWord 0x00000138 ∧
      (∃ l, Accepted (accept 0x00000132 idle) l) ∧ (accept 0x00000132 idle).status.busy = true ∧
      (accept 0x00000132 idle).lcmd = 0x00000132 := by
  refine ⟨?_, ?_, ?_, ?_, ⟨_, rfl, rfl⟩, rfl, rfl⟩ <;> unfold LegalWord <;> decide

theorem witness_IdleStepIsTheHosts :
    0xFFF < 0x1000 ∧ windowOffset params 0x1FFF = some 0xFFF ∧ idle.status.busy = false ∧ idle.host = [] ∧
      (∃ k e rest, ({ idle with host := [⟨1, .reset true⟩] } : State).host = ⟨k + 1, e⟩ :: rest) ∧
      (∃ a rest, ({ idle with host := [⟨0, .access (.read .word 0x1004)⟩] } : State).host = ⟨0, .access a⟩ :: rest) ∧
      ∃ c rest, ({ idle with host := [⟨0, .reset true⟩] } : State).host = ⟨0, .reset c⟩ :: rest :=
  ⟨by decide, by decide, rfl, rfl, ⟨0, _, _, rfl⟩, ⟨_, _, rfl⟩, ⟨_, _, rfl⟩⟩

theorem witness_CommandAcceptance :
    (running .owReset idle).status.busy = true ∧ idle.status.busy = false ∧ idle.host = [] ∧ ¬ LegalWord 0x00000112 := by
  refine ⟨rfl, rfl, rfl, ?_⟩
  unfold LegalWord
  decide

theorem witness_CommandEnds : (running .owReset idle).host = [] := rfl

theorem witness_ReflectionSelfInverse :
    (0xFF : Word).toNat ≤ (widthMask .w8).toNat ∧ (0xFFFF : Word).toNat ≤ (widthMask .w16).toNat ∧
      (0xFFFFFFFF : Word).toNat ≤ (widthMask .w32).toNat := by
  decide

theorem witness_TableEntriesAreRemainders :
    255 < 256 ∧ (0xFF : Word).toNat ≤ (widthMask .w8).toNat ∧ (0xFFFFFFFF : Word).toNat ≤ (widthMask .w32).toNat := by
  decide

theorem witness_TableEntriesAreRemainders_linear :
    255 < 256 ∧ 0 < 256 ∧ (0x31 : Word).getLsbD 0 = true ∧
      (genTable 0x31 .w8).getD 255 0 = (genTable 0x31 .w8).getD 255 0 ∧ (genTable 0x31 .w8).getD 255 0 = 0xAC := by
  decide +kernel

theorem witness_AppendedChecksumIsZero :
    slot0.table = genTable slot0.poly slot0.width ∧ ([0x31] : List Byte) ≠ [] ∧ slot0.refin = slot0.refout := by
  decide +kernel

theorem witness_CrcRegOutcome_config :
    (∃ l, Accepted (running .crcReg (args 0 8 0 fresh)) l ∧ l.a0 = 0) ∧
      (∃ l, Accepted (running .crcReg (args 7 12 0 fresh)) l ∧ l.a1 ≠ 8 ∧ l.a1 ≠ 16 ∧ l.a1 ≠ 32) ∧
      ∃ l, Accepted (running .crcReg (args 0x100 8 0 fresh)) l ∧ l.a1 = BitVec.ofNat 32 (widthBits .w8) ∧
        (widthMask .w8).toNat < l.a0.toNat :=
  ⟨⟨_, ⟨rfl, rfl⟩, by decide⟩, ⟨_, ⟨rfl, rfl⟩, by decide⟩, ⟨_, ⟨rfl, rfl⟩, by decide⟩⟩

/-- A full registry. -/
def full : State := { fresh with registry := [slot0, slot0, slot0, slot0] }

theorem witness_CrcRegOutcome_registry :
    (∃ l, Accepted (running .crcReg (args 0x31 16 0 fresh)) l ∧ l.a1 = BitVec.ofNat 32 (widthBits .w16) ∧ l.a0 ≠ 0 ∧
        l.a0.toNat ≤ (widthMask .w16).toNat ∧ ∃ sl ∈ (running .crcReg (args 0x31 16 0 fresh)).registry, sl.poly = l.a0) ∧
      (∃ l, Accepted (running .crcReg (args 0xFF 8 0 full)) l ∧ l.a1 = BitVec.ofNat 32 (widthBits .w8) ∧ l.a0 ≠ 0 ∧
        l.a0.toNat ≤ (widthMask .w8).toNat ∧ (∀ sl ∈ (running .crcReg (args 0xFF 8 0 full)).registry, sl.poly ≠ l.a0) ∧
        (running .crcReg (args 0xFF 8 0 full)).params.crcCapacity ≤
          (running .crcReg (args 0xFF 8 0 full)).registry.length) ∧
      ∃ l, Accepted (running .crcReg (args 0xFF 8 0 fresh)) l ∧ l.a1 = BitVec.ofNat 32 (widthBits .w8) ∧ l.a0 ≠ 0 ∧
        l.a0.toNat ≤ (widthMask .w8).toNat ∧ (∀ sl ∈ (running .crcReg (args 0xFF 8 0 fresh)).registry, sl.poly ≠ l.a0) ∧
        (running .crcReg (args 0xFF 8 0 fresh)).registry.length <
          (running .crcReg (args 0xFF 8 0 fresh)).params.crcCapacity :=
  ⟨⟨_, ⟨rfl, rfl⟩, by decide, by decide, by decide, slot0, List.mem_singleton.mpr rfl, by decide⟩,
    ⟨_, ⟨rfl, rfl⟩, by decide +kernel⟩, ⟨_, ⟨rfl, rfl⟩, by decide +kernel⟩⟩

theorem witness_CrcCalcOutcome_errors :
    (∃ l, Accepted (running .crcCalc (args 7 0 1 fresh)) l ∧
        ∀ sl ∈ (running .crcCalc (args 7 0 1 fresh)).registry, sl.poly ≠ l.a0) ∧
      (∃ l, Accepted (running .crcCalc (args 0x31 0 0 fresh)) l ∧
        (running .crcCalc (args 0x31 0 0 fresh)).registry.find? (fun x => x.poly == l.a0) = some slot0 ∧
        (l.a2 = 0 ∨ 256 < l.a1.toNat + l.a2.toNat)) ∧
      ∃ l, Accepted (running .crcCalc (args 0x31 250 7 fresh)) l ∧
        (running .crcCalc (args 0x31 250 7 fresh)).registry.find? (fun x => x.poly == l.a0) = some slot0 ∧
        (l.a2 = 0 ∨ 256 < l.a1.toNat + l.a2.toNat) :=
  ⟨⟨_, ⟨rfl, rfl⟩, by decide +kernel⟩, ⟨_, ⟨rfl, rfl⟩, rfl, by decide⟩, ⟨_, ⟨rfl, rfl⟩, rfl, by decide⟩⟩

theorem witness_CrcCalcOutcome_data :
    ∃ l, Accepted (running .crcCalc (args 0x31 254 2 (storeBytes 0x1FE [1, 2] fresh))) l ∧
      (running .crcCalc (args 0x31 254 2 (storeBytes 0x1FE [1, 2] fresh))).registry.find? (fun x => x.poly == l.a0) =
        some slot0 ∧
      l.a2 ≠ 0 ∧ l.a1.toNat + l.a2.toNat ≤ 256 ∧ ([1, 2] : List Byte).length = l.a2.toNat ∧
      ∀ k, k < ([1, 2] : List Byte).length →
        memGet (running .crcCalc (args 0x31 254 2 (storeBytes 0x1FE [1, 2] fresh))).ram (0x100 + l.a1.toNat + k) =
          ([1, 2] : List Byte)[k]? :=
  ⟨_, ⟨rfl, rfl⟩, rfl, by decide, by decide, by decide, by decide⟩

/-- A next state is reached. -/
theorem witness_RegistryIsAppendOnly :
    (running .crcReg (args 7 8 0 fresh)).host = [] ∧ ∃ t, exec .crcReg (running .crcReg (args 7 8 0 fresh)) = .next t :=
  ⟨rfl, _, goesOn_next (by decide +kernel)⟩

theorem witness_BusConfigurationOutcome : ∃ l, Accepted (running .owCfgbus (args 7 2 0 fresh)) l := ⟨_, rfl, rfl⟩

/-- A command runs, the bus is configured. -/
theorem witness_OwResetOutcome :
    ∃ l v, BusReady (running .owReset (bus [false] idle)) l ∧
      v = nextAnswer (running .owReset (bus [false] idle)) [.delay 70000, .release 0, .delay 480000, .low 0] ∧
      (running .owReset (bus [false] idle)).params.tp (running .owReset (bus [false] idle)).busCfg.speed = profile :=
  ⟨_, _, ⟨⟨rfl, rfl⟩, rfl⟩, rfl, rfl⟩

theorem witness_BitCommandsOutcome :
    ∃ l v, BusReady (running .owRbit (bus [true] idle)) l ∧
      v = nextAnswer (running .owRbit (bus [true] idle)) [.delay 9000, .release 0, .delay 6000, .low 0] ∧
      (running .owRbit (bus [true] idle)).params.tp (running .owRbit (bus [true] idle)).busCfg.speed = profile :=
  ⟨_, _, ⟨⟨rfl, rfl⟩, rfl⟩, rfl, rfl⟩

theorem witness_ByteCommandsOutcome : ∃ l, BusReady (running .owWbyte (args 0xBE 0 0 idle)) l := ⟨_, ⟨rfl, rfl⟩, rfl⟩

theorem witness_OwWmultiOutcome :
    (∃ l, Accepted (running .owWmulti (args 250 7 0 idle)) l ∧ 256 < l.a0.toNat + l.a1.toNat) ∧
      ∃ l, BusReady (running .owWmulti (args 254 2 0 (storeBytes 0x1FE [1, 2] idle))) l ∧
        l.a0.toNat + l.a1.toNat ≤ 256 ∧ ([1, 2] : List Byte).length = l.a1.toNat ∧
        ∀ k, k < ([1, 2] : List Byte).length →
          memGet (running .owWmulti (args 254 2 0 (storeBytes 0x1FE [1, 2] idle))).ram (0x100 + l.a0.toNat + k) =
            ([1, 2] : List Byte)[k]? :=
  ⟨⟨_, ⟨rfl, rfl⟩, by decide⟩, ⟨_, ⟨⟨rfl, rfl⟩, rfl⟩, by decide, by decide, by decide⟩⟩

theorem witness_OwRmultiOutcome :
    (∃ l, Accepted (running .owRmulti (args 0 257 0 idle)) l ∧ 256 < l.a0.toNat + l.a1.toNat) ∧
      ∃ l, BusReady (running .owRmulti (args 0 256 0 idle)) l ∧ l.a0.toNat + l.a1.toNat ≤ 256 :=
  ⟨⟨_, ⟨rfl, rfl⟩, by decide⟩, ⟨_, ⟨⟨rfl, rfl⟩, rfl⟩, by decide⟩⟩

theorem witness_UnconfiguredBusIsBadPin :
    ∃ l, Accepted (running .owReset (args 9 12 0xFFFFFFFF fresh)) l ∧
      (running .owReset (args 9 12 0xFFFFFFFF fresh)).busCfg.configured = false ∧
      (running .owReset (args 9 12 0xFFFFFFFF fresh)).pos = .start ∧ l.a0.toNat + l.a1.toNat ≤ 256 ∧ 9 ≤ l.a0.toNat ∧
      l.a0.toNat ≤ 12 ∧ l.a2.toInt ≤ l.a1.toInt :=
  ⟨_, ⟨rfl, rfl⟩, rfl, rfl, by decide, by decide, by decide, by decide⟩

/-- A search in its walk: past a discrepancy at bit 5 and with one at bit 9. -/
def walking (b : List Bool) (found : List RomId) : State :=
  { bus b idle with search := some { freshSearch 0 with found := found, lastDisc := 9, prev := 0x20, lastZero := 9 } }

/-- In turn: the ROM bits; a discrepancy; no device, in a search under way and in a fresh one; a good pass with room for
one id more, and with none. -/
theorem witness_SearchBitBranches :
    (0 < 64 ∧ 63 < 64) ∧
      ((walking [false, false] []).host = [] ∧ (∃ st, (walking [false, false] []).search = some st ∧ st.lastDisc = 9) ∧
        (walking [false, false] []).bus = false :: false :: [] ∧ (false && false) = false) ∧
      (∃ st, (walking [true, true] []).search = some st ∧ (walking [true, true] []).bus = true :: true :: [] ∧
        ¬ st.lastDisc = -1) ∧
      (∃ s st, s = { bus [true, true] idle with search := some (freshSearch 0) } ∧ s.host = [] ∧ s.search = some st ∧
        s.bus = true :: true :: [] ∧ st.found = [] ∧ st.lastDisc = -1) ∧
      (∃ st, (walking [] (List.replicate 15 s1)).search = some st ∧
        st.found.length + 1 = (walking [] (List.replicate 15 s1)).params.maxDevices ∧ st.lastZero ≠ -1) ∧
      ∃ st, (walking [] (List.replicate 16 s1)).search = some st ∧
        st.found.length = (walking [] (List.replicate 16 s1)).params.maxDevices :=
  ⟨by decide, ⟨rfl, ⟨_, rfl, rfl⟩, rfl, rfl⟩, ⟨_, rfl, rfl, by decide⟩, ⟨_, _, rfl, rfl, rfl, rfl, rfl, rfl⟩,
    ⟨_, rfl, by decide, by decide⟩, ⟨_, rfl, by decide⟩⟩

/-- A search on a bus that answers these passes and then more, with these readings of the clock. -/
def searched (m : SearchMode) (ps : SearchPasses) (ts : List Word) (more : List Bool) (s : State) : State :=
  running (.owSearch m) (bus (ps.answers ++ more) (clock (0 :: ts) s))

/-- Failed enumerations of each kind: an abort at the last ROM bit after a good pass, a bad checksum, an id found before. -/
def tries : List FailedRun :=
  [⟨[s2, s1, s3], 1, .aborted 63⟩, ⟨[0x0000000000000128], 0, .refused⟩, ⟨[s2, s1], 1, .alone s2⟩]

theorem tries_ok {s : State} {m : SearchMode} (hr : s.registry = [slot0]) (hf : s.params.familyCode = 0x28) :
    ∀ r ∈ tries, r.Ok s m := by
  have hm : 1 ≤ s.params.maxDevices := by simp [Params.maxDevices]
  simp only [tries, List.forall_mem_cons, FailedRun.Ok, Enumerable, InOrder, goodId, crc8, hr, hf, FailedRun.next, List.take_succ_cons,
    List.take_zero]
  simp only [List.not_mem_nil, false_implies, implies_true, and_true]
  refine ⟨⟨by decide +kernel, by decide, hm, by decide, by simp⟩, ⟨by decide +kernel, by decide, Nat.zero_le _, by decide +kernel⟩, ⟨by decide +kernel, by decide, hm, by decide +kernel⟩⟩

theorem s123_ok {s : State} (hr : s.registry = [slot0]) (hf : s.params.familyCode = 0x28) :
    Enumerable s [s2, s1, s3] 3 := by
  simp only [Enumerable, InOrder, goodId, crc8, hr, hf, List.take_succ_cons, List.take_zero, List.forall_mem_cons]
  simp only [List.not_mem_nil, false_implies, implies_true, and_true]
  decide +kernel

theorem enumerable_le {s : State} {ds : List RomId} {n k : Nat} (h : Enumerable s ds n) (hk : k ≤ n) : Enumerable s ds k :=
  ⟨hk.trans h.1, h.2.1, fun id hid => h.2.2 id ((List.take_sublist_take_left hk).subset hid)⟩

theorem made {s : State} {m : SearchMode} {l : Latch} {n k : Nat} {ts : List Word} (hr : s.registry = [slot0])
    (hf : s.params.familyCode = 0x28) (hn : n ≤ 3)
    (hl : ts.length = (⟨tries.take k, [s2, s1, s3], n⟩ : SearchPasses).count)
    (ht : (ts.all fun t => !deadlinePassed 0 (ticks s.params l s.params.searchTimeoutMs) t) = true) :
    (⟨tries.take k, [s2, s1, s3], n⟩ : SearchPasses).Made s m l 0 ts :=
  ⟨fun r h => tries_ok hr hf r (List.mem_of_mem_take h), enumerable_le (s123_ok hr hf) hn, hl,
    fun t h => by simpa using List.all_eq_true.1 ht t h⟩

/-- Two failed enumerations, then S2, S1 and S3, at the last tick in time. -/
def found : SearchPasses := ⟨tries.take 2, [s2, s1, s3], 3⟩

theorem witness_SearchFindsDevices :
    ∃ s l ts, s = searched .all found ts [] idle ∧ BusReady s l ∧ found.Made s .all l 0 ts ∧
      found.failed.length < s.params.searchRepeat ∧ found.devices ≠ [] ∧ found.good = found.devices.length ∧
      found.devices.length ≤ s.params.maxDevices ∧ s.clockIn = 0 :: (ts ++ []) ∧ s.bus = found.answers ++ [] :=
  ⟨_, _, [1, 2, 3, 4, 5, 39999999], rfl, ⟨⟨rfl, rfl⟩, rfl⟩, made rfl rfl (by decide) (by decide) (by decide +kernel),
    by decide, by decide, by decide, by decide, rfl, rfl⟩

/-- In turn: the deadline passes before any pass; it passes after a failed enumeration and a good pass; no device answers
the second pass; no device alarms, after a failed enumeration. -/
theorem witness_SearchEndsEmpty :
    (∃ s l ps, s = searched .all ps [40000000] [] idle ∧ BusReady s l ∧ ps.Made s .all l 0 [] ∧ ps.count = 0 ∧
        s.clockIn = 0 :: ([] ++ [40000000]) ∧ ps.failed.length < s.params.searchRepeat ∧ ps.good = 0 ∧
        deadlinePassed 0 (ticks s.params l s.params.searchTimeoutMs) 40000000 = true ∧ s.bus = ps.answers ++ []) ∧
      (∃ s l ps, s = searched .all ps [1, 2, 39999999, 40000000] [] idle ∧ BusReady s l ∧
        ps.Made s .all l 0 [1, 2, 39999999] ∧ s.clockIn = 0 :: ([1, 2, 39999999] ++ [40000000]) ∧
        ps.failed.length < s.params.searchRepeat ∧ ps.good ≤ s.params.maxDevices ∧ ps.good < ps.devices.length ∧
        deadlinePassed 0 (ticks s.params l s.params.searchTimeoutMs) 40000000 = true ∧ s.bus = ps.answers ++ []) ∧
      (∃ s l ps, s = searched .all ps [1, 39999999] [true] idle ∧ BusReady s l ∧ ps.Made s .all l 0 [1] ∧
        s.clockIn = 0 :: ([1] ++ [39999999]) ∧ ps.failed.length < s.params.searchRepeat ∧
        ps.good ≤ s.params.maxDevices ∧ ps.good < ps.devices.length ∧
        deadlinePassed 0 (ticks s.params l s.params.searchTimeoutMs) 39999999 = false ∧
        s.bus = ps.answers ++ true :: []) ∧
      ∃ s l ps, s = searched .alarmed ps [1, 2, 3] [false, true, true] idle ∧ BusReady s l ∧
        ps.Made s .alarmed l 0 [1, 2] ∧ ps.failed ≠ [] ∧ s.clockIn = 0 :: ([1, 2] ++ [3]) ∧
        ps.failed.length < s.params.searchRepeat ∧ ps.good = 0 ∧
        deadlinePassed 0 (ticks s.params l s.params.searchTimeoutMs) 3 = false ∧
        s.bus = ps.answers ++ false :: true :: true :: [] :=
  ⟨⟨_, _, ⟨tries.take 0, [s2, s1, s3], 0⟩, rfl, ⟨⟨rfl, rfl⟩, rfl⟩, made rfl rfl (by decide) (by decide) (by decide), rfl, rfl,
      by decide, rfl, by decide +kernel, rfl⟩,
    ⟨_, _, ⟨tries.take 1, [s2, s1, s3], 1⟩, rfl, ⟨⟨rfl, rfl⟩, rfl⟩, made rfl rfl (by decide) (by decide) (by decide +kernel),
      rfl, by decide, by decide, by decide, by decide +kernel, rfl⟩,
    ⟨_, _, ⟨tries.take 0, [s2, s1, s3], 1⟩, rfl, ⟨⟨rfl, rfl⟩, rfl⟩, made rfl rfl (by decide) (by decide) (by decide +kernel),
      rfl, by decide, by decide, by decide, by decide +kernel, rfl⟩,
    ⟨_, _, ⟨tries.take 1, [s2, s1, s3], 0⟩, rfl, ⟨⟨rfl, rfl⟩, rfl⟩, made rfl rfl (by decide) (by decide) (by decide +kernel),
      by decide, rfl, by decide, rfl, by decide +kernel, rfl⟩⟩

/-- A block with room for two ids. -/
def small : State := { idle with params := { params with maxDevicesPred := 1 } }

/-- In turn: three failed enumerations, one of each kind; three devices where there is room for two. -/
theorem witness_SearchEndsEmpty_full :
    (∃ s l ps, s = searched .all ps [1, 2, 3, 4, 5] [] idle ∧ BusReady s l ∧ ps.Made s .all l 0 [1, 2, 3, 4, 5] ∧
        s.clockIn = 0 :: ([1, 2, 3, 4, 5] ++ []) ∧ ps.failed.length = s.params.searchRepeat ∧ ps.good = 0 ∧
        s.bus = ps.answers ++ []) ∧
      ∃ s l ps, s = searched .alarmed ps [1, 2, 3] [] small ∧ BusReady s l ∧ ps.Made s .alarmed l 0 [1, 2, 3] ∧
        s.clockIn = 0 :: ([1, 2, 3] ++ []) ∧ ps.failed.length < s.params.searchRepeat ∧
        ps.good = s.params.maxDevices + 1 ∧ s.bus = ps.answers ++ [] :=
  ⟨⟨_, _, ⟨tries.take 3, [s2, s1, s3], 0⟩, rfl, ⟨⟨rfl, rfl⟩, rfl⟩, made rfl rfl (by decide) (by decide) (by decide +kernel),
      rfl, by decide, rfl, rfl⟩,
    ⟨_, _, ⟨tries.take 0, [s2, s1, s3], 3⟩, rfl, ⟨⟨rfl, rfl⟩, rfl⟩, made rfl rfl (by decide) (by decide) (by decide +kernel),
      rfl, by decide, rfl, rfl⟩⟩

/-- A search for all devices, with two readings of the clock. -/
def searching (b : List Bool) : State := running (.owSearch .all) (bus b (clock [0, 39999999] idle))

theorem witness_SearchErrorEmptiesTable :
    ∃ l t, Accepted (searching [true]) l ∧ exec (.owSearch .all) (searching [true]) = .next t ∧ t.status.errcode ≠ .none :=
  ⟨_, _, ⟨rfl, rfl⟩, goesOn_next (by decide +kernel), by decide +kernel⟩

theorem witness_SearchSuccessIsWellFormed :
    ∃ l t, Accepted (searching [false, true, true]) l ∧
      exec (.owSearch .alarmed) (searching [false, true, true]) = .next t ∧ t.status.errcode = .none :=
  ⟨_, _, ⟨rfl, rfl⟩, goesOn_next (by decide +kernel), by decide +kernel⟩

theorem witness_SearchIsBounded : ∃ l, Accepted (searching []) l := ⟨_, rfl, rfl⟩

theorem witness_AddressStep :
    (bus [true] idle).host = [] ∧ nextAnswer (bus [true] idle) [.low 0] = true ∧
      nextAnswer (bus [false] idle) [.low 0] = false := ⟨rfl, rfl, rfl⟩

/-- A session command on S1, with legal operands for TS.CONFIG. -/
def session (i : Instr) (b : List Bool) : State := running i (target s1 (args 9 20 20 (bus b (clock [0, 5] idle))))

theorem witness_AbsentDeviceEndsCommand :
    ∃ l, BusReady (session (.tsSave .single) [true]) l ∧ TargetOk (session (.tsSave .single) [true]) .single l ∧
      (session (.tsSave .single) [true]).pos = .start ∧ (session (.tsSave .single) [true]).bus = true :: [] ∧
      9 ≤ l.a0.toNat ∧ l.a0.toNat ≤ 12 ∧ l.a2.toInt ≤ l.a1.toInt ∧
      DeviceList (session (.tsSave .single) [true]) .single l (s1 :: []) ∧
      (s1 :: []).length ≤ params.maxDevices ∧ validId (session (.tsSave .single) [true]) s1 = true :=
  ⟨_, ⟨⟨rfl, rfl⟩, rfl⟩, ⟨by decide, by decide +kernel⟩, rfl, rfl, by decide, by decide, by decide,
    ⟨⟨by decide, by decide +kernel⟩, by decide⟩, by decide, by decide +kernel⟩

theorem witness_BadTargetIsBadId :
    (∃ l, BusReady (running (.tsSave .single) (args 12 0 0 idle)) l ∧
        (running (.tsSave .single) (args 12 0 0 idle)).pos = .start ∧
        (l.tgt = 0 ∨ crc8 (running (.tsSave .single) (args 12 0 0 idle)) (romBytes l.tgt) ≠ 0) ∧ 9 ≤ l.a0.toNat ∧
        l.a0.toNat ≤ 12 ∧ l.a2.toInt ≤ l.a1.toInt) ∧
      (∃ l, BusReady (running (.tsSave .single) (target 0x0000000000000128 idle)) l ∧
        (l.tgt = 0 ∨ crc8 (running (.tsSave .single) (target 0x0000000000000128 idle)) (romBytes l.tgt) ≠ 0)) ∧
      (running (.tsReadtemp .multi) idle).romCount = 0 :=
  ⟨⟨_, ⟨⟨rfl, rfl⟩, rfl⟩, rfl, .inl (by decide), by decide, by decide, by decide⟩,
    ⟨_, ⟨⟨rfl, rfl⟩, rfl⟩, .inr (by decide +kernel)⟩, rfl⟩

theorem witness_TsConfigOutcome_errors :
    (∃ l, Accepted (running (.tsConfig .single) (args 13 0 0 idle)) l ∧ (l.a0.toNat < 9 ∨ 12 < l.a0.toNat)) ∧
      (∃ l, Accepted (running (.tsConfig .single) (args 8 0 0 idle)) l ∧ (l.a0.toNat < 9 ∨ 12 < l.a0.toNat)) ∧
      ∃ l, Accepted (running (.tsConfig .single) (args 12 0xFFFFFFFF 0 idle)) l ∧ l.a1.toInt < l.a2.toInt :=
  ⟨⟨_, ⟨rfl, rfl⟩, by decide⟩, ⟨_, ⟨rfl, rfl⟩, by decide⟩, ⟨_, ⟨rfl, rfl⟩, by decide⟩⟩

theorem witness_TsConfigOutcome :
    ∃ l, BusReady (session (.tsConfig .single) [false]) l ∧ TargetOk (session (.tsConfig .single) [false]) .single l ∧
      9 ≤ l.a0.toNat ∧ l.a0.toNat ≤ 12 ∧ l.a2.toInt ≤ l.a1.toInt ∧
      ((0x7F, 0x80, false) : Byte × Byte × Bool) =
        (if l.a1.toInt = l.a2.toInt then (0x7F, 0x80, false)
         else (encAlarm params l.a1.toInt, encAlarm params l.a2.toInt, true)) ∧
      (session (.tsConfig .single) [false]).bus = false :: [] :=
  ⟨_, ⟨⟨rfl, rfl⟩, rfl⟩, ⟨by decide, by decide +kernel⟩, by decide, by decide, by decide, by decide, rfl⟩

theorem witness_TsConvertOutcome :
    (∃ l, BusReady (session (.tsConvert .single) [false]) l ∧ TargetOk (session (.tsConvert .single) [false]) .single l) ∧
      (∃ l, BusReady (session (.tsConvert .multi) [false]) l ∧ TargetOk (session (.tsConvert .multi) [false]) .multi l) ∧
      (session (.tsConvert .multi) [false]).bus = false :: [] :=
  ⟨⟨_, ⟨⟨rfl, rfl⟩, rfl⟩, by decide, by decide +kernel⟩, ⟨_, ⟨⟨rfl, rfl⟩, rfl⟩, trivial⟩, rfl⟩

/-- Two devices in ROMTAB: S1 and an entry of zeros. -/
def twoDevices (i : Instr) (b : List Bool) : State :=
  { running i (storeBytes 0x200 (romBytes s1 ++ romBytes 0) (bus b (clock [0] idle))) with romCount := 2 }

/-- The nine bytes of V10. -/
def spad : List Byte := [0x50, 0x05, 0x4B, 0x46, 0x7F, 0xFF, 0x0C, 0x10, 0x1C]

/-- A pass over S1 and the entry of zeros. -/
def onePass : List (List Byte) := [spad, List.replicate 9 0]

/-- A multi-mode read in which the devices answer three such passes. -/
def multiRead : State := twoDevices (.tsReadtemp .multi) (readAnswers idle [s1, 0] [onePass, onePass, onePass] ++ [])

/-- Three passes over two devices, of which one is skipped in each: one reading and one invalid record in the end. -/
theorem witness_ReadCommandsOutcome_multi :
    ∃ l, BusReady multiRead l ∧ DeviceList multiRead .multi l [s1, 0] ∧ [s1, 0].length ≤ params.maxDevices ∧
      ReadPasses multiRead [s1, 0] [onePass, onePass, onePass] ∧
      multiRead.bus = readAnswers multiRead [s1, 0] [onePass, onePass, onePass] ++ [] :=
  ⟨_, ⟨⟨rfl, rfl⟩, rfl⟩, ⟨rfl, by decide, by intro j k hj; revert k; revert j; decide +kernel⟩, by decide,
    ⟨by decide, by decide, by decide, by decide +kernel, by decide +kernel, .inr (by decide)⟩, by decide +kernel⟩

theorem witness_ReadCommandsOutcome_single :
    ∃ l, BusReady (session (.tsReadalarm .single) (readSpadAnswers spad)) l ∧
      DeviceList (session (.tsReadalarm .single) (readSpadAnswers spad)) .single l [s1] ∧
      ReadPasses (session (.tsReadalarm .single) (readSpadAnswers spad)) [s1] [[spad]] ∧
      (session (.tsReadalarm .single) (readSpadAnswers spad)).bus =
        readAnswers (session (.tsReadalarm .single) (readSpadAnswers spad)) [s1] [[spad]] ++ [] :=
  ⟨_, ⟨⟨rfl, rfl⟩, rfl⟩, ⟨⟨by decide, by decide +kernel⟩, by decide⟩,
    ⟨by decide, by decide, by decide, by decide +kernel, by decide, .inl (by decide +kernel)⟩, by decide +kernel⟩

theorem witness_RecordLayout : spad.length = 9 ∧ crc8 idle spad = 0 := by decide +kernel

theorem witness_TemperatureIsExact :
    0xFFFF = (0xFF : Byte).toNat + 256 * (0xFF : Byte).toNat ∧ 0x7FFF = (0xFF : Byte).toNat + 256 * (0x7F : Byte).toNat ∧
      0x8000 ≤ 0xFFFF ∧ 0x8000 = (0x00 : Byte).toNat + 256 * (0x80 : Byte).toNat ∧
      |(0x7FFF8000 : Word).toInt| ≤ 2 ^ 31 - 2 ^ 15 := by
  decide

theorem witness_TsConvreadOutcome :
    (∃ l, BusReady (session (.tsConvread .single) (false :: true :: (readSpadAnswers spad ++ []))) l ∧
        DeviceList (session (.tsConvread .single) (false :: true :: (readSpadAnswers spad ++ []))) .single l [s1] ∧
        ReadPasses (session (.tsConvread .single) (false :: true :: (readSpadAnswers spad ++ []))) [s1] [[spad]] ∧
        (session (.tsConvread .single) (false :: true :: (readSpadAnswers spad ++ []))).clockIn = 0 :: [5] ∧
        (session (.tsConvread .single) (false :: true :: (readSpadAnswers spad ++ []))).bus = false :: true ::
          (readAnswers (session (.tsConvread .single) (false :: true :: (readSpadAnswers spad ++ []))) [s1] [[spad]] ++
            [])) ∧
      ∃ s l, s = { polling (.tsConvread .single) .poll (bus (true :: readSpadAnswers spad) idle) with devices := [s1] } ∧
        BusReady s l ∧ s.pos ≠ .start ∧ s.devices = [s1] ∧ ReadPasses s [s1] [[spad]] ∧
        s.bus = true :: (readAnswers s [s1] [[spad]] ++ []) :=
  ⟨⟨_, ⟨⟨rfl, rfl⟩, rfl⟩, ⟨⟨by decide, by decide +kernel⟩, by decide⟩,
      ⟨by decide, by decide, by decide, by decide +kernel, by decide, .inl (by decide +kernel)⟩, rfl, by decide +kernel⟩,
    ⟨_, _, rfl, ⟨⟨rfl, rfl⟩, rfl⟩, by decide, rfl,
      ⟨by decide, by decide, by decide, by decide +kernel, by decide, .inl (by decide +kernel)⟩, by decide +kernel⟩⟩

theorem witness_EepromCommandsOutcome :
    (∃ l, BusReady (session (.tsSave .single) [false, true]) l ∧ (session (.tsSave .single) [false, true]).pos = .start ∧
        TargetOk (session (.tsSave .single) [false, true]) .single l ∧
        (session (.tsSave .single) [false, true]).clockIn = 0 :: [5] ∧
        (session (.tsSave .single) [false, true]).bus = false :: true :: []) ∧
      (∃ l, BusReady (session (.tsRestore .multi) [false, false]) l ∧
        (session (.tsRestore .multi) [false, false]).clockIn = 0 :: 5 :: [] ∧
        (session (.tsRestore .multi) [false, false]).bus = false :: false :: [] ∧
        deadlinePassed 0 (ticks params l params.eeTimeoutMs) 5 = false ∧
        deadlinePassed 0 (ticks params l params.eeTimeoutMs) 40000 = true) ∧
      (∃ l, BusReady (polling (.tsSave .multi) .poll (bus [true] idle)) l) ∧
      (polling (.tsSave .multi) .poll (bus [true] idle)).pos ≠ .start :=
  ⟨⟨_, ⟨⟨rfl, rfl⟩, rfl⟩, rfl, ⟨by decide, by decide +kernel⟩, rfl, rfl⟩,
    ⟨_, ⟨⟨rfl, rfl⟩, rfl⟩, rfl, rfl, by decide +kernel⟩, ⟨_, ⟨rfl, rfl⟩, rfl⟩, by decide⟩

theorem witness_PollingCommandsOutcome :
    ∃ s l p, s = polling (.tsSave .multi) .poll (bus [false] (clock [99] idle)) ∧ Accepted s l ∧ s.pos ≠ .start ∧
      s.poll = some p ∧ s.clockIn = 99 :: [] ∧ s.bus = false :: [] ∧ ((99 : Word) - p.start).toNat < p.budget.toNat ∧
      p.budget.toNat ≤ ((100 : Word) - p.start).toNat :=
  ⟨_, _, _, rfl, ⟨rfl, rfl⟩, by decide, rfl, rfl, rfl, by decide, by decide⟩

theorem witness_TsIsfakeGenuine :
    (∃ s l, s = session (.tsIsfake .single) (readSpadAnswers (List.replicate 9 0xFF) ++ readSpadAnswers spad ++
          false :: false :: true :: false :: []) ∧
        BusReady s l ∧ TargetOk s .single l ∧ s.pos = .start ∧ (List.replicate 9 0xFF : List Byte).length = 9 ∧
        crc8 s (List.replicate 9 0xFF) ≠ 0 ∧ [List.replicate 9 (0xFF : Byte)].length < s.params.readRepeat ∧
        spad.length = 9 ∧ crc8 s spad = 0 ∧ s.clockIn = 0 :: [5] ∧
        s.bus = [List.replicate 9 0xFF].flatMap readSpadAnswers ++ readSpadAnswers spad ++
          false :: false :: true :: false :: []) ∧
      (List.replicate 3 (List.replicate 9 (0xFF : Byte))).length = params.readRepeat :=
  ⟨⟨_, _, rfl, ⟨⟨rfl, rfl⟩, rfl⟩, ⟨by decide, by decide +kernel⟩, rfl, by decide, by decide +kernel, by decide, rfl,
    by decide +kernel, rfl, by decide +kernel⟩, by decide⟩

theorem witness_TsIsfakeVerdict :
    (∃ s l c p, s = polling (.tsIsfake .single) .poll (bus [true, false] idle) ∧ Accepted s l ∧ s.capture = some c ∧
        s.poll = some p ∧ s.pos = .poll ∧ s.bus = true :: false :: []) ∧
      (∃ s l p, s = polling (.tsIsfake .single) .poll (bus [false, true, false] (clock [100, 100] idle)) ∧ Accepted s l ∧
        s.poll = some p ∧ s.clockIn = 100 :: 100 :: [] ∧ s.bus = false :: true :: false :: [] ∧
        p.budget.toNat ≤ ((100 : Word) - p.start).toNat) ∧
      (∃ s l p, s = polling (.tsIsfake .single) .poll (bus [false, false] (clock [100, 100, 40099] idle)) ∧ Accepted s l ∧
        s.poll = some p ∧ s.clockIn = 100 :: 100 :: 40099 :: [] ∧ s.bus = false :: false :: [] ∧
        p.budget.toNat ≤ ((100 : Word) - p.start).toNat ∧
        ((40099 : Word) - 100).toNat < (ticks s.params l s.params.convTimeoutMs).toNat ∧
        (ticks s.params l s.params.convTimeoutMs).toNat ≤ ((40100 : Word) - 100).toNat) ∧
      (∃ s l, s = polling (.tsIsfake .single) .drain (bus [true, false] idle) ∧ Accepted s l ∧ s.pos = .drain ∧
        s.bus = true :: false :: []) ∧
      ∃ s l p, s = polling (.tsIsfake .single) .drain (bus [false, false] (clock [100] idle)) ∧ Accepted s l ∧
        s.poll = some p ∧ s.pos = .drain ∧ s.clockIn = 100 :: [] ∧ s.bus = false :: false :: [] ∧
        p.budget.toNat ≤ ((100 : Word) - p.start).toNat :=
  ⟨⟨_, _, _, _, rfl, ⟨rfl, rfl⟩, rfl, rfl, rfl, rfl⟩, ⟨_, _, _, rfl, ⟨rfl, rfl⟩, rfl, rfl, rfl, by decide⟩,
    ⟨_, _, _, rfl, ⟨rfl, rfl⟩, rfl, rfl, rfl, by decide, by decide +kernel, by decide +kernel⟩,
    ⟨_, _, rfl, ⟨rfl, rfl⟩, rfl, rfl⟩, ⟨_, _, _, rfl, ⟨rfl, rfl⟩, rfl, rfl, rfl, rfl, by decide⟩⟩

/-- Devices S1 and S2 in ROMTAB. -/
def validDevices (i : Instr) (b : List Bool) : State :=
  { running i (storeBytes 0x200 (romBytes s1 ++ romBytes s2) (bus b (clock [0] idle))) with romCount := 2 }

/-- TS.CONVREAD on these, whose first poll slot reads 0. -/
def firstPoll (t1 : Word) : State := { validDevices (.tsConvread .multi) [false, false] with clockIn := [0, t1] }

/-- In time at the last tick of a budget of 40000, and past the deadline. -/
theorem witness_TsConvreadOutcome_first :
    ∀ x ∈ ([(39999, false), (40000, true)] : List (Word × Bool)), ∃ l, BusReady (firstPoll x.1) l ∧
      [s1, s2].length ≤ (firstPoll x.1).params.maxDevices ∧ (firstPoll x.1).pos = .start ∧
      DeviceList (firstPoll x.1) .multi l [s1, s2] ∧ (firstPoll x.1).clockIn = 0 :: x.1 :: [] ∧
      (firstPoll x.1).bus = false :: false :: [] ∧
      deadlinePassed 0 (ticks (firstPoll x.1).params l (firstPoll x.1).params.convTimeoutMs) x.1 = x.2 := by
  intro x h
  simp only [List.mem_cons, List.not_mem_nil, or_false] at h
  rcases h with rfl | rfl <;>
    exact ⟨_, ⟨⟨rfl, rfl⟩, rfl⟩, by decide, rfl,
      ⟨rfl, by decide, by intro j k hj; revert k; revert j; decide +kernel⟩, rfl, rfl, by decide +kernel⟩

/-- Nine bytes that do not validate. -/
def badSpad : List Byte := List.replicate 9 0xFF

/-- The answers of a pass in which S2's bytes do not validate, and of a second one in which S2 is absent. -/
def absentSecond : List Bool := interruptedAnswers idle [s1, s2] [[spad, badSpad]] [spad]

theorem absentSecond_interrupted {s : State} (hr : s.registry = [slot0]) (hp : s.params = params) :
    ReadInterrupted s [s1, s2] [[spad, badSpad]] [spad] := by
  have h1 : validId s = validId idle := by funext id; simp only [validId, crc8, hr]; rfl
  have h2 : validCount s = validCount idle := by funext a b; simp only [validCount, validRead, h1, crc8, hr]; rfl
  refine ⟨by rw [hp]; decide, ?_, by decide, by decide, ?_, ?_⟩
  · rw [h2]; decide +kernel
  · rw [h1]; decide +kernel
  · rw [h1]; decide +kernel

theorem witness_LaterAbsenceEndsCommand_reads :
    (∃ s l, s = validDevices (.tsReadtemp .multi) (absentSecond ++ []) ∧ BusReady s l ∧
        [s1, s2].length ≤ s.params.maxDevices ∧ ReadInterrupted s [s1, s2] [[spad, badSpad]] [spad] ∧
        DeviceList s .multi l [s1, s2] ∧
        s.bus = interruptedAnswers s [s1, s2] [[spad, badSpad]] [spad] ++ []) ∧
      (∃ s l, s = validDevices (.tsConvread .multi) (false :: true :: (absentSecond ++ [])) ∧ BusReady s l ∧
        ReadInterrupted s [s1, s2] [[spad, badSpad]] [spad] ∧ s.pos = .start ∧ DeviceList s .multi l [s1, s2] ∧
        s.clockIn = 0 :: [] ∧
        s.bus = false :: true :: (interruptedAnswers s [s1, s2] [[spad, badSpad]] [spad] ++ [])) ∧
      ∃ s l, s = { polling (.tsConvread .multi) .poll (bus (true :: absentSecond) idle) with devices := [s1, s2] } ∧
        BusReady s l ∧ ReadInterrupted s [s1, s2] [[spad, badSpad]] [spad] ∧ s.pos ≠ .start ∧ s.devices = [s1, s2] ∧
        s.bus = true :: (interruptedAnswers s [s1, s2] [[spad, badSpad]] [spad] ++ []) :=
  ⟨⟨_, _, rfl, ⟨⟨rfl, rfl⟩, rfl⟩, by decide, absentSecond_interrupted rfl rfl,
      ⟨rfl, by decide, by intro j k hj; revert k; revert j; decide +kernel⟩, by decide +kernel⟩,
    ⟨_, _, rfl, ⟨⟨rfl, rfl⟩, rfl⟩, absentSecond_interrupted rfl rfl, rfl,
      ⟨rfl, by decide, by intro j k hj; revert k; revert j; decide +kernel⟩, rfl, by decide +kernel⟩,
    ⟨_, _, rfl, ⟨⟨rfl, rfl⟩, rfl⟩, absentSecond_interrupted rfl rfl, by decide, rfl, by decide +kernel⟩⟩

/-- TS.ISFAKE with a capture that does not validate, then no device; then with one that does, and no device at the
write, at the conversion, at the restore. -/
theorem witness_LaterAbsenceEndsCommand_isfake :
    ∀ b ∈ [readSpadAnswers badSpad ++ true :: [], readSpadAnswers badSpad ++ readSpadAnswers spad ++ true :: [],
        readSpadAnswers badSpad ++ readSpadAnswers spad ++ false :: true :: [],
        readSpadAnswers badSpad ++ readSpadAnswers spad ++ false :: false :: true :: true :: []],
      ∃ s l, s = session (.tsIsfake .single) b ∧ BusReady s l ∧ TargetOk s .single l ∧ s.pos = .start ∧
        badSpad.length = 9 ∧ crc8 s badSpad ≠ 0 ∧ [badSpad].length < s.params.readRepeat ∧ spad.length = 9 ∧
        crc8 s spad = 0 ∧ s.clockIn = 0 :: [5] ∧ s.bus = b := by
  intro b _
  have h : crc8 idle (romBytes s1) = 0 ∧ crc8 idle badSpad ≠ 0 ∧ crc8 idle spad = 0 := by decide +kernel
  have ht : s1 ≠ 0 ∧ targetId (target s1 idle) = s1 := by decide
  exact ⟨_, _, rfl, ⟨⟨rfl, rfl⟩, rfl⟩, ⟨ht.2 ▸ ht.1, (congrArg (fun id => crc8 idle (romBytes id)) ht.2).trans h.1⟩, rfl,
    by decide, h.2.1, (by decide : [badSpad].length < params.readRepeat), by decide, h.2.2, rfl, rfl⟩

/-- TS.ISFAKE from its start, after a capture that does not validate: the first poll slot reads 0, in time, or past the
deadline, and then the second poll's first slot reads 1, or 0 in time, or 0 past the deadline. -/
theorem witness_TsIsfakeVerdict_first :
    ∀ x ∈ ([([], [39999], false), ([true, false], [40000, 40001], true), ([false], [40000, 0, 39999], true),
        ([false, false], [40000, 40000, 80000], true)] : List (List Bool × List Word × Bool)),
      ∃ s l t1 ts, s = running (.tsIsfake .single) (target s1 (bus (readSpadAnswers badSpad ++ readSpadAnswers spad ++
          false :: false :: false :: x.1) (clock (0 :: x.2.1) idle))) ∧
        BusReady s l ∧ TargetOk s .single l ∧ s.pos = .start ∧ badSpad.length = 9 ∧ crc8 s badSpad ≠ 0 ∧
        [badSpad].length < s.params.readRepeat ∧ spad.length = 9 ∧ crc8 s spad = 0 ∧ s.clockIn = 0 :: t1 :: ts ∧
        s.bus = [badSpad].flatMap readSpadAnswers ++ readSpadAnswers spad ++ false :: false :: false :: x.1 ∧
        deadlinePassed 0 (ticks s.params l s.params.fakeWindowMs) t1 = x.2.2 ∧
        ∀ t2 ∈ ts.head?, ∀ t3 ∈ ts[1]?, deadlinePassed t2 (ticks s.params l s.params.convTimeoutMs) t3 =
          decide (x.1.length = 2) := by
  intro x h
  simp only [List.mem_cons, List.not_mem_nil, or_false] at h
  rcases h with rfl | rfl | rfl | rfl <;>
    exact ⟨_, _, _, _, rfl, ⟨⟨rfl, rfl⟩, rfl⟩, ⟨by decide, by decide +kernel⟩, rfl, by decide, by decide +kernel, by decide,
      by decide, by decide +kernel, rfl, by decide +kernel, by decide +kernel, by simp <;> decide +kernel⟩

theorem witness_LaterAbsenceEndsCommand_polls :
    (∃ s l p, s = polling (.tsIsfake .single) .poll (bus [true, true] idle) ∧ Accepted s l ∧ s.pos ≠ .start ∧
        s.poll = some p ∧ s.bus = true :: true :: []) ∧
      ∃ s l p, s = polling (.tsIsfake .single) .drain (bus [false, true] (clock [100] idle)) ∧ Accepted s l ∧
        s.pos ≠ .start ∧ s.poll = some p ∧ s.pos = .drain ∧ s.clockIn = 100 :: [] ∧ s.bus = false :: true :: [] ∧
        p.budget.toNat ≤ ((100 : Word) - p.start).toNat :=
  ⟨⟨_, _, _, rfl, ⟨rfl, rfl⟩, by decide, rfl, rfl⟩,
    ⟨_, _, _, rfl, ⟨rfl, rfl⟩, by decide, rfl, rfl, rfl, rfl, by decide⟩⟩

/-- The window passes in the first poll; the second poll's first slot reads 1, or 0 past the deadline; then no device. -/
theorem witness_LaterAbsenceEndsCommand_window :
    ∀ x ∈ ([([true, true], [100]), ([false, true], [100, 40100])] : List (List Bool × List Word)),
      ∃ s l p, s = polling (.tsIsfake .single) .poll (bus (false :: x.1) (clock (100 :: x.2) idle)) ∧ Accepted s l ∧
        s.pos ≠ .start ∧ s.poll = some p ∧ s.pos = .poll ∧ s.clockIn = 100 :: x.2 ∧ s.bus = false :: x.1 ∧
        p.budget.toNat ≤ ((100 : Word) - p.start).toNat ∧
        ∀ t1 ∈ x.2[1]?, (ticks s.params l s.params.convTimeoutMs).toNat ≤ (t1 - 100).toNat := by
  intro x h
  simp only [List.mem_cons, List.not_mem_nil, or_false] at h
  rcases h with rfl | rfl <;>
    exact ⟨_, _, _, rfl, ⟨rfl, rfl⟩, by decide, rfl, rfl, rfl, rfl, by decide, by simp <;> decide +kernel⟩

/-- The same from the start of the command, after a capture that does not validate. -/
theorem witness_LaterAbsenceEndsCommand_first :
    ∀ x ∈ ([([true, true], [40001]), ([false, true], [40000, 80000])] : List (List Bool × List Word)),
      ∃ s l t2 ts, s = running (.tsIsfake .single) (target s1 (bus (readSpadAnswers badSpad ++ readSpadAnswers spad ++
          false :: false :: false :: x.1) (clock (0 :: 40000 :: x.2) idle))) ∧
        BusReady s l ∧ TargetOk s .single l ∧ s.pos = .start ∧ badSpad.length = 9 ∧ crc8 s badSpad ≠ 0 ∧
        [badSpad].length < s.params.readRepeat ∧ spad.length = 9 ∧ crc8 s spad = 0 ∧
        s.clockIn = 0 :: 40000 :: t2 :: ts ∧
        s.bus = [badSpad].flatMap readSpadAnswers ++ readSpadAnswers spad ++ false :: false :: false :: x.1 ∧
        deadlinePassed 0 (ticks s.params l s.params.fakeWindowMs) 40000 = true ∧
        ∀ t3 ∈ ts.head?, deadlinePassed t2 (ticks s.params l s.params.convTimeoutMs) t3 = true := by
  intro x h
  simp only [List.mem_cons, List.not_mem_nil, or_false] at h
  rcases h with rfl | rfl <;>
    exact ⟨_, _, _, _, rfl, ⟨⟨rfl, rfl⟩, rfl⟩, ⟨by decide, by decide +kernel⟩, rfl, by decide, by decide +kernel, by decide,
      by decide, by decide +kernel, rfl, by decide +kernel, by decide +kernel, by simp <;> decide +kernel⟩

/-- V17: an oscillator too slow for one tick a millisecond. -/
theorem witness_TimeoutArithmetic :
    (1999 : Word).toNat < 1000 * params.ctDiv ∧ ¬ (2000 : Word).toNat < 1000 * params.ctDiv := by
  decide

theorem witness_RefusedAndIgnoredAccesses :
    (¬ (AccessWidth.byte = .word ∧ 0x008 % 4 = 0 ∧ Mapped idle.params 0x008)) ∧
      (¬ (AccessWidth.word = .word ∧ 0x03C % 4 = 0 ∧ Mapped idle.params 0x03C)) ∧
      (¬ (AccessWidth.word = .word ∧ 0x600 % 4 = 0 ∧ Mapped idle.params 0x600)) ∧
      0x5FC % 4 = 0 ∧ (0x400 ≤ 0x5FC ∧ 0x5FC < 0x400 + 32 * idle.params.maxDevices) ∧
      (0x040 ≤ 0x05C ∧ 0x05C < 0x040 + 8 * idle.params.crcCapacity) := by
  refine ⟨?_, ?_, ?_, ?_⟩ <;> (try unfold Mapped) <;> decide

theorem witness_WritesWhileBusy :
    (running .owReset idle).status.busy = true ∧ 0x034 ∈ [0x000, 0x008, 0x00C, 0x010, 0x024, 0x028, 0x030, 0x034] ∧
      (0x1FC % 4 = 0 ∧ 0x100 ≤ 0x1FC ∧ 0x1FC < 0x200) ∧
      (0x27C % 4 = 0 ∧ 0x200 ≤ 0x27C ∧ 0x27C < 0x200 + 8 * (running .owReset idle).params.maxDevices) := by
  decide

theorem witness_ReadsHaveNoSideEffect :
    0x05C % 4 = 0 ∧ Mapped idle.params 0x05C ∧ Mapped idle.params 0x1FC ∧ 0x05C < 0x100 := by
  refine ⟨?_, ?_, ?_, ?_⟩ <;> (try unfold Mapped) <;> decide

theorem witness_RegistersReadBack :
    idle.status.busy = false ∧ 0x030 ∈ [0x008, 0x00C, 0x010, 0x024, 0x028, 0x02C, 0x030] ∧
      (16 : Word).toNat ≤ idle.params.maxDevices ∧ idle.params.maxDevices < (17 : Word).toNat := by
  decide

theorem witness_RamWordsAreLittleEndian :
    0x1FC % 4 = 0 ∧ idle.status.busy = false ∧ (0x100 ≤ 0x1FC ∧ 0x1FC < 0x200) ∧ 0x5FC % 4 = 0 ∧
      (0x400 ≤ 0x5FC ∧ 0x5FC < 0x400 + 32 * (storeBytes 0x5FC [1, 2, 3, 4] idle).params.maxDevices) ∧
      memGet (storeBytes 0x5FC [1, 2, 3, 4] idle).ram 0x5FC = some 1 ∧
      memGet (storeBytes 0x5FC [1, 2, 3, 4] idle).ram 0x5FD = some 2 ∧
      memGet (storeBytes 0x5FC [1, 2, 3, 4] idle).ram 0x5FE = some 3 ∧
      memGet (storeBytes 0x5FC [1, 2, 3, 4] idle).ram 0x5FF = some 4 ∧
      (storeBytes 0x5FC [1, 2, 3, 4] idle).status.busy = false := by
  decide

/-- An OW.RMULTI out of range: it may write only the last two bytes of the last word of DBUF; of the other two, one has
been written. -/
def partly : State := running .owRmulti (args 254 300 0 (storeBytes 0x1FC [7] idle))

theorem witness_RamReadsWhileBusy :
    ∃ w t, 0x1FC % 4 = 0 ∧ (0x100 ≤ 0x1FC ∧ 0x1FC < 0x200) ∧ hostRead .word 0x1FC partly = (w, t) ∧
      partly.status.busy = true ∧ memGet partly.ram 0x1FC = some 7 ∧ ¬ Drawn partly 0x1FC ∧
      memGet partly.ram 0x1FD = none ∧ Drawn partly 0x1FD ∧ Drawn partly 0x1FE ∧ Drawn partly 0x1FF :=
  have un (a : Nat) (h : 0x100 + 254 ≤ a ∧ a < 0x100 + 254 + 300 ∧ a < 0x200) : Drawn partly a := .inr ⟨rfl, _, rfl, h⟩
  ⟨_, _, by decide, by decide, rfl, rfl, by decide,
    by
      rintro (h | ⟨-, l, hl, h⟩)
      · exact absurd h (by decide)
      · cases hl
        exact absurd h (by decide : ¬ (0x100 + 254 ≤ 0x1FC ∧ 0x1FC < 0x100 + 254 + 300 ∧ 0x1FC < 0x200)),
    by decide, .inl (by decide), un 0x1FE (by decide), un 0x1FF (by decide)⟩

/-- A word of which one byte has been written, while no command runs; the last word of RESTAB. -/
theorem witness_RamReadsWhileBusy_idle :
    ∃ s w t, s = storeBytes 0x5FE [7] idle ∧ 0x5FC % 4 = 0 ∧ (0x400 ≤ 0x5FC ∧ 0x5FC < 0x400 + 32 * s.params.maxDevices) ∧
      hostRead .word 0x5FC s = (w, t) ∧ s.status.busy = false ∧ Drawn s 0x5FC ∧ Drawn s 0x5FD ∧ ¬ Drawn s 0x5FE ∧
      Drawn s 0x5FF :=
  ⟨_, _, _, rfl, by decide, by decide, rfl, rfl, .inl (by decide), .inl (by decide),
    fun h => h.elim (fun h => absurd h (by decide)) (fun h => absurd h.1 (by decide)), .inl (by decide)⟩

/-- The windows a search and a read of two devices may write, at their bounds. -/
theorem witness_RamReadsWhileBusy_windows :
    (∃ l, (running (.owSearch .all) idle).latch = some l ∧ ¬ Unsettled (running (.owSearch .all) idle) l 0x1FF ∧
        Unsettled (running (.owSearch .all) idle) l 0x200 ∧ Unsettled (running (.owSearch .all) idle) l 0x27F ∧
        ¬ Unsettled (running (.owSearch .all) idle) l 0x400) ∧
      ∃ l, (validDevices (.tsReadtemp .multi) []).latch = some l ∧
        ¬ Unsettled (validDevices (.tsReadtemp .multi) []) l 0x27F ∧
        Unsettled (validDevices (.tsReadtemp .multi) []) l 0x400 ∧
        Unsettled (validDevices (.tsReadtemp .multi) []) l 0x43F ∧
        ¬ Unsettled (validDevices (.tsReadtemp .multi) []) l 0x440 :=
  ⟨⟨_, rfl, (by decide : ¬ (0x200 ≤ 0x1FF ∧ 0x1FF < 0x200 + 8 * 16)), (by decide : 0x200 ≤ 0x200 ∧ 0x200 < 0x200 + 8 * 16),
      (by decide : 0x200 ≤ 0x27F ∧ 0x27F < 0x200 + 8 * 16), (by decide : ¬ (0x200 ≤ 0x400 ∧ 0x400 < 0x200 + 8 * 16))⟩,
    ⟨_, rfl, (by decide : ¬ (0x400 ≤ 0x27F ∧ 0x27F < 0x400 + 32 * 2 ∧ 0x27F < 0x400 + 32 * 16)),
      (by decide : 0x400 ≤ 0x400 ∧ 0x400 < 0x400 + 32 * 2 ∧ 0x400 < 0x400 + 32 * 16),
      (by decide : 0x400 ≤ 0x43F ∧ 0x43F < 0x400 + 32 * 2 ∧ 0x43F < 0x400 + 32 * 16),
      (by decide : ¬ (0x400 ≤ 0x440 ∧ 0x440 < 0x400 + 32 * 2 ∧ 0x440 < 0x400 + 32 * 16))⟩⟩

theorem witness_RegistryRegisters :
    0 < idle.params.crcCapacity ∧ 3 < idle.params.crcCapacity ∧ idle.registry.length ≤ 3 ∧
      idle.registry[0]? = some slot0 :=
  ⟨by decide, by decide, by decide, rfl⟩

/-- A running command between whose steps the host reads STATUS, waits for two steps and writes ARG0. -/
def interleaved : State :=
  { running .owReset idle with host := [⟨0, .access (.read .word 0x1004)⟩, ⟨2, .access (.write .word 0x1008 7)⟩] }

theorem witness_HostCannotDisturb :
    (running .owReset idle).status.busy = true ∧ (running .owReset idle).host = [] ∧
      interleaved.host = ⟨0, .access (.read .word 0x1004)⟩ :: [⟨2, .access (.write .word 0x1008 7)⟩] ∧
      ({ interleaved with host := [⟨1, .reset true⟩] } : State).host = ⟨0 + 1, .reset true⟩ :: [] := ⟨rfl, rfl, rfl, rfl⟩

/-- 20_memory R110, R111: the read falls before the reset slot, the write, which is dropped, before the end: the host has
read STATUS with BUSY = 1 and SEQ_STATE = BUSY_OTHER. -/
theorem test_host_between_steps :
    let t := after (step { interleaved with bus := [false], host :=
      [⟨0, .access (.read .word 0x1004)⟩, ⟨1, .access (.write .word 0x1008 7)⟩] })
    t.hostReads = [0x00007001] ∧ t.status.ovr = true ∧ t.arg0 = 0 ∧ t.status.busy = false ∧ t.host = [] := by
  decide +kernel

/-- A state with the invariant, in which a reset is due. -/
def resetDue : State := { fresh with host := [⟨0, .reset true⟩] }

theorem witness_StepKeepsInvariant : resetDue.Inv where
  ramWf := rfl
  ramIn := by simp [resetDue, fresh, State.reset]
  romCount := by decide
  slotZero := rfl
  tables := by simp [resetDue, fresh, State.reset, slot0]
  polys := by simp [resetDue, fresh, State.reset, slot0, widthMask]
  distinct := by decide
  capacity := by decide
  released := rfl
  pin := by simp [resetDue, fresh, State.reset]
  latched := rfl
  running := by simp [resetDue, fresh, State.reset, statusReset]
  resting := by simp [resetDue, fresh, State.reset, statusReset]
  devices := by decide

theorem witness_ResetAbandonsEverything : resetDue.Inv ∧ resetDue.host = ⟨0, .reset true⟩ :: [] :=
  ⟨witness_StepKeepsInvariant, rfl⟩

theorem witness_LineOnlyGrows : ∃ t, step (running .owReset (bus [false] idle)) = .next t ∧ t.line ≠ [] :=
  ⟨_, goesOn_next (by decide +kernel), by decide +kernel⟩

theorem witness_NoCommandChangesOperands :
    (running .owReset (bus [false] idle)).host = [] ∧ ∃ t, exec .owReset (running .owReset (bus [false] idle)) = .next t :=
  ⟨rfl, _, goesOn_next (by decide +kernel)⟩

theorem witness_RegisterFrame :
    (running .owWbit idle).host = [] ∧ Instr.owWbit ≠ .owCfgbus ∧ Instr.owWbit ≠ .owSpeed ∧
      (∀ m, Instr.owWbit ≠ .tsConfig m) ∧ (∀ m, Instr.owWbit ≠ .owSearch m) ∧ resetsBus .owWbit = false ∧
      writesRbool .owWbit = false ∧ ∃ t, exec .owWbit (running .owWbit idle) = .next t :=
  ⟨rfl, by decide, by decide, by simp, by simp, rfl, rfl, _, goesOn_next (by decide +kernel)⟩

theorem witness_MemoryFrame :
    ∃ l t, Accepted (running .owRmulti (args 0 1 0 (bus (List.replicate 8 true) idle))) l ∧
      exec .owRmulti (running .owRmulti (args 0 1 0 (bus (List.replicate 8 true) idle))) = .next t :=
  ⟨_, _, ⟨rfl, rfl⟩, goesOn_next (by decide +kernel)⟩

theorem witness_SilentCommandsFrame :
    (running .owSpeed idle).host = [] ∧ silent .owSpeed = true ∧ ∃ t, exec .owSpeed (running .owSpeed idle) = .next t :=
  ⟨rfl, rfl, _, goesOn_next (by decide +kernel)⟩

end Sys2Proof.Tests
end

section
/-! What the host reads of the CRC registry (10_state R48): first where its two registers lie, then what each holds. -/

namespace Sys2Proof.Machine

/-- An aligned word read of a mapped offset is a read of its port (20_memory R101, R103). -/
theorem hostRead_word_eq_readPort {s : State} {off : Nat} {port : Port} (aligned : off % 4 = 0)
    (mapped : portAt s.params off = some port) : hostRead .word off s = readPort port off s := by
  have hp : accessPort s.params .word off = some port := (if_pos ⟨rfl, aligned⟩).trans mapped
  simp only [hostRead, hp]

theorem portAt_crcPoly (p : Params) {i : Nat} (hi : i < p.crcCapacity) :
    portAt p (0x040 + 8 * i) = some (.crcPoly i) := by
  have hdiv : (0x040 + 8 * i - 0x040) / 8 = i := by omega
  rw [portAt_high p (by omega), if_pos (by omega), if_pos (by omega), hdiv]

theorem portAt_crcCfg (p : Params) {i : Nat} (hi : i < p.crcCapacity) :
    portAt p (0x044 + 8 * i) = some (.crcCfg i) := by
  have hdiv : (0x044 + 8 * i - 0x040) / 8 = i := by omega
  rw [portAt_high p (by omega), if_pos (by omega), if_neg (by omega), hdiv]

theorem hostRead_crcCount (s : State) :
    hostRead .word 0x038 s = (BitVec.ofNat 32 s.registry.length, s) :=
  hostRead_word_eq_readPort (port := .crcCount) rfl rfl

theorem hostRead_crcPoly {s : State} {i : Nat} (hi : i < s.params.crcCapacity) :
    hostRead .word (0x040 + 8 * i) s = (crcPolyWord s.registry i, s) :=
  hostRead_word_eq_readPort (by omega) (portAt_crcPoly s.params hi)

theorem hostRead_crcCfg {s : State} {i : Nat} (hi : i < s.params.crcCapacity) :
    hostRead .word (0x044 + 8 * i) s = (crcCfgWord s.registry i, s) :=
  hostRead_word_eq_readPort (by omega) (portAt_crcCfg s.params hi)

theorem crcPolyWord_of_invalid {r : List CrcSlot} {i : Nat} (invalid : r.length ≤ i) : crcPolyWord r i = 0 := by
  simp only [crcPolyWord, List.getElem?_eq_none invalid]

theorem crcCfgWord_of_invalid {r : List CrcSlot} {i : Nat} (invalid : r.length ≤ i) : crcCfgWord r i = 0 := by
  simp only [crcCfgWord, List.getElem?_eq_none invalid]

theorem crcPolyWord_of_valid {r : List CrcSlot} {i : Nat} {sl : CrcSlot} (valid : r[i]? = some sl) :
    crcPolyWord r i = sl.poly := by
  simp only [crcPolyWord, valid]

/-- The fields of CRCCFG[i] for a valid slot. The word depends on the slot through its width and its two flags only, so
each field is read off for the twelve words there are. -/
theorem crcCfgWord_fields_of_valid {r : List CrcSlot} {i : Nat} {sl : CrcSlot} (valid : r[i]? = some sl) :
    (crcCfgWord r i).extractLsb' 0 6 = BitVec.ofNat 6 (widthBits sl.width) ∧
    (crcCfgWord r i).extractLsb' 6 2 = 0 ∧ (crcCfgWord r i).getLsbD 8 = sl.refin ∧
    (crcCfgWord r i).getLsbD 9 = sl.refout ∧ (crcCfgWord r i).extractLsb' 10 21 = 0 ∧
    (crcCfgWord r i).getLsbD 31 = true := by
  simp only [crcCfgWord, valid]
  generalize sl.width = width, sl.refin = refin, sl.refout = refout
  revert refin refout
  cases width <;> decide

/-- Settles O50: each register's offset names its port, and the port reads the word of R48. -/
theorem registryRegisters : Obligations.RegistryRegisters := by
  unfold Obligations.RegistryRegisters
  intro s i hi
  rw [hostRead_crcCount, hostRead_crcPoly hi, hostRead_crcCfg hi]
  refine ⟨rfl, fun invalid => ?_, fun sl valid => ⟨?_, ?_⟩⟩
  · rw [crcPolyWord_of_invalid invalid, crcCfgWord_of_invalid invalid]
    exact ⟨rfl, rfl⟩
  · rw [crcPolyWord_of_valid valid]
  · rintro w rfl
    exact crcCfgWord_fields_of_valid valid

end Sys2Proof.Machine
end

section
/-! The host port's accesses (20_memory R101, R103, R111, R102): what a word write comes to, then which accesses are
refused, ignored or dropped, then the RAM words. -/

namespace Sys2Proof.Machine

/-! ## Which port, and what its write comes to -/

/-- An access of another width, at an unaligned or at an unmapped offset reaches no port (20_memory R103). -/
theorem accessPort_eq_none_of_refused {p : Params} {w : AccessWidth} {off : Nat}
    (refused : ¬ (w = .word ∧ off % 4 = 0 ∧ Mapped p off)) : accessPort p w off = none := by
  unfold accessPort
  split
  case isTrue word => exact portAt_none p fun mapped => refused ⟨word.1, word.2, mapped⟩
  case isFalse => rfl

/-- An aligned word write of a mapped offset is a write of its port, or a drop (20_memory R101, R111). -/
theorem hostWrite_word_eq_writePort {s : State} {off : Nat} {port : Port} (v : Word) (aligned : off % 4 = 0)
    (mapped : portAt s.params off = some port) : hostWrite .word off v s =
      if s.status.busy && droppedWhileBusy port then setOvr s else writePort port off v s := by
  have hp : accessPort s.params .word off = some port := (if_pos ⟨rfl, aligned⟩).trans mapped
  simp only [hostWrite, hp]

theorem hostWrite_dropped {s : State} {off : Nat} {port : Port} (v : Word) (aligned : off % 4 = 0)
    (mapped : portAt s.params off = some port) (busy : s.status.busy = true)
    (dropped : droppedWhileBusy port = true) : hostWrite .word off v s = setOvr s := by
  simp only [hostWrite_word_eq_writePort v aligned mapped, busy, dropped, Bool.and_self, if_true]

theorem hostWrite_not_dropped {s : State} {off : Nat} {port : Port} (v : Word) (aligned : off % 4 = 0)
    (mapped : portAt s.params off = some port) (performed : droppedWhileBusy port = false) :
    hostWrite .word off v s = writePort port off v s := by
  simp [hostWrite_word_eq_writePort v aligned mapped, performed]

theorem hostWrite_idle {s : State} {off : Nat} {port : Port} (v : Word) (aligned : off % 4 = 0)
    (mapped : portAt s.params off = some port) (idle : s.status.busy = false) :
    hostWrite .word off v s = writePort port off v s := by
  simp [hostWrite_word_eq_writePort v aligned mapped, idle]

/-! ## Refused and ignored accesses -/

theorem hostRead_refused {s : State} {w : AccessWidth} {off : Nat}
    (refused : ¬ (w = .word ∧ off % 4 = 0 ∧ Mapped s.params off)) : hostRead w off s = (0, setAccerr s) := by
  simp only [hostRead, accessPort_eq_none_of_refused refused]

theorem hostWrite_refused {s : State} {w : AccessWidth} {off : Nat} (v : Word)
    (refused : ¬ (w = .word ∧ off % 4 = 0 ∧ Mapped s.params off)) : hostWrite w off v s = setAccerr s := by
  simp only [hostWrite, accessPort_eq_none_of_refused refused]

/-- The read-only registers below the registry. -/
theorem hostWrite_readOnly_fixed {s : State} {off : Nat} (v : Word)
    (h : off ∈ [0x014, 0x018, 0x01C, 0x020, 0x038]) : hostWrite .word off v s = s := by
  fin_cases h
  · exact hostWrite_not_dropped (port := .result0) v rfl rfl rfl
  · exact hostWrite_not_dropped (port := .result1) v rfl rfl rfl
  · exact hostWrite_not_dropped (port := .busCfg) v rfl rfl rfl
  · exact hostWrite_not_dropped (port := .devCfg) v rfl rfl rfl
  · exact hostWrite_not_dropped (port := .crcCount) v rfl rfl rfl

theorem hostWrite_crc {s : State} {off : Nat} (v : Word) (aligned : off % 4 = 0) (lo : 0x040 ≤ off)
    (hi : off < 0x040 + 8 * s.params.crcCapacity) : hostWrite .word off v s = s := by
  obtain poly | cfg := portAt_crc s.params lo hi
  · exact hostWrite_not_dropped v aligned poly rfl
  · exact hostWrite_not_dropped v aligned cfg rfl

theorem hostWrite_restab {s : State} {off : Nat} (v : Word) (aligned : off % 4 = 0) (lo : 0x400 ≤ off)
    (hi : off < 0x400 + 32 * s.params.maxDevices) : hostWrite .word off v s = s :=
  hostWrite_not_dropped v aligned (portAt_restab s.params lo hi) rfl

/-- Settles O43: a refused access reaches no port; a read-only one does, and its write is the state it found. -/
theorem refusedAndIgnoredAccesses : Obligations.RefusedAndIgnoredAccesses := by
  unfold Obligations.RefusedAndIgnoredAccesses
  intro s w off v
  refine ⟨fun refused => ⟨hostRead_refused refused, hostWrite_refused v refused⟩, fun aligned readOnly => ?_⟩
  obtain fixed | ⟨lo, hi⟩ | ⟨lo, hi⟩ := readOnly
  · exact hostWrite_readOnly_fixed v fixed
  · exact hostWrite_crc v aligned lo hi
  · exact hostWrite_restab v aligned lo hi

/-! ## Writes while a command runs -/

/-- The registers a running command protects are ports whose writes it drops. -/
theorem hostWrite_busy_register {s : State} {off : Nat} (v : Word) (busy : s.status.busy = true)
    (h : off ∈ [0x000, 0x008, 0x00C, 0x010, 0x024, 0x028, 0x030, 0x034]) : hostWrite .word off v s = setOvr s := by
  fin_cases h
  · exact hostWrite_dropped (port := .cmd) v rfl rfl busy rfl
  · exact hostWrite_dropped (port := .arg0) v rfl rfl busy rfl
  · exact hostWrite_dropped (port := .arg1) v rfl rfl busy rfl
  · exact hostWrite_dropped (port := .arg2) v rfl rfl busy rfl
  · exact hostWrite_dropped (port := .targetLo) v rfl rfl busy rfl
  · exact hostWrite_dropped (port := .targetHi) v rfl rfl busy rfl
  · exact hostWrite_dropped (port := .fosc) v rfl rfl busy rfl
  · exact hostWrite_dropped (port := .romCount) v rfl rfl busy rfl

/-- Settles O44: each protected offset is a port whose write is dropped; STATUS and CORR_OFFSET are written as ever. -/
theorem writesWhileBusy : Obligations.WritesWhileBusy := by
  unfold Obligations.WritesWhileBusy
  intro s off v busy
  refine ⟨?_, hostWrite_not_dropped (port := .status) v rfl rfl rfl,
    hostWrite_not_dropped (port := .corrOffset) v rfl rfl rfl⟩
  rintro (register | ⟨aligned, ⟨lo, hi⟩ | ⟨lo, hi⟩⟩)
  · exact hostWrite_busy_register v busy register
  · exact hostWrite_dropped v aligned (portAt_dbuf s.params lo hi) busy rfl
  · exact hostWrite_dropped v aligned (portAt_romtab s.params lo hi) busy rfl

/-! ## RAM words -/

theorem memGet_storeBytes_wordBytes (s : State) (off : Nat) (v : Word) {k : Nat} (hk : k < 4) :
    memGet (storeBytes off (wordBytes v) s).ram (off + k) = some (v.extractLsb' (8 * k) 8) := by
  have inside : off ≤ off + k ∧ off + k < off + (wordBytes v).length := by rw [wordBytes_length]; omega
  simp only [storeBytes, memGet_memSetBytes, if_pos inside, Nat.add_sub_cancel_left]
  simp [wordBytes, hk]

theorem memGet_storeBytes_wordBytes_outside (s : State) {off : Nat} (v : Word) {a : Nat}
    (outside : a < off ∨ off + 4 ≤ a) : memGet (storeBytes off (wordBytes v) s).ram a = memGet s.ram a := by
  simp only [storeBytes, memGet_memSetBytes, wordBytes_length]
  exact if_neg (by omega)

/-- While no command runs, the host writes a word of DBUF or ROMTAB by storing its bytes. -/
theorem hostWrite_ram_idle {s : State} {off : Nat} (v : Word) (aligned : off % 4 = 0)
    (idle : s.status.busy = false)
    (window : 0x100 ≤ off ∧ off < 0x200 ∨ 0x200 ≤ off ∧ off < 0x200 + 8 * s.params.maxDevices) :
    hostWrite .word off v s = storeBytes off (wordBytes v) s := by
  obtain ⟨lo, hi⟩ | ⟨lo, hi⟩ := window
  · exact hostWrite_idle v aligned (portAt_dbuf s.params lo hi) idle
  · exact hostWrite_idle v aligned (portAt_romtab s.params lo hi) idle

/-- A word read of any of the three RAM windows is the word of its four bytes. -/
theorem hostRead_ram {s : State} {off : Nat} (aligned : off % 4 = 0)
    (window : 0x100 ≤ off ∧ off < 0x200 ∨ 0x200 ≤ off ∧ off < 0x200 + 8 * s.params.maxDevices ∨
      0x400 ≤ off ∧ off < 0x400 + 32 * s.params.maxDevices) : hostRead .word off s = hostWord off s := by
  obtain ⟨lo, hi⟩ | ⟨lo, hi⟩ | ⟨lo, hi⟩ := window
  · exact hostRead_word_eq_readPort aligned (portAt_dbuf s.params lo hi)
  · exact hostRead_word_eq_readPort aligned (portAt_romtab s.params lo hi)
  · exact hostRead_word_eq_readPort aligned (portAt_restab s.params lo hi)

/-- While no command runs, the host reads RAM bytes as the block does: none is withheld (20_memory R112). -/
theorem hostBytes_idle (a n : Nat) {s : State} (idle : s.status.busy = false) : hostBytes a n s = ramBytes a n s := by
  induction n generalizing a s with
  | zero => rfl
  | succ n ih =>
    have head : hostByte a s = ramByte a s := by simp [hostByte, idle]
    have idle' : (ramByte a s).2.status.busy = false := by rw [ramByte_frame]; exact idle
    simp only [hostBytes, ramBytes, head, ih (a + 1) idle']

/-- Appending a byte below shifts what stands above it up by eight bits: one step of the little-endian fold. -/
theorem wordOfBytes_four (b0 b1 b2 b3 : Byte) : wordOfBytes [b0, b1, b2, b3] = (b3 ++ b2 ++ b1 ++ b0 : Word) :=
  calc wordOfBytes [b0, b1, b2, b3]
    _ = ((b3.setWidth 32 <<< 8 ||| b2.setWidth 32) <<< 8 ||| b1.setWidth 32) <<< 8 ||| b0.setWidth 32 := by
      simp [wordOfBytes]
    _ = (b3 ++ b2 ++ b1 ++ b0).setWidth 32 := by simp only [BitVec.setWidth_append_eq_shiftLeft_setWidth_or]
    _ = (b3 ++ b2 ++ b1 ++ b0 : Word) := BitVec.setWidth_eq _

/-- Four written bytes, read as a word while no command runs, with no draw. -/
theorem hostWord_written {s : State} {off : Nat} {b0 b1 b2 b3 : Byte} (idle : s.status.busy = false)
    (h0 : memGet s.ram off = some b0) (h1 : memGet s.ram (off + 1) = some b1)
    (h2 : memGet s.ram (off + 2) = some b2) (h3 : memGet s.ram (off + 3) = some b3) :
    hostWord off s = ((b3 ++ b2 ++ b1 ++ b0 : Word), s) := by
  have written : ∀ k, k < 4 → memGet s.ram (off + k) = [b0, b1, b2, b3][k]?
    | 0, _ => h0
    | 1, _ => h1
    | 2, _ => h2
    | 3, _ => h3
  have bytes : hostBytes off 4 s = ([b0, b1, b2, b3], s) :=
    (hostBytes_idle off 4 idle).trans (ramBytes_written rfl written)
  simp only [hostWord, bytes, wordOfBytes_four]

/-- Settles O47: an idle write stores the word's bytes, lowest first, and an idle read of written bytes joins them in the
same order. -/
theorem ramWordsAreLittleEndian : Obligations.RamWordsAreLittleEndian := by
  unfold Obligations.RamWordsAreLittleEndian
  intro s off aligned idle
  refine ⟨fun v window t ht => ?_, fun b0 b1 b2 b3 window h0 h1 h2 h3 => ?_⟩
  · obtain rfl : t = storeBytes off (wordBytes v) s := ht.trans (hostWrite_ram_idle v aligned idle window)
    have byte {k : Nat} (hk : k < 4) := memGet_storeBytes_wordBytes s off v hk
    exact ⟨byte (k := 0) (by decide), byte (k := 1) (by decide), byte (k := 2) (by decide), byte (k := 3) (by decide),
      fun a outside => memGet_storeBytes_wordBytes_outside s v outside, rfl⟩
  · rw [hostRead_ram aligned window, hostWord_written idle h0 h1 h2 h3]

end Sys2Proof.Machine
end

section
/-! Encoding (30_encoding): which words have a command (R147), how a word that has none ends, and what a host write of
CMD does (R145, R146). -/

namespace Sys2Proof.Machine

/-! ## Which words have a command -/

/-- An opcode outside the map reaches the last row of the decoder, whatever its MODE. -/
theorem decodeOpcode_unassigned {opc : Byte} (mode : Bool) (unassigned : opc ∉ assignedOpcodes) :
    decodeOpcode opc mode = .error .opcode := by
  simp only [assignedOpcodes, List.mem_cons, List.not_mem_nil, or_false, not_or, ← BitVec.toNat_inj] at unassigned
  unfold decodeOpcode
  split
  case h_22 => rfl
  all_goals simp_all

/-- An opcode with two variants has a command in either MODE (30_encoding R143). -/
theorem decodeOpcode_modal {opc : Byte} (mode : Bool) (modal : opc ∈ modalOpcodes) :
    ∃ i, decodeOpcode opc mode = .ok i := by
  fin_cases modal <;> exact ⟨_, rfl⟩

/-- Any other opcode of the map has one command, whose MODE must be 0 (30_encoding R143). -/
theorem decodeOpcode_modeless {opc : Byte} (mode : Bool) (assigned : opc ∈ assignedOpcodes)
    (unmodal : opc ∉ modalOpcodes) : ∃ i, decodeOpcode opc mode = modeless i mode := by
  have row : opc ∈ assignedOpcodes.filter (· ∉ modalOpcodes) := List.mem_filter.mpr ⟨assigned, by simpa using unmodal⟩
  fin_cases row <;> exact ⟨_, rfl⟩

/-- The opcode map has a command for OPC and MODE exactly when OPC is assigned and MODE is 0 or has a meaning. -/
theorem decodeOpcode_ok_iff (opc : Byte) (mode : Bool) :
    (∃ i, decodeOpcode opc mode = .ok i) ↔ opc ∈ assignedOpcodes ∧ (mode = true → opc ∈ modalOpcodes) := by
  have modal_assigned : modalOpcodes ⊆ assignedOpcodes := by decide
  by_cases modal : opc ∈ modalOpcodes
  · simp [decodeOpcode_modal mode modal, modal, modal_assigned modal]
  · by_cases assigned : opc ∈ assignedOpcodes
    · obtain ⟨i, hi⟩ := decodeOpcode_modeless mode assigned modal
      cases mode <;> simp [hi, modeless, assigned, modal]
    · simp [decodeOpcode_unassigned mode assigned, assigned]

theorem decode_eq_some_iff_decodeNamed (w : Word) (i : Instr) : decode w = some i ↔ decodeNamed w = .ok i := by
  unfold decode
  split <;> simp [*]

/-- RSV must be 0; then OPC and MODE say what the command is (30_encoding R140, R144). -/
theorem decode_eq_some_iff (w : Word) (i : Instr) :
    decode w = some i ↔ w.extractLsb' 9 23 = 0 ∧ decodeOpcode (w.extractLsb' 0 8) (w.getLsbD 8) = .ok i := by
  rw [decode_eq_some_iff_decodeNamed]
  simp only [decodeNamed, commandFields]
  by_cases reserved : w.extractLsb' 9 23 = 0
  · simp only [reserved, if_true, true_and]
  · simp only [reserved, if_false, false_and, reduceCtorEq]

/-- The words with a command are the legal ones (30_encoding R147, R148). -/
theorem exists_decode_iff (w : Word) : (∃ i, decode w = some i) ↔ LegalWord w := by
  simp only [decode_eq_some_iff, exists_and_left, decodeOpcode_ok_iff, LegalWord]
  exact and_left_comm

theorem decode_eq_none_iff (w : Word) : decode w = none ↔ ¬ LegalWord w := by
  rw [← exists_decode_iff, ← Option.isSome_iff_exists, Option.not_isSome_iff_eq_none]

/-! ## The end of an illegal word -/

/-- A step of an accepted illegal word is the error end alone, in whatever state the word was accepted. -/
theorem step_illegal {s : State} {l : Latch} (accepted : Accepted s l) (busy : s.status.busy = true)
    (illegal : ¬ LegalWord s.lcmd) : step s = .next (errorEnd .illegal 0 s) := by
  have rejected : rejectWord s = .next (errorEnd .illegal 0 s) :=
    runRule_error accepted.latched (raise_quiet accepted.quiet)
  simp only [step, busy, if_true, (decode_eq_none_iff s.lcmd).mpr illegal, rejected]

/-- Settles O4: the decoder refuses what one of R147's three checks refuses, and the step of a refused word is its end,
which records nothing on the line. -/
theorem illegalWordEnds : Obligations.IllegalWordEnds := by
  unfold Obligations.IllegalWordEnds
  exact ⟨decode_eq_none_iff, fun s l accepted busy illegal => ⟨step_illegal accepted busy illegal, rfl⟩⟩

/-! ## Acceptance -/

/-- A write of CMD while no command runs accepts the word, legal or not (30_encoding R145). -/
theorem hostWrite_cmd_idle {s : State} (w : Word) (idle : s.status.busy = false) :
    hostWrite .word 0x000 w s = accept w s :=
  hostWrite_idle (port := .cmd) w rfl rfl idle

/-- A word just accepted, with the host silent, is a running command with the operands it latched. -/
theorem accepted_accept {s : State} (w : Word) (quiet : s.host = []) :
    Accepted (accept w s)
      { a0 := s.arg0, a1 := s.arg1, a2 := s.arg2, corr := s.corrOffset, foscl := foscEff s, tgt := targetId s } :=
  ⟨quiet, rfl⟩

/-- Settles O6: CMD's write is dropped while a command runs and is the acceptance of the word while none does; the step
after the acceptance of an illegal word is the step of O4. -/
theorem commandAcceptance : Obligations.CommandAcceptance := by
  unfold Obligations.CommandAcceptance
  refine fun s w => ⟨fun busy => ?dropped, fun idle => ?accepted, fun idle quiet illegal => ?rejected⟩
  case dropped => exact hostWrite_busy_register w busy (by decide)
  case accepted => exact (hostWrite_cmd_idle w idle).trans rfl
  case rejected =>
    rw [hostWrite_cmd_idle w idle]
    exact step_illegal (accepted_accept w quiet) rfl illegal

end Sys2Proof.Machine
end

section
/-! The CRC engine (40_crc): reflection bit by bit (R200, R201), then what CRC.REG does for each outcome of its checks
(R206). -/

namespace Sys2Proof.Machine

/-! ## Reflection -/

/-- reflect_W of any width: the low W bits reversed, extended with zeros (40_crc R200). -/
theorem reflect_eq_reverse (w : CrcWidth) (v : Word) :
    reflect w v = ((v.setWidth (widthBits w)).reverse).setWidth 32 := by
  cases w with
  | w8 => rfl
  | w16 => rfl
  | w32 => exact (congrArg BitVec.reverse (BitVec.setWidth_eq v)).symm.trans (BitVec.setWidth_eq _).symm

/-- Bit i of reflect_W is bit W-1-i of its argument (40_crc R200). -/
theorem getLsbD_reflect (w : CrcWidth) (v : Word) (i : Nat) :
    (reflect w v).getLsbD i = (decide (i < widthBits w) && v.getLsbD (widthBits w - 1 - i)) := by
  have width_le : widthBits w ≤ 32 := by cases w <;> decide
  rw [reflect_eq_reverse, BitVec.getLsbD_setWidth, BitVec.getLsbD_reverse, BitVec.getMsbD_eq_getLsbD,
    BitVec.getLsbD_setWidth]
  by_cases hi : i < widthBits w
  · have inWord : i < 32 := by omega
    have mirrored : widthBits w - 1 - i < widthBits w := by omega
    simp only [hi, inWord, mirrored, decide_true, Bool.true_and]
  · simp only [hi, decide_false, Bool.false_and, Bool.and_false]

/-- Mirroring a bit's index twice gives it back, and a W-bit value has no bit to lose at W or above. -/
theorem reflect_reflect {w : CrcWidth} {v : Word} (fits : v.toNat ≤ (widthMask w).toNat) :
    reflect w (reflect w v) = v := by
  apply BitVec.eq_of_getLsbD_eq
  intro i _
  by_cases hi : i < widthBits w
  · have mirrored : widthBits w - 1 - i < widthBits w := by omega
    have twice : widthBits w - 1 - (widthBits w - 1 - i) = i := by omega
    simp only [getLsbD_reflect, hi, mirrored, twice, decide_true, Bool.true_and]
  · simp only [getLsbD_reflect, hi, decide_false, Bool.false_and, high_zero fits (Nat.le_of_not_lt hi)]

/-- Settles O8: reflection is read bit by bit, and the mirror image of an index is its own inverse below W. -/
theorem reflectionSelfInverse : Obligations.ReflectionSelfInverse := by
  unfold Obligations.ReflectionSelfInverse
  exact ⟨getLsbD_reflect, fun _ _ fits => reflect_reflect fits⟩

/-! ## The checks of CRC.REG, in their order -/

theorem findPoly_isSome_iff {r : List CrcSlot} {poly : Word} :
    (findPoly r poly).isSome ↔ ∃ sl ∈ r, sl.poly = poly := by
  simp only [findPoly, List.find?_isSome, beq_iff_eq]

/-- The new slot's table is `gen_table(P, W)`: CRC_TABLE_ENTRIES has one legal value (00_scope R11). -/
theorem newSlot_eq (p : Params) (poly : Word) (w : CrcWidth) (l : Latch) :
    newSlot p poly w l =
      { poly := poly, width := w, refin := l.a2.getLsbD 0, refout := l.a2.getLsbD 1, table := genTable poly w } := by
  rw [newSlot, Params.crcTableEntries_eq]; rfl

/-- An operand that is none of 8, 16, 32 names no width (30_encoding R142). -/
theorem widthOf_eq_none {v : Word} (h8 : v ≠ 8) (h16 : v ≠ 16) (h32 : v ≠ 32) : widthOf v = none := by
  simp only [widthOf, h8, h16, h32, if_false]

theorem registerCheck_zero {l : Latch} {s : State} (zero : l.a0 = 0) : registerCheck l s = .error .crcCfg := if_pos zero

theorem registerCheck_noWidth {l : Latch} {s : State} (nonzero : l.a0 ≠ 0) (noWidth : widthOf l.a1 = none) :
    registerCheck l s = .error .crcCfg :=
  (if_neg nonzero).trans (by rw [widthOperand_eq, noWidth])

/-- A nonzero polynomial with a legal width is left to the other three checks. -/
theorem registerCheck_width {l : Latch} {s : State} {w : CrcWidth} (nonzero : l.a0 ≠ 0) (width : widthOf l.a1 = some w) :
    registerCheck l s =
      if (widthMask w).toNat < l.a0.toNat then .error .crcCfg
      else if (findPoly s.registry l.a0).isSome then .error .crcDup
      else if s.params.crcCapacity ≤ s.registry.length then .error .crcFull
      else .ok (newSlot s.params l.a0 w l) :=
  (if_neg nonzero).trans (by rw [widthOperand_eq, width])

/-! ## What CRC.REG does -/

/-- CRC.REG is one sequencer step (40_crc R213). -/
theorem exec_crcReg {s : State} {l : Latch} (accepted : Accepted s l) :
    exec .crcReg s = .next (registerPoly l s) :=
  runRule_error accepted.latched (lastStep_quiet accepted.quiet)

/-- A check that fails ends the command, and nothing is registered. -/
theorem exec_crcReg_error {s : State} {l : Latch} {e : ErrCode} (accepted : Accepted s l)
    (refused : registerCheck l s = .error e) : exec .crcReg s = .next (errorEnd e 0 s) := by
  rw [exec_crcReg accepted, registerPoly, refused]

/-- A slot that passes the checks is appended, and its index is the result. -/
theorem exec_crcReg_ok {s : State} {l : Latch} {sl : CrcSlot} (accepted : Accepted s l)
    (passed : registerCheck l s = .ok sl) : exec .crcReg s =
      .next (okEnd (BitVec.ofNat 32 s.registry.length) 0 { s with registry := s.registry ++ [sl] }) := by
  rw [exec_crcReg accepted, registerPoly, passed]

/-- Settles O11: each clause is the outcome of one check of R206, those before it passed. -/
theorem crcRegOutcome : Obligations.CrcRegOutcome := by
  unfold Obligations.CrcRegOutcome
  refine ⟨rfl, fun s l accepted => ?_⟩
  have zeroEnds (zero : l.a0 = 0) : exec .crcReg s = .next (errorEnd .crcCfg 0 s) :=
    exec_crcReg_error accepted (registerCheck_zero zero)
  refine ⟨zeroEnds, fun h8 h16 h32 => ?noWidth, fun w named => ?width⟩
  case noWidth =>
    by_cases zero : l.a0 = 0
    · exact zeroEnds zero
    · exact exec_crcReg_error accepted (registerCheck_noWidth zero (widthOf_eq_none h8 h16 h32))
  case width =>
    have width : widthOf l.a1 = some w := named ▸ widthOf_bits w
    refine ⟨fun tooWide => ?tooWide, fun nonzero fits => ?legal⟩
    case tooWide =>
      have nonzero : l.a0 ≠ 0 := fun zero => Nat.not_lt_zero _ (zero ▸ tooWide)
      exact exec_crcReg_error accepted ((registerCheck_width nonzero width).trans (if_pos tooWide))
    case legal =>
      have legal := (registerCheck_width (s := s) nonzero width).trans (if_neg (Nat.not_lt.mpr fits))
      have new (unused : ∀ sl ∈ s.registry, sl.poly ≠ l.a0) : ¬ (findPoly s.registry l.a0).isSome :=
        fun found => let ⟨sl, mem, same⟩ := findPoly_isSome_iff.mp found; unused sl mem same
      refine ⟨fun taken => ?duplicate, fun unused full => ?full, fun unused room => ?registered⟩
      case duplicate => exact exec_crcReg_error accepted (legal.trans (if_pos (findPoly_isSome_iff.mpr taken)))
      case full => exact exec_crcReg_error accepted (legal.trans ((if_neg (new unused)).trans (if_pos full)))
      case registered =>
        have passed := legal.trans ((if_neg (new unused)).trans (if_neg (Nat.not_le.mpr room)))
        rw [exec_crcReg_ok accepted passed, newSlot_eq]

end Sys2Proof.Machine
end

section
/-! The equation of CRC.REG's body. No proof below cites it: naming it in a statement derives it here, once. The proofs of
CRC.REG's outcome, which Lean elaborates side by side after this statement, would else derive it in parallel, one waiting
for the other on a thread of its own while the tests hold nearly all the memory for threads that the check allows. -/

namespace Sys2Proof.Machine

theorem registerPoly_eq : type_of% @registerPoly.eq_1 := registerPoly.eq_1

end Sys2Proof.Machine
end

section
/-! An error end of a search leaves the ROM table empty (42_search R313): what the one failing end of a search leaves, and
that a search whose host is quiet ends in it or in the good end, whatever the bus and the clock answer. -/

namespace Sys2Proof.Machine

/-- The state t leaves the ROM table of the search that began in s empty, if it is an error end. -/
def EmptiesTableOnError (s t : State) : Prop :=
  t.status.errcode ≠ .none → t.romCount = 0 ∧ t.result0 = 0 ∧ ∀ a, romtabBytes s a → memGet t.ram a = some 0

/-- While the search that began in s runs: the host is quiet, and the parameters are those of s. -/
abbrev QuietSince (s : State) : State → Prop := Qt s.params fun _ => True

/-- A table without ids is zero in every byte. -/
theorem memGet_withRomtab_nil {s : State} {a : Nat} (inTable : romtabBytes s a) :
    memGet (withRomtab [] s).ram a = some 0 := by
  obtain ⟨above, below⟩ := inTable
  have image : (withRomtab [] s).ram = memSetBytes s.ram romtabBase (List.replicate (8 * s.params.maxDevices) 0) := rfl
  rw [image, memGet_memSetBytes, List.length_replicate, if_pos ⟨above, below⟩, List.getElem?_replicate,
    if_pos (by omega)]

theorem emptiesTableOnError_errorEnd {s u : State} (e : ErrCode) (sameParams : u.params = s.params) :
    EmptiesTableOnError s (errorEnd e 0 (withRomtab [] u)) := by
  have sameTable (a : Nat) (inTable : romtabBytes s a) : romtabBytes u a := by rwa [romtabBytes, sameParams]
  exact fun _ => ⟨rfl, rfl, fun a inTable => memGet_withRomtab_nil (sameTable a inTable)⟩

theorem emptiesTableOnError_okEnd (s u : State) (r0 r1 : Word) : EmptiesTableOnError s (okEnd r0 r1 u) :=
  fun failed => absurd rfl failed

/-- `fail(e)` of a quiet search ends the step with the table empty. -/
theorem searchFail_emptiesTable {α : Type} (s : State) (e : ErrCode) (Q : α → State → Prop) :
    Meets (QuietSince s) (searchFail e : Seq α) Q (IfNext (EmptiesTableOnError s)) := by
  intro u hu
  rw [searchFail_eq hu.quiet]
  exact ifNext_next (emptiesTableOnError_errorEnd e hu.params)

/-- `succeed(ids)` of a quiet search is no error end. -/
theorem searchSucceed_emptiesTable {α : Type} (s : State) (ids : List RomId) (Q : α → State → Prop) :
    Meets (QuietSince s) (searchSucceed ids : Seq α) Q (IfNext (EmptiesTableOnError s)) := by
  intro u hu
  rw [searchSucceed_quiet hu.quiet]
  exact ifNext_next (emptiesTableOnError_okEnd s _ _ _)

/-- Reading the clock leaves the host quiet and the parameters as they are. -/
theorem now_keeps_quietSince (s : State) (E : Halt → Prop) : Keeps (QuietSince s) E now := by
  refine meets_step qh fun u hu => ?_
  obtain ⟨readings, reads, frame⟩ := readClock_frame' u
  rw [frame]
  exact ⟨hu.quiet, hu.params, trivial⟩

/-- No ids and no search state are asked for: the error ends depend on neither. -/
theorem searchSteps_emptiesTable (s : State) :
    SearchSteps s.params (fun _ => True) (fun _ => True) (QuietSince s) (IfNext (EmptiesTableOnError s)) where
  slotRead := meets_step qh fun u hu => by
    rw [readSlot_eq u _ rfl]
    exact ⟨hu.quiet, hu.params, trivial⟩
  slotWrite := fun b => meets_step qh fun u hu => by
    simp only [writeSlot_eq]
    exact ⟨hu.quiet, hu.params, trivial⟩
  slotReset := meets_step qh fun u hu => by
    rw [resetSlot_eq u _ rfl]
    exact ⟨hu.quiet, hu.params, trivial⟩
  now := now_keeps_quietSince _ _
  fails := fun e _ => searchFail_emptiesTable s e
  succeeds := fun ids _ => searchSucceed_emptiesTable s ids
  noneFound := searchSucceed_emptiesTable s [] _
  params := fun _ hu => hu.params
  known := fun _ _ => trivial
  search := fun _ _ _ hu => ⟨hu.quiet, hu.params, trivial⟩
  walk := fun _ _ _ _ => trivial
  restart := fun _ _ => trivial
  failed := fun _ _ => trivial
  keep := fun _ _ _ _ => ⟨trivial, trivial⟩

/-- The whole rule, BAD_PIN included, which ends before there is a search state. -/
theorem searchRule_emptiesTable (m : SearchMode) (l : Latch) (s : State) (Q : Unit → State → Prop) :
    Meets (QuietSince s) (searchRule m l) Q (IfNext (EmptiesTableOnError s)) := by
  have start : Meets (QuietSince s) now (fun t u => QuietSince s { u with search := some (freshSearch t) })
      (IfNext (EmptiesTableOnError s)) :=
    meets_mono (now_keeps_quietSince s _) (fun _ hu => hu) (fun _ _ hu => ⟨hu.quiet, hu.params, trivial⟩) fun _ ho => ho
  exact (searchSteps_emptiesTable s).searchRule start (searchFail_emptiesTable s .badPin) m l Q

/-- Settles O24: a search ends through `fail(e)` or `succeed(ids)` only, the first with the table empty, the second with
no error. -/
theorem searchErrorEmptiesTable : Obligations.SearchErrorEmptiesTable := by
  unfold Obligations.SearchErrorEmptiesTable
  intro m s t l accepted answer
  have ends : IfNext (EmptiesTableOnError s) (runRule (searchRule m) s) :=
    runRule_meets accepted.latched (meets_at (searchRule_emptiesTable m l s _) ⟨accepted.quiet, rfl, trivial⟩)
  exact ends t answer

end Sys2Proof.Machine
end

section
/-! The session commands' first checks (43_session): the address step (R351), the target check (R352) and what it or an
empty device list ends (R360), and the outcome of TS.CONVERT (R358). -/

namespace Sys2Proof.Machine

/-! ## The address step -/

/-- What a reset slot does on the line before its sample, newest first (41_bus R252). -/
def beforeResetSample (s : State) : List LineEvent :=
  [.delay (s.params.tp s.busCfg.speed).rstSample, .release s.busCfg.pin, .delay (s.params.tp s.busCfg.speed).rstLow,
    .low s.busCfg.pin]

/-- The state with its next answer listed, whether the bus environment lists it or gives it freely (41_bus R256). -/
def withAnswer (v : Bool) (s : State) : State := { s with bus := v :: s.bus.tail }

/-- The reset slot takes one answer and leaves the rest, so listing that answer changes nothing. -/
theorem resetSlot_withAnswer {s : State} {v : Bool} (sample : v = nextAnswer s (beforeResetSample s)) :
    resetSlot (withAnswer v s) = resetSlot s :=
  (resetSlot_answer (s := withAnswer v s) rfl).trans (resetSlot_eq s v sample).symm

theorem needPresence_withAnswer {s : State} {v : Bool} (quiet : s.host = [])
    (sample : v = nextAnswer s (beforeResetSample s)) : needPresence (withAnswer v s) = needPresence s := by
  have sameSlot : slotReset (withAnswer v s) = slotReset s := by
    rw [slotReset_quiet quiet, slotReset_quiet (s := withAnswer v s) quiet, resetSlot_withAnswer sample]
  rw [needPresence, seq_bind, seq_bind, sameSlot]

/-- The address step begins with the reset slot. -/
theorem address_withAnswer (m : Addressing) (id : RomId) {s : State} {v : Bool} (quiet : s.host = [])
    (sample : v = nextAnswer s (beforeResetSample s)) : address m id (withAnswer v s) = address m id s := by
  rw [address, seq_bind, seq_bind, needPresence_withAnswer quiet sample]

/-- Settles O27: with the sample listed as the next answer, the two samples are the two outcomes of the address step. -/
theorem addressStep : Obligations.AddressStep := by
  unfold Obligations.AddressStep
  intro m id s v quiet sample
  rw [← address_withAnswer m id quiet sample]
  cases v with
  | true => exact address_none (s := withAnswer true s) quiet rfl
  | false =>
    rw [address_answer (s := withAnswer false s) quiet rfl]
    cases m <;> rfl

/-! ## The target check -/

theorem validId_eq_false_iff (s : State) (id : RomId) :
    validId s id = false ↔ id = 0 ∨ crc8 s (romBytes id) ≠ 0 := by
  simp only [validId, Bool.and_eq_false_iff, bne_eq_false_iff_eq, beq_eq_false_iff_ne]

/-- A target is fit for its mode unless it is a single-mode target that the check refuses. -/
theorem targetOk_of_not_bad {s : State} {m : Addressing} {l : Latch}
    (good : ¬ (m = .single ∧ (l.tgt = 0 ∨ crc8 s (romBytes l.tgt) ≠ 0))) : TargetOk s m l := by
  cases m with
  | multi => trivial
  | single =>
    obtain ⟨nonzero, checksum⟩ := not_or.mp fun bad => good ⟨rfl, bad⟩
    exact ⟨nonzero, not_not.mp checksum⟩

theorem checkTarget_bad {s : State} {l : Latch} (quiet : s.host = [])
    (bad : l.tgt = 0 ∨ crc8 s (romBytes l.tgt) ≠ 0) : checkTarget l s = .error (.next (errorEnd .badId 0 s)) :=
  checkTarget_invalid ((validId_eq_false_iff s l.tgt).mpr bad) quiet

theorem checkTarget_eq (s : State) (l : Latch) (quiet : s.host = []) :
    checkTarget l s =
      if l.tgt = 0 ∨ crc8 s (romBytes l.tgt) ≠ 0 then .error (.next (errorEnd .badId 0 s)) else .ok ((), s) := by
  split
  case isTrue bad => exact checkTarget_bad quiet bad
  case isFalse good => exact checkSingle_ok (m := .single) (targetOk_of_not_bad fun bad => good bad.2)

theorem prepareList_badTarget {s : State} {l : Latch} (quiet : s.host = [])
    (bad : l.tgt = 0 ∨ crc8 s (romBytes l.tgt) ≠ 0) :
    prepareList .single l s = .error (.next (errorEnd .badId 0 s)) :=
  seq_bind_error (checkTarget_bad quiet bad)

/-- The device list of a multi-mode read is the ROM table, which must not be empty (43_session R360). -/
theorem prepareList_emptyTable {s : State} (l : Latch) (quiet : s.host = []) (empty : s.romCount = 0) :
    prepareList .multi l s = .error (.next (errorEnd .badId 0 s)) := by
  rw [prepareList, seq_get_bind, empty]
  exact seq_bind_error (raise_quiet quiet)

/-! ## The commands a failing check ends -/

/-- A check behind `bus_check()` ends the rule it begins. -/
theorem checkedRule_error {s : State} {check : Seq Unit} {rest : Unit → Seq Unit} {o : Halt}
    (configured : s.busCfg.configured = true) (fails : check s = .error o) :
    (busCheck >>= fun _ => check >>= rest) s = .error o := by
  rw [seq_bind_ok (busCheck_configured configured), seq_bind_error fails]

/-- So does the part before a poll, in the step that starts the command. -/
theorem beforePoll_error {s : State} {start : Seq Unit} {rest : Unit → Seq Unit} {o : Halt} (first : s.pos = .start)
    (fails : start s = .error o) : (beforePoll start >>= rest) s = .error o :=
  seq_bind_error ((beforePoll_start first).trans fails)

section FailingChecks

variable {s : State} {l : Latch} {m : Addressing} {o : Halt}

theorem exec_tsConvert_error (ready : BusReady s l) (fails : checkSingle m l s = .error o) :
    exec (.tsConvert m) s = o :=
  runRule_error ready.latched (checkedRule_error ready.configured fails)

/-- TS.CONFIG checks its operands first (43_session R355). -/
theorem exec_tsConfig_error (ready : BusReady s l) (fails : checkSingle m l s = .error o) (atLeast : 9 ≤ l.a0.toNat)
    (atMost : l.a0.toNat ≤ 12) (ordered : l.a2.toInt ≤ l.a1.toInt) : exec (.tsConfig m) s = o := by
  obtain ⟨d, legal⟩ := configOk (p := s.params) atLeast atMost ordered
  refine runRule_error ready.latched ?_
  rw [configRule, seq_get_bind, legal]
  exact checkedRule_error ready.configured fails

/-- The commands that wait in a poll check their target in the step that starts them. -/
theorem exec_polling_error (ready : BusReady s l) (first : s.pos = .start) (fails : checkSingle m l s = .error o) :
    ∀ i ∈ [Instr.tsSave m, .tsRestore m, .tsIsfake m], exec i s = o := by
  have begins (rest : Unit → Seq Unit) : (busCheck >>= fun _ => checkSingle m l >>= rest) s = .error o :=
    checkedRule_error ready.configured fails
  simp only [List.forall_mem_cons, List.not_mem_nil, false_imp_iff, implies_true, and_true]
  refine ⟨?save, ?restore, ?isfake⟩
  case save => exact runRule_error ready.latched (beforePoll_error first (begins _))
  case restore => exact runRule_error ready.latched (beforePoll_error first (begins _))
  case isfake => exact runRule_error ready.latched (beforePoll_error first (begins _))

/-- The commands that read scratch-pads end as the preparation of their device list ends. -/
theorem exec_prepareList_error (ready : BusReady s l) (first : s.pos = .start) (fails : prepareList m l s = .error o) :
    ∀ i ∈ [Instr.tsReadtemp m, .tsReadalarm m, .tsConvread m], exec i s = o := by
  have begins (rest : Unit → Seq Unit) : (busCheck >>= fun _ => prepareList m l >>= rest) s = .error o :=
    checkedRule_error ready.configured fails
  simp only [List.forall_mem_cons, List.not_mem_nil, false_imp_iff, implies_true, and_true]
  refine ⟨?readtemp, ?readalarm, ?convread⟩
  case readtemp => exact runRule_error ready.latched (begins _)
  case readalarm => exact runRule_error ready.latched (begins _)
  case convread => exact runRule_error ready.latched (beforePoll_error first (begins _))

end FailingChecks

/-- Settles O29: every command of the list begins with the bus check, which passes, and then a check that fails. -/
theorem badTargetIsBadId : Obligations.BadTargetIsBadId := by
  unfold Obligations.BadTargetIsBadId
  refine ⟨checkTarget_eq, fun s l ready first => ⟨fun bad => ?badTarget, fun empty => ?emptyTable⟩⟩
  case badTarget =>
    have target : checkSingle .single l s = .error (.next (errorEnd .badId 0 s)) := checkTarget_bad ready.quiet bad
    have polling := exec_polling_error ready first target
    have reading := exec_prepareList_error ready first (prepareList_badTarget ready.quiet bad)
    simp only [List.forall_mem_cons, List.not_mem_nil, false_imp_iff, implies_true, and_true] at polling reading ⊢
    obtain ⟨save, restore, isfake⟩ := polling
    obtain ⟨readtemp, readalarm, convread⟩ := reading
    exact ⟨⟨exec_tsConvert_error ready target, convread, readtemp, readalarm, save, restore, isfake⟩,
      exec_tsConfig_error ready target⟩
  case emptyTable => exact exec_prepareList_error ready first (prepareList_emptyTable l ready.quiet empty)

/-! ## TS.CONVERT -/

theorem exec_tsConvert_unconfigured {s : State} {l : Latch} (m : Addressing) (accepted : Accepted s l)
    (unconfigured : s.busCfg.configured = false) : exec (.tsConvert m) s = .next (errorEnd .badPin 0 s) :=
  runRule_error accepted.latched (seq_bind_error (busCheck_unconfigured unconfigured accepted.quiet))

/-- Past its checks, TS.CONVERT is the conversion and the end. -/
theorem convertRule_checked {s : State} {m : Addressing} {l : Latch} (ready : BusReady s l) (target : TargetOk s m l) :
    convertRule m l s = (startOperation m l.tgt s.params.owcConvertT >>= fun _ => finish 0 0) s := by
  rw [convertRule, seq_bind_ok (busCheck_configured ready.configured), seq_bind_ok (checkSingle_ok target),
    seq_get_bind]

theorem exec_tsConvert_absent {s : State} {m : Addressing} {l : Latch} {rest : List Bool} (ready : BusReady s l)
    (target : TargetOk s m l) (absent : s.bus = true :: rest) :
    exec (.tsConvert m) s = .next (errorEnd .noPresence 0 (setPresence false (onLine s [.reset true] rest))) :=
  runRule_error ready.latched
    ((convertRule_checked ready target).trans (seq_bind_error (startOperation_absent ready.quiet absent)))

/-- SEQ_STATE is CONVERTING only until the end, which follows at once (43_session R358). -/
theorem exec_tsConvert_present {s : State} {m : Addressing} {l : Latch} {rest : List Bool} (ready : BusReady s l)
    (target : TargetOk s m l) (present : s.bus = false :: rest) :
    exec (.tsConvert m) s = .next (okEnd 0 0
      (setPresence true (onLine s (operationSlots s.params m l.tgt s.params.owcConvertT) rest))) := by
  refine runRule_error ready.latched ((convertRule_checked ready target).trans ?_)
  rw [seq_bind_ok (startOperation_answer ready.quiet present), finish_quiet (by exact ready.quiet)]
  rfl

/-- Settles O32: the bus check, the target check and the sample of the reset slot decide, in this order. -/
theorem tsConvertOutcome : Obligations.TsConvertOutcome := by
  unfold Obligations.TsConvertOutcome
  refine ⟨rfl, rfl, fun m s l v rest accepted answer => ?_⟩
  split
  case isTrue unconfigured => exact exec_tsConvert_unconfigured m accepted unconfigured
  case isFalse configured =>
    have ready : BusReady s l := ⟨accepted, Bool.eq_true_of_not_eq_false configured⟩
    split
    case isTrue bad =>
      obtain ⟨rfl, badTarget⟩ := bad
      exact exec_tsConvert_error ready (checkTarget_bad accepted.quiet badTarget)
    case isFalse good =>
      have target := targetOk_of_not_bad good
      cases v with
      | true => exact exec_tsConvert_absent ready target answer
      | false => exact exec_tsConvert_present ready target answer

end Sys2Proof.Machine
end

section
/-! Timeout arithmetic (60_exceptions R472): the tick budget of a span in milliseconds, and when its deadline has
passed. -/

namespace Sys2Proof.Machine

/-! ## Tick budgets -/

/-- The saturation makes the budget exact: the product's bound is the largest word, so nothing wraps. -/
theorem ticks_toNat (p : Params) (l : Latch) (ms : Nat) :
    (ticks p l ms).toNat = min (ms * ticksPerMs p l) (2 ^ 32 - 1) :=
  Nat.mod_eq_of_lt (Nat.lt_of_le_of_lt (Nat.min_le_right _ _) (by decide))

theorem ticksPerMs_slow {p : Params} {l : Latch} (slow : l.foscl.toNat < 1000 * p.ctDiv) : ticksPerMs p l = 0 :=
  Nat.div_eq_of_lt slow

theorem ticks_slow {p : Params} {l : Latch} (ms : Nat) (slow : l.foscl.toNat < 1000 * p.ctDiv) : ticks p l ms = 0 :=
  BitVec.eq_of_toNat_eq (by rw [ticks_toNat, ticksPerMs_slow slow, Nat.mul_zero, Nat.zero_min]; rfl)

/-! ## Deadlines -/

/-- The elapsed time is the difference of the two readings modulo 2^32, across a wrap of the counter as well. -/
theorem elapsed_toNat (start now : Word) :
    ((now - start).toNat : Int) = ((now.toNat : Int) - (start.toNat : Int)) % 2 ^ 32 := by
  rw [BitVec.toNat_sub]
  omega

theorem deadlinePassed_iff (start budget now : Word) :
    deadlinePassed start budget now = true ↔
      (budget.toNat : Int) ≤ ((now.toNat : Int) - (start.toNat : Int)) % 2 ^ 32 := by
  rw [← elapsed_toNat, Int.ofNat_le]
  exact decide_eq_true_iff

theorem deadlinePassed_zero_budget (start now : Word) : deadlinePassed start 0 now = true :=
  decide_eq_true (Nat.zero_le _)

/-- Settles O42: the saturated product fits a word, a slow oscillator has no tick in a millisecond, and the elapsed time
is a difference modulo 2^32. -/
theorem timeoutArithmetic : Obligations.TimeoutArithmetic := by
  unfold Obligations.TimeoutArithmetic
  exact ⟨fun p l ms => ⟨ticks_toNat p l ms, ticks_slow ms⟩, deadlinePassed_iff, deadlinePassed_zero_budget⟩

end Sys2Proof.Machine
end

section
/-! Reset (70_reset_and_hazards R503): what the host reads of the registers and of the CRC registry right after it. -/

namespace Sys2Proof.Machine

/-! ## The registers below the registry -/

theorem statusWord_statusReset : statusWord statusReset = 0 := by decide

theorem busCfgWord_reset : busCfgWord State.reset.busCfg = 0 := by decide

theorem devCfgWord_reset : devCfgWord State.reset.devCfg = 0 := by decide

/-- The registers below CRCCOUNT (10_state R31). -/
def fixedOffsets : List Nat :=
  [0x000, 0x004, 0x008, 0x00C, 0x010, 0x014, 0x018, 0x01C, 0x020, 0x024, 0x028, 0x02C, 0x030, 0x034]

/-- A plain register reads its field, a packed one the word of its fields. -/
theorem hostRead_reset_fixed {off : Nat} (h : off ∈ fixedOffsets) :
    hostRead .word off State.reset = (0, State.reset) := by
  fin_cases h
  · exact hostRead_word_eq_readPort (port := .cmd) rfl rfl
  · exact (hostRead_word_eq_readPort (port := .status) rfl rfl).trans (congrArg (·, State.reset) statusWord_statusReset)
  · exact hostRead_word_eq_readPort (port := .arg0) rfl rfl
  · exact hostRead_word_eq_readPort (port := .arg1) rfl rfl
  · exact hostRead_word_eq_readPort (port := .arg2) rfl rfl
  · exact hostRead_word_eq_readPort (port := .result0) rfl rfl
  · exact hostRead_word_eq_readPort (port := .result1) rfl rfl
  · exact (hostRead_word_eq_readPort (port := .busCfg) rfl rfl).trans (congrArg (·, State.reset) busCfgWord_reset)
  · exact (hostRead_word_eq_readPort (port := .devCfg) rfl rfl).trans (congrArg (·, State.reset) devCfgWord_reset)
  · exact hostRead_word_eq_readPort (port := .targetLo) rfl rfl
  · exact hostRead_word_eq_readPort (port := .targetHi) rfl rfl
  · exact hostRead_word_eq_readPort (port := .corrOffset) rfl rfl
  · exact hostRead_word_eq_readPort (port := .fosc) rfl rfl
  · exact hostRead_word_eq_readPort (port := .romCount) rfl rfl

/-! ## The registry -/

/-- Only slot 0 is registered at reset, so every later slot is invalid. -/
theorem hostRead_reset_laterSlot {i : Nat} (later : 1 ≤ i) (hi : i < State.reset.params.crcCapacity) :
    hostRead .word (0x040 + 8 * i) State.reset = (0, State.reset) ∧
    hostRead .word (0x044 + 8 * i) State.reset = (0, State.reset) := by
  obtain ⟨-, invalid, -⟩ := registryRegisters State.reset i hi
  exact invalid later

/-- CRCPOLY and CRCCFG of slots 1 to 3. -/
theorem hostRead_reset_laterSlots {off : Nat} (h : off ∈ [0x048, 0x04C, 0x050, 0x054, 0x058, 0x05C]) :
    hostRead .word off State.reset = (0, State.reset) := by
  obtain ⟨poly1, cfg1⟩ := hostRead_reset_laterSlot (i := 1) (by decide) (by decide)
  obtain ⟨poly2, cfg2⟩ := hostRead_reset_laterSlot (i := 2) (by decide) (by decide)
  obtain ⟨poly3, cfg3⟩ := hostRead_reset_laterSlot (i := 3) (by decide) (by decide)
  fin_cases h
  exacts [poly1, cfg1, poly2, cfg2, poly3, cfg3]

/-- CRCCFG[0]: valid, refin and refout 1, W = 8 (10_state R48, R49). -/
theorem crcCfgWord_slot0 : crcCfgWord [slot0] 0 = 0x80000308 := by decide

theorem hostRead_reset_slot0 : hostRead .word 0x040 State.reset = (0x31, State.reset) ∧
    hostRead .word 0x044 State.reset = (0x80000308, State.reset) :=
  have capacity : 0 < State.reset.params.crcCapacity := by decide
  ⟨hostRead_crcPoly capacity, (hostRead_crcCfg capacity).trans (congrArg (·, State.reset) crcCfgWord_slot0)⟩

/-- Settles O53: what the host reads of the registers and of the registry; the state behind no register is what
`State.reset` lists. -/
theorem resetState : Obligations.ResetState := by
  unfold Obligations.ResetState
  refine ⟨fun off h => ?_, hostRead_crcCount State.reset, hostRead_reset_slot0.1, hostRead_reset_slot0.2,
    rfl, rfl, rfl, rfl, rfl, rfl, rfl, rfl, rfl, rfl⟩
  obtain fixed | laterSlot := List.mem_append (s := fixedOffsets).mp h
  · exact hostRead_reset_fixed fixed
  · exact hostRead_reset_laterSlots laterSlot

end Sys2Proof.Machine
end

section
/-! Equations of definitions of the model that several proofs below unfold. No proof cites these statements: naming the
equation in a statement derives it here, once, where proofs that Lean elaborates side by side would derive it in parallel,
one waiting for the other (as in the statement about `registerPoly` above). -/

namespace Sys2Proof.Machine

theorem hostIdle_eq : type_of% @hostIdle.eq_1 := hostIdle.eq_1

theorem computeCrc_eq : type_of% @computeCrc.eq_1 := computeCrc.eq_1

theorem statusWord_eq : type_of% @statusWord.eq_1 := statusWord.eq_1

theorem resolutionOperand_eq : type_of% @resolutionOperand.eq_1 := resolutionOperand.eq_1

theorem configOperands_eq : type_of% @configOperands.eq_1 := configOperands.eq_1

theorem searchPassesCount_eq : type_of% @SearchPasses.count.eq_1 := SearchPasses.count.eq_1

theorem searchPassesAnswers_eq : type_of% @SearchPasses.answers.eq_1 := SearchPasses.answers.eq_1

theorem searchPassesSlots_eq : type_of% @SearchPasses.slots.eq_1 := SearchPasses.slots.eq_1

end Sys2Proof.Machine
end

section
/-! Encoding (30_encoding R140 to R144): the three fields of a word determine it, and the opcode map has one command for
each OPC and MODE; so decoding inverts encoding. -/

namespace Sys2Proof.Machine

/-- The fields of a command's word, whichever command it is (30_encoding R140, R150). -/
theorem commandFields_encode (i : Instr) :
    commandFields (encode i) = { rsv := 0, mode := modeOf i, opc := opcodeOf i } := by
  cases i
  case owSearch m => exact (Laws.Fields.owSearch m).1
  case tsConfig m => exact (Laws.Fields.tsConfig m).1
  case tsConvert m => exact (Laws.Fields.tsConvert m).1
  case tsConvread m => exact (Laws.Fields.tsConvread m).1
  case tsReadtemp m => exact (Laws.Fields.tsReadtemp m).1
  case tsReadalarm m => exact (Laws.Fields.tsReadalarm m).1
  case tsSave m => exact (Laws.Fields.tsSave m).1
  case tsRestore m => exact (Laws.Fields.tsRestore m).1
  case tsIsfake m => exact (Laws.Fields.tsIsfake m).1
  all_goals rfl

/-- OPC, MODE and RSV cover the word, so words with the same fields are the same (30_encoding R140). -/
theorem commandFields_injective {v w : Word} (same : commandFields v = commandFields w) : v = w := by
  obtain ⟨rsv, mode, opc⟩ := (CommandWord.mk.injEq ..).mp same
  apply BitVec.eq_of_getLsbD_eq
  intro k hk
  obtain low | rfl | high : k < 8 ∨ k = 8 ∨ 9 ≤ k := by omega
  · have bit := congrArg (·.getLsbD k) opc
    simpa [BitVec.getLsbD_extractLsb', low] using bit
  · exact mode
  · have bit := congrArg (·.getLsbD (k - 9)) rsv
    have inField : k - 9 < 23 := by omega
    have back : 9 + (k - 9) = k := by omega
    simpa only [BitVec.getLsbD_extractLsb', inField, back, decide_true, Bool.true_and] using bit

/-- The row of the opcode map a command stands in (30_encoding R144). -/
theorem decodeOpcode_fields (i : Instr) : decodeOpcode (opcodeOf i) (modeOf i) = .ok i := by
  cases i
  case owSearch m => cases m <;> rfl
  case tsConfig m | tsConvert m | tsConvread m | tsReadtemp m | tsReadalarm m | tsSave m | tsRestore m | tsIsfake m =>
    cases m <;> rfl
  all_goals rfl

/-- No other OPC or MODE leads to a command: row by row, MODE is the command's own (30_encoding R143, R144). -/
theorem decodeOpcode_eq_ok_iff (opc : Byte) (mode : Bool) (i : Instr) :
    decodeOpcode opc mode = .ok i ↔ opc = opcodeOf i ∧ mode = modeOf i := by
  refine ⟨fun decoded => ?_, fun ⟨ho, hm⟩ => ho ▸ hm ▸ decodeOpcode_fields i⟩
  obtain ⟨assigned, -⟩ := (decodeOpcode_ok_iff opc mode).mp ⟨i, decoded⟩
  fin_cases assigned <;> cases mode <;> cases decoded <;> exact ⟨rfl, rfl⟩

/-- A word decodes to a command exactly when it is the command's word: both say that the three fields are the
command's. -/
theorem decode_eq_some_iff_eq_encode (w : Word) (i : Instr) : decode w = some i ↔ w = encode i := by
  rw [decode_eq_some_iff, decodeOpcode_eq_ok_iff]
  constructor
  · rintro ⟨rsv, opc, mode⟩
    refine commandFields_injective ((commandFields_encode i).symm ▸ ?_)
    rw [commandFields, rsv, opc, mode]
  · rintro rfl
    obtain ⟨rsv, mode, opc⟩ := (CommandWord.mk.injEq ..).mp (commandFields_encode i)
    exact ⟨rsv, opc, mode⟩

/-- A word of the opcode table, read as a number, is the command word it stands for (30_encoding R141). -/
theorem decodeTableWord_toNat (w : Word) : decodeTableWord 32 w.toNat = decode w := by
  have inWord : w.toNat % 2 ^ 32 = w.toNat := Nat.mod_eq_of_lt w.isLt
  rw [decodeTableWord, inWord, if_pos w.isLt, BitVec.ofNat_toNat, BitVec.setWidth_eq]

/-- Settles O1: the fields of a word decide both what it decodes to and whether it is an encoding. -/
theorem decodeInvertsEncode : Obligations.DecodeInvertsEncode := by
  unfold Obligations.DecodeInvertsEncode
  refine ⟨decode_eq_some_iff_eq_encode, fun i => ?_⟩
  rw [decodeTableWord_toNat]
  exact (decode_eq_some_iff_eq_encode _ i).mpr rfl

/-! ## The words of the opcode map -/

/-- Settles O2: the rows are written out, so each is evaluated. -/
theorem specWordsDecode : Obligations.SpecWordsDecode := by
  unfold Obligations.SpecWordsDecode
  decide

/-- Every command's word passes the three checks of R147. -/
theorem wellFormed_instr (i : Instr) : i.wellFormed = true := by
  obtain ⟨assigned, modal⟩ := (decodeOpcode_ok_iff (opcodeOf i) (modeOf i)).mp ⟨i, decodeOpcode_fields i⟩
  have modeOk : modeOf i = false ∨ opcodeOf i ∈ modalOpcodes := by
    cases mode : modeOf i
    · exact .inl rfl
    · exact .inr (modal mode)
  simpa [Instr.wellFormed, CommandWord.wellFormed, CommandWord.opcodeOk, CommandWord.reservedOk, CommandWord.modeOk,
    commandFields_encode, assigned] using modeOk

/-! ## The step -/

theorem step_of_decode {s : State} {i : Instr} (busy : s.status.busy = true) (decoded : decode s.lcmd = some i) :
    step s = exec i s := by
  simp only [step, busy, if_true, decoded]

/-- A word the table decodes is a 32-bit word, and the one placed is the one decoded. -/
theorem decode_withFetchWord {s : State} {nbits w : Nat} {i : Instr} (row : decodeTableWord nbits w = some i) :
    decode (s.withFetchWord nbits w).lcmd = some i := by
  unfold decodeTableWord at row
  split at row
  case isTrue => exact row
  case isFalse => cases row

/-- Settles O3: while BUSY = 1 the step is the decoded command's, and acceptance sets BUSY and LCMD. -/
theorem stepRunsDecodedCommand : Obligations.StepRunsDecodedCommand := by
  unfold Obligations.StepRunsDecodedCommand
  exact ⟨fun _ _ => step_of_decode, fun _ _ _ _ row => step_of_decode rfl (decode_withFetchWord row), wellFormed_instr⟩

end Sys2Proof.Machine
end

section
/-! The invariant (10_state, 70_reset_and_hazards): it holds at reset, every rule keeps it, piece by piece, and so does
every step. -/

namespace Sys2Proof.Machine

/-! ## The commands that are one sequencer step -/

/-- The slot CRC.REG adds: all its checks have passed (40_crc R206). -/
theorem registerCheck_passed {l : Latch} {s : State} {sl : CrcSlot} (passed : registerCheck l s = .ok sl) :
    ∃ w, sl = newSlot s.params l.a0 w l ∧ l.a0 ≠ 0 ∧ l.a0.toNat ≤ (widthMask w).toNat ∧
      (∀ x ∈ s.registry, x.poly ≠ l.a0) ∧ s.registry.length < s.params.crcCapacity := by
  have nonzero : l.a0 ≠ 0 := fun zero => by rw [registerCheck_zero zero] at passed; cases passed
  cases width : widthOf l.a1 with
  | none => rw [registerCheck_noWidth nonzero width] at passed; cases passed
  | some w =>
    rw [registerCheck_width nonzero width] at passed
    split at passed
    · cases passed
    · rename_i fits
      split at passed
      · cases passed
      · rename_i new
        split at passed
        · cases passed
        · rename_i room
          cases passed
          refine ⟨w, rfl, nonzero, Nat.le_of_not_lt fits, fun x hx same => ?_, Nat.lt_of_not_le room⟩
          exact new (Iff.mpr findPoly_isSome_iff ⟨x, hx, same⟩)

/-- A new slot has the table of its polynomial (20_memory R116). -/
theorem newSlot_table (p : Params) (poly : Word) (w : CrcWidth) (l : Latch) :
    (newSlot p poly w l).table = genTable (newSlot p poly w l).poly (newSlot p poly w l).width := by
  rw [newSlot_eq]

theorem inv_register {s : State} {l : Latch} {sl : CrcSlot} (inv : s.Inv) (passed : registerCheck l s = .ok sl) :
    ({ s with registry := s.registry ++ [sl] } : State).Inv := by
  obtain ⟨w, rfl, nonzero, fits, new, room⟩ := registerCheck_passed passed
  have append {q : CrcSlot → Prop} (old : ∀ x ∈ s.registry, q x) (added : q (newSlot s.params l.a0 w l)) :
      ∀ x ∈ s.registry ++ [newSlot s.params l.a0 w l], q x := fun x hx =>
    (List.mem_append.mp hx).elim (old x) fun h => List.mem_singleton.mp h ▸ added
  refine { inv with slotZero := ?slotZero, tables := append inv.tables (newSlot_table ..),
                    polys := append inv.polys ⟨nonzero, fits⟩, distinct := ?distinct, capacity := ?capacity }
  case slotZero =>
    have first := inv.slotZero
    cases registry : s.registry with
    | nil => rw [registry] at first; cases first
    | cons x xs => rw [registry] at first; exact first
  case distinct =>
    rw [List.map_append, List.nodup_append]
    refine ⟨inv.distinct, List.nodup_singleton _, fun a ha b hb => ?_⟩
    obtain ⟨x, hx, rfl⟩ := List.mem_map.mp ha
    obtain rfl := List.mem_singleton.mp hb
    exact new x hx
  case capacity => simpa using room

/-- BUSCFG takes a pin below PIN_COUNT or keeps the one it has (41_bus R260, R262). -/
theorem inv_busCfg {s : State} (inv : s.Inv) {c : BusCfg}
    (pin : c.configured = true → c.pin.toNat < s.params.pinCount) :
    ({ s with driveLow := 0, busCfg := c } : State).Inv :=
  { inv with released := rfl, pin := pin }

theorem pinOf_lt {p : Params} {v : Word} {pin : Byte} (legal : pinOf p v = some pin) : pin.toNat < p.pinCount := by
  unfold pinOf at legal
  split at legal
  · cases legal
  · rename_i below
    cases legal
    rw [BitVec.toNat_setWidth]
    exact Nat.lt_of_le_of_lt (Nat.mod_le _ _) (Nat.lt_of_not_le below)

section OneStep

variable {p : Params} {F : HiddenView → Prop} {s : State}

theorem good_errorEnd (mid : Mid p F s) {e : ErrCode} (failed : e ≠ .none) (r0 : Word) : Good p (errorEnd e r0 s) :=
  ⟨inv_err e failed r0 mid.inv, mid.params⟩

theorem registerCheck_error_ne_none {l : Latch} {s : State} {e : ErrCode} (refused : registerCheck l s = .error e) :
    e ≠ .none := by
  rintro rfl
  unfold registerCheck at refused
  repeat' split at refused
  all_goals cases refused

theorem good_registerPoly (mid : Mid p F s) (l : Latch) : Good p (registerPoly l s) := by
  unfold registerPoly
  split
  · rename_i passed
    exact ⟨inv_ok _ _ (inv_register mid.inv passed), mid.params⟩
  · rename_i refused
    exact good_errorEnd mid (registerCheck_error_ne_none refused) 0

theorem good_computeCrc (mid : Mid p F s) (l : Latch) : Good p (computeCrc l s) := by
  unfold computeCrc
  split
  · exact good_errorEnd mid (by decide) _
  · split
    · exact good_errorEnd mid (by decide) _
    · have read := Steps.ramBytes mid_steps (dbufBase + l.a1.toNat) l.a2.toNat mid
      exact ⟨inv_ok _ _ read.inv, read.params⟩

theorem good_configureBus (mid : Mid p F s) (l : Latch) : Good p (configureBus l s) := by
  unfold configureBus
  split
  · exact good_errorEnd mid (by decide) _
  · rename_i legal
    split
    · exact good_errorEnd mid (by decide) _
    · exact ⟨inv_ok _ _ (inv_busCfg mid.inv fun _ => pinOf_lt legal), mid.params⟩

theorem good_configureSpeed (mid : Mid p F s) (l : Latch) : Good p (configureSpeed l s) := by
  unfold configureSpeed
  split
  · exact good_errorEnd mid (by decide) _
  · rename_i sp _
    have kept := inv_ok 0 0 (inv_busCfg mid.inv (c := { s.busCfg with speed := sp }) mid.inv.pin)
    exact ⟨kept, mid.params⟩

end OneStep

/-! ## The rules -/

/-- The commands that are one step end with E. -/
def OneStepEnds (P : State → Prop) (E : Halt → Prop) : Prop :=
  ∀ f ∈ [registerPoly, computeCrc, configureBus, configureSpeed], ∀ l s, P s → E (.next (f l s))

/-- The registers a rule with slots writes before its end. -/
def RegisterSteps (P : State → Prop) : Prop :=
  (∀ b s, P s → P (setRbool b s)) ∧ ∀ d s, P s → P { s with devCfg := d }

/-- What the two DBUF commands do with a range inside DBUF. -/
def DbufSteps (P : State → Prop) (E : Halt → Prop) : Prop :=
  ∀ l : Latch, l.a0.toNat + l.a1.toNat ≤ 256 →
    Keeps P E (sendRam (dbufBase + l.a0.toNat) l.a1.toNat) ∧ Keeps P E (receiveRam (dbufBase + l.a0.toNat) l.a1.toNat)

/-- The search, and the two procedures of a scratch-pad read. -/
def LongSteps (P : State → Prop) (E : Halt → Prop) : Prop :=
  (∀ m l, Keeps P E (searchRule m l)) ∧ (∀ m l, Keeps P E (prepareList m l)) ∧ ∀ k l, Keeps P E (readAll k l)

/-- What a property is closed under if every command's rule keeps it: the steps of `PollSteps`, the commands that are one
step, and the procedures that write registers, RAM or the search state. -/
def RuleSteps (P : State → Prop) (E : Halt → Prop) : Prop :=
  PollSteps P E ∧ OneStepEnds P E ∧ RegisterSteps P ∧ DbufSteps P E ∧ LongSteps P E

namespace RuleSteps

variable {P : State → Prop} {E : Halt → Prop} (h : RuleSteps P E)
include h

theorem polls : PollSteps P E := h.1

theorem oneStep : OneStepEnds P E := h.2.1

theorem registers : RegisterSteps P := h.2.2.1

theorem dbuf : DbufSteps P E := h.2.2.2.1

theorem long : LongSteps P E := h.2.2.2.2

theorem keeps_setRbool (b : Bool) : Keeps P E (update (setRbool b)) :=
  meets_step h.polls.host fun s hs => h.registers.1 b s hs

theorem keeps_readBoolean : Keeps P E readBoolean :=
  meets_bind h.polls.busCheck fun _ => meets_bind h.polls.slotRead fun v =>
    meets_bind (h.keeps_setRbool v) fun _ => h.polls.finish _ _

/-- A DBUF command: the range check (41_bus R274, R276), the bus check, then what it does with a range inside DBUF. -/
theorem keeps_dbufCommand (l : Latch) {m : Seq Unit} (keeps : l.a0.toNat + l.a1.toNat ≤ 256 → Keeps P E m) :
    Keeps P E (do checkDbufRange l; busCheck; m; finish 0 0 : Seq Unit) := by
  have range : Meets P (checkDbufRange l) (fun _ s => P s ∧ l.a0.toNat + l.a1.toNat ≤ 256) E := by
    rw [checkDbufRange_eq]
    exact meets_require (fun inRange _ hs => ⟨hs, of_decide_eq_true inRange⟩) (h.polls.raise (by decide))
  refine meets_bind range fun _ s hs => ?_
  have tail : Keeps P E (do busCheck; m; finish 0 0 : Seq Unit) :=
    meets_bind h.polls.busCheck fun _ => meets_bind (keeps hs.2) fun _ => h.polls.finish 0 0
  exact tail s hs.1

theorem keeps_configRule (m : Addressing) (l : Latch) : Keeps P E (configRule m l) := by
  refine meets_get fun s _ => ?_
  split
  · exact h.polls.raise (by decide)
  · rename_i d _
    exact meets_bind h.polls.busCheck fun _ => meets_bind (h.polls.checkSingle m l) fun _ =>
      meets_bind (h.polls.writeSpad m l.tgt d.th d.tl d.cfgb) fun _ =>
        meets_bind (meets_step h.polls.host fun s hs => h.registers.2 d s hs) fun _ => h.polls.finish 0 0

theorem keeps_convertRule (m : Addressing) (l : Latch) : Keeps P E (convertRule m l) :=
  meets_bind h.polls.busCheck fun _ => meets_bind (h.polls.checkSingle m l) fun _ => meets_get fun _ _ =>
    meets_bind (h.polls.startOperation m l.tgt _) fun _ => h.polls.finish 0 0

theorem keeps_readCommand (k : ReadKind) (m : Addressing) (l : Latch) : Keeps P E (readCommand k m l) :=
  meets_bind h.polls.busCheck fun _ => meets_bind (h.long.2.1 m l) fun _ => h.long.2.2 k l

theorem keeps_convreadStart (m : Addressing) (l : Latch) : Keeps P E (convreadStart m l) :=
  meets_bind h.polls.busCheck fun _ => meets_bind (h.long.2.1 m l) fun _ => meets_get fun _ _ =>
    meets_bind (h.polls.startOperation m l.tgt _) fun _ => h.polls.startPoll l _ _

theorem keeps_convreadRule (m : Addressing) (l : Latch) : Keeps P E (convreadRule m l) :=
  meets_bind (PollSteps.beforePoll (h.keeps_convreadStart m l)) fun _ => meets_bind h.polls.pollOnce fun _ =>
    meets_bind (h.polls.require (by decide)) fun _ => h.long.2.2 .temp l

/-- A rule that keeps P, run from a state with P and latched operands. -/
theorem meets_runRule {rule : Latch → Seq Unit} {s : State} {l : Latch} (latched : s.latch = some l) (hs : P s)
    (keeps : ∀ l, Keeps P E (rule l)) : E (runRule rule s) :=
  runRule_meets latched
    (meets_mono (meets_at (keeps l) hs) (fun _ same => same) (fun _ t ht => h.polls.waits t ht) fun _ ho => ho)

theorem meets_oneStep {f : Latch → State → State} {s : State} {l : Latch}
    (one : f ∈ [registerPoly, computeCrc, configureBus, configureSpeed]) (latched : s.latch = some l) (hs : P s) :
    E (runRule (fun l => lastStep (f l)) s) :=
  h.meets_runRule latched hs fun l => meets_lastStep h.polls.host (h.oneStep f one l)

/-- Every command's rule, run from a state with P and latched operands, gives an answer with E. -/
theorem meets_exec {s : State} {l : Latch} (latched : s.latch = some l) (hs : P s) (i : Instr) : E (exec i s) := by
  cases i with
  | crcReg => exact h.meets_oneStep (by simp) latched hs
  | crcCalc => exact h.meets_oneStep (by simp) latched hs
  | owCfgbus => exact h.meets_oneStep (by simp) latched hs
  | owSpeed => exact h.meets_oneStep (by simp) latched hs
  | owReset =>
    exact h.meets_runRule latched hs fun _ => meets_bind h.polls.busCheck fun _ => meets_bind h.polls.slotReset fun pr =>
      meets_bind (h.keeps_setRbool pr) fun _ => h.polls.finish _ _
  | owWbit =>
    exact h.meets_runRule latched hs fun _ => meets_bind h.polls.busCheck fun _ =>
      meets_bind (h.polls.slotWrite _) fun _ => h.polls.finish 0 0
  | owRbit => exact h.meets_runRule latched hs fun _ => h.keeps_readBoolean
  | owWbyte =>
    exact h.meets_runRule latched hs fun _ => meets_bind h.polls.busCheck fun _ =>
      meets_bind (h.polls.writeByte _) fun _ => h.polls.finish 0 0
  | owRbyte =>
    exact h.meets_runRule latched hs fun _ => meets_bind h.polls.busCheck fun _ =>
      meets_bind h.polls.readByte fun _ => h.polls.finish _ 0
  | owWmulti => exact h.meets_runRule latched hs fun l => h.keeps_dbufCommand l fun inRange => (h.dbuf l inRange).1
  | owRmulti => exact h.meets_runRule latched hs fun l => h.keeps_dbufCommand l fun inRange => (h.dbuf l inRange).2
  | owSearch m => exact h.meets_runRule latched hs (h.long.1 m)
  | tsConfig m => exact h.meets_runRule latched hs (h.keeps_configRule m)
  | tsConvert m => exact h.meets_runRule latched hs (h.keeps_convertRule m)
  | tsIsdone => exact h.meets_runRule latched hs fun _ => h.keeps_readBoolean
  | tsConvread m => exact h.meets_runRule latched hs (h.keeps_convreadRule m)
  | tsReadtemp m => exact h.meets_runRule latched hs (h.keeps_readCommand .temp m)
  | tsReadalarm m => exact h.meets_runRule latched hs (h.keeps_readCommand .alarm m)
  | tsSave m => exact h.meets_runRule latched hs (h.polls.eepromCommand m _)
  | tsRestore m => exact h.meets_runRule latched hs (h.polls.eepromCommand m _)
  | tsIsfake m => exact h.meets_runRule latched hs (h.polls.isfakeRule h.registers.1 m)

theorem meets_rejectWord {s : State} {l : Latch} (latched : s.latch = some l) (hs : P s) : E (rejectWord s) :=
  h.meets_runRule latched hs fun _ => h.polls.raise (by decide)

end RuleSteps

/-- A byte of the range is in RAM. -/
theorem ramRange_dbuf_byte (p : Params) {l : Latch} (inRange : l.a0.toNat + l.a1.toNat ≤ 256) {k : Nat}
    (hk : k < l.a1.toNat) : ramRange p (dbufBase + l.a0.toNat + k) 1 = true := by
  rw [Nat.add_assoc]
  exact ramRange_dbuf (by simp only [dbufSize]; omega)

theorem good_oneStep {p : Params} {F : HiddenView → Prop} : OneStepEnds (Mid p F) (Always (Good p)) := by
  intro f hf l s mid
  simp only [List.mem_cons, List.not_mem_nil, or_false] at hf
  obtain rfl | rfl | rfl | rfl := hf
  · exact always_next (good_registerPoly mid l)
  · exact always_next (good_computeCrc mid l)
  · exact always_next (good_configureBus mid l)
  · exact always_next (good_configureSpeed mid l)

/-- Every command's rule keeps the invariant and answers a next state. -/
theorem mid_ruleSteps (p : Params) : RuleSteps (Mid p Any) (Always (Good p)) := by
  refine ⟨mid_pollSteps, good_oneStep, ⟨fun b _ mid => mid_rbool b mid, fun _ _ mid => ?devCfg⟩,
    fun l inRange => ⟨?send, ?receive⟩, mid_searchRule, mid_prepareList, mid_readAll⟩
  case devCfg => exact ⟨{ mid.inv with }, mid.busy, mid.params, mid.extra⟩
  case send => exact Steps.sendRam mid_steps fun _ _ hk mid => .inl (mid.params ▸ ramRange_dbuf_byte _ inRange hk)
  case receive =>
    exact Steps.receiveRam mid_steps (fun _ _ _ hk mid => mid_storeBytes (ramRange_dbuf_byte p inRange hk) mid)
      fun _ _ hk mid => .inl (mid.params ▸ ramRange_dbuf_byte _ inRange hk)

/-! ## The step -/

theorem mid_of_busy {s : State} (inv : s.Inv) (busy : s.status.busy = true) : Mid s.params Any s :=
  ⟨inv, busy, rfl, trivial⟩

/-- While a command runs its operands are latched (10_state R51). -/
theorem latched_of_busy {s : State} (inv : s.Inv) (busy : s.status.busy = true) : ∃ l, s.latch = some l :=
  Option.isSome_iff_exists.mp (inv.latched ▸ busy)

theorem good_exec (i : Instr) {s : State} (inv : s.Inv) (busy : s.status.busy = true) :
    Always (Good s.params) (exec i s) :=
  have ⟨_, latched⟩ := latched_of_busy inv busy
  (mid_ruleSteps s.params).meets_exec latched (mid_of_busy inv busy) i

theorem good_rejectWord {s : State} (inv : s.Inv) (busy : s.status.busy = true) :
    Always (Good s.params) (rejectWord s) :=
  have ⟨_, latched⟩ := latched_of_busy inv busy
  (mid_ruleSteps s.params).meets_rejectWord latched (mid_of_busy inv busy)

/-- The host's list is no part of the invariant. -/
theorem inv_host {s : State} (inv : s.Inv) (h : List HostItem) : ({ s with host := h } : State).Inv := { inv with }

/-- While no command runs the step is the host's (10_state R45, 20_memory R103, 70_reset_and_hazards R500). -/
theorem good_hostIdle {s : State} (inv : s.Inv) : Good s.params (hostIdle s) := by
  unfold hostIdle
  split
  · exact ⟨inv, rfl⟩
  · exact ⟨inv_hostAccess _ (inv_host inv _), params_hostAccess _ _⟩
  · exact ⟨inv_resetInput (s := { s with host := _ }) false, rfl⟩
  · exact ⟨inv_host inv _, rfl⟩

/-- Settles O55: a step is the host's, the end of an illegal word, or a command's rule, and each keeps the invariant. -/
theorem stepKeepsInvariant : Obligations.StepKeepsInvariant := by
  unfold Obligations.StepKeepsInvariant
  intro s inv
  have answers : Always (Good s.params) (step s) := by
    unfold step
    split
    case isFalse => exact always_next (good_hostIdle inv)
    case isTrue busy =>
      split
      · exact good_exec _ inv busy
      · exact good_rejectWord inv busy
  obtain ⟨t, answer, good⟩ := answers
  exact ⟨t, answer, good.inv, good.params⟩

/-- Settles O54: the state after reset is what the reset input leaves of it. -/
theorem resetHasInvariant : Obligations.ResetHasInvariant := by
  unfold Obligations.ResetHasInvariant
  exact inv_resetInput (s := State.reset) false

end Sys2Proof.Machine
end

section
/-! The CRC table (40_crc R203, R204): its entries are remainders modulo x^W + P(x), linear in the index, and different
for different indices when P[0] = 1. -/

namespace Sys2Proof.Machine

theorem widthBits_le (w : CrcWidth) : 8 ≤ widthBits w ∧ widthBits w ≤ 32 := by cases w <;> decide

/-- What the division loop starts from: the byte in the top eight of W bits (40_crc R203). -/
def dividend (w : CrcWidth) (b : Nat) : Word := (BitVec.ofNat 32 b <<< (widthBits w - 8)) &&& widthMask w

theorem tableEntry_eq (poly : Word) (w : CrcWidth) (b : Nat) :
    tableEntry poly w b = divideBits poly w 8 (dividend w b) := rfl

theorem getLsbD_dividend (w : CrcWidth) {b : Nat} (hb : b < 256) (i : Nat) :
    (dividend w b).getLsbD i = (decide (widthBits w - 8 ≤ i) && b.testBit (i - (widthBits w - 8))) := by
  obtain ⟨low, high⟩ := widthBits_le w
  rw [dividend, BitVec.getLsbD_and, mask_bit, BitVec.getLsbD_shiftLeft, BitVec.getLsbD_ofNat]
  by_cases hi : widthBits w - 8 ≤ i
  · by_cases inByte : i < widthBits w
    · have inWord : i < 32 := by omega
      have shifted : i - (widthBits w - 8) < 32 := by omega
      simp [hi, inByte, inWord, shifted, Nat.not_lt.mpr hi]
    · have clear : b.testBit (i - (widthBits w - 8)) = false :=
        Nat.testBit_lt_two_pow (Nat.lt_of_lt_of_le hb (Nat.pow_le_pow_right (n := 2) (i := 8) (by decide) (by omega)))
      simp [inByte, clear]
  · simp [hi, Nat.lt_of_not_le hi]

theorem dividend_le (w : CrcWidth) (b : Nat) : (dividend w b).toNat ≤ (widthMask w).toNat := mask_le w _

theorem dividend_xor (w : CrcWidth) {a b : Nat} (ha : a < 256) (hb : b < 256) :
    dividend w (a ^^^ b) = dividend w a ^^^ dividend w b := by
  apply BitVec.eq_of_getLsbD_eq
  intro i _
  rw [BitVec.getLsbD_xor, getLsbD_dividend w ha, getLsbD_dividend w hb,
    getLsbD_dividend w (Nat.xor_lt_two_pow (n := 8) ha hb), Nat.testBit_xor, Bool.and_xor_distrib_left]

theorem genTable_length (poly : Word) (w : CrcWidth) : (genTable poly w).length = 256 := by
  rw [genTable, List.length_map, List.length_range, crcTableEntries]

/-! ## Remainders -/

/-- One step of a polynomial's Horner scheme over GF(2): the next coefficient, times g, is added. -/
def hornerStep (g : BitVec 64) (acc : BitVec 64) (coeff : Bool) : BitVec 64 :=
  (acc <<< 1) ^^^ (if coeff then g else 0)

/-- What the scheme starts from is shifted along. -/
theorem foldl_hornerStep (g acc : BitVec 64) (q : List Bool) :
    q.foldl (hornerStep g) acc = (acc <<< q.length) ^^^ q.foldl (hornerStep g) 0 := by
  induction q generalizing acc with
  | nil => simp
  | cons c q ih =>
    rw [List.foldl_cons, List.foldl_cons, ih, ih (hornerStep g 0 c), List.length_cons, Nat.add_comm,
      BitVec.shiftLeft_add]
    simp [hornerStep, BitVec.shiftLeft_xor_distrib, BitVec.xor_assoc]

/-- The byte whose coefficients, from the highest down, are these eight. -/
def quotientByte (q : List Bool) : Byte := byteOfBits q.reverse

theorem carrylessMul_quotientByte (g : BitVec 64) (q : List Bool) (eight : q.length = 8) :
    carrylessMul (quotientByte q) g = q.foldl (hornerStep g) 0 := by
  have bits : byteBits (quotientByte q) = q.reverse := byteBits_byteOfBits _ (by simpa using eight)
  have coeffs : (List.range 8).map (fun i => (quotientByte q).getLsbD (7 - i)) = q :=
    calc (List.range 8).map (fun i => (quotientByte q).getLsbD (7 - i))
      _ = (byteBits (quotientByte q)).reverse := rfl
      _ = q := by rw [bits, List.reverse_reverse]
  have folded := List.foldl_map (f := fun i => (quotientByte q).getLsbD (7 - i)) (g := hornerStep g) (l := List.range 8)
    (init := 0)
  rw [coeffs] at folded
  exact folded.symm

/-- The coefficients of the quotient: the bits the division loop tests, first the highest. -/
def quotientBits (poly : Word) (w : CrcWidth) : Nat → Word → List Bool
  | 0, _ => []
  | n + 1, r => r.getLsbD (widthBits w - 1) :: quotientBits poly w n (divideBit poly w r)

theorem quotientBits_length (poly : Word) (w : CrcWidth) (n : Nat) (r : Word) :
    (quotientBits poly w n r).length = n := by
  induction n generalizing r with
  | zero => rfl
  | succ n ih => rw [quotientBits, List.length_cons, ih]

theorem getLsbD_generator (poly : Word) (w : CrcWidth) (i : Nat) :
    (generator poly w).getLsbD i = (decide (i = widthBits w) ^^ poly.getLsbD i) := by
  obtain ⟨-, high⟩ := widthBits_le w
  rw [generator, BitVec.getLsbD_xor, BitVec.getLsbD_setWidth, BitVec.getLsbD_shiftLeft, BitVec.getLsbD_one]
  by_cases hi : i < 64
  · congr 1
    · by_cases h : i = widthBits w
      · simp [h]; omega
      · simp [h]; omega
    · simp [hi]
  · have past : poly.getLsbD i = false := BitVec.getLsbD_of_ge _ _ (by omega)
    have other : ¬ i = widthBits w := by omega
    simp [hi, past, other]

/-- A turn of the division loop is a step of the scheme: where x^W is shifted out, the generator takes it away again. -/
theorem divideBit_hornerStep {poly : Word} {w : CrcWidth} {r : Word} (hp : poly.toNat ≤ (widthMask w).toNat)
    (hr : r.toNat ≤ (widthMask w).toNat) :
    (divideBit poly w r).setWidth 64 =
      hornerStep (generator poly w) (r.setWidth 64) (r.getLsbD (widthBits w - 1)) := by
  obtain ⟨low, high⟩ := widthBits_le w
  apply BitVec.eq_of_getLsbD_eq
  intro i hi
  have added : (if r.getLsbD (widthBits w - 1) then generator poly w else 0).getLsbD i =
      (r.getLsbD (widthBits w - 1) && (decide (i = widthBits w) ^^ poly.getLsbD i)) := by
    rw [← getLsbD_generator]
    split <;> simp [*]
  rw [hornerStep, BitVec.getLsbD_xor, added, BitVec.getLsbD_setWidth, divideBit_bit, BitVec.getLsbD_shiftLeft,
    BitVec.getLsbD_setWidth]
  obtain below | rfl | above : i < widthBits w ∨ i = widthBits w ∨ widthBits w < i := by omega
  · have other : ¬ i = widthBits w := by omega
    rcases Nat.eq_zero_or_pos i with rfl | positive
    · simp [below, other]
    · have shifted : i - 1 < 64 := by omega
      simp [hi, below, other, positive, shifted, Nat.not_lt.mpr positive]
  · have past : poly.getLsbD (widthBits w) = false := high_zero hp (Nat.le_refl _)
    have shifted : widthBits w - 1 < 64 := by omega
    have positive : ¬ widthBits w < 1 := by omega
    simp [hi, past, shifted, positive]
  · have past : poly.getLsbD i = false := high_zero hp (by omega)
    have clear : r.getLsbD (i - 1) = false := high_zero hr (by omega)
    have other : ¬ i = widthBits w := by omega
    have outside : ¬ i < widthBits w := by omega
    simp [past, clear, other, outside]

/-- The division loop evaluates the quotient's coefficients by the scheme. -/
theorem divideBits_horner {poly : Word} {w : CrcWidth} (hp : poly.toNat ≤ (widthMask w).toNat) (n : Nat) (r : Word)
    (hr : r.toNat ≤ (widthMask w).toNat) :
    (divideBits poly w n r).setWidth 64 =
      (quotientBits poly w n r).foldl (hornerStep (generator poly w)) (r.setWidth 64) := by
  induction n generalizing r with
  | zero => rfl
  | succ n ih =>
    rw [divideBits, quotientBits, List.foldl_cons, ih _ (divideBit_le poly w r), divideBit_hornerStep hp hr]

/-- The dividend, eight turns on, is b(x) times x^W. -/
theorem dividend_shifted (w : CrcWidth) {b : Nat} (hb : b < 256) :
    (dividend w b).setWidth 64 <<< 8 = BitVec.ofNat 64 b <<< widthBits w := by
  obtain ⟨low, high⟩ := widthBits_le w
  apply BitVec.eq_of_getLsbD_eq
  intro i hi
  rw [BitVec.getLsbD_shiftLeft, BitVec.getLsbD_shiftLeft, BitVec.getLsbD_setWidth, getLsbD_dividend w hb,
    BitVec.getLsbD_ofNat]
  by_cases inByte : widthBits w ≤ i
  · have index : i - 8 - (widthBits w - 8) = i - widthBits w := by omega
    have h1 : ¬ i < 8 := by omega
    have h2 : widthBits w - 8 ≤ i - 8 := by omega
    have h3 : i - 8 < 64 := by omega
    have h4 : i - widthBits w < 64 := by omega
    simp only [hi, h1, h2, h3, h4, index, Nat.not_lt.mpr inByte, decide_true, decide_false, Bool.not_false,
      Bool.true_and]
  · by_cases h8 : i < 8
    · simp [h8, Nat.lt_of_not_le inByte]
    · have h2 : ¬ widthBits w - 8 ≤ i - 8 := by omega
      simp [h2, Nat.lt_of_not_le inByte]

/-- An entry of the table is b(x)·x^W less a multiple of x^W + P(x) (40_crc R204). -/
theorem tableEntry_congruent {poly : Word} {w : CrcWidth} {b : Nat} (hb : b < 256)
    (hp : poly.toNat ≤ (widthMask w).toNat) :
    (BitVec.ofNat 64 b <<< widthBits w) ^^^
        carrylessMul (quotientByte (quotientBits poly w 8 (dividend w b))) (generator poly w) =
      (tableEntry poly w b).setWidth 64 := by
  rw [carrylessMul_quotientByte _ _ (quotientBits_length poly w 8 _), tableEntry_eq,
    divideBits_horner hp 8 _ (dividend_le w b), foldl_hornerStep _ ((dividend w b).setWidth 64), quotientBits_length,
    dividend_shifted w hb]

/-! ## Linear and injective -/

theorem divideBits_zero (poly : Word) (w : CrcWidth) (n : Nat) : divideBits poly w n 0 = 0 := by
  have linear := divideBits_xor poly w n 0 0
  rwa [BitVec.xor_self, BitVec.xor_self] at linear

theorem tableEntry_zero (poly : Word) (w : CrcWidth) : tableEntry poly w 0 = 0 := by
  have none : dividend w 0 = 0 := by cases w <;> decide
  rw [tableEntry_eq, none, divideBits_zero]

theorem tableEntry_xor (poly : Word) (w : CrcWidth) {a b : Nat} (ha : a < 256) (hb : b < 256) :
    tableEntry poly w (a ^^^ b) = tableEntry poly w a ^^^ tableEntry poly w b := by
  rw [tableEntry_eq, dividend_xor w ha hb, divideBits_xor]; rfl

/-- With P[0] = 1, a turn of the loop that leaves 0 was given 0: bit 0 of the result is the bit shifted out, and the other
bits are then those of r. -/
theorem eq_zero_of_divideBit {poly : Word} {w : CrcWidth} {r : Word} (odd : poly.getLsbD 0 = true)
    (hr : r.toNat ≤ (widthMask w).toNat) (left : divideBit poly w r = 0) : r = 0 := by
  obtain ⟨low, -⟩ := widthBits_le w
  have bit (i : Nat) := divideBit_bit poly w r i
  simp only [left, BitVec.ofNat_eq_ofNat, BitVec.getLsbD_zero] at bit
  have top : r.getLsbD (widthBits w - 1) = false := by
    have positive : 0 < widthBits w := by omega
    simpa only [odd, positive, Nat.lt_irrefl, decide_true, decide_false, Bool.true_and, Bool.false_and, Bool.false_xor,
      Bool.and_true] using (bit 0).symm
  apply BitVec.eq_of_getLsbD_eq
  intro i _
  rw [BitVec.ofNat_eq_ofNat, BitVec.getLsbD_zero]
  by_cases inside : i + 1 < widthBits w
  · simpa [top, inside] using (bit (i + 1)).symm
  · by_cases last : i = widthBits w - 1
    · rw [last, top]
    · exact high_zero hr (by omega)

theorem eq_zero_of_divideBits {poly : Word} {w : CrcWidth} (odd : poly.getLsbD 0 = true) (n : Nat) {r : Word}
    (hr : r.toNat ≤ (widthMask w).toNat) (left : divideBits poly w n r = 0) : r = 0 := by
  induction n generalizing r with
  | zero => exact left
  | succ n ih => exact eq_zero_of_divideBit odd hr (ih (divideBit_le poly w r) left)

theorem eq_zero_of_dividend {w : CrcWidth} {b : Nat} (hb : b < 256) (none : dividend w b = 0) : b = 0 := by
  apply Nat.eq_of_testBit_eq
  intro k
  have bit := getLsbD_dividend w hb (widthBits w - 8 + k)
  rw [none] at bit
  simpa using bit.symm

theorem tableEntry_injective {poly : Word} {w : CrcWidth} (odd : poly.getLsbD 0 = true) {a b : Nat} (ha : a < 256)
    (hb : b < 256) (same : tableEntry poly w a = tableEntry poly w b) : a = b := by
  have xorred : tableEntry poly w (a ^^^ b) = 0 := by
    rw [tableEntry_xor poly w ha hb, same]
    exact BitVec.xor_self
  have none := eq_zero_of_divideBits odd 8 (dividend_le w _) xorred
  exact Nat.xor_eq_zero_iff.mp (eq_zero_of_dividend (Nat.xor_lt_two_pow (n := 8) ha hb) none)

/-- Settles O9: entry b is the division of b(x)·x^W, and the division is linear, with no kernel when P[0] = 1. -/
theorem tableEntriesAreRemainders : Obligations.TableEntriesAreRemainders := by
  unfold Obligations.TableEntriesAreRemainders
  refine ⟨fun poly w b hb hp => ?remainder, fun poly w => ⟨genTable_length poly w, ?zero, fun a b ha hb => ?linear,
    fun odd a b ha hb same => ?injective⟩⟩
  case remainder =>
    rw [getD_genTable poly w hb]
    exact ⟨divideBits_le poly w 8 _ (dividend_le w b), _, tableEntry_congruent hb hp⟩
  case zero => rw [getD_genTable poly w (by decide), tableEntry_zero]
  case linear =>
    rw [getD_genTable poly w ha, getD_genTable poly w hb, getD_genTable poly w (Nat.xor_lt_two_pow (n := 8) ha hb),
      tableEntry_xor poly w ha hb]
  case injective =>
    rw [getD_genTable poly w ha, getD_genTable poly w hb] at same
    exact tableEntry_injective odd ha hb same

end Sys2Proof.Machine
end

section
/-! Checksums (40_crc R205, R209 to R211): the bytes that empty the register, and the outcome of CRC.CALC. -/

namespace Sys2Proof.Machine

/-! ## The register after a message -/

/-- The CRC register after a message, before any reflection (40_crc R205). -/
def rawRegister (sl : CrcSlot) (m : List Byte) : Word := m.foldl (crcUpdate sl) 0

theorem rawRegister_le (sl : CrcSlot) (m : List Byte) : (rawRegister sl m).toNat ≤ (widthMask sl.width).toNat :=
  fold_le sl m 0 (Nat.zero_le _)

theorem crcCore_eq (sl : CrcSlot) (m : List Byte) :
    crcCore sl m = if sl.refout then reflect sl.width (rawRegister sl m) else rawRegister sl m := rfl

/-- Undoing refout gives the register back (40_crc R201). -/
theorem unreflect_crcCore (sl : CrcSlot) (m : List Byte) :
    (if sl.refout then reflect sl.width (crcCore sl m) else crcCore sl m) = rawRegister sl m := by
  rw [crcCore_eq]
  cases sl.refout
  · rfl
  · exact reflect_reflect (rawRegister_le sl m)

/-- A data byte that the update takes as b: b itself, or b reflected when refin is 1. -/
def dataByte (sl : CrcSlot) (b : Byte) : Byte := if sl.refin then b.reverse else b

theorem crcInput_dataByte (sl : CrcSlot) (b : Byte) : crcInput sl (dataByte sl b) = b.setWidth 32 := by
  unfold crcInput dataByte
  cases sl.refin
  · rfl
  · simp [reflect]

/-- Byte k of a register of W bits, the most significant first. -/
def topByte (w : CrcWidth) (r : Word) (k : Nat) : Byte := r.extractLsb' (widthBits w - 8 - 8 * k) 8

theorem appendedChecksum_eq (sl : CrcSlot) (m : List Byte) :
    appendedChecksum sl m =
      (List.range (widthBits sl.width / 8)).map fun k => dataByte sl (topByte sl.width (rawRegister sl m) k) := by
  simp only [appendedChecksum, unreflect_crcCore]
  rfl

/-! ## The bytes that empty the register -/

/-- A register of W bits after k bytes have been shifted out. -/
def shiftedOut (w : CrcWidth) (r : Word) (k : Nat) : Word := (r <<< (8 * k)) &&& widthMask w

theorem getLsbD_shiftedOut (w : CrcWidth) (r : Word) (k i : Nat) :
    (shiftedOut w r k).getLsbD i = (decide (i < widthBits w) && decide (8 * k ≤ i) && r.getLsbD (i - 8 * k)) := by
  obtain ⟨-, high⟩ := widthBits_le w
  rw [shiftedOut, BitVec.getLsbD_and, mask_bit, BitVec.getLsbD_shiftLeft]
  by_cases hi : i < widthBits w
  · have inWord : i < 32 := by omega
    by_cases low : i < 8 * k
    · simp [low, Nat.not_le.mpr low]
    · simp [hi, inWord, low, Nat.le_of_not_lt low]
  · simp [hi]

/-- The byte the update takes off the top is the one that stood there. -/
theorem shiftedOut_top {w : CrcWidth} {k : Nat} (hk : 8 * k + 8 ≤ widthBits w) (r : Word) :
    shiftedOut w r k >>> (widthBits w - 8) = (topByte w r k).setWidth 32 := by
  apply BitVec.eq_of_getLsbD_eq
  intro i hi
  rw [BitVec.getLsbD_ushiftRight, getLsbD_shiftedOut, BitVec.getLsbD_setWidth, topByte, BitVec.getLsbD_extractLsb']
  by_cases inByte : i < 8
  · have index : widthBits w - 8 + i - 8 * k = widthBits w - 8 - 8 * k + i := by omega
    have h1 : widthBits w - 8 + i < widthBits w := by omega
    have h2 : 8 * k ≤ widthBits w - 8 + i := by omega
    simp only [hi, inByte, index, h1, h2, decide_true, Bool.true_and]
  · have h1 : ¬ widthBits w - 8 + i < widthBits w := by omega
    simp only [inByte, h1, decide_false, Bool.false_and, Bool.and_false]

/-- Feeding the top byte back selects T[0] = 0, so the register is only shifted (40_crc R204, R205). -/
theorem crcUpdate_top {sl : CrcSlot} (table : sl.table = genTable sl.poly sl.width) {r : Word} {k : Nat}
    (hk : 8 * k + 8 ≤ widthBits sl.width) :
    crcUpdate sl (shiftedOut sl.width r k) (dataByte sl (topByte sl.width r k)) = shiftedOut sl.width r (k + 1) := by
  have first : sl.table.getD 0 0 = 0 := by rw [table, getD_genTable _ _ (by decide), tableEntry_zero]
  have cancelled : (topByte sl.width r k).setWidth 32 ^^^ (topByte sl.width r k).setWidth 32 = 0#32 := BitVec.xor_self
  rw [crcUpdate, crcInput_dataByte, shiftedOut_top hk, cancelled, BitVec.zero_and]
  show ((shiftedOut sl.width r k <<< 8) ^^^ sl.table.getD 0 0) &&& widthMask sl.width = _
  rw [first]
  apply BitVec.eq_of_getLsbD_eq
  intro i hi
  rw [getLsbD_shiftedOut, BitVec.getLsbD_and, mask_bit, BitVec.ofNat_eq_ofNat, BitVec.xor_zero, BitVec.getLsbD_shiftLeft,
    getLsbD_shiftedOut]
  by_cases low : i < 8
  · have h1 : ¬ 8 * (k + 1) ≤ i := by omega
    simp [low, h1]
  · have index : i - 8 - 8 * k = i - 8 * (k + 1) := by omega
    have moved : 8 * k ≤ i - 8 ↔ 8 * (k + 1) ≤ i := by omega
    by_cases inside : i < widthBits sl.width
    · have h1 : i - 8 < widthBits sl.width := by omega
      simp [hi, low, index, moved, inside, h1]
    · simp [inside]

/-- Feeding the first n bytes of a register back to it shifts them out. -/
theorem foldl_crcUpdate_top {sl : CrcSlot} (table : sl.table = genTable sl.poly sl.width) {r : Word}
    (fits : r.toNat ≤ (widthMask sl.width).toNat) (n : Nat) (hn : 8 * n ≤ widthBits sl.width) :
    ((List.range n).map fun k => dataByte sl (topByte sl.width r k)).foldl (crcUpdate sl) r =
      shiftedOut sl.width r n := by
  induction n with
  | zero =>
    apply BitVec.eq_of_getLsbD_eq
    intro i _
    show r.getLsbD i = _
    rw [getLsbD_shiftedOut]
    by_cases inside : i < widthBits sl.width
    · simp [inside]
    · simp [inside, high_zero fits (Nat.le_of_not_lt inside)]
  | succ n ih =>
    rw [List.range_succ, List.map_append, List.foldl_append, ih (by omega)]
    exact crcUpdate_top table (by omega)

/-- All W bits shifted out leave nothing. -/
theorem shiftedOut_all (w : CrcWidth) (r : Word) : shiftedOut w r (widthBits w / 8) = 0 := by
  have whole : 8 * (widthBits w / 8) = widthBits w := by cases w <;> rfl
  apply BitVec.eq_of_getLsbD_eq
  intro i _
  rw [getLsbD_shiftedOut, whole]
  by_cases inside : i < widthBits w
  · simp [inside, Nat.not_le.mpr inside]
  · simp [inside]

/-- Reflecting zero gives zero. -/
theorem reflect_zero (w : CrcWidth) : reflect w 0 = 0 := by
  apply BitVec.eq_of_getLsbD_eq
  intro i _
  simp [getLsbD_reflect]

theorem crcCore_append_checksum {sl : CrcSlot} (table : sl.table = genTable sl.poly sl.width) (m : List Byte) :
    crcCore sl (m ++ appendedChecksum sl m) = 0 := by
  have whole : 8 * (widthBits sl.width / 8) ≤ widthBits sl.width := Nat.mul_div_le _ _
  have emptied : rawRegister sl (m ++ appendedChecksum sl m) = 0 := by
    rw [rawRegister, List.foldl_append, appendedChecksum_eq]
    exact (foldl_crcUpdate_top table (rawRegister_le sl m) _ whole).trans (shiftedOut_all _ _)
  rw [crcCore_eq, emptied, reflect_zero, ite_self]

/-! ## The bytes of the checksum itself -/

/-- Reflecting a register reverses the order of its bytes and each byte. -/
theorem reflect_byte {w : CrcWidth} {k : Nat} (hk : k < widthBits w / 8) (r : Word) :
    (reflect w r).extractLsb' (8 * k) 8 = (topByte w r k).reverse := by
  apply BitVec.eq_of_getLsbD_eq
  intro i hi
  have inside : 8 * k + i < widthBits w := by omega
  have mirrored : 7 - i < 8 := by omega
  have index : widthBits w - 1 - (8 * k + i) = widthBits w - 8 - 8 * k + (7 - i) := by omega
  rw [BitVec.getLsbD_extractLsb', getLsbD_reflect, BitVec.getLsbD_reverse, BitVec.getMsbD_eq_getLsbD, topByte,
    BitVec.getLsbD_extractLsb']
  simp [hi, inside, mirrored, index]

/-- The most significant byte first is the reverse of the least significant first. -/
theorem topBytes_eq_reverse (w : CrcWidth) (r : Word) :
    (List.range (widthBits w / 8)).map (topByte w r) = (checksumBytes w r).reverse := by
  cases w <;> rfl

theorem appendedChecksum_of_same {sl : CrcSlot} (m : List Byte) (same : sl.refin = sl.refout) :
    appendedChecksum sl m =
      if sl.refin then checksumBytes sl.width (crcCore sl m) else (checksumBytes sl.width (crcCore sl m)).reverse := by
  rw [appendedChecksum_eq, crcCore_eq, ← same]
  unfold dataByte
  cases sl.refin
  · exact topBytes_eq_reverse _ _
  · exact List.map_congr_left fun k hk => (reflect_byte (List.mem_range.mp hk) _).symm

/-- Settles O10: the appended bytes are the register's own, so each selects T[0] and is shifted out. -/
theorem appendedChecksumIsZero : Obligations.AppendedChecksumIsZero := by
  unfold Obligations.AppendedChecksumIsZero
  exact fun sl m table _ => ⟨crcCore_append_checksum table m, appendedChecksum_of_same m⟩

/-! ## CRC.CALC -/

/-- CRC.CALC is one sequencer step (40_crc R213). -/
theorem exec_crcCalc {s : State} {l : Latch} (accepted : Accepted s l) :
    exec .crcCalc s = .next (computeCrc l s) :=
  runRule_error accepted.latched (lastStep_quiet accepted.quiet)

theorem computeCrc_unknown {l : Latch} {s : State} (unknown : ∀ sl ∈ s.registry, sl.poly ≠ l.a0) :
    computeCrc l s = errorEnd .crcInput 0xFFFFFFFF s := by
  have missing : findPoly s.registry l.a0 = none := List.find?_eq_none.mpr fun sl hsl => by simpa using unknown sl hsl
  simp only [computeCrc, missing]

/-- With a registered polynomial, the length and the range decide (40_crc R210, R211). -/
theorem computeCrc_known {l : Latch} {s : State} {sl : CrcSlot} (known : findPoly s.registry l.a0 = some sl) :
    computeCrc l s =
      if l.a2.toNat = 0 ∨ 256 < l.a1.toNat + l.a2.toNat then errorEnd .crcInput (widthMask sl.width) s
      else okEnd (crcCore sl (ramBytes (dbufBase + l.a1.toNat) l.a2.toNat s).1) 0
        (ramBytes (dbufBase + l.a1.toNat) l.a2.toNat s).2 := by
  simp only [computeCrc, known, Params.dbufSize_eq, dbufSize]

theorem computeCrc_badRange {l : Latch} {s : State} {sl : CrcSlot} (known : findPoly s.registry l.a0 = some sl)
    (bad : l.a2 = 0 ∨ 256 < l.a1.toNat + l.a2.toNat) :
    computeCrc l s = errorEnd .crcInput (widthMask sl.width) s := by
  have bad' : l.a2.toNat = 0 ∨ 256 < l.a1.toNat + l.a2.toNat := bad.imp_left fun zero => by rw [zero]; rfl
  rw [computeCrc_known known, if_pos bad']

theorem computeCrc_goodRange {l : Latch} {s : State} {sl : CrcSlot} (known : findPoly s.registry l.a0 = some sl)
    (nonempty : l.a2 ≠ 0) (inRange : l.a1.toNat + l.a2.toNat ≤ 256) :
    computeCrc l s = okEnd (crcCore sl (ramBytes (dbufBase + l.a1.toNat) l.a2.toNat s).1) 0
      (ramBytes (dbufBase + l.a1.toNat) l.a2.toNat s).2 := by
  have good : ¬ (l.a2.toNat = 0 ∨ 256 < l.a1.toNat + l.a2.toNat) :=
    not_or.mpr ⟨fun zero => nonempty (BitVec.eq_of_toNat_eq zero), Nat.not_lt.mpr inRange⟩
  rw [computeCrc_known known, if_neg good]

/-- Settles O12: the slot of the polynomial and the range decide; the bytes are those of a block read, which are the
written ones where all of them are written. -/
theorem crcCalcOutcome : Obligations.CrcCalcOutcome := by
  unfold Obligations.CrcCalcOutcome
  refine ⟨rfl, fun s l accepted => ?_⟩
  rw [exec_crcCalc accepted]
  refine ⟨fun unknown => by rw [computeCrc_unknown unknown],
    fun sl known => ⟨fun bad => ?badRange, fun nonempty inRange => ?checksum⟩⟩
  case badRange => rw [computeCrc_badRange known bad]
  case checksum =>
    rw [computeCrc_goodRange known nonempty inRange]
    refine ⟨?drawn, fun data length written => ?written⟩
    case drawn =>
      obtain ⟨d, frame⟩ : ∃ d, (ramBytes (dbufBase + l.a1.toNat) l.a2.toNat s).2 = { s with draws := d } :=
        ⟨_, ramBytes_frame _ _ s⟩
      exact ⟨_, d, ramBytes_length (dbufBase + l.a1.toNat) l.a2.toNat s, by rw [frame]⟩
    case written =>
      have read : ramBytes (dbufBase + l.a1.toNat) l.a2.toNat s = (data, s) :=
        ramBytes_written length fun k hk => written k (length ▸ hk)
      rw [read]

end Sys2Proof.Machine
end

section
/-! Operands and records (43_session R354, R364, R365): the alarm and configuration bytes, the temperature word, and the
bytes of a record. -/

namespace Sys2Proof.Machine

/-! ## Alarm and configuration bytes -/

/-- The alarm range of this hardware fits a signed byte, so nothing is lost in its encoding. -/
theorem decAlarmWord_encAlarm (t : Int) : (decAlarmWord (encAlarm Config.params t)).toInt = min (max t (-55)) 125 := by
  have encoded : encAlarm Config.params t = BitVec.ofInt 8 (min (max t (-55)) 125) := rfl
  rw [decAlarmWord, BitVec.toInt_signExtend_of_le (by decide), encoded, BitVec.toInt_ofInt]
  exact Int.bmod_eq_of_le (by omega) (by omega)

theorem decAlarmWord_toInt (b : Byte) : (decAlarmWord b).toInt = b.toInt :=
  BitVec.toInt_signExtend_of_le (by decide)

/-- Bits 6:5 add at most 3 to 9, so the byte does not wrap. -/
theorem decRes_toNat (c : Byte) : (decRes c).toNat = 9 + (c.extractLsb' 5 2).toNat := by
  have small : (c.extractLsb' 5 2).toNat < 4 := (c.extractLsb' 5 2).isLt
  have nine : (9 : Byte).toNat = 9 := rfl
  rw [decRes, BitVec.toNat_add, BitVec.toNat_setWidth, nine]
  omega

/-- Settles O30: the clamped alarm value fits a signed byte; the other bytes are read off. -/
theorem alarmAndConfigurationBytes : Obligations.AlarmAndConfigurationBytes := by
  unfold Obligations.AlarmAndConfigurationBytes
  exact ⟨fun t => ⟨rfl, decAlarmWord_encAlarm t⟩, decAlarmWord_toInt, rfl, rfl, rfl, rfl, decRes_toNat⟩

/-! ## Temperatures -/

theorem rawTemp_toNat (lo hi : Byte) : (rawTemp lo hi).toNat = lo.toNat + 256 * hi.toNat := by
  have low : lo.toNat < 2 ^ 8 := lo.isLt
  rw [rawTemp, BitVec.toNat_append, Nat.shiftLeft_eq, ← Nat.mul_comm, ← Nat.two_pow_add_eq_or_of_lt low]
  omega

/-- The raw value is two's complement in 16 bits (43_session R365). -/
theorem rawTemp_toInt (lo hi : Byte) :
    (rawTemp lo hi).toInt =
      if lo.toNat + 256 * hi.toNat < 0x8000 then (lo.toNat + 256 * hi.toNat : Int)
      else (lo.toNat + 256 * hi.toNat : Int) - 0x10000 := by
  rw [BitVec.toInt_eq_toNat_cond, rawTemp_toNat]
  split <;> split <;> omega

/-- Sign extension keeps the value, so the temperature word is the raw value's plus the correction. -/
theorem tempWord_eq (lo hi : Byte) (corr : Word) :
    tempWord lo hi corr = BitVec.ofInt 32 (rawTemp lo hi).toInt + corr := rfl

/-- A correction this small leaves room for every raw value. -/
theorem tempWord_toInt (lo hi : Byte) {corr : Word} (small : |corr.toInt| ≤ 2 ^ 31 - 2 ^ 15) :
    (tempWord lo hi corr).toInt = (rawTemp lo hi).toInt + corr.toInt := by
  have bounds := abs_le.mp small
  have low : -2 ^ 15 ≤ (rawTemp lo hi).toInt := BitVec.le_toInt _
  have high : (rawTemp lo hi).toInt < 2 ^ 15 := BitVec.toInt_lt
  rw [tempWord, BitVec.toInt_add, BitVec.toInt_signExtend_of_le (by decide)]
  exact Int.bmod_eq_of_le (by omega) (by omega)

/-- Settles O35: splitting into sixteenths and joining again is the identity, so both formulas are the raw value's. -/
theorem temperatureIsExact : Obligations.TemperatureIsExact := by
  unfold Obligations.TemperatureIsExact
  rintro lo hi corr raw rfl
  refine ⟨fun positive => ?_, fun negative => ?_, tempWord_toInt lo hi⟩
  · rw [tempWord_eq, rawTemp_toInt, if_pos positive, Nat.div_add_mod]
    rfl
  · have value : (lo.toNat + 256 * hi.toNat : Int) - 0x10000 =
        -((0x10000 - (lo.toNat + 256 * hi.toNat) : Nat) : Int) := by
      omega
    rw [tempWord_eq, rawTemp_toInt, if_neg (Nat.not_lt.mpr negative), Nat.div_add_mod, value]

/-! ## Records -/

/-- A word's bytes, joined from the highest down, are the word (20_memory R102). -/
theorem append_wordBytes (w : Word) :
    (w.extractLsb' 24 8 ++ w.extractLsb' 16 8 ++ w.extractLsb' 8 8 ++ w.extractLsb' 0 8 : Word) = w :=
  (wordOfBytes_four _ _ _ _).symm.trans (wordOfBytes_wordBytes w)

/-- Settles O34: a record is a list written out, nine bytes of the scratch-pad first; its words are joined again from
their bytes. -/
theorem recordLayout : Obligations.RecordLayout := by
  unfold Obligations.RecordLayout
  rintro kind corr sp ok nine r rfl
  obtain ⟨b0, b1, b2, b3, b4, b5, b6, b7, b8, rfl⟩ : ∃ b0 b1 b2 b3 b4 b5 b6 b7 b8 : Byte,
      sp = [b0, b1, b2, b3, b4, b5, b6, b7, b8] := by
    match sp, nine with
    | [b0, b1, b2, b3, b4, b5, b6, b7, b8], _ => exact ⟨b0, b1, b2, b3, b4, b5, b6, b7, b8, rfl⟩
  have flag (k : ReadKind) : (decide (kind = k) && ok) = true ↔ kind = k ∧ ok = true := by simp
  simp only [recordBytes, flag]
  refine ⟨rfl, rfl, rfl, rfl, rfl, ?temp, ?th, ?tl, rfl⟩
  case temp => exact append_wordBytes _
  case th => exact append_wordBytes _
  case tl => exact append_wordBytes _

end Sys2Proof.Machine
end

section
/-! The host port register by register (10_state R31 to R38, 20_memory R112, R114), and what an access can disturb
(20_memory R110, R111). -/

namespace Sys2Proof.Machine

/-! ## Mapped offsets -/

/-- The ports that are registers, not RAM (10_state R31). -/
def isRegister : Port → Bool
  | .dbuf | .romtab | .restab => false
  | _ => true

/-- The registers below the CRC registry (10_state R31). -/
theorem portAt_fixed (p : Params) {off : Nat}
    (fixed : off ∈ [0x000, 0x004, 0x008, 0x00C, 0x010, 0x014, 0x018, 0x01C, 0x020, 0x024, 0x028, 0x02C, 0x030, 0x034,
      0x038]) : ∃ port, portAt p off = some port ∧ isRegister port = true := by
  fin_cases fixed <;> exact ⟨_, rfl, rfl⟩

/-- A mapped offset has a port, and below 0x100 that is a register. -/
theorem portAt_mapped {p : Params} {off : Nat} (mapped : Mapped p off) :
    ∃ port, portAt p off = some port ∧ (off < 0x100 → isRegister port = true) := by
  obtain fixed | ⟨lo, hi⟩ | ⟨lo, hi⟩ | ⟨lo, hi⟩ | ⟨lo, hi⟩ := mapped
  · obtain ⟨port, at_, register⟩ := portAt_fixed p fixed
    exact ⟨port, at_, fun _ => register⟩
  · obtain poly | cfg := portAt_crc p lo hi
    · exact ⟨_, poly, fun _ => rfl⟩
    · exact ⟨_, cfg, fun _ => rfl⟩
  · exact ⟨_, portAt_dbuf p lo hi, fun below => by omega⟩
  · exact ⟨_, portAt_romtab p lo hi, fun below => by omega⟩
  · exact ⟨_, portAt_restab p lo hi, fun below => by omega⟩

/-- Reading a register changes nothing, not even the draws (20_memory R114). -/
theorem readPort_register {port : Port} (register : isRegister port = true) (off : Nat) (s : State) :
    (readPort port off s).2 = s := by
  cases port
  case dbuf | romtab | restab => cases register
  all_goals rfl

/-- Settles O45: a read of a port changes the draws at most, and a register's not even those. -/
theorem readsHaveNoSideEffect : Obligations.ReadsHaveNoSideEffect := by
  unfold Obligations.ReadsHaveNoSideEffect
  intro s off aligned mapped
  obtain ⟨port, at_, register⟩ := portAt_mapped mapped
  rw [hostRead_word_eq_readPort aligned at_]
  refine ⟨?_, fun below => ?_⟩
  · obtain ⟨d, frame⟩ := readPort_frame port off s
    rw [frame]
  · rw [readPort_register (register below), hostRead_word_eq_readPort aligned at_]

/-! ## Plain registers -/

/-- A word write of STATUS clears DONE, OVR and ACCERR by their bits, whether or not a command runs (10_state R33). -/
theorem hostWrite_status (v : Word) (s : State) : hostWrite .word 0x004 v s = writeOneClear v s :=
  hostWrite_not_dropped (port := .status) v rfl rfl rfl

theorem hostRead_romCount (s : State) : hostRead .word 0x034 s = (s.romCount.setWidth 32, s) :=
  hostRead_word_eq_readPort (port := .romCount) rfl rfl

theorem hostWrite_romCount {s : State} (v : Word) (idle : s.status.busy = false) :
    hostWrite .word 0x034 v s = writeRomCount v s :=
  hostWrite_idle (port := .romCount) v rfl rfl idle

theorem writeRomCount_fits {s : State} {v : Word} (fits : v.toNat ≤ s.params.maxDevices) :
    writeRomCount v s = { s with romCount := v.setWidth 8 } := if_neg (Nat.not_lt.mpr fits)

theorem writeRomCount_tooMany {s : State} {v : Word} (tooMany : s.params.maxDevices < v.toNat) :
    writeRomCount v s = setAccerr s := if_pos tooMany

/-- A value that fits a byte is kept by it. -/
theorem setWidth_byte_word {v : Word} (small : v.toNat < 2 ^ 8) : (v.setWidth 8).setWidth 32 = v := by
  apply BitVec.eq_of_toNat_eq
  rw [BitVec.toNat_setWidth, BitVec.toNat_setWidth, Nat.mod_eq_of_lt small, Nat.mod_eq_of_lt v.isLt]

/-- ROMCOUNT reads back what was written, if it was taken (10_state R45). -/
theorem hostRead_romCount_written {s : State} {v : Word} (fits : v.toNat ≤ s.params.maxDevices) :
    (hostRead .word 0x034 { s with romCount := v.setWidth 8 }).1 = v := by
  obtain ⟨-, most⟩ := dev_le s.params
  rw [hostRead_romCount]
  exact setWidth_byte_word (by omega)

/-- The registers whose write replaces their value; each reads back (10_state R31). -/
theorem hostRead_hostWrite_register {s : State} (v : Word) (idle : s.status.busy = false) :
    ∀ off ∈ [0x008, 0x00C, 0x010, 0x024, 0x028, 0x02C, 0x030],
      hostRead .word off (hostWrite .word off v s) = (v, hostWrite .word off v s) := by
  intro off h
  fin_cases h
  · rw [hostWrite_idle (port := .arg0) v rfl rfl idle]; exact hostRead_word_eq_readPort (port := .arg0) rfl rfl
  · rw [hostWrite_idle (port := .arg1) v rfl rfl idle]; exact hostRead_word_eq_readPort (port := .arg1) rfl rfl
  · rw [hostWrite_idle (port := .arg2) v rfl rfl idle]; exact hostRead_word_eq_readPort (port := .arg2) rfl rfl
  · rw [hostWrite_idle (port := .targetLo) v rfl rfl idle]; exact hostRead_word_eq_readPort (port := .targetLo) rfl rfl
  · rw [hostWrite_idle (port := .targetHi) v rfl rfl idle]; exact hostRead_word_eq_readPort (port := .targetHi) rfl rfl
  · rw [hostWrite_idle (port := .corrOffset) v rfl rfl idle]
    exact hostRead_word_eq_readPort (port := .corrOffset) rfl rfl
  · rw [hostWrite_idle (port := .fosc) v rfl rfl idle]; exact hostRead_word_eq_readPort (port := .fosc) rfl rfl

/-- CLRDONE writes 1 to bit 1 only (30_encoding R152). -/
theorem writeOneClear_done (s : State) :
    writeOneClear 0x00000002 s = { s with status := { s.status with done := false } } := by
  simp [writeOneClear]

/-- CLRSTICKY writes 1 to bits 3 and 4 only (30_encoding R152). -/
theorem writeOneClear_sticky (s : State) :
    writeOneClear 0x00000018 s = { s with status := { s.status with ovr := false, accerr := false } } := by
  simp [writeOneClear]

/-- Settles O46: each offset names its port, whose read is its field and whose write, while no command runs, replaces
it. -/
theorem registersReadBack : Obligations.RegistersReadBack := by
  unfold Obligations.RegistersReadBack
  refine ⟨fun s => ?reads, fun s v idle => ?writes, fun s => ?status, rfl⟩
  case reads =>
    refine ⟨hostRead_word_eq_readPort (port := .cmd) rfl rfl, hostRead_word_eq_readPort (port := .arg0) rfl rfl,
      hostRead_word_eq_readPort (port := .arg1) rfl rfl, hostRead_word_eq_readPort (port := .arg2) rfl rfl,
      hostRead_word_eq_readPort (port := .result0) rfl rfl, hostRead_word_eq_readPort (port := .result1) rfl rfl,
      hostRead_word_eq_readPort (port := .targetLo) rfl rfl, hostRead_word_eq_readPort (port := .targetHi) rfl rfl,
      hostRead_word_eq_readPort (port := .corrOffset) rfl rfl, hostRead_word_eq_readPort (port := .fosc) rfl rfl,
      hostRead_romCount s, ?_⟩
    rw [hostRead_romCount, BitVec.toNat_setWidth]
    exact Nat.lt_of_le_of_lt (Nat.mod_le _ _) s.romCount.isLt
  case writes =>
    refine ⟨hostWrite_idle (port := .arg0) v rfl rfl idle, hostWrite_idle (port := .arg1) v rfl rfl idle,
      hostWrite_idle (port := .arg2) v rfl rfl idle, hostWrite_idle (port := .targetLo) v rfl rfl idle,
      hostWrite_idle (port := .targetHi) v rfl rfl idle, hostWrite_idle (port := .corrOffset) v rfl rfl idle,
      hostWrite_idle (port := .fosc) v rfl rfl idle, hostRead_hostWrite_register v idle, fun fits => ?_,
      fun tooMany => ?_⟩
    · rw [hostWrite_romCount v idle, writeRomCount_fits fits]
      exact ⟨rfl, hostRead_romCount_written fits⟩
    · rw [hostWrite_romCount v idle, writeRomCount_tooMany tooMany]
      rfl
  case status =>
    refine ⟨fun v => hostWrite_status v s, ?_, ?_⟩
    · rw [hostWrite_status, writeOneClear_done]
    · rw [hostWrite_status, writeOneClear_sticky]

/-! ## Packed registers -/

/-- The one-bit fields of STATUS (10_state R33). -/
theorem statusWord_bits (t : Status) :
    (statusWord t).getLsbD 0 = t.busy ∧ (statusWord t).getLsbD 1 = t.done ∧ (statusWord t).getLsbD 2 = t.presence ∧
    (statusWord t).getLsbD 3 = t.ovr ∧ (statusWord t).getLsbD 4 = t.accerr ∧ (statusWord t).getLsbD 5 = t.rbool := by
  simp only [statusWord, BitVec.getLsbD_append, BitVec.getLsbD_ofBool]
  simp

/-- The other fields of STATUS (10_state R33, R34): each is what is left once the fields below it are dropped. -/
theorem statusWord_fields (t : Status) :
    (statusWord t).extractLsb' 6 2 = 0 ∧ (statusWord t).extractLsb' 8 4 = errBits t.errcode ∧
    (statusWord t).extractLsb' 12 3 = seqBits t.seqState ∧ (statusWord t).extractLsb' 15 17 = 0 := by
  unfold statusWord
  refine ⟨?_, ?_, ?_, ?top⟩
  case top =>
    repeat rw [BitVec.extractLsb'_append_eq_of_le (by decide)]
    exact BitVec.extractLsb'_eq_self
  all_goals
    repeat rw [BitVec.extractLsb'_append_eq_of_le (by decide)]
    exact BitVec.extractLsb'_append_eq_right

/-- The fields of BUSCFG (10_state R36). -/
theorem busCfgWord_fields (c : BusCfg) :
    (busCfgWord c).extractLsb' 0 2 = speedBits c.speed ∧ (busCfgWord c).extractLsb' 2 6 = 0 ∧
    (busCfgWord c).extractLsb' 8 8 = c.pin ∧ (busCfgWord c).getLsbD 16 = c.configured ∧
    (busCfgWord c).extractLsb' 17 15 = 0 := by
  unfold busCfgWord
  refine ⟨?_, ?_, ?_, ?bit, ?top⟩
  case bit =>
    simp only [BitVec.getLsbD_append, BitVec.getLsbD_ofBool]
    simp
  case top =>
    repeat rw [BitVec.extractLsb'_append_eq_of_le (by decide)]
    exact BitVec.extractLsb'_eq_self
  all_goals
    repeat rw [BitVec.extractLsb'_append_eq_of_le (by decide)]
    exact BitVec.extractLsb'_append_eq_right

/-- The fields of DEVCFG (10_state R37). -/
theorem devCfgWord_fields (c : DevCfg) :
    (devCfgWord c).extractLsb' 0 4 = c.res ∧ (devCfgWord c).getLsbD 4 = c.alarmsConf ∧
    (devCfgWord c).extractLsb' 5 3 = 0 ∧ (devCfgWord c).extractLsb' 8 8 = c.th ∧
    (devCfgWord c).extractLsb' 16 8 = c.tl ∧ (devCfgWord c).extractLsb' 24 8 = c.cfgb := by
  unfold devCfgWord
  refine ⟨?_, ?bit, ?_, ?_, ?_, ?top⟩
  case bit =>
    simp only [BitVec.getLsbD_append, BitVec.getLsbD_ofBool]
    simp
  case top =>
    repeat rw [BitVec.extractLsb'_append_eq_of_le (by decide)]
    exact BitVec.extractLsb'_eq_self
  all_goals
    repeat rw [BitVec.extractLsb'_append_eq_of_le (by decide)]
    exact BitVec.extractLsb'_append_eq_right

/-- TARGET_LO holds the low four bytes of the target, TARGET_HI the high four (10_state R38). -/
theorem romBytes_target (s : State) {k : Nat} (hk : k < 8) :
    (romBytes (targetId s))[k]? =
      some (if k < 4 then s.targetLo.extractLsb' (8 * k) 8 else s.targetHi.extractLsb' (8 * (k - 4)) 8) := by
  have byte : (romBytes (targetId s))[k]? = some ((targetId s).extractLsb' (8 * k) 8) := by simp [romBytes, hk]
  rw [byte, targetId]
  split
  · rw [BitVec.extractLsb'_append_eq_of_add_le (by omega)]
  · rw [BitVec.extractLsb'_append_eq_of_le (by omega), Nat.mul_sub]

/-- Settles O49: each register's offset reads its packed word, whose fields are read off. -/
theorem registerFields : Obligations.RegisterFields := by
  unfold Obligations.RegisterFields
  refine ⟨rfl, rfl, rfl, fun s => ⟨?status, ?busCfg, ?devCfg, fun _ => romBytes_target s⟩⟩
  case status =>
    rintro w rfl
    rw [hostRead_word_eq_readPort (port := .status) rfl rfl]
    obtain ⟨busy, done, presence, ovr, accerr, rbool⟩ := statusWord_bits s.status
    exact ⟨busy, done, presence, ovr, accerr, rbool, statusWord_fields s.status⟩
  case busCfg =>
    rintro w rfl
    rw [hostRead_word_eq_readPort (port := .busCfg) rfl rfl]
    exact busCfgWord_fields s.busCfg
  case devCfg =>
    rintro w rfl
    rw [hostRead_word_eq_readPort (port := .devCfg) rfl rfl]
    exact devCfgWord_fields s.devCfg

/-! ## RAM -/

/-- Settles O48: the word's bytes are the four bytes read, each drawn or its contents. -/
theorem ramReadsWhileBusy : Obligations.RamReadsWhileBusy := by
  unfold Obligations.RamReadsWhileBusy
  intro s off w t aligned mapped read
  rw [hostRead_ram aligned mapped] at read
  obtain ⟨rfl, rfl⟩ := Prod.mk.inj read
  obtain ⟨d, n, frame, -, length, bytes⟩ := hostBytes_spec off 4 s
  refine ⟨d, n, frame, fun k hk => ?_⟩
  have same := wordOfBytes_byte (hostBytes off 4 s).1 length k hk
  obtain ⟨drawn, held⟩ := bytes k hk
  refine ⟨fun h => ?_, fun h => ?_⟩
  · obtain ⟨first, last, byte, order⟩ := drawn h
    exact ⟨first, last, Option.some.inj (same.symm.trans byte), order⟩
  · obtain ⟨b, contents, byte⟩ := held h
    exact ⟨b, contents, Option.some.inj (same.symm.trans byte)⟩

/-! ## Accesses -/

theorem windowOffset_base (p : Params) {off : Nat} (inside : off < 0x1000) :
    windowOffset p (p.blockBase + off) = some off := by
  rw [windowOffset, if_pos (by omega), Nat.add_sub_cancel_left]

theorem hostRead_hostReads (w : AccessWidth) (off : Nat) (s : State) :
    (hostRead w off s).2.hostReads = s.hostReads := by
  obtain ⟨d, b, frame⟩ := hostRead_frame w off s
  rw [frame]

/-- While no command runs the step is the host's (20_memory R101, R103). -/
theorem step_idle {s : State} (idle : s.status.busy = false) : step s = .next (hostIdle s) :=
  if_neg (by rw [idle]; decide)

/-- Settles O5: an address in the window is an offset, and an idle step is the host's first event. -/
theorem idleStepIsTheHosts : Obligations.IdleStepIsTheHosts := by
  unfold Obligations.IdleStepIsTheHosts
  refine ⟨fun s w off v inside => ⟨?read, ?write⟩, fun s idle => ?_⟩
  case read => simp only [hostAccess, windowOffset_base s.params inside, hostRead_hostReads]
  case write => simp only [hostAccess, windowOffset_base s.params inside]
  rw [step_idle idle]
  refine ⟨fun h => ?_, fun k e rest h => ?_, fun a rest h => ?_, fun c rest h => ?_⟩
  all_goals simp only [hostIdle, h]

/-- Settles O7: the two ends are each one step, which publishes the results and discards the command. -/
theorem commandEnds : Obligations.CommandEnds := by
  unfold Obligations.CommandEnds
  exact fun _ _ _ _ quiet => ⟨finish_quiet quiet, raise_quiet quiet⟩

/-- A state that differs from another in what the host may change while a command runs, and in the model's records. -/
def Disturbed (s t : State) : Prop :=
  ∃ done ovr accerr corr reads draws, t =
    { s with
      status := { s.status with done := done, ovr := ovr, accerr := accerr }
      corrOffset := corr
      hostReads := reads
      draws := draws }

theorem disturbed_refl (s : State) : Disturbed s s := ⟨_, _, _, _, _, _, rfl⟩

/-- While a command runs, a write of any port is dropped but for STATUS and CORR_OFFSET (20_memory R111). -/
theorem hostWrite_busy {s : State} (busy : s.status.busy = true) (w : AccessWidth) (off : Nat) (v : Word) :
    Disturbed s (hostWrite w off v s) := by
  unfold hostWrite
  split
  · rename_i port _
    split
    · exact ⟨_, true, _, _, _, _, rfl⟩
    · rename_i performed
      rw [busy, Bool.true_and, Bool.not_eq_true] at performed
      cases port
      case cmd | arg0 | arg1 | arg2 | targetLo | targetHi | fosc | romCount | dbuf | romtab => cases performed
      all_goals exact ⟨_, _, _, _, _, _, rfl⟩
  · exact ⟨_, _, true, _, _, _, rfl⟩

/-- While a command runs, no access changes more (20_memory R110, R111). -/
theorem hostAccess_busy {s : State} (busy : s.status.busy = true) (a : HostAccess) : Disturbed s (hostAccess a s) := by
  cases a with
  | read w addr =>
    simp only [hostAccess]
    split
    · rename_i off _
      obtain ⟨d, b, frame⟩ := hostRead_frame w off s
      rw [frame]
      exact ⟨_, _, b, _, _, d, rfl⟩
    · exact disturbed_refl s
  | write w addr v =>
    simp only [hostAccess]
    split
    · exact hostWrite_busy busy w _ v
    · exact disturbed_refl s

/-- Settles O51: an access changes these fields only, and comes before the step that waits for it. -/
theorem hostCannotDisturb : Obligations.HostCannotDisturb := by
  unfold Obligations.HostCannotDisturb
  refine ⟨fun s a busy => ?same, fun α s inSlot f g => ⟨?quiet, ?later, ?now⟩⟩
  case same =>
    obtain ⟨done, ovr, accerr, corr, reads, draws, frame⟩ := hostAccess_busy busy a
    rw [frame]
  case quiet => exact fun quiet => ⟨sequencerStep_quiet quiet, lastStep_quiet quiet⟩
  case later =>
    intro k e rest host
    simp only [sequencerStep, lastStep, host, hostTurn, and_self]
  case now =>
    intro a rest host
    have turn (inSlot : Bool) := hostTurn_access inSlot host
    exact ⟨by simp only [sequencerStep, turn], by simp only [lastStep, turn]⟩

end Sys2Proof.Machine
end

section
/-! The commands that are one step touch no line and no clock (40_crc R213, 70_reset_and_hazards R521); and what every
step keeps of the line's record, whatever the host does: events are added, none is changed or dropped (20_memory
R122). -/

namespace Sys2Proof.Machine

/-! ## Silent commands -/

theorem noTraffic_registerPoly (l : Latch) (s : State) : NoTraffic s (registerPoly l s) := by
  unfold registerPoly
  split
  · exact ⟨rfl, rfl, rfl, rfl, rfl⟩
  · exact ⟨rfl, rfl, rfl, rfl, rfl⟩

theorem noTraffic_computeCrc (l : Latch) (s : State) : NoTraffic s (computeCrc l s) := by
  unfold computeCrc
  split
  · exact ⟨rfl, rfl, rfl, rfl, rfl⟩
  · split
    · exact ⟨rfl, rfl, rfl, rfl, rfl⟩
    · obtain ⟨d, frame⟩ : ∃ d, (ramBytes (dbufBase + l.a1.toNat) l.a2.toNat s).2 = { s with draws := d } :=
        ⟨_, ramBytes_frame _ _ s⟩
      simp only [frame]
      exact ⟨rfl, rfl, rfl, rfl, rfl⟩

theorem noTraffic_configureBus (l : Latch) (s : State) : NoTraffic s (configureBus l s) := by
  unfold configureBus
  split
  · exact ⟨rfl, rfl, rfl, rfl, rfl⟩
  · split
    · exact ⟨rfl, rfl, rfl, rfl, rfl⟩
    · exact ⟨rfl, rfl, rfl, rfl, rfl⟩

theorem noTraffic_configureSpeed (l : Latch) (s : State) : NoTraffic s (configureSpeed l s) := by
  unfold configureSpeed
  split
  · exact ⟨rfl, rfl, rfl, rfl, rfl⟩
  · exact ⟨rfl, rfl, rfl, rfl, rfl⟩

theorem noTraffic_oneStep {f : Latch → State → State}
    (one : f ∈ [registerPoly, computeCrc, configureBus, configureSpeed]) (l : Latch) (s : State) :
    NoTraffic s (f l s) := by
  simp only [List.mem_cons, List.not_mem_nil, or_false] at one
  obtain rfl | rfl | rfl | rfl := one
  · exact noTraffic_registerPoly l s
  · exact noTraffic_computeCrc l s
  · exact noTraffic_configureBus l s
  · exact noTraffic_configureSpeed l s

/-- A silent command's rule is one of these steps. -/
theorem exec_silent {i : Instr} (quiet : silent i = true) :
    ∃ f ∈ [registerPoly, computeCrc, configureBus, configureSpeed],
      ∀ s, exec i s = runRule (fun l => lastStep (f l)) s := by
  cases i
  case crcReg => exact ⟨registerPoly, by simp, fun _ => rfl⟩
  case crcCalc => exact ⟨computeCrc, by simp, fun _ => rfl⟩
  case owCfgbus => exact ⟨configureBus, by simp, fun _ => rfl⟩
  case owSpeed => exact ⟨configureSpeed, by simp, fun _ => rfl⟩
  all_goals cases quiet

/-- A rule that is its last step, while the host is quiet. -/
theorem runRule_lastStep {f : Latch → State → State} {s t : State} (quiet : s.host = [])
    (ran : runRule (fun l => lastStep (f l)) s = .next t) : ∃ l, t = f l s := by
  cases latch : s.latch with
  | none => simp only [runRule, latch] at ran; cases ran
  | some l =>
    rw [runRule_error latch (lastStep_quiet quiet)] at ran
    cases ran
    exact ⟨l, rfl⟩

/-- Settles O60: each silent command is one step, which keeps these fields. -/
theorem silentCommandsFrame : Obligations.SilentCommandsFrame := by
  unfold Obligations.SilentCommandsFrame
  intro i s t host quiet ran
  obtain ⟨f, one, rule⟩ := exec_silent quiet
  rw [rule] at ran
  obtain ⟨l, rfl⟩ := runRule_lastStep host ran
  exact noTraffic_oneStep one l s

/-! ## The line's record -/

/-- The record of line events is L with new events added. -/
def Grew (L : List LineEvent) (s : State) : Prop := ∃ new, s.line = new ++ L

theorem grew_of_line {L : List LineEvent} {s t : State} (same : t.line = s.line) (h : Grew L s) : Grew L t := by
  obtain ⟨new, line⟩ := h
  exact ⟨new, same.trans line⟩

theorem grew_onLine {L : List LineEvent} {s : State} (ss : List Slot) (r : List Bool) (h : Grew L s) :
    Grew L (onLine s ss r) := by
  obtain ⟨new, line⟩ := h
  exact ⟨(traffic s ss).reverse ++ new, by rw [List.append_assoc, ← line]; rfl⟩

/-- A reset that cuts a slot short adds the slot's fall and its release (70_reset_and_hazards R501). -/
theorem grew_resetInput {L : List LineEvent} {s : State} (cut : Bool) (h : Grew L s) : Grew L (resetInput cut s) := by
  cases cut with
  | false => exact grew_of_line rfl h
  | true =>
    obtain ⟨new, line⟩ := h
    have added : (resetInput true s).line = .release s.busCfg.pin :: .low s.busCfg.pin :: s.line := rfl
    exact ⟨.release s.busCfg.pin :: .low s.busCfg.pin :: new, by rw [added, line]; rfl⟩

/-- A running command on a line that grew from L; F is what is known of its hidden state. -/
def Growing (p : Params) (L : List LineEvent) (F : HiddenView → Prop) (s : State) : Prop :=
  s.status.busy = true ∧ s.params = p ∧ Grew L s ∧ F (hiddenOf s)

section

variable {p : Params} {L : List LineEvent} {F G : HiddenView → Prop} {s : State}

/-- No access touches the line while a command runs. -/
theorem growing_hostAccess (a : HostAccess) (h : Growing p L F s) : Growing p L F (hostAccess a s) := by
  obtain ⟨done, ovr, accerr, corr, reads, draws, frame⟩ := hostAccess_busy h.1 a
  rw [frame]
  exact h

theorem growing_host : HostKeeps (Growing p L F) (IfNext (Grew L)) :=
  hostKeeps_of (fun a _ h => growing_hostAccess a h) (fun _ _ h => h)
    fun c _ ⟨_, _, grew, _⟩ => ifNext_next (grew_resetInput c grew)

theorem growing_steps : Steps (Growing p L F) (IfNext (Grew L)) where
  host := growing_host
  slots := fun ss r _ ⟨busy, params, grew, hidden⟩ => ⟨busy, params, grew_onLine ss r grew, hidden⟩
  presence := fun _ _ h => h
  seq := fun _ _ _ h => h
  clock := fun s h => by
    obtain ⟨_, _, frame⟩ := readClock_frame' s
    rw [frame]
    exact h
  draws := fun _ _ h => h
  fail := fun _ _ _ ⟨_, _, grew, _⟩ => ifNext_next grew
  done := fun _ _ _ ⟨_, _, grew, _⟩ => ifNext_next grew

theorem growing_hidden (h : Growing p L F s) (v : HiddenView) (hv : G v) :
    Growing p L G { s with
      pos := v.pos, search := v.search, readPass := v.readPass, devices := v.devices, poll := v.poll
      capture := v.capture } := by
  obtain ⟨busy, params, grew, -⟩ := h
  exact ⟨busy, params, grew, hv⟩

theorem growing_any (h : Growing p L F s) : Growing p L Any s := by
  obtain ⟨busy, params, grew, -⟩ := h
  exact ⟨busy, params, grew, trivial⟩

theorem growing_pollSteps : PollSteps (Growing p L Any) (IfNext (Grew L)) where
  toSteps := growing_steps
  hidden := fun _ _ _ _ _ _ h => h
  waits := fun _ ⟨_, _, grew, _⟩ => ifNext_next grew

theorem growing_tableSteps : TableSteps p (fun _ => True) (Growing p L Any) (IfNext (Grew L)) where
  toSteps := growing_steps
  params := fun _ ⟨_, params, _, _⟩ => params
  table := fun _ _ h => h
  count := fun _ _ _ h => h
  empty := trivial

theorem growing_searchSteps :
    SearchSteps p (fun _ => True) (fun _ => True) (Growing p L Any) (IfNext (Grew L)) where
  slotRead := Steps.slotRead growing_steps
  slotWrite := Steps.slotWrite growing_steps
  slotReset := Steps.slotReset growing_steps
  now := Steps.now growing_steps
  fails := fun _ failed _ => TableSteps.searchFail growing_tableSteps failed
  succeeds := fun _ _ _ => TableSteps.searchSucceed growing_tableSteps trivial
  noneFound := TableSteps.searchSucceed growing_tableSteps trivial
  params := TableSteps.params growing_tableSteps
  known := fun _ _ => trivial
  search := fun _ _ _ h => h
  walk := fun _ _ _ _ => trivial
  restart := fun _ _ => trivial
  failed := fun _ _ => trivial
  keep := fun _ _ _ _ => ⟨trivial, trivial⟩

theorem growing_searchRule (m : SearchMode) (l : Latch) :
    Keeps (Growing p L Any) (IfNext (Grew L)) (searchRule m l) :=
  SearchSteps.searchRule growing_searchSteps (Steps.now growing_steps)
    (fun _ => TableSteps.searchFail growing_tableSteps (by decide)) m l _

theorem growing_passSteps (ds : List RomId) :
    PassSteps ds.length (fun j => Growing p L (AtRecord ds j)) (IfNext (Grew L)) where
  steps := fun _ => growing_steps
  index := fun _ _ ⟨_, _, _, atRecord⟩ => atRecord.2
  record := fun _ _ _ _ _ h => h
  range := fun _ _ _ _ => .inr ifNext_fault
  count := fun _ rp s next h =>
    have ⟨_, _, _, atRecord⟩ := h
    growing_hidden h { hiddenOf s with readPass := some rp } ⟨atRecord.1, next⟩

theorem growing_readAll (k : ReadKind) (l : Latch) : Keeps (Growing p L Any) (IfNext (Grew L)) (readAll k l) := by
  refine keeps_readAll growing_pollSteps (fun s0 h0 => ⟨_, growing_passSteps s0.devices, fun rp first => ?start, ?length,
    fun _ h => growing_any h⟩) k l
  case start => exact growing_hidden h0 { hiddenOf s0 with readPass := some rp } ⟨rfl, first⟩
  case length =>
    rintro s ⟨-, -, -, devices, -⟩
    exact congrArg List.length devices

theorem growing_prepareList (m : Addressing) (l : Latch) :
    Keeps (Growing p L Any) (IfNext (Grew L)) (prepareList m l) :=
  Steps.prepareList growing_steps m l (fun _ _ _ h _ _ => h) fun _ _ _ _ _ _ => .inr ifNext_fault

theorem growing_oneStep : OneStepEnds (Growing p L Any) (IfNext (Grew L)) :=
  fun _ one l s ⟨_, _, grew, _⟩ => ifNext_next (grew_of_line (noTraffic_oneStep one l s).line grew)

theorem growing_ruleSteps : RuleSteps (Growing p L Any) (IfNext (Grew L)) := by
  refine ⟨growing_pollSteps, growing_oneStep, ⟨fun _ _ h => h, fun _ _ h => h⟩, fun l _ => ⟨?send, ?receive⟩,
    growing_searchRule, growing_prepareList, growing_readAll⟩
  case send => exact Steps.sendRam growing_steps fun _ _ _ _ => .inr ifNext_fault
  case receive => exact Steps.receiveRam growing_steps (fun _ _ _ _ h => h) fun _ _ _ _ => .inr ifNext_fault

end

/-- Without latched operands no rule runs (10_state R57). -/
theorem exec_unlatched {s : State} (none : s.latch = none) (i : Instr) : exec i s = .fault .noCommand := by
  have fault (rule : Latch → Seq Unit) : runRule rule s = .fault .noCommand := by simp only [runRule, none]
  cases i <;> exact fault _

theorem rejectWord_unlatched {s : State} (none : s.latch = none) : rejectWord s = .fault .noCommand := by
  simp only [rejectWord, runRule, none]

/-- No access touches the line (20_memory R101). -/
theorem line_hostWrite (w : AccessWidth) (off : Nat) (v : Word) (s : State) : (hostWrite w off v s).line = s.line := by
  unfold hostWrite
  split
  · split
    · rfl
    · rename_i port _ _
      cases port
      case romCount => simp only [writePort, writeRomCount]; split <;> rfl
      all_goals rfl
  · rfl

theorem line_hostAccess (a : HostAccess) (s : State) : (hostAccess a s).line = s.line := by
  cases a with
  | read w addr =>
    simp only [hostAccess]
    split
    · rename_i off _
      obtain ⟨_, _, frame⟩ := hostRead_frame w off s
      rw [frame]
    · rfl
  | write w addr v =>
    simp only [hostAccess]
    split
    · exact line_hostWrite ..
    · rfl

theorem grew_hostIdle {L : List LineEvent} {s : State} (h : Grew L s) : Grew L (hostIdle s) := by
  unfold hostIdle
  split
  · exact h
  · exact grew_of_line (line_hostAccess ..) h
  · exact grew_resetInput false h
  · exact h

/-- While a command runs a step adds to the line's record, if it answers a next state. -/
theorem grew_exec {s : State} (busy : s.status.busy = true) (i : Instr) : IfNext (Grew s.line) (exec i s) := by
  cases latch : s.latch with
  | none => rw [exec_unlatched latch i]; exact ifNext_fault
  | some l => exact RuleSteps.meets_exec growing_ruleSteps latch ⟨busy, rfl, ⟨[], rfl⟩, trivial⟩ i

theorem grew_rejectWord {s : State} (busy : s.status.busy = true) : IfNext (Grew s.line) (rejectWord s) := by
  cases latch : s.latch with
  | none => rw [rejectWord_unlatched latch]; exact ifNext_fault
  | some l => exact RuleSteps.meets_rejectWord growing_ruleSteps latch ⟨busy, rfl, ⟨[], rfl⟩, trivial⟩

/-- Settles O56: each kind of step, the host's, a command's and the end of an illegal word, adds to the record. -/
theorem lineOnlyGrows : Obligations.LineOnlyGrows := by
  unfold Obligations.LineOnlyGrows
  intro s
  suffices grows : IfNext (Grew s.line) (step s) from grows
  unfold step
  split
  case isFalse => exact ifNext_next (grew_hostIdle ⟨[], rfl⟩)
  case isTrue busy =>
    split
    · exact grew_exec busy _
    · exact grew_rejectWord busy

end Sys2Proof.Machine
end

section
/-! The reset input (70_reset_and_hazards R500, R501): it comes before any step of a rule, and every rule that has not
ended makes a step, so the step of the machine in which its time has come is the reset. -/

namespace Sys2Proof.Machine

/-- What a reset leaves, with this much of the host's list and these parameters. -/
def AfterReset (p : Params) (rest : List HostItem) (t : State) : Prop :=
  BlockReset t ∧ t.driveLow = 0 ∧ t.host = rest ∧ t.params = p

theorem afterReset_resetInput (cut : Bool) (rest : List HostItem) (s : State) :
    AfterReset s.params rest (resetInput cut { s with host := rest }) := ⟨rfl, rfl, rfl, rfl⟩

/-! ## Rules abandoned before their next step -/

/-- A command runs, and a reset's time has come. -/
def Due (p : Params) (c : Bool) (rest : List HostItem) (F : HiddenView → Prop) (s : State) : Prop :=
  Mid p F s ∧ s.host = ⟨0, .reset c⟩ :: rest

/-- Whenever a reset's time has come, the piece makes a step, so that the reset is the answer. -/
abbrev Abandoned {α : Type} (p : Params) (c : Bool) (rest : List HostItem) (F : HiddenView → Prop) (m : Seq α) : Prop :=
  Meets (Due p c rest F) m (fun _ _ => False) (Always (AfterReset p rest))

/-- Either it makes a step, or nothing the reset waits for has happened. -/
abbrev Waits {α : Type} (p : Params) (c : Bool) (rest : List HostItem) (F : HiddenView → Prop) (m : Seq α) : Prop :=
  Keeps (Due p c rest F) (Always (AfterReset p rest)) m

section

variable {α β : Type} {p : Params} {c : Bool} {rest : List HostItem} {F : HiddenView → Prop}

theorem Abandoned.waits {m : Seq α} (h : Abandoned p c rest F m) : Waits p c rest F m :=
  meets_mono h (fun _ due => due) (fun _ _ never => never.elim) fun _ answer => answer

theorem Abandoned.bind {m : Seq α} (h : Abandoned p c rest F m) (f : α → Seq β) : Abandoned p c rest F (m >>= f) :=
  meets_bind h fun _ _ never => never.elim

theorem abandoned_step (inSlot : Bool) (f : State → α × State) : Abandoned p c rest F (sequencerStep inSlot f) := by
  rintro s ⟨mid, host⟩
  simp only [sequencerStep, host, hostTurn]
  exact always_next (mid.params ▸ afterReset_resetInput _ rest s)

theorem abandoned_lastStep (f : State → State) : Abandoned p c rest F (lastStep f : Seq α) := by
  rintro s ⟨mid, host⟩
  simp only [lastStep, host, hostTurn]
  exact always_next (mid.params ▸ afterReset_resetInput _ rest s)

theorem abandoned_memWrite {off : Nat} {bs : List Byte} (inside : ramRange p off bs.length = true) :
    Abandoned p c rest F (memWrite off bs) := by
  intro s due
  rw [memWrite, if_pos (due.1.params ▸ inside)]
  exact abandoned_step false _ s due

theorem abandoned_raise (e : ErrCode) : Abandoned p c rest F (raise e : Seq α) := abandoned_lastStep _

theorem abandoned_finish (r0 r1 : Word) : Abandoned p c rest F (finish r0 r1 : Seq α) := abandoned_lastStep _

theorem waits_pure (a : α) : Waits p c rest F (pure a : Seq α) := meets_pure a fun _ due => due

theorem waits_require (b : Bool) (e : ErrCode) : Waits p c rest F (require b e) :=
  meets_require (fun _ _ due => due) (abandoned_raise e).waits

theorem waits_busCheck : Waits p c rest F busCheck := meets_get fun _ _ => waits_require _ _

theorem waits_checkSingle (m : Addressing) (l : Latch) : Waits p c rest F (checkSingle m l) := by
  cases m with
  | single => exact meets_get fun _ _ => waits_require _ _
  | multi => exact waits_pure ()

/-! ## Slots and bytes -/

theorem abandoned_slotReset : Abandoned p c rest F slotReset := abandoned_step true _

theorem abandoned_slotRead : Abandoned p c rest F slotRead := abandoned_step true _

theorem abandoned_slotWrite (b : Bool) : Abandoned p c rest F (slotWrite b) := abandoned_step true _

theorem abandoned_now : Abandoned p c rest F now := abandoned_step false _

/-- A byte has a first bit. -/
theorem abandoned_writeByte (v : Byte) : Abandoned p c rest F (writeByte v) :=
  (abandoned_slotWrite (v.getLsbD 0)).bind _

theorem abandoned_readByte : Abandoned p c rest F readByte := (Abandoned.bind abandoned_slotRead _).bind _

theorem waits_writeBytes (vs : List Byte) : Waits p c rest F (writeBytes vs) := by
  cases vs with
  | nil => exact waits_pure ()
  | cons v vs => exact ((abandoned_writeByte v).bind _).waits

theorem abandoned_address (m : Addressing) (id : RomId) : Abandoned p c rest F (address m id) :=
  (Abandoned.bind abandoned_slotReset _).bind _

theorem abandoned_writeSpad (m : Addressing) (id : RomId) (th tl cf : Byte) :
    Abandoned p c rest F (writeSpad m id th tl cf) := (abandoned_address m id).bind _

theorem abandoned_startOperation (m : Addressing) (id : RomId) (cmd : Byte) :
    Abandoned p c rest F (startOperation m id cmd) := (abandoned_address m id).bind _

theorem abandoned_pollOnce : Abandoned p c rest F pollOnce := Abandoned.bind abandoned_slotRead _

/-! ## The DBUF commands -/

theorem waits_memRead {off n : Nat} (inside : ramRange p off n = true) : Waits p c rest F (memRead off n) := by
  refine meets_memRead (fun s due _ => ?_) fun s due outside => ?_
  · rw [ramBytes_frame]
    exact ⟨Steps.draws mid_steps _ s due.1, due.2⟩
  · rw [due.1.params, inside] at outside
    cases outside

theorem waits_sendRam {off n : Nat} (inside : ∀ k, k < n → ramRange p (off + k) 1 = true) :
    Waits p c rest F (sendRam off n) := by
  induction n generalizing off with
  | zero => exact waits_pure ()
  | succ n ih =>
    refine meets_bind (waits_memRead (inside 0 (Nat.succ_pos n))) fun bs => meets_bind (waits_writeBytes bs) fun _ => ?_
    refine ih fun k hk => ?_
    rw [Nat.add_assoc, Nat.add_comm 1 k]
    exact inside (k + 1) (Nat.succ_lt_succ hk)

theorem waits_receiveRam (off n : Nat) : Waits p c rest F (receiveRam off n) := by
  cases n with
  | zero => exact waits_pure ()
  | succ n => exact (Abandoned.bind abandoned_readByte _).waits

/-- The range check, the bus check, the bytes if any, and the end. -/
theorem abandoned_dbufCommand (l : Latch) {m : Seq Unit}
    (bytes : l.a0.toNat + l.a1.toNat ≤ 256 → Waits p c rest F m) :
    Abandoned p c rest F (do checkDbufRange l; busCheck; m; finish 0 0 : Seq Unit) := by
  rw [checkDbufRange_eq]
  by_cases inside : l.a0.toNat + l.a1.toNat ≤ 256
  · rw [decide_eq_true inside]
    exact meets_bind (waits_require true .badArg) fun _ => meets_bind waits_busCheck fun _ =>
      meets_bind (bytes inside) fun _ => abandoned_finish 0 0
  · rw [decide_eq_false inside]
    exact (abandoned_raise .badArg).bind _

/-! ## The search -/

theorem abandoned_searchFail (e : ErrCode) : Abandoned p c rest F (searchFail e : Seq α) :=
  meets_get fun _ due => (abandoned_memWrite (due.1.params ▸ ramRange_image _ [])).bind _

theorem abandoned_searchRule (m : SearchMode) (l : Latch) : Abandoned p c rest F (searchRule m l) := by
  refine meets_get fun s _ => ?_
  cases s.busCfg.configured with
  | false => exact (abandoned_searchFail .badPin).bind _
  | true => exact meets_bind (waits_pure ()) fun _ => Abandoned.bind abandoned_now _

end

/-! ## Scratch-pad reads -/

section

variable {α : Type} {p : Params} {c : Bool} {rest : List HostItem} {F G : HiddenView → Prop}

theorem waits_readIds {off n : Nat} (inside : ∀ k, k < n → ramRange p (off + 8 * k) 8 = true) :
    Meets (Due p c rest F) (readIds off n) (fun ids s => Due p c rest F s ∧ ids.length = n)
      (Always (AfterReset p rest)) := by
  induction n generalizing off with
  | zero => exact meets_pure _ fun _ due => ⟨due, rfl⟩
  | succ n ih =>
    refine meets_bind (waits_memRead (inside 0 (Nat.succ_pos n))) fun bs => ?_
    refine meets_bind (ih fun k hk => ?_) fun ids => meets_pure _ fun s due => ⟨due.1, congrArg Nat.succ due.2⟩
    have next := inside (k + 1) (Nat.succ_lt_succ hk)
    rwa [Nat.mul_succ, Nat.add_comm (8 * k), ← Nat.add_assoc] at next

/-- The per-command state may change. -/
theorem due_hidden {s : State} (due : Due p c rest F s) (v : HiddenView) (fits : v.devices.length ≤ p.maxDevices)
    (hv : G v) : Due p c rest G { s with
      pos := v.pos, search := v.search, readPass := v.readPass, devices := v.devices, poll := v.poll
      capture := v.capture } := ⟨mid_hidden due.1 v fits hv, due.2⟩

theorem waits_prepareList (m : Addressing) (l : Latch) : Waits p c rest Any (prepareList m l) := by
  cases m with
  | single =>
    refine meets_bind (waits_checkSingle .single l) fun _ => meets_hidden fun s due => ?_
    exact due_hidden due { hiddenOf s with devices := [l.tgt] } (dev_le p).1 trivial
  | multi =>
    refine meets_get fun s0 due0 => meets_bind (waits_require _ _) fun _ => ?_
    have few : s0.romCount.toNat ≤ p.maxDevices := due0.1.params ▸ due0.1.inv.romCount
    refine meets_bind (waits_readIds fun k hk => ramRange_romtab (by omega)) fun ids => meets_hidden fun s due => ?_
    exact due_hidden due.1 { hiddenOf s with devices := ids } (due.2.trans_le few) trivial

/-- The first device of a pass: its reset slot, or, where its id is invalid, the write of its record. -/
theorem abandoned_readDevice (k : ReadKind) (l : Latch) (id : RomId) (ds : List RomId) :
    Abandoned p c rest (AtRecord ds 0) (readDevice k l id) := by
  refine meets_get fun s due => ?_
  have first : (readPassOf s).index = 0 := due.1.extra.2
  refine meets_ite (fun _ => (Abandoned.bind abandoned_slotReset _).bind _) fun _ => ?_
  have inside : ramRange p (restabBase + 32 * 0) 32 = true := ramRange_restab (Nat.mul_le_mul_left 32 (dev_le p).1)
  rw [first]
  exact (abandoned_memWrite (by rw [recordBytes_length]; exact inside)).bind _

/-- Passes over no device make no step but the last. -/
theorem abandoned_endPasses (nvalid n : Nat) : Abandoned p c rest F (endPasses nvalid n) :=
  meets_bind (waits_require _ _) fun _ => abandoned_finish _ _

theorem abandoned_readPasses (k : ReadKind) (l : Latch) (n : Nat) : Abandoned p c rest Any (readPasses k l n) := by
  induction n with
  | zero => exact abandoned_raise .integrity
  | succ n ih =>
    have start : Meets (Due p c rest Any) startPass (fun _ s => Due p c rest (AtRecord s.devices 0) s)
        (Always (AfterReset p rest)) := meets_hidden fun s due =>
      due_hidden due { hiddenOf s with readPass := some _ } (mid_devices due.1) ⟨rfl, rfl⟩
    refine meets_bind start fun _ => meets_get_bind fun s due => ?_
    refine meets_mono (P := Due p c rest (AtRecord s.devices 0)) ?_ (fun _ same => same ▸ due) (fun _ _ h => h)
      fun _ h => h
    cases s.devices with
    | cons id ids => exact ((abandoned_readDevice k l id _).bind _).bind _
    | nil =>
      refine meets_bind (waits_pure ()) fun _ => meets_get fun s2 _ =>
        meets_ite (fun _ => abandoned_endPasses _ _) fun _ => ?_
      refine meets_bind (Q := fun _ => Due p c rest Any) (meets_hidden fun s due => ?_) fun _ => ih
      exact due_hidden due { hiddenOf s with readPass := some _ } (mid_devices due.1) trivial

theorem abandoned_readAll (k : ReadKind) (l : Latch) : Abandoned p c rest Any (readAll k l) := by
  refine meets_bind (Q := fun _ => Due p c rest Any) (meets_hidden fun s due => ?_) fun _ =>
    meets_get fun _ _ => abandoned_readPasses k l _
  exact due_hidden due { hiddenOf s with readPass := some _ } (mid_devices due.1) trivial

/-! ## Rules with a poll -/

theorem waits_beforePoll {m : Seq Unit} (h : Abandoned p c rest F m) : Waits p c rest F (beforePoll m) :=
  meets_get fun _ _ => meets_ite (fun _ => h.waits) fun _ => waits_pure ()

theorem abandoned_captureSpad (m : Addressing) (l : Latch) (n : Nat) : Abandoned p c rest F (captureSpad m l n) := by
  cases n with
  | zero => exact abandoned_raise .integrity
  | succ n => exact (abandoned_address m l.tgt).bind _

theorem abandoned_convreadRule (m : Addressing) (l : Latch) : Abandoned p c rest Any (convreadRule m l) := by
  refine meets_bind (waits_beforePoll ?_) fun _ => Abandoned.bind abandoned_pollOnce _
  exact meets_bind waits_busCheck fun _ => meets_bind (waits_prepareList m l) fun _ => meets_get fun _ _ =>
    (abandoned_startOperation m l.tgt _).bind _

theorem abandoned_eepromCommand (m : Addressing) (cmd : Byte) (l : Latch) :
    Abandoned p c rest F (eepromCommand m cmd l) := by
  refine meets_bind (waits_beforePoll ?_) fun _ => Abandoned.bind abandoned_pollOnce _
  exact meets_bind waits_busCheck fun _ => meets_bind (waits_checkSingle m l) fun _ =>
    (abandoned_startOperation m l.tgt cmd).bind _

theorem abandoned_isfakeRule (m : Addressing) (l : Latch) : Abandoned p c rest F (isfakeRule m l) := by
  refine meets_bind (waits_beforePoll ?probe) fun _ => meets_bind (Q := fun _ => Due p c rest F) ?drain fun _ =>
    Abandoned.bind abandoned_pollOnce _
  case probe =>
    exact meets_bind waits_busCheck fun _ => meets_bind (waits_checkSingle m l) fun _ => meets_get fun _ _ =>
      (abandoned_captureSpad m l _).bind _
  case drain =>
    exact meets_get fun _ _ => meets_ite (fun _ => waits_pure ()) fun _ => (Abandoned.bind abandoned_pollOnce _).waits

theorem abandoned_configRule (m : Addressing) (l : Latch) : Abandoned p c rest F (configRule m l) := by
  refine meets_get fun s _ => ?_
  split
  · exact abandoned_raise .badArg
  · exact meets_bind waits_busCheck fun _ => meets_bind (waits_checkSingle m l) fun _ =>
      (abandoned_writeSpad m l.tgt _ _ _).bind _

/-! ## Every rule -/

theorem afterReset_runRule {rule : Latch → Seq Unit} {s : State} {l : Latch} (latched : s.latch = some l)
    (due : Due p c rest F s) (h : ∀ l, Abandoned p c rest F (rule l)) : Always (AfterReset p rest) (runRule rule s) :=
  runRule_meets latched (meets_mono (meets_at (h l) due) (fun _ same => same) (fun _ _ never => never.elim)
    fun _ ho => ho)

/-- After the bus check the rule makes a step. -/
theorem abandoned_busCheck {m : Seq α} (h : Abandoned p c rest F m) : Abandoned p c rest F (do busCheck; m) :=
  meets_bind waits_busCheck fun _ => h

theorem afterReset_exec {s : State} {l : Latch} (latched : s.latch = some l) (due : Due p c rest Any s) (i : Instr) :
    Always (AfterReset p rest) (exec i s) := by
  have run {rule : Latch → Seq Unit} := afterReset_runRule (rule := rule) latched due
  cases i with
  | crcReg | crcCalc | owCfgbus | owSpeed => exact run fun _ => abandoned_lastStep _
  | owReset => exact run fun _ => abandoned_busCheck (Abandoned.bind abandoned_slotReset _)
  | owWbit => exact run fun _ => abandoned_busCheck ((abandoned_slotWrite _).bind _)
  | owRbit | tsIsdone => exact run fun _ => abandoned_busCheck (Abandoned.bind abandoned_slotRead _)
  | owWbyte => exact run fun _ => abandoned_busCheck ((abandoned_writeByte _).bind _)
  | owRbyte => exact run fun _ => abandoned_busCheck (Abandoned.bind abandoned_readByte _)
  | owWmulti =>
    exact run fun l => abandoned_dbufCommand l fun inside => waits_sendRam fun _ hk => ramRange_dbuf_byte p inside hk
  | owRmulti => exact run fun l => abandoned_dbufCommand l fun _ => waits_receiveRam _ _
  | owSearch m => exact run (abandoned_searchRule m)
  | tsConfig m => exact run (abandoned_configRule m)
  | tsConvert m =>
    exact run fun l => abandoned_busCheck (meets_bind (waits_checkSingle m l) fun _ => meets_get fun _ _ =>
      (abandoned_startOperation m l.tgt _).bind _)
  | tsConvread m => exact run (abandoned_convreadRule m)
  | tsReadtemp m | tsReadalarm m =>
    exact run fun l => abandoned_busCheck (meets_bind (waits_prepareList m l) fun _ => abandoned_readAll _ l)
  | tsSave m | tsRestore m => exact run (abandoned_eepromCommand m _)
  | tsIsfake m => exact run (abandoned_isfakeRule m)

end

/-! ## Every step -/

/-- A reset whose time has come, whether or not a command runs. -/
theorem afterReset_step {s : State} {c : Bool} {rest : List HostItem} (inv : s.Inv)
    (host : s.host = ⟨0, .reset c⟩ :: rest) : Always (AfterReset s.params rest) (step s) := by
  cases busy : s.status.busy with
  | false =>
    rw [step_idle busy, hostIdle, host]
    exact always_next (afterReset_resetInput false rest s)
  | true =>
    have due : Due s.params c rest Any s := ⟨mid_of_busy inv busy, host⟩
    obtain ⟨l, latched⟩ := latched_of_busy inv busy
    rw [step, if_pos busy]
    split
    · exact afterReset_exec latched due _
    · exact afterReset_runRule latched due fun _ => abandoned_raise .illegal

/-- Settles O52: the reset is the answer of the machine's step, and of any step of a rule, before it acts. -/
theorem resetAbandonsEverything : Obligations.ResetAbandonsEverything := by
  unfold Obligations.ResetAbandonsEverything
  refine ⟨fun s c rest inv host => afterReset_step inv host, fun α s c rest host =>
    ⟨fun inSlot f => ?step, fun f => ?last⟩⟩
  case step => exact ⟨_, by simp only [sequencerStep, host, hostTurn], afterReset_resetInput (c && inSlot) rest s⟩
  case last => exact ⟨_, by simp only [lastStep, host, hostTurn], afterReset_resetInput (c && false) rest s⟩

end Sys2Proof.Machine
end

section
/-! Frames: what a command leaves alone while the host is quiet (10_state R31 to R37, R45; 20_memory R104, R105). -/

namespace Sys2Proof.Machine

/-- What some commands write of the registers and the registry: every other step leaves it alone. -/
def written (u : State) : List CrcSlot × BusCfg × DevCfg × Byte × Bool × Bool :=
  (u.registry, u.busCfg, u.devCfg, u.romCount, u.status.presence, u.status.rbool)

/-- `field_frame` for a part of it: a use says which steps leave that part alone. -/
theorem frame_of_written {α : Type}
    (g : List CrcSlot × BusCfg × DevCfg × Byte × Bool × Bool → α) {i : Instr} {s t : State}
    (quiet : s.host = []) (ran : exec i s = .next t)
    (presence : resetsBus i = true → ∀ b u, g (written (setPresence b u)) = g (written u))
    (rbool : writesRbool i = true → ∀ b u, g (written (setRbool b u)) = g (written u))
    (bus : i = .owCfgbus ∨ i = .owSpeed → ∀ c d (u : State),
      g (written { u with busCfg := c, driveLow := d }) = g (written u))
    (register : i = .crcReg → ∀ l (u : State) sl, registerCheck l u = .ok sl →
      g (written { u with registry := u.registry ++ [sl] }) = g (written u))
    (count : (∃ m, i = .owSearch m) → ∀ n (u : State), g (written { u with romCount := n }) = g (written u))
    (config : (∃ m, i = .tsConfig m) → ∀ d (u : State), g (written { u with devCfg := d }) = g (written u)) :
    g (written t) = g (written s) :=
  field_frame (fun u => g (written u)) i s t quiet ran (fun _ _ _ => rfl) (fun _ _ => rfl) (fun _ _ _ => rfl)
    (fun _ _ => rfl) (fun _ _ _ => rfl) (fun _ _ _ => rfl) (fun _ _ _ _ _ _ => rfl) presence rbool bus register
    (fun _ _ _ => rfl) count (fun _ _ => rfl) config

/-! ## The registry -/

/-- CRC.REG appends a slot with its table, or nothing (40_crc R206, R207). -/
theorem registry_registerPoly (l : Latch) (s : State) :
    (registerPoly l s).registry = s.registry ∨
      ∃ sl : CrcSlot, (registerPoly l s).registry = s.registry ++ [sl] ∧ sl.table = genTable sl.poly sl.width := by
  unfold registerPoly
  split
  · rename_i sl passed
    obtain ⟨w, rfl, -⟩ := registerCheck_passed passed
    exact .inr ⟨_, rfl, newSlot_table ..⟩
  · exact .inl rfl

theorem registry_exec {i : Instr} {s t : State} (other : i ≠ .crcReg) (quiet : s.host = []) (ran : exec i s = .next t) :
    t.registry = s.registry :=
  frame_of_written (fun w => w.1) quiet ran (fun _ _ _ => rfl) (fun _ _ _ => rfl) (fun _ _ _ _ => rfl)
    (fun reg => absurd reg other) (fun _ _ _ => rfl) (fun _ _ _ => rfl)

/-- Settles O13: CRC.REG is one step, which appends; no other command writes the registry. -/
theorem registryIsAppendOnly : Obligations.RegistryIsAppendOnly := by
  unfold Obligations.RegistryIsAppendOnly
  intro i s t quiet ran
  by_cases reg : i = .crcReg
  · subst reg
    obtain ⟨l, rfl⟩ := runRule_lastStep quiet ran
    exact (registry_registerPoly l s).imp_right fun appended => ⟨rfl, appended⟩
  · exact .inl (registry_exec reg quiet ran)

/-! ## Operands, sticky bits, parameters -/

theorem untouched_base (s : State) : Base (Untouched s) (IfNext (Untouched s)) where
  slots := fun _ _ _ h => { h with }
  seq := fun _ _ h => { h with }
  clock := fun _ _ _ h => { h with }
  draws := fun _ _ h => { h with }
  fault := fun _ => ifNext_fault
  fail := fun _ _ _ _ h => ifNext_next { h with }
  done := fun _ _ _ h => ifNext_next { h with }
  waits := fun _ h => ifNext_next h

theorem untouched_refl (s : State) : Untouched s s := ⟨rfl, rfl, rfl, rfl, rfl, rfl, rfl, rfl, rfl, rfl, rfl, rfl, rfl⟩

/-- Settles O57: no step of a command writes one of these fields. -/
theorem noCommandChangesOperands : Obligations.NoCommandChangesOperands := by
  unfold Obligations.NoCommandChangesOperands
  intro i s t quiet
  have frame : IfNext (Untouched s) (exec i s) :=
    exec_all (untouched_base s) (fun _ _ _ _ _ _ h => { h with }) i s (fun _ _ h => { h with })
    (fun _ _ h => { h with })
      (fun _ _ _ h => { h with }) (fun _ _ _ _ h => { h with }) (fun _ _ _ h => { h with }) (fun _ _ h => { h with })
      (fun _ _ h => { h with }) (fun _ _ h => ifNext_next { h with }) quiet (untouched_refl s)
  exact frame t

/-! ## Registers that some commands write -/

section

variable {i : Instr} {s t : State} (quiet : s.host = []) (ran : exec i s = .next t)
include quiet ran

theorem busCfg_exec (noCfgbus : i ≠ .owCfgbus) (noSpeed : i ≠ .owSpeed) : t.busCfg = s.busCfg :=
  frame_of_written (fun w => w.2.1) quiet ran (fun _ _ _ => rfl) (fun _ _ _ => rfl) (fun writes =>
    (writes.elim noCfgbus noSpeed).elim) (fun _ _ _ _ _ => rfl) (fun _ _ _ => rfl) (fun _ _ _ => rfl)

theorem devCfg_exec (noConfig : ∀ m, i ≠ .tsConfig m) : t.devCfg = s.devCfg :=
  frame_of_written (fun w => w.2.2.1) quiet ran (fun _ _ _ => rfl) (fun _ _ _ => rfl) (fun _ _ _ _ => rfl)
    (fun _ _ _ _ _ => rfl) (fun _ _ _ => rfl) fun ⟨m, writes⟩ => absurd writes (noConfig m)

theorem romCount_exec (noSearch : ∀ m, i ≠ .owSearch m) : t.romCount = s.romCount :=
  frame_of_written (fun w => w.2.2.2.1) quiet ran (fun _ _ _ => rfl) (fun _ _ _ => rfl) (fun _ _ _ _ => rfl)
    (fun _ _ _ _ _ => rfl) (fun ⟨m, writes⟩ => absurd writes (noSearch m)) (fun _ _ _ => rfl)

theorem presence_exec (noReset : resetsBus i = false) : t.status.presence = s.status.presence :=
  frame_of_written (fun w => w.2.2.2.2.1) quiet ran (fun resets => by rw [noReset] at resets; cases resets)
    (fun _ _ _ => rfl) (fun _ _ _ _ => rfl) (fun _ _ _ _ _ => rfl) (fun _ _ _ => rfl) (fun _ _ _ => rfl)

theorem rbool_exec (noRbool : writesRbool i = false) : t.status.rbool = s.status.rbool :=
  frame_of_written (fun w => w.2.2.2.2.2) quiet ran (fun _ _ _ => rfl)
    (fun writes => by rw [noRbool] at writes; cases writes) (fun _ _ _ _ => rfl) (fun _ _ _ _ _ => rfl)
    (fun _ _ _ => rfl) (fun _ _ _ => rfl)

end

/-- TS.CONFIG writes DEVCFG right before its good end, so an error leaves it (43_session R357). -/
theorem devCfg_tsConfig {m : Addressing} {s t : State} (quiet : s.host = []) (ran : exec (.tsConfig m) s = .next t)
    (failed : t.status.errcode ≠ .none) : t.devCfg = s.devCfg := by
  have base : Base (fun u => u.devCfg = s.devCfg)
      (IfNext fun u => u.status.errcode ≠ .none → u.devCfg = s.devCfg) :=
    { slots := fun _ _ _ h => h
      seq := fun _ _ h => h
      clock := fun _ _ _ h => h
      draws := fun _ _ h => h
      fault := fun _ => ifNext_fault
      fail := fun _ _ _ _ h => ifNext_next fun _ => h
      done := fun _ _ _ h => ifNext_next fun _ => h
      waits := fun _ h => ifNext_next fun _ => h }
  exact exec_free base (fun _ _ _ _ _ _ h => h) (.tsConfig m) s rfl (fun _ _ _ h => h) (fun _ _ _ h => h)
    (fun _ _ _ _ h => h) (fun _ _ _ _ _ h => h) (fun _ _ _ _ _ _ _ _ h => h) (fun _ _ _ _ h => h) (fun _ _ _ h => h)
    (fun _ _ _ _ => ifNext_next fun failed => absurd rfl failed) quiet rfl t ran failed

/-- Settles O58: register by register, with the commands that write it left out. -/
theorem registerFrame : Obligations.RegisterFrame := by
  unfold Obligations.RegisterFrame
  intro i s t quiet ran
  refine ⟨busCfg_exec quiet ran, ?devCfg, romCount_exec quiet ran, presence_exec quiet ran, rbool_exec quiet ran⟩
  case devCfg =>
    rintro (noConfig | failed)
    · exact devCfg_exec quiet ran noConfig
    · by_cases config : ∃ m, i = .tsConfig m
      · obtain ⟨m, rfl⟩ := config
        exact devCfg_tsConfig quiet ran failed
      · exact devCfg_exec quiet ran fun m same => config ⟨m, same⟩

/-! ## Memory -/

/-- Bytes stored inside a set of offsets leave every other byte. -/
theorem memoryOutside_storeBytes {written : Nat → Prop} {s u : State} {off : Nat} {bs : List Byte}
    (inside : ∀ a, off ≤ a → a < off + bs.length → written a) (h : MemoryOutside written s u) :
    MemoryOutside written s (storeBytes off bs u) := by
  intro a outside
  have elsewhere : ¬ (off ≤ a ∧ a < off + bs.length) := fun ⟨lo, hi⟩ => outside (inside a lo hi)
  rw [← h a outside]
  simp only [storeBytes, memGet_memSetBytes, if_neg elsewhere]

theorem memoryOutside_base (written : Nat → Prop) (s : State) :
    Base (MemoryOutside written s) (IfNext (MemoryOutside written s)) where
  slots := fun _ _ _ h => h
  seq := fun _ _ h => h
  clock := fun _ _ _ h => h
  draws := fun _ _ h => h
  fault := fun _ => ifNext_fault
  fail := fun _ _ _ _ h => ifNext_next h
  done := fun _ _ _ h => ifNext_next h
  waits := fun _ h => ifNext_next h

/-- The commands that read no scratch-pad: OW.RMULTI stores the bytes its operands name, OW.SEARCH a table. -/
theorem memoryOutside_free {i : Instr} {s : State} {l : Latch} (acc : Accepted s l) (free : reads i = false) :
    IfNext (MemoryOutside (storedBytes i s l) s) (exec i s) := by
  refine exec_free (memoryOutside_base _ s) (fun _ _ _ _ _ _ h => h) i s free (fun _ _ _ h => h) (fun _ _ _ h => h)
    (fun _ _ _ _ h => h) (fun _ _ _ _ _ h => h) ?receive ?table (fun _ _ _ h => h) (fun _ _ _ h => ifNext_next h)
    acc.quiet fun _ _ => rfl
  case receive =>
    rintro rfl l' latched - k b u hk h
    obtain rfl : l = l' := Option.some.inj (acc.latched.symm.trans latched)
    refine memoryOutside_storeBytes (fun a lo hi => ?_) h
    simp only [List.length_singleton] at hi
    show dbufBase + l.a0.toNat ≤ a ∧ a < dbufBase + l.a0.toNat + l.a1.toNat
    omega
  case table =>
    rintro ⟨m, rfl⟩ ids u - h
    refine memoryOutside_storeBytes (fun a lo hi => ?_) h
    rw [romtabImage_length] at hi
    exact ⟨lo, hi⟩

/-- A read pass over n devices. -/
def RecordsOutside (n : Nat) (s u : State) : Prop := MemoryOutside (restabBytes n) s u ∧ u.devices.length = n

theorem recordsOutside_base (n : Nat) (s : State) :
    Base (RecordsOutside n s) (IfNext (MemoryOutside (restabBytes n) s)) where
  slots := fun _ _ _ h => h
  seq := fun _ _ h => h
  clock := fun _ _ _ h => h
  draws := fun _ _ h => h
  fault := fun _ => ifNext_fault
  fail := fun _ _ _ _ h => ifNext_next h.1
  done := fun _ _ _ h => ifNext_next h.1
  waits := fun _ h => ifNext_next h.1

theorem recordsOutside_record {n : Nat} {s u : State} {j : Nat} {bs : List Byte} (record : bs.length = 32)
    (h : RecordsOutside n s u) (hj : j < u.devices.length) :
    RecordsOutside n s (storeBytes (restabBase + 32 * j) bs u) := by
  refine ⟨memoryOutside_storeBytes (fun a lo hi => ?_) h.1, h.2⟩
  rw [h.2] at hj
  rw [record] at hi
  show restabBase ≤ a ∧ a < restabBase + 32 * n
  omega

/-- The device list is as long as the records the command may write (43_session R360). -/
theorem recordsOutside_prepareList {s : State} (quiet : s.host = []) (m : Addressing) (l : Latch) :
    Meets (fun u => u = s) (prepareList m l) (fun _ => Qt s.params (RecordsOutside (recordCount m s) s))
      (IfNext (MemoryOutside (restabBytes (recordCount m s)) s)) := by
  have st := (memoryOutside_base (restabBytes (recordCount m s)) s).steps (p := s.params) fun _ _ h => h
  have start : Qt s.params (MemoryOutside (restabBytes (recordCount m s)) s) s := ⟨quiet, rfl, fun _ _ => rfl⟩
  cases m with
  | single =>
    refine meets_bind (meets_at (st.checkTarget l) start) fun _ => meets_hidden fun u h => ?_
    exact ⟨h.quiet, h.params, h.view, rfl⟩
  | multi =>
    refine meets_get_bind fun s0 same => ?_
    subst same
    refine meets_bind (meets_at (st.require (by decide)) start) fun _ => ?_
    refine meets_bind (st.readIds fun _ _ _ _ => .inr ifNext_fault) fun ids => meets_hidden fun u h => ?_
    exact ⟨h.1.quiet, h.1.params, h.1.view, h.2⟩

/-- A scratch-pad read over n devices. -/
theorem memoryOutside_reads {i : Instr} {s : State} {n : Nat} (quiet : s.host = []) (read : reads i = true)
    (list : ∀ m, i = .tsReadtemp m ∨ i = .tsReadalarm m ∨ i = .tsConvread m ∧ s.pos = .start → recordCount m s = n)
    (later : ∀ m, i = .tsConvread m → s.pos ≠ .start → s.devices.length = n) :
    IfNext (MemoryOutside (restabBytes n) s) (exec i s) :=
  exec_reads (memoryOutside_base _ s) (recordsOutside_base n s) (fun _ _ _ _ _ _ h => h) i s read (fun _ _ h => h)
    (fun m l first => list m first ▸ recordsOutside_prepareList quiet m l)
    (fun m convread polling => ⟨fun _ _ => rfl, later m convread polling⟩) (fun _ _ _ record h hj =>
      recordsOutside_record record h hj) quiet fun _ _ => rfl

/-- Settles O59: a command's stores are those of its range, its table, or its records. -/
theorem memoryFrame : Obligations.MemoryFrame := by
  unfold Obligations.MemoryFrame
  intro i s t l acc
  suffices frame : IfNext (MemoryOutside (storedBytes i s l) s) (exec i s) from frame t
  cases read : reads i with
  | false => exact memoryOutside_free acc read
  | true =>
    cases i with
    | tsReadtemp m => exact memoryOutside_reads acc.quiet read (by simp) (by simp)
    | tsReadalarm m => exact memoryOutside_reads acc.quiet read (by simp) (by simp)
    | tsConvread m =>
      refine memoryOutside_reads acc.quiet read ?_ ?_
      · simp +contextual
      · simp +contextual
    | _ => cases read

end Sys2Proof.Machine
end

section
/-! The DBUF send (41_bus R274) and TS.CONFIG (43_session R355 to R357). -/

namespace Sys2Proof.Machine

/-! ## OW.WMULTI -/

section

variable {s : State} {l : Latch}

theorem exec_owWmulti_badRange (accepted : Accepted s l) (beyond : 256 < l.a0.toNat + l.a1.toNat) :
    exec .owWmulti s = .next (errorEnd .badArg 0 s) := by
  refine runRule_error accepted.latched ?_
  rw [checkDbufRange_eq, decide_eq_false (Nat.not_le.mpr beyond)]
  exact seq_bind_error (raise_quiet accepted.quiet)

/-- A range inside DBUF passes its check. -/
theorem checkDbufRange_inside (inside : l.a0.toNat + l.a1.toNat ≤ 256) : checkDbufRange l s = .ok ((), s) := by
  rw [checkDbufRange_eq, decide_eq_true inside, require_true]
  rfl

theorem exec_owWmulti_unconfigured (accepted : Accepted s l) (inside : l.a0.toNat + l.a1.toNat ≤ 256)
    (unconfigured : s.busCfg.configured = false) : exec .owWmulti s = .next (errorEnd .badPin 0 s) := by
  refine runRule_error accepted.latched ?_
  rw [seq_bind_ok (checkDbufRange_inside inside)]
  exact seq_bind_error (busCheck_unconfigured unconfigured accepted.quiet)

/-- Past its checks the command sends the bytes read from DBUF (41_bus R274). -/
theorem exec_owWmulti_sends (ready : BusReady s l) (inside : l.a0.toNat + l.a1.toNat ≤ 256) {data : List Byte}
    {s' : State} (read : ramBytes (dbufBase + l.a0.toNat) l.a1.toNat s = (data, s')) :
    exec .owWmulti s = .next (okEnd 0 0 (onLine s' (sent data) s.bus)) := by
  have inRange (k : Nat) (hk : k < l.a1.toNat) : inRam s.params (dbufBase + l.a0.toNat + k) = true :=
    inRam_dbuf (by omega) (by simp only [dbufSize]; omega)
  have sends := sendRam_quiet (dbufBase + l.a0.toNat) l.a1.toNat ready.quiet inRange
  rw [read] at sends
  obtain ⟨d, rfl⟩ : ∃ d, s' = { s with draws := d } :=
    ⟨_, (congrArg Prod.snd read).symm.trans (ramBytes_frame (dbufBase + l.a0.toNat) l.a1.toNat s)⟩
  have quiet : (onLine { s with draws := d } (sent data) s.bus).host = [] := ready.quiet
  refine runRule_error ready.latched ?_
  rw [seq_bind_ok (checkDbufRange_inside inside), seq_bind_ok (busCheck_configured ready.configured), seq_bind_ok sends,
    finish_quiet quiet]

end

/-- Settles O18: the range, then the bus, then the bytes of a block read, which are the written ones where all of them
are written. -/
theorem owWmultiOutcome : Obligations.OwWmultiOutcome := by
  unfold Obligations.OwWmultiOutcome
  refine ⟨rfl, fun s l accepted => ⟨exec_owWmulti_badRange accepted, exec_owWmulti_unconfigured accepted,
    fun inside configured => ?_⟩⟩
  have ready : BusReady s l := ⟨accepted, configured⟩
  refine ⟨?drawn, fun data length written => ?written⟩
  case drawn =>
    obtain ⟨d, frame⟩ : ∃ d, (ramBytes (dbufBase + l.a0.toNat) l.a1.toNat s).2 = { s with draws := d } :=
      ⟨_, ramBytes_frame _ _ s⟩
    exact ⟨_, d, ramBytes_length _ _ s, exec_owWmulti_sends ready inside (Prod.ext rfl frame)⟩
  case written => exact exec_owWmulti_sends ready inside (ramBytes_written length fun k hk => written k (length ▸ hk))

/-! ## TS.CONFIG -/

section

variable {s : State} {l : Latch} {m : Addressing}

theorem exec_tsConfig_illegal (accepted : Accepted s l) (illegal : configOperands s.params l = none) :
    exec (.tsConfig m) s = .next (errorEnd .badArg 0 s) := by
  refine runRule_error accepted.latched ?_
  rw [configRule, seq_get_bind, illegal]
  exact raise_quiet accepted.quiet

theorem configOperands_badResolution {p : Params} (bad : l.a0.toNat < 9 ∨ 12 < l.a0.toNat) :
    configOperands p l = none := by
  simp only [configOperands, resolutionOperand, if_pos bad]

theorem configOperands_badAlarms {p : Params} (bad : l.a1.toInt < l.a2.toInt) : configOperands p l = none := by
  have alarms : alarmBytes p l = none := by rw [alarmBytes, if_neg (by omega), if_pos bad]
  unfold configOperands
  split
  · rfl
  · simp only [alarms]

/-- Legal operands: the resolution in 9..12, and the alarm bytes (43_session R355, R356). -/
theorem configOperands_legal {p : Params} {th tl : Byte} {conf : Bool} (atLeast : 9 ≤ l.a0.toNat)
    (atMost : l.a0.toNat ≤ 12) (alarms : alarmBytes p l = some (th, tl, conf)) :
    configOperands p l =
      some
        { res := BitVec.ofNat 4 l.a0.toNat, alarmsConf := conf, th := th, tl := tl, cfgb := cfgByte l.a0.toNat } := by
  have legal : ¬ (l.a0.toNat < 9 ∨ 12 < l.a0.toNat) := by omega
  simp only [configOperands, resolutionOperand, if_neg legal, alarms]

/-- With legal operands and a device that answers, the bytes are sent and DEVCFG takes them (43_session R355, R357). -/
theorem exec_tsConfig_sends {d : DevCfg} {rest : List Bool} (ready : BusReady s l) (target : TargetOk s m l)
    (legal : configOperands s.params l = some d) (answer : s.bus = false :: rest) :
    exec (.tsConfig m) s = .next (okEnd 0 0
      { setPresence true (onLine s (writeSpadSlots s.params m l.tgt d.th d.tl d.cfgb) rest) with devCfg := d }) := by
  refine runRule_error ready.latched ?_
  rw [configRule, seq_get_bind, legal]
  show sendConfig m l d s = _
  rw [sendConfig, seq_bind_ok (busCheck_configured ready.configured), seq_bind_ok (checkSingle_ok target),
    seq_bind_ok (writeSpad_answer ready.quiet answer), seq_bind_ok (update_quiet (by exact ready.quiet)),
    finish_quiet (by exact ready.quiet)]
  rfl

end

/-- Settles O31: operands that are illegal end the command at once; legal ones are what is sent. -/
theorem tsConfigOutcome : Obligations.TsConfigOutcome := by
  unfold Obligations.TsConfigOutcome
  intro m s l hi lo res accepted highest lowest resolution
  rw [resolution]
  refine ⟨fun bad => exec_tsConfig_illegal accepted (configOperands_badResolution bad),
    fun bad => exec_tsConfig_illegal accepted (configOperands_badAlarms (by rwa [← highest, ← lowest])), ?_⟩
  intro th tl conf rest ready target atLeast atMost ordered alarms answer
  have legal := configOperands_legal atLeast atMost (alarm_run highest lowest ordered alarms)
  rw [exec_tsConfig_sends ready target legal answer]

end Sys2Proof.Machine
end

section
/-! The commands that wait in a poll (43_session R353) and the scratch-pad reads (R360 to R370). -/

namespace Sys2Proof.Machine

/-! ## Polls -/

theorem deadlinePassed_eq_true {start budget now : Word} (late : budget.toNat ≤ (now - start).toNat) :
    deadlinePassed start budget now = true :=
  decide_eq_true late

theorem deadlinePassed_eq_false {start budget now : Word} (early : (now - start).toNat < budget.toNat) :
    deadlinePassed start budget now = false :=
  decide_eq_false (Nat.not_le.mpr early)

/-- One iteration of the poll, and `m` once a slot reads 1 (43_session R353). -/
def afterPoll (m : Seq Unit) : Seq Unit := do
  let done ← pollOnce
  require done .timeout
  m

/-- A rule that starts an operation, polls for its end, and then does `m`. -/
def pollingRule (start m : Seq Unit) : Seq Unit := do
  beforePoll start
  afterPoll m

theorem convreadRule_eq (m : Addressing) (l : Latch) :
    convreadRule m l = pollingRule (convreadStart m l) (readAll .temp l) := rfl

theorem eepromCommand_eq (m : Addressing) (cmd : Byte) (l : Latch) :
    eepromCommand m cmd l = pollingRule (eepromStart m cmd l) (finish 0 0) := rfl

section

variable {s : State} {l : Latch} {m : Addressing} {start next : Seq Unit} {rest : List Bool} {p : Poll} {t : Word}
  {ts : List Word}

theorem pollingRule_start {s' : State} (first : s.pos = .start) (begins : start s = .ok ((), s')) :
    pollingRule start next s = afterPoll next s' :=
  seq_bind_ok ((beforePoll_start first).trans begins)

theorem pollingRule_later (later : s.pos ≠ .start) : pollingRule start next s = afterPoll next s :=
  seq_bind_ok (beforePoll_later later)

theorem afterPoll_one (quiet : s.host = []) (answer : s.bus = true :: rest) :
    afterPoll next s = next (onLine s [Slot.read true] rest) := by
  rw [afterPoll, seq_bind_ok (pollOnce_one quiet answer), require_true, seq_pure_bind]

theorem afterPoll_waits (quiet : s.host = []) (answer : s.bus = false :: rest) (clock : s.clockIn = t :: ts)
    (poll : s.poll = some p) (inTime : deadlinePassed p.start p.budget t = false) :
    afterPoll next s = .error (.next { onLine s [Slot.read false] rest with clockIn := ts }) := by
  refine seq_bind_error ?_
  rw [pollOnce_zero quiet answer clock poll, if_neg (by rw [inTime]; decide)]

theorem afterPoll_timeout (quiet : s.host = []) (answer : s.bus = false :: rest) (clock : s.clockIn = t :: ts)
    (poll : s.poll = some p) (late : deadlinePassed p.start p.budget t = true) :
    afterPoll next s = .error (.next (errorEnd .timeout 0 { onLine s [Slot.read false] rest with clockIn := ts })) := by
  have read := pollOnce_zero quiet answer clock poll
  rw [if_pos late] at read
  rw [afterPoll, seq_bind_ok read, require_false, seq_bind_error (raise_quiet (by exact quiet))]

end

/-- The state in which a command polls, after `slots`, with the device list it has read (43_session R353, R360). -/
def polling (s : State) (ids : List RomId) (slots : List Slot) (rest : List Bool) (p : Poll) (ts : List Word) : State :=
  { setSeq .converting (setPresence true (onLine s slots rest)) with
    clockIn := ts, pos := .poll, poll := some p, devices := ids }

section

variable {s : State} {ids : List RomId} {slots more : List Slot} {rest rest' : List Bool} {p : Poll} {ts : List Word}

theorem onLine_polling :
    onLine (polling s ids slots rest p ts) more rest' = polling s ids (slots ++ more) rest' p ts := by
  rw [polling, polling, ← onLine_onLine s slots more rest rest']
  rfl

theorem okEnd_polling (r0 r1 : Word) : okEnd r0 r1 (polling s ids slots rest p ts) =
    okEnd r0 r1 { setPresence true (onLine s slots rest) with clockIn := ts } := rfl

/-- The end of the read passes that follow a poll. -/
theorem readEnd_polling (kind : ReadKind) (corr : Word) (passes : List (List (List Byte))) :
    readEnd (polling s ids slots rest p ts) kind corr ids passes rest' =
      readEnd { setPresence true (onLine s slots rest) with clockIn := ts } kind corr ids passes rest' :=
  readEnd_hidden { setPresence true (onLine s slots rest) with clockIn := ts } ids s.readPass (some p) .poll .converting
    kind corr ids passes rest'

end

/-! ## TS.SAVE and TS.RESTORE -/

/-- TS.SAVE and TS.RESTORE differ in their command byte only (43_session R369, R370). -/
theorem exec_eeprom {s : State} {m : Addressing} {i : Instr} {cmd : Byte}
    (which : i = .tsSave m ∧ cmd = s.params.owcCopySpad ∨ i = .tsRestore m ∧ cmd = s.params.owcRecallEe) :
    exec i s = runRule (eepromCommand m cmd) s := by
  obtain ⟨rfl, rfl⟩ | ⟨rfl, rfl⟩ := which
  · rfl
  · rfl

/-- Settles O37: the step that starts the command goes as far as its poll, and each poll slot decides. -/
theorem eepromCommandsOutcome : Obligations.EepromCommandsOutcome := by
  unfold Obligations.EepromCommandsOutcome
  intro m s l i cmd ready which
  rw [exec_eeprom which]
  refine ⟨?done, ?waits, ?later⟩
  case done =>
    intro t0 ts rest first target clock answer
    have begins : eepromStart m cmd l s = .ok ((), polling s s.devices _ _ _ ts) :=
      eeprom_start ready target clock answer
    refine runRule_error ready.latched ?_
    rw [eepromCommand_eq, pollingRule_start first begins, afterPoll_one (by exact ready.quiet) rfl, onLine_polling,
      finish_quiet (by exact ready.quiet), okEnd_polling]
  case waits =>
    intro t0 t1 ts rest first target clock answer
    have begins : eepromStart m cmd l s = .ok ((), polling s s.devices _ _ _ (t1 :: ts)) :=
      eeprom_start ready target clock answer
    refine runRule_error ready.latched ?_
    rw [eepromCommand_eq, pollingRule_start first begins]
    split
    case isTrue late =>
      rw [afterPoll_timeout (by exact ready.quiet) rfl rfl rfl late, onLine_polling]
      rfl
    case isFalse inTime =>
      rw [afterPoll_waits (by exact ready.quiet) rfl rfl rfl (Bool.eq_false_iff.mpr inTime), onLine_polling]
      rfl
  case later =>
    intro rest later answer
    refine runRule_error ready.latched ?_
    rw [eepromCommand_eq, pollingRule_later later, afterPoll_one ready.quiet answer,
      finish_quiet (by exact ready.quiet)]

/-! ## A poll slot that reads 0 -/

/-- A step of TS.ISFAKE in one of its polls goes on from there (43_session R372). -/
theorem exec_isfake_later {s : State} {l : Latch} {m : Addressing} {o : Halt} (latched : s.latch = some l)
    (later : s.pos ≠ .start) (run : isfakePolls m l s = .error o) : exec (.tsIsfake m) s = o :=
  runRule_error latched ((seq_bind_ok (beforePoll_later later)).trans run)

section

variable {s : State} {l : Latch} {m : Addressing} {p : Poll} {t : Word} {ts : List Word} {rest : List Bool}

/-- The commands that do nothing but poll, in their poll. -/
theorem exec_polling_later {o : Halt} (latched : s.latch = some l) (later : s.pos ≠ .start)
    (run : ∀ next, afterPoll next s = .error o) :
    ∀ i ∈ [Instr.tsConvread m, .tsSave m, .tsRestore m], exec i s = o := by
  have polls (start next : Seq Unit) : pollingRule start next s = .error o :=
    (pollingRule_later later).trans (run next)
  simp only [List.forall_mem_cons, List.not_mem_nil, false_imp_iff, implies_true, and_true]
  refine ⟨?convread, ?save, ?restore⟩
  case convread => exact runRule_error latched (polls _ _)
  case save => exact runRule_error latched (polls _ _)
  case restore => exact runRule_error latched (polls _ _)

end

/-- Settles O38: in time the command stays in its poll; past the deadline the poll fails, and `require` ends it. -/
theorem pollingCommandsOutcome : Obligations.PollingCommandsOutcome := by
  unfold Obligations.PollingCommandsOutcome
  intro m s l p t ts rest accepted later poll clock answer
  refine ⟨fun early => ?waits, fun late => ?timeout⟩
  case waits =>
    have inTime := deadlinePassed_eq_false early
    have polls := exec_polling_later (m := m) accepted.latched later fun _ =>
      afterPoll_waits accepted.quiet answer clock poll inTime
    simp only [List.forall_mem_cons, List.not_mem_nil, false_imp_iff, implies_true, and_true] at polls ⊢
    obtain ⟨convread, save, restore⟩ := polls
    exact ⟨convread, save, restore,
      exec_isfake_later accepted.latched later (isfake_waits accepted.quiet poll answer clock inTime)⟩
  case timeout =>
    exact exec_polling_later accepted.latched later fun _ =>
      afterPoll_timeout accepted.quiet answer clock poll (deadlinePassed_eq_true late)

/-! ## Scratch-pad reads -/

section

variable {s : State} {l : Latch} {m : Addressing} {ids : List RomId} {passes : List (List (List Byte))}
  {rest : List Bool}

/-- A read command past its checks, whatever the passes come to (43_session R366, R367). -/
theorem readCommand_run (kind : ReadKind) {o : Halt} (ready : BusReady s l) (list : DeviceList s m l ids)
    (fits : ids.length ≤ s.params.maxDevices) (run : readAll kind l { s with devices := ids } = .error o) :
    runRule (readCommand kind m) s = o := by
  refine runRule_error ready.latched ?_
  rw [readCommand, seq_bind_ok (busCheck_configured ready.configured), seq_bind_ok (prepareList_run list fits), run]

/-- The passes over a device list that has been read. -/
theorem readAll_listed (kind : ReadKind) (quiet : s.host = []) (fits : ids.length ≤ s.params.maxDevices)
    (reads : ReadPasses s ids passes) (answer : s.bus = readAnswers s ids passes ++ rest) :
    readAll kind l { s with devices := ids } = .error (.next (readEnd s kind l.corr ids passes rest)) := by
  have keepsList : readEnd { s with devices := ids } kind l.corr ids passes rest =
      readEnd s kind l.corr ids passes rest :=
    readEnd_hidden s ids s.readPass s.poll s.pos s.status.seqState kind l.corr ids passes rest
  rw [readAll_run (u := { s with devices := ids }) (ids := ids) passes quiet rfl (readPasses_congr reads rfl rfl) answer
    fits, keepsList]

end

/-- Settles O33: the two commands differ in what they keep of each scratch-pad only. -/
theorem readCommandsOutcome : Obligations.ReadCommandsOutcome := by
  unfold Obligations.ReadCommandsOutcome
  intro m s l ids passes rest ready list fits reads answer
  exact ⟨readCommand_run .temp ready list fits (readAll_listed .temp ready.quiet fits reads answer),
    readCommand_run .alarm ready list fits (readAll_listed .alarm ready.quiet fits reads answer)⟩

/-! ## TS.CONVREAD -/

section

variable {s : State} {l : Latch} {m : Addressing} {ids : List RomId} {rest : List Bool} {t0 : Word} {ts : List Word}

/-- The poll of TS.CONVREAD over a device list that it has read (43_session R368). -/
theorem convreadRule_starts {slots : List Slot} {p : Poll} (ready : BusReady s l) (list : DeviceList s m l ids)
    (fits : ids.length ≤ s.params.maxDevices) (first : s.pos = .start) (clock : s.clockIn = t0 :: ts)
    (answer : s.bus = false :: rest) (sends : slots = operationSlots s.params m l.tgt s.params.owcConvertT)
    (poll : p = { start := t0, budget := ticks s.params l s.params.convTimeoutMs }) :
    convreadRule m l s = afterPoll (readAll .temp l) (polling s ids slots rest p ts) := by
  subst sends poll
  exact pollingRule_start first (convread_start ready list fits clock answer)

theorem readAll_polling {kind : ReadKind} {passes : List (List (List Byte))} {slots : List Slot} {p : Poll}
    (quiet : s.host = []) (fits : ids.length ≤ s.params.maxDevices) (reads : ReadPasses s ids passes) :
    readAll kind l (polling s ids slots (readAnswers s ids passes ++ rest) p ts) = .error (.next (readEnd
      { setPresence true (onLine s slots (readAnswers s ids passes ++ rest)) with clockIn := ts }
      kind l.corr ids passes rest)) := by
  rw [← readEnd_polling]
  exact readAll_run (u := polling s ids slots _ p ts) passes quiet rfl (readPasses_congr reads rfl rfl) rfl fits

end

/-- Settles O36: the step that starts the command goes as far as its poll, and the slot that reads 1 leads to the passes
of a read command, over the list it has kept. -/
theorem tsConvreadOutcome : Obligations.TsConvreadOutcome := by
  unfold Obligations.TsConvreadOutcome
  refine ⟨?polls, fun m s l ids passes rest ready fits reads => ⟨?first, ?later⟩⟩
  case polls =>
    intro m s l ids rest t0 t1 budget ts ready fits first list clock answer duration
    refine runRule_error ready.latched ?_
    rw [convreadRule_starts ready list fits first clock answer rfl rfl, ← duration]
    split
    case isTrue late =>
      rw [afterPoll_timeout (by exact ready.quiet) rfl rfl rfl late, onLine_polling]
      rfl
    case isFalse inTime =>
      rw [afterPoll_waits (by exact ready.quiet) rfl rfl rfl (Bool.eq_false_iff.mpr inTime), onLine_polling]
      rfl
  case first =>
    intro t0 ts first list clock answer
    refine runRule_error ready.latched ?_
    rw [convreadRule_starts ready list fits first clock answer rfl rfl, afterPoll_one (by exact ready.quiet) rfl,
      onLine_polling, readAll_polling ready.quiet fits reads]
  case later =>
    intro later kept answer
    refine runRule_error ready.latched ?_
    rw [convreadRule_eq, pollingRule_later later, afterPoll_one ready.quiet answer]
    exact readAll_run passes (by exact ready.quiet) kept (readPasses_congr reads rfl rfl) rfl fits

end Sys2Proof.Machine
end

section
/-! Devices that are absent (43_session R351) and TS.ISFAKE (R372). -/

namespace Sys2Proof.Machine

/-! ## The first reset slot -/

section

variable {s : State} {l : Latch} {m : Addressing} {ids : List RomId} {rest : List Bool}

/-- The end of a command that no device answers at a reset slot, which is its first slot. -/
def absentEnd (s : State) (rest : List Bool) : State :=
  errorEnd .noPresence 0 (setPresence false (onLine s [Slot.reset true] rest))

theorem captureSpad_all_absent (quiet : s.host = []) (absent : s.bus = true :: rest) :
    captureSpad m l s.params.readRepeat s = .error (.next (absentEnd s rest)) :=
  captureSpad_absent quiet absent

theorem exec_eeprom_absent (ready : BusReady s l) (target : TargetOk s m l) (first : s.pos = .start)
    (absent : s.bus = true :: rest) (cmd : Byte) : runRule (eepromCommand m cmd) s = .next (absentEnd s rest) := by
  refine runRule_error ready.latched (beforePoll_error first ?_)
  rw [eepromStart, seq_bind_ok (busCheck_configured ready.configured), seq_bind_ok (checkSingle_ok target),
    seq_bind_error (startOperation_absent ready.quiet absent), absentEnd]

/-- An end of the capture is one of the command, in the step that starts it. -/
theorem exec_isfake_error {o : Halt} (ready : BusReady s l) (target : TargetOk s m l) (first : s.pos = .start)
    (fails : captureSpad m l s.params.readRepeat s = .error o) : exec (.tsIsfake m) s = o := by
  refine runRule_error ready.latched (beforePoll_error first ?_)
  rw [probeDevice, seq_bind_ok (busCheck_configured ready.configured), seq_bind_ok (checkSingle_ok target), seq_get_bind,
    seq_bind_error fails]

theorem exec_isfake_absent (ready : BusReady s l) (target : TargetOk s m l) (first : s.pos = .start)
    (absent : s.bus = true :: rest) : exec (.tsIsfake m) s = .next (absentEnd s rest) :=
  exec_isfake_error ready target first (captureSpad_all_absent ready.quiet absent)

theorem exec_tsConfig_absent (ready : BusReady s l) (target : TargetOk s m l) (absent : s.bus = true :: rest)
    (atLeast : 9 ≤ l.a0.toNat) (atMost : l.a0.toNat ≤ 12) (ordered : l.a2.toInt ≤ l.a1.toInt) :
    exec (.tsConfig m) s = .next (absentEnd s rest) := by
  obtain ⟨d, legal⟩ := configOk (p := s.params) atLeast atMost ordered
  refine runRule_error ready.latched ?_
  rw [configRule, seq_get_bind, legal]
  show sendConfig m l d s = _
  rw [sendConfig, seq_bind_ok (busCheck_configured ready.configured), seq_bind_ok (checkSingle_ok target),
    seq_bind_error (writeSpad_absent ready.quiet absent), absentEnd]

theorem exec_tsConvread_absent (ready : BusReady s l) (list : DeviceList s m l ids)
    (fits : ids.length ≤ s.params.maxDevices) (first : s.pos = .start) (absent : s.bus = true :: rest) :
    exec (.tsConvread m) s = .next (absentEnd s rest) := by
  refine runRule_error ready.latched (beforePoll_error first ?_)
  rw [convreadStart, seq_bind_ok (busCheck_configured ready.configured), seq_bind_ok (prepareList_run list fits),
    seq_get_bind, seq_bind_error (startOperation_absent (by exact ready.quiet) (by exact absent))]
  rfl

/-- A pass over a list with a valid id at its head, whose device is absent, is interrupted before its first record. -/
theorem readInterrupted_first {id : RomId} (valid : validId s id = true) : ReadInterrupted s (id :: ids) [] [] where
  bounded := Nat.succ_pos _
  retried := by simp
  unfinished := Nat.succ_pos _
  shape := by simp
  skipped := by simp
  next := valid

theorem readAll_interrupted {kind : ReadKind} {passes : List (List (List Byte))} {sps : List (List Byte)}
    (quiet : s.host = []) (fits : ids.length ≤ s.params.maxDevices) (reads : ReadInterrupted s ids passes sps)
    (answer : s.bus = interruptedAnswers s ids passes sps ++ rest) :
    readAll kind l { s with devices := ids } = .error (.next (interruptedEnd s kind l.corr ids passes sps rest)) := by
  have keepsList : interruptedEnd { s with devices := ids } kind l.corr ids passes sps rest =
      interruptedEnd s kind l.corr ids passes sps rest :=
    interruptedEnd_hidden s ids s.readPass s.poll s.pos s.status.presence s.status.seqState kind l.corr ids passes sps
      rest
  rw [readAll_absent (u := { s with devices := ids }) (ids := ids) quiet rfl (readInterrupted_congr reads rfl rfl) answer
    fits, keepsList]

theorem readCommand_absent {id : RomId} (kind : ReadKind) (ready : BusReady s l) (list : DeviceList s m l (id :: ids))
    (fits : (id :: ids).length ≤ s.params.maxDevices) (valid : validId s id = true) (absent : s.bus = true :: rest) :
    runRule (readCommand kind m) s = .next (absentEnd s rest) :=
  readCommand_run kind ready list fits
    (readAll_interrupted (passes := []) (sps := []) ready.quiet fits (readInterrupted_first valid) absent)

end

/-- Settles O28: each command's first slot is its first reset slot, and no device answers it. -/
theorem absentDeviceEndsCommand : Obligations.AbsentDeviceEndsCommand := by
  unfold Obligations.AbsentDeviceEndsCommand
  intro s l m rest ready target first absent
  simp only [List.forall_mem_cons, List.not_mem_nil, false_imp_iff, implies_true, and_true]
  refine ⟨⟨exec_tsConvert_absent ready target absent, exec_eeprom_absent ready target first absent _,
    exec_eeprom_absent ready target first absent _, exec_isfake_absent ready target first absent⟩,
    exec_tsConfig_absent ready target absent, fun id ids list fits =>
      ⟨exec_tsConvread_absent ready list fits first absent, fun valid => ⟨?temp, ?alarm⟩⟩⟩
  case temp => exact readCommand_absent .temp ready list fits valid absent
  case alarm => exact readCommand_absent .alarm ready list fits valid absent

end Sys2Proof.Machine
end

section
/-! TS.ISFAKE (43_session R372) and the absences at later reset slots (R351, R362). -/

namespace Sys2Proof.Machine

/-- The state in which TS.ISFAKE polls, after `slots`, with the bytes it has captured. -/
def probing (s : State) (c : Capture) (slots : List Slot) (rest : List Bool) (p : Poll) (ts : List Word) : State :=
  { polling s s.devices slots rest p ts with capture := some c }

section

variable {s : State} {l : Latch} {m : Addressing} {c : Capture} {p : Poll} {slots more : List Slot}
  {bad : List (List Byte)} {sp : List Byte} {rest rest' : List Bool} {t t0 t1 : Word} {ts : List Word} {o : Halt}

theorem onLine_probing :
    onLine (probing s c slots rest p ts) more rest' = probing s c (slots ++ more) rest' p ts := by
  rw [probing, probing, ← onLine_polling (s := s) (rest := rest)]
  rfl

/-! ## From the start to the first poll -/

/-- The tries that fail, and a last one that validates, as far as the first poll (43_session R372). -/
theorem exec_isfake_start (ready : BusReady s l) (target : TargetOk s m l) (first : s.pos = .start)
    (failed : ∀ x ∈ bad, x.length = 9 ∧ crc8 s x ≠ 0) (tries : bad.length < s.params.readRepeat) (nine : sp.length = 9)
    (checksum : crc8 s sp = 0) (clock : s.clockIn = t0 :: ts)
    (answer : s.bus = bad.flatMap readSpadAnswers ++ readSpadAnswers sp ++ false :: false :: rest)
    (captured : c = { th := sp.getD 2 0, tl := sp.getD 3 0, cf := sp.getD 4 0 })
    (window : p = { start := t0, budget := ticks s.params l s.params.fakeWindowMs })
    (run : isfakePolls m l (probing s c (probeSlots s.params m l.tgt bad sp) rest p ts) = .error o) :
    exec (.tsIsfake m) s = o := by
  subst window
  have begins := probe_run ready target failed tries nine checksum captured clock answer
  exact runRule_error ready.latched ((seq_bind_ok ((beforePoll_start first).trans begins)).trans run)

theorem captureSpad_exhausted (quiet : s.host = []) (failed : ∀ x ∈ bad, x.length = 9 ∧ crc8 s x ≠ 0)
    (all : bad.length = s.params.readRepeat) (answer : s.bus = bad.flatMap readSpadAnswers ++ rest) :
    captureSpad m l s.params.readRepeat s = .error (.next (errorEnd .integrity 0
      (setPresence true (onLine s (bad.flatMap (readSpadSlots s.params m l.tgt)) rest)))) := by
  have some : bad ≠ [] := fun none => by rw [none] at all; exact Nat.succ_ne_zero _ all.symm
  have run := capture_run (m := m) (l := l) bad 0 quiet failed answer some
  rw [← all]
  refine run.trans (raise_quiet ?_)
  exact quiet

end

/-! ## The polls -/

section

variable {s : State} {l : Latch} {m : Addressing} {c : Capture} {p : Poll} {rest : List Bool} {t t0 t1 : Word}
  {ts : List Word}

/-- The state in which the second poll begins, in the step in which the window passes (43_session R372). -/
def draining (s : State) (l : Latch) (rest : List Bool) (t0 : Word) (ts : List Word) : State :=
  { onLine s [Slot.read false] rest with
    clockIn := ts, pos := .drain, poll := some { start := t0, budget := ticks s.params l s.params.convTimeoutMs } }

theorem onLine_draining {rest' : List Bool} (slot : Slot) (more : List Slot) :
    onLine (draining s l rest t0 ts) (slot :: more) rest' =
      { onLine s (Slot.read false :: slot :: more) rest' with
        clockIn := ts, pos := .drain
        poll := some { start := t0, budget := ticks s.params l s.params.convTimeoutMs } } := by
  rw [← List.singleton_append (x := Slot.read false), ← onLine_onLine s _ _ rest rest']
  rfl

/-- The second poll is done in the step in which the window passes. -/
theorem isfake_window_fake (quiet : s.host = []) (capture : s.capture = some c) (first : s.pos = .poll)
    (poll : s.poll = some p) (answer : s.bus = false :: true :: false :: rest) (clock : s.clockIn = t :: t0 :: ts)
    (passed : deadlinePassed p.start p.budget t = true) :
    isfakePolls m l s = .error (.next (okEnd 1 0 { setRbool true (setPresence true (onLine s
      (Slot.read false :: Slot.read true :: writeSpadSlots s.params m l.tgt c.th c.tl c.cf) rest)) with
        clockIn := ts })) := by
  rw [isfake_window quiet first poll answer clock passed, ← draining,
    isfake_fake (by exact quiet) (by exact capture) rfl rfl, onLine_draining]
  rfl

theorem isfake_window_waits (quiet : s.host = []) (first : s.pos = .poll) (poll : s.poll = some p)
    (answer : s.bus = false :: false :: rest) (clock : s.clockIn = t :: t0 :: t1 :: ts)
    (passed : deadlinePassed p.start p.budget t = true)
    (inTime : deadlinePassed t0 (ticks s.params l s.params.convTimeoutMs) t1 = false) :
    isfakePolls m l s = .error (.next { onLine s [Slot.read false, Slot.read false] rest with
      clockIn := ts, pos := .drain
      poll := some { start := t0, budget := ticks s.params l s.params.convTimeoutMs } }) := by
  rw [isfake_window quiet first poll answer clock passed, ← draining,
    isfake_waits (by exact quiet) rfl rfl rfl inTime, onLine_draining]

theorem isfake_window_gives_up (quiet : s.host = []) (capture : s.capture = some c) (first : s.pos = .poll)
    (poll : s.poll = some p) (answer : s.bus = false :: false :: false :: rest)
    (clock : s.clockIn = t :: t0 :: t1 :: ts) (passed : deadlinePassed p.start p.budget t = true)
    (late : deadlinePassed t0 (ticks s.params l s.params.convTimeoutMs) t1 = true) :
    isfakePolls m l s = .error (.next (okEnd 1 0 { setRbool true (setPresence true (onLine s
      (Slot.read false :: Slot.read false :: writeSpadSlots s.params m l.tgt c.th c.tl c.cf) rest)) with
        clockIn := ts })) := by
  rw [isfake_window quiet first poll answer clock passed, ← draining,
    isfake_gives_up (by exact quiet) (by exact capture) rfl rfl rfl rfl late, onLine_draining]
  rfl

end

/-! The polls of TS.ISFAKE behind the slots of its start. -/

section

variable {s : State} {l : Latch} {m : Addressing} {c : Capture} {p : Poll} {slots : List Slot} {rest : List Bool}
  {t t0 t1 : Word} {ts : List Word}

theorem probing_done (quiet : s.host = []) :
    isfakePolls m l (probing s c slots (true :: false :: rest) p ts) = .error (.next (okEnd 0 0 (setRbool false
      (probing s c (slots ++ Slot.read true :: writeSpadSlots s.params m l.tgt c.th c.tl c.cf) rest
        p ts)))) := by
  have run := isfake_done (m := m) (l := l) (s := probing s c slots (true :: false :: rest) p ts) quiet rfl rfl rfl
  rw [run, onLine_probing]
  rfl

theorem probing_waits (quiet : s.host = []) (inTime : deadlinePassed p.start p.budget t = false) :
    isfakePolls m l (probing s c slots (false :: rest) p (t :: ts)) =
      .error (.next (probing s c (slots ++ [Slot.read false]) rest p ts)) := by
  have run := isfake_waits (m := m) (l := l) (s := probing s c slots (false :: rest) p (t :: ts)) quiet rfl rfl rfl
    inTime
  rw [run, onLine_probing]
  rfl

variable (quiet : s.host = []) (passed : deadlinePassed p.start p.budget t = true)
include quiet passed

theorem probing_window_fake :
    isfakePolls m l (probing s c slots (false :: true :: false :: rest) p (t :: t0 :: ts)) =
      .error (.next (okEnd 1 0 (setRbool true (probing s c
        (slots ++ Slot.read false :: Slot.read true :: writeSpadSlots s.params m l.tgt c.th c.tl c.cf) rest
        p ts)))) := by
  have run := isfake_window_fake (m := m) (l := l)
    (s := probing s c slots (false :: true :: false :: rest) p (t :: t0 :: ts)) quiet rfl rfl rfl rfl rfl passed
  rw [run, onLine_probing]
  rfl

theorem probing_window_waits (inTime : deadlinePassed t0 (ticks s.params l s.params.convTimeoutMs) t1 = false) :
    isfakePolls m l (probing s c slots (false :: false :: rest) p (t :: t0 :: t1 :: ts)) =
      .error (.next { probing s c (slots ++ [Slot.read false, Slot.read false]) rest p ts with
        pos := .drain, poll := some { start := t0, budget := ticks s.params l s.params.convTimeoutMs } }) := by
  have run := isfake_window_waits (m := m) (l := l)
    (s := probing s c slots (false :: false :: rest) p (t :: t0 :: t1 :: ts)) quiet rfl rfl rfl rfl passed inTime
  rw [run, onLine_probing]
  rfl

theorem probing_window_gives_up (late : deadlinePassed t0 (ticks s.params l s.params.convTimeoutMs) t1 = true) :
    isfakePolls m l (probing s c slots (false :: false :: false :: rest) p (t :: t0 :: t1 :: ts)) =
      .error (.next (okEnd 1 0 (setRbool true (probing s c
        (slots ++ Slot.read false :: Slot.read false :: writeSpadSlots s.params m l.tgt c.th c.tl c.cf) rest
        p ts)))) := by
  have run := isfake_window_gives_up (m := m) (l := l)
    (s := probing s c slots (false :: false :: false :: rest) p (t :: t0 :: t1 :: ts)) quiet rfl rfl rfl rfl rfl passed
    late
  rw [run, onLine_probing]
  rfl

end

/-- Settles O39: the tries fail one by one; a genuine device reads 1 in the first poll. -/
theorem tsIsfakeGenuine : Obligations.TsIsfakeGenuine := by
  unfold Obligations.TsIsfakeGenuine
  intro m s l bad rest ready target first failed
  refine ⟨fun all answer => ?exhausted, fun sp t0 ts tries nine checksum clock answer => ?genuine⟩
  case exhausted =>
    exact exec_isfake_error ready target first (captureSpad_exhausted ready.quiet failed all answer)
  case genuine =>
    refine exec_isfake_start ready target first failed tries nine checksum clock answer rfl rfl ?_
    rw [probing_done ready.quiet]
    simp only [probeSlots, List.append_assoc, List.singleton_append]
    rfl

/-- Settles O40: the verdict is that of the poll in which the command ends; its polls are the same in the step that
starts it, behind the slots of its start. -/
theorem tsIsfakeVerdict : Obligations.TsIsfakeVerdict := by
  unfold Obligations.TsIsfakeVerdict
  refine ⟨fun m s l c p accepted capture poll => ⟨?done, ?window, ?fake, ?givesUp⟩, ?start⟩
  case done =>
    intro rest first answer
    exact exec_isfake_later accepted.latched (by rw [first]; decide) (isfake_done accepted.quiet capture first answer)
  case window =>
    intro t t0 ts first clock passed
    have passed := deadlinePassed_eq_true passed
    refine ⟨fun rest answer => ?_, fun t1 ts' rest more answer early => ?_, fun t1 ts' rest more answer late => ?_⟩
    · exact exec_isfake_later accepted.latched (by rw [first]; decide)
        (isfake_window_fake accepted.quiet capture first poll answer clock passed)
    · exact exec_isfake_later accepted.latched (by rw [first]; decide)
        (isfake_window_waits accepted.quiet first poll answer (more ▸ clock) passed (deadlinePassed_eq_false early))
    · exact exec_isfake_later accepted.latched (by rw [first]; decide)
        (isfake_window_gives_up accepted.quiet capture first poll answer (more ▸ clock) passed
          (deadlinePassed_eq_true late))
  case fake =>
    intro rest second answer
    exact exec_isfake_later accepted.latched (by rw [second]; decide) (isfake_fake accepted.quiet capture second answer)
  case givesUp =>
    intro t ts rest second clock answer late
    exact exec_isfake_later accepted.latched (by rw [second]; decide)
      (isfake_gives_up accepted.quiet capture second poll answer clock (deadlinePassed_eq_true late))
  case start =>
    intro m s l bad sp c rest t0 t1 ts ready target first failed tries nine checksum kept clock answer t state
    obtain ⟨p, window⟩ : ∃ p : Poll, p = { start := t0, budget := ticks s.params l s.params.fakeWindowMs } := ⟨_, rfl⟩
    have started : p.start = t0 := by rw [window]
    have budgeted : p.budget = ticks s.params l s.params.fakeWindowMs := by rw [window]
    rw [← window] at state
    replace state : t = probing s c (probeSlots s.params m l.tgt bad sp ++ [Slot.read false]) rest p ts := state
    rw [← budgeted, ← started]
    have begins {o : Halt} :=
      exec_isfake_start (o := o) ready target first failed tries nine checksum clock answer kept window
    refine ⟨fun inTime => begins ?waits, fun passed t2 ts' second => ?passed⟩
    case waits =>
      rw [probing_waits ready.quiet inTime, state]
    case passed =>
      subst second
      refine ⟨fun rest' readsOne => ?_, fun t3 ts'' rest' third readsZero inTime => ?_,
        fun t3 ts'' rest' third readsZero late => ?_⟩
      · subst readsOne
        refine begins ((probing_window_fake ready.quiet passed).trans ?_)
        rw [state, onLine_probing, List.append_assoc]
        rfl
      · subst third readsZero
        refine begins ((probing_window_waits ready.quiet passed inTime).trans ?_)
        rw [state, onLine_probing, List.append_assoc]
        rfl
      · subst third readsZero
        refine begins ((probing_window_gives_up ready.quiet passed late).trans ?_)
        rw [state, onLine_probing, List.append_assoc]
        rfl

/-! ## Absence at a later reset slot of a scratch-pad read -/

section

variable {s : State} {l : Latch} {m : Addressing} {ids : List RomId} {passes : List (List (List Byte))}
  {sps : List (List Byte)} {slots : List Slot} {rest : List Bool} {p : Poll} {ts : List Word}

theorem readAll_polling_interrupted {kind : ReadKind} (quiet : s.host = []) (fits : ids.length ≤ s.params.maxDevices)
    (reads : ReadInterrupted s ids passes sps) :
    readAll kind l (polling s ids slots (interruptedAnswers s ids passes sps ++ rest) p ts) =
      .error (.next (interruptedEnd { onLine s slots (interruptedAnswers s ids passes sps ++ rest) with clockIn := ts }
        kind l.corr ids passes sps rest)) := by
  refine (readAll_absent (u := polling s ids slots (interruptedAnswers s ids passes sps ++ rest) p ts) (ids := ids)
    quiet rfl (readInterrupted_congr reads rfl rfl) rfl fits).trans
    (congrArg (fun t => Except.error (Host.Outcome.next t)) ?_)
  exact interruptedEnd_hidden { onLine s slots (interruptedAnswers s ids passes sps ++ rest) with clockIn := ts } ids
    s.readPass (some p) .poll true .converting kind l.corr ids passes sps rest

/-- The three scratch-pad read commands over a list of which a later device is absent. -/
theorem reads_interrupted (ready : BusReady s l) (fits : ids.length ≤ s.params.maxDevices)
    (reads : ReadInterrupted s ids passes sps) :
    (DeviceList s m l ids → s.bus = interruptedAnswers s ids passes sps ++ rest →
      exec (.tsReadtemp m) s = .next (interruptedEnd s .temp l.corr ids passes sps rest) ∧
      exec (.tsReadalarm m) s = .next (interruptedEnd s .alarm l.corr ids passes sps rest)) ∧
    (∀ t0 ts, s.pos = .start → DeviceList s m l ids → s.clockIn = t0 :: ts →
      s.bus = false :: true :: (interruptedAnswers s ids passes sps ++ rest) →
      exec (.tsConvread m) s = .next (interruptedEnd
        { onLine s (operationSlots s.params m l.tgt s.params.owcConvertT ++ [Slot.read true])
            (interruptedAnswers s ids passes sps ++ rest) with clockIn := ts } .temp l.corr ids passes sps rest)) ∧
    (s.pos ≠ .start → s.devices = ids → s.bus = true :: (interruptedAnswers s ids passes sps ++ rest) →
      exec (.tsConvread m) s = .next (interruptedEnd
        (onLine s [Slot.read true] (interruptedAnswers s ids passes sps ++ rest)) .temp l.corr ids passes sps
        rest)) := by
  refine ⟨fun list answer => ⟨?temp, ?alarm⟩, fun t0 ts first list clock answer => ?first,
    fun later kept answer => ?later⟩
  case temp => exact readCommand_run .temp ready list fits (readAll_interrupted ready.quiet fits reads answer)
  case alarm => exact readCommand_run .alarm ready list fits (readAll_interrupted ready.quiet fits reads answer)
  case first =>
    refine runRule_error ready.latched ?_
    rw [convreadRule_starts ready list fits first clock answer rfl rfl, afterPoll_one (by exact ready.quiet) rfl,
      onLine_polling, readAll_polling_interrupted ready.quiet fits reads]
  case later =>
    refine runRule_error ready.latched ?_
    rw [convreadRule_eq, pollingRule_later later, afterPoll_one ready.quiet answer]
    exact readAll_absent (by exact ready.quiet) kept (readInterrupted_congr reads rfl rfl) rfl fits

end

/-! ## Absence at a later reset slot of TS.ISFAKE -/

section

variable {s : State} {l : Latch} {m : Addressing} {c : Capture} {p : Poll} {bad : List (List Byte)} {sp : List Byte}
  {rest : List Bool} {t t0 t1 : Word} {ts : List Word}

/-- Tries that fail, then a reset slot that no device answers. -/
theorem captureSpad_later_absent (quiet : s.host = []) (failed : ∀ x ∈ bad, x.length = 9 ∧ crc8 s x ≠ 0)
    (tries : bad.length < s.params.readRepeat) (answer : s.bus = bad.flatMap readSpadAnswers ++ true :: rest) :
    captureSpad m l s.params.readRepeat s = .error (.next (errorEnd .noPresence 0 (setPresence false
      (onLine s (bad.flatMap (readSpadSlots s.params m l.tgt) ++ [Slot.reset true]) rest)))) := by
  obtain ⟨n, left⟩ : ∃ n, s.params.readRepeat = bad.length + (n + 1) :=
    ⟨s.params.readRepeat - bad.length - 1, by omega⟩
  by_cases none : bad = []
  · subst none
    rw [left, List.length_nil, Nat.zero_add]
    exact captureSpad_absent quiet answer
  · rw [left, capture_run bad (n + 1) quiet failed answer none, captureSpad_absent (by exact quiet) rfl,
      ← onLine_onLine s _ [Slot.reset true] (true :: rest) rest]
    rfl

/-- The window's poll is done, and no device answers the restore. -/
theorem isfake_done_absent (quiet : s.host = []) (first : s.pos = .poll) (answer : s.bus = true :: true :: rest) :
    isfakePolls m l s =
      .error (.next (errorEnd .noPresence 0 (setPresence false (onLine s [Slot.read true, Slot.reset true] rest)))) := by
  refine seq_bind_error ?_
  rw [beforeDrain, seq_get_bind, if_neg (by rw [first]; decide), windowPoll, seq_bind_ok (pollOnce_one quiet answer),
    seq_get_bind]
  show reportFake m l false _ = _
  rw [reportFake_absent (by exact quiet) rfl, onLine_onLine]
  rfl

theorem isfake_window_fake_absent (quiet : s.host = []) (first : s.pos = .poll) (poll : s.poll = some p)
    (answer : s.bus = false :: true :: true :: rest) (clock : s.clockIn = t :: t0 :: ts)
    (passed : deadlinePassed p.start p.budget t = true) :
    isfakePolls m l s = .error (.next (errorEnd .noPresence 0
      { setPresence false (onLine s [Slot.read false, Slot.read true, Slot.reset true] rest) with
        clockIn := ts })) := by
  rw [isfake_window quiet first poll answer clock passed, ← draining, isfake_fake_absent (by exact quiet) rfl rfl,
    onLine_draining]
  rfl

theorem isfake_window_gives_up_absent (quiet : s.host = []) (first : s.pos = .poll) (poll : s.poll = some p)
    (answer : s.bus = false :: false :: true :: rest) (clock : s.clockIn = t :: t0 :: t1 :: ts)
    (passed : deadlinePassed p.start p.budget t = true)
    (late : deadlinePassed t0 (ticks s.params l s.params.convTimeoutMs) t1 = true) :
    isfakePolls m l s = .error (.next (errorEnd .noPresence 0
      { setPresence false (onLine s [Slot.read false, Slot.read false, Slot.reset true] rest) with
        clockIn := ts })) := by
  rw [isfake_window quiet first poll answer clock passed, ← draining,
    isfake_gives_up_absent (by exact quiet) rfl rfl rfl rfl late, onLine_draining]
  rfl

theorem probing_done_absent {slots : List Slot} (quiet : s.host = []) :
    isfakePolls m l (probing s c slots (true :: true :: rest) p ts) = .error (.next (errorEnd .noPresence 0
      { setPresence false (onLine s (slots ++ [Slot.read true, Slot.reset true]) rest) with
        clockIn := ts })) := by
  have run := isfake_done_absent (m := m) (l := l) (s := probing s c slots (true :: true :: rest) p ts) quiet rfl rfl
  rw [run, onLine_probing]
  rfl

theorem probing_window_fake_absent {slots : List Slot} (quiet : s.host = [])
    (passed : deadlinePassed p.start p.budget t = true) :
    isfakePolls m l (probing s c slots (false :: true :: true :: rest) p (t :: t0 :: ts)) =
      .error (.next (errorEnd .noPresence 0
        { setPresence false (onLine s (slots ++ [Slot.read false, Slot.read true, Slot.reset true]) rest) with
          clockIn := ts })) := by
  have run := isfake_window_fake_absent (m := m) (l := l)
    (s := probing s c slots (false :: true :: true :: rest) p (t :: t0 :: ts)) quiet rfl rfl rfl rfl passed
  rw [run, onLine_probing]
  rfl

theorem probing_window_gives_up_absent {slots : List Slot} (quiet : s.host = [])
    (passed : deadlinePassed p.start p.budget t = true)
    (late : deadlinePassed t0 (ticks s.params l s.params.convTimeoutMs) t1 = true) :
    isfakePolls m l (probing s c slots (false :: false :: true :: rest) p (t :: t0 :: t1 :: ts)) =
      .error (.next (errorEnd .noPresence 0
        { setPresence false (onLine s (slots ++ [Slot.read false, Slot.read false, Slot.reset true]) rest) with
          clockIn := ts })) := by
  have run := isfake_window_gives_up_absent (m := m) (l := l)
    (s := probing s c slots (false :: false :: true :: rest) p (t :: t0 :: t1 :: ts)) quiet rfl rfl rfl rfl passed late
  rw [run, onLine_probing]
  rfl

/-- The state after the capture of TS.ISFAKE, behind `slots` (43_session R372). -/
def captured (s : State) (c : Capture) (slots : List Slot) (rest : List Bool) : State :=
  { setSeq .readingSpad (setPresence true (onLine s slots rest)) with capture := some c }

theorem onLine_captured {slots more : List Slot} {rest' : List Bool} :
    onLine (captured s c slots rest) more rest' = captured s c (slots ++ more) rest' := by
  rw [captured, captured, ← onLine_onLine s slots more rest rest']
  rfl

/-- What TS.ISFAKE does with the bytes it has captured, as far as the conversion, and then `next` (43_session R372). -/
def forceNineBits (m : Addressing) (l : Latch) (c : Capture) (p : Params) (next : Seq Unit) : Seq Unit := do
  writeSpad m l.tgt c.th c.tl (cfgByte 9)
  startOperation m l.tgt p.owcConvertT
  next

theorem forceNineBits_absent {slots : List Slot} (quiet : s.host = []) (next : Seq Unit) :
    forceNineBits m l c s.params next (captured s c slots (true :: rest)) = .error (.next (errorEnd .noPresence 0
      (setPresence false (onLine s (slots ++ [Slot.reset true]) rest)))) := by
  rw [forceNineBits, seq_bind_error (writeSpad_absent (by exact quiet) rfl), onLine_captured]
  rfl

theorem writeSpad_captured {slots : List Slot} {id : RomId} {th tl cf : Byte} (quiet : s.host = []) :
    writeSpad m id th tl cf (captured s c slots (false :: rest)) =
      .ok ((), setSeq .addressed (captured s c (slots ++ writeSpadSlots s.params m id th tl cf) rest)) := by
  rw [writeSpad_answer (by exact quiet) rfl, onLine_captured]
  rfl

theorem forceNineBits_second_absent {slots : List Slot} (quiet : s.host = []) (next : Seq Unit) :
    forceNineBits m l c s.params next (captured s c slots (false :: true :: rest)) =
      .error (.next (errorEnd .noPresence 0 (setPresence false (onLine s
        (slots ++ writeSpadSlots s.params m l.tgt c.th c.tl 0x1F ++ [Slot.reset true]) rest)))) := by
  have written := writeSpad_captured (m := m) (c := c) (slots := slots) (rest := true :: rest) (id := l.tgt)
    (th := c.th) (tl := c.tl) (cf := cfgByte 9) quiet
  rw [show cfgByte 9 = 0x1F from rfl] at written
  rw [forceNineBits, show cfgByte 9 = 0x1F from rfl, seq_bind_ok written]
  generalize slots ++ writeSpadSlots s.params m l.tgt c.th c.tl 0x1F = begun
  rw [seq_bind_error (startOperation_absent (by exact quiet) rfl), ← onLine_onLine s begun [Slot.reset true] (true :: rest)
    rest]
  rfl

/-- A failing end past the capture ends the command, in the step that starts it. -/
theorem exec_isfake_captured_error {o : Halt} (ready : BusReady s l) (target : TargetOk s m l) (first : s.pos = .start)
    (failed : ∀ x ∈ bad, x.length = 9 ∧ crc8 s x ≠ 0) (tries : bad.length < s.params.readRepeat) (nine : sp.length = 9)
    (checksum : crc8 s sp = 0) (answer : s.bus = bad.flatMap readSpadAnswers ++ (readSpadAnswers sp ++ rest))
    (kept : c = { th := sp.getD 2 0, tl := sp.getD 3 0, cf := sp.getD 4 0 })
    (fails : ∀ next, forceNineBits m l c s.params next (captured s c
      (bad.flatMap (readSpadSlots s.params m l.tgt) ++ readSpadSlots s.params m l.tgt sp) rest) = .error o) :
    exec (.tsIsfake m) s = o := by
  subst kept
  have captures : captureSpad m l s.params.readRepeat s = .ok ((), captured s _ _ rest) :=
    capture_good ready.quiet failed tries nine checksum answer
  refine runRule_error ready.latched (beforePoll_error first ?_)
  rw [probeDevice, seq_bind_ok (busCheck_configured ready.configured), seq_bind_ok (checkSingle_ok target), seq_get_bind,
    seq_bind_ok captures, seq_get_bind]
  exact fails _

end

/-- Settles O41: the reads keep the records before the absence; TS.ISFAKE ends at whichever of its address steps no
device answers. -/
theorem laterAbsenceEndsCommand : Obligations.LaterAbsenceEndsCommand := by
  unfold Obligations.LaterAbsenceEndsCommand
  refine ⟨fun m s l ids passes sps rest ready fits reads => reads_interrupted ready fits reads,
    fun m s l bad rest ready target first failed tries => ⟨fun answer => ?retry, ?captured⟩,
    fun m s l p rest accepted later poll => ⟨fun answer => ?done, ?givesUp, ?window⟩⟩
  case retry =>
    exact exec_isfake_error ready target first (captureSpad_later_absent ready.quiet failed tries answer)
  case captured =>
    intro sp before nine checksum slots
    have ends {c : Capture} {rest' : List Bool} {o : Halt} :=
      exec_isfake_captured_error (c := c) (rest := rest') (o := o) ready target first failed tries nine checksum
    have begins {c : Capture} {p : Poll} {t0 : Word} {ts : List Word} {rest' : List Bool} {o : Halt} :=
      exec_isfake_start (c := c) (p := p) (t0 := t0) (ts := ts) (rest := rest') (o := o) ready target first failed tries
        nine checksum
    rw [slots]
    refine ⟨fun answer => ?write, fun answer => ?convert, fun t0 ts clock answer => ?genuine,
      fun t0 t1 t2 ts clock passed => ?windowPassed⟩
    case write => exact ends (by rw [answer, List.append_assoc]) rfl fun next => forceNineBits_absent ready.quiet next
    case convert =>
      exact ends (by rw [answer, List.append_assoc]) rfl fun next => forceNineBits_second_absent ready.quiet next
    case genuine => exact begins clock answer rfl rfl (probing_done_absent ready.quiet)
    case windowPassed =>
      obtain ⟨p, window⟩ : ∃ p : Poll, p = { start := t0, budget := ticks s.params l s.params.fakeWindowMs } :=
        ⟨_, rfl⟩
      replace passed : deadlinePassed p.start p.budget t1 = true := by rw [window]; exact passed
      refine ⟨fun answer => ?fake, fun t3 ts' more late answer => ?late⟩
      case fake => exact begins clock answer rfl window (probing_window_fake_absent ready.quiet passed)
      case late =>
        subst more
        exact begins clock answer rfl window (probing_window_gives_up_absent ready.quiet passed late)
  case done =>
    refine exec_isfake_later accepted.latched later ?_
    cases position : s.pos with
    | start => exact absurd position later
    | poll => exact isfake_done_absent accepted.quiet position answer
    | drain => exact isfake_fake_absent accepted.quiet position answer
  case givesUp =>
    intro t ts second clock answer late
    exact exec_isfake_later accepted.latched later
      (isfake_gives_up_absent accepted.quiet second poll answer clock (deadlinePassed_eq_true late))
  case window =>
    intro t t0 ts inWindow clock passed
    have passed := deadlinePassed_eq_true passed
    refine ⟨fun answer => ?_, fun t1 ts' more answer late => ?_⟩
    · exact exec_isfake_later accepted.latched later
        (isfake_window_fake_absent accepted.quiet inWindow poll answer clock passed)
    · exact exec_isfake_later accepted.latched later
        (isfake_window_gives_up_absent accepted.quiet inWindow poll answer (more ▸ clock) passed
          (deadlinePassed_eq_true late))

end Sys2Proof.Machine
end

section
/-! The ROM search (42_search): the pieces of a pass, the searches over devices that answer as in 95_test_vectors §1,
and what every search keeps to. -/

namespace Sys2Proof.Machine

/-! ## The pieces of a pass -/

section

variable {s : State} {st : SearchState} {ss : List Slot} {rest : List Bool}

/-- The state after some slots of a search under way. -/
theorem walked_of_known (known : s.search = some st) (ss : List Slot) (rest : List Bool) :
    walked s none ss rest s.clockIn st = onLine s ss rest := by
  rw [walked, ← known]
  rfl

theorem walked_self (known : s.search = some st) : walked s none [] s.bus s.clockIn st = s :=
  walked_of_known known [] s.bus

/-- A ROM bit by its branch bit: where the devices disagree the branch bit is chosen, else it is theirs (42_search R304,
R305, R307). -/
theorem searchBranch_eq {b cb d : Bool} {i : Nat} (answered : (b && cb) = false)
    (branch : d = if b = cb then discrepancyBit st i else b) :
    searchBranch b cb i st = (d, { st with
      rom := setRomBit st.rom i d
      lastZero := if b = cb ∧ d = false then (i : Int) else st.lastZero }) := by
  subst branch
  cases b
  · cases cb
    · simp [searchBranch]
    · simp [searchBranch]
  · cases cb
    · simp [searchBranch]
    · cases answered

theorem noAlarm_iff {m : SearchMode} {i : Nat} :
    noAlarm m i st = true ↔ m = .alarmed ∧ i = 0 ∧ st.found = [] ∧ st.lastDisc = -1 := by
  simp only [noAlarm, Bool.and_eq_true, beq_iff_eq, List.isEmpty_iff, and_assoc]

theorem acceptable_iff : acceptable s st = true ↔
    st.rom.extractLsb' 0 8 = s.params.familyCode ∧ crc8 s (romBytes st.rom) = 0 ∧ st.rom ∉ st.found := by
  simp only [acceptable, Bool.and_eq_true, beq_iff_eq, Bool.not_eq_true', List.contains_eq_mem, decide_eq_false_iff_not,
    and_assoc]

end

/-- Settles O21: each piece is run from a state whose search is known. -/
theorem searchBitBranches : Obligations.SearchBitBranches := by
  unfold Obligations.SearchBitBranches
  refine ⟨fun r i k d hi hk => setRomBit_bit r i k d hi hk, ?answered, ?unanswered, fun s st => acceptable_iff, ?keep⟩
  case answered =>
    intro m i s st b cb d rest quiet known bus answered branch
    have run := searchBit_walked (m := m) (i := i) (s := s) (p := none) (ss := []) (rest := rest) (ck := s.clockIn)
      (st := st) quiet answered
    rw [← bus, walked_self known, searchBranch_eq answered branch] at run
    exact run
  case unanswered =>
    intro m i s st rest quiet known bus
    have run := searchBit_none (m := m) (i := i) (s := s) (p := none) (ss := []) (rest := rest) (ck := s.clockIn)
      (st := st) quiet
    rw [← bus, walked_self known, walked_of_known known] at run
    simp only [noAlarm_iff] at run
    exact run
  case keep =>
    intro s st quiet known bound
    have run := searchKeep_walked (s := s) (p := none) (ss := []) (rest := s.bus) (ck := s.clockIn) (st := st) quiet
      bound
    rw [walked_self known] at run
    exact run

/-! ## Passes over devices -/

section

variable {s : State} {m : SearchMode} {l : Latch} {ps : SearchPasses} {t0 : Word} {ts later : List Word}
  {rest : List Bool}

/-- An end of the pass that follows all passes so far is one of the search. -/
theorem search_nextPass (ready : BusReady s l) (made : ps.Made s m l t0 ts)
    (fewer : ps.failed.length < s.params.searchRepeat) (bound : ps.good ≤ s.params.maxDevices)
    (next : ps.good < ps.devices.length ∨ ps.good = 0) (clock : s.clockIn = t0 :: (ts ++ later))
    (bus : s.bus = ps.answers ++ rest) :
    ∃ st, Ready ps.devices ps.good t0 ps.failed.length st ∧ ∀ o,
      searchPass m l (walked s (pres none (ps.failed.length + ps.good)) (ps.slots s.params m) rest later st) = .error o →
        exec (.owSearch m) s = o := by
  obtain ⟨ts', st, N, M, none, _, known, _, run⟩ := passes_made (rest := rest) ready made fewer ps.good next bound
    le_rfl clock (by rw [bus, SearchPasses.answers, List.append_assoc])
  rw [Nat.sub_self, List.length_eq_zero_iff] at none
  subst none
  refine ⟨st, known, fun o ends => runRule_error ready.latched (run.trans (seq_bind_error ?_))⟩
  rw [searchPasses]
  exact seq_bind_error ends

/-- An end of `searchKeep` after the last of all passes so far is one of the search. -/
theorem search_lastPass {k : Nat} (ready : BusReady s l) (made : ps.Made s m l t0 ts)
    (fewer : ps.failed.length < s.params.searchRepeat) (bound : k ≤ s.params.maxDevices) (good : ps.good = k + 1)
    (clock : s.clockIn = t0 :: (ts ++ later)) (bus : s.bus = ps.answers ++ rest) (within : k < ps.devices.length) :
    ∃ st : SearchState, st.found = ps.devices.take k ∧ st.rom = ps.devices[k] ∧
      st.lastZero = zeroFrom ps.devices ps.devices[k] 0 64 (-1) ∧ ∀ o,
        searchKeep (walked s (some true) (ps.slots s.params m) rest later st) = .error o → exec (.owSearch m) s = o := by
  obtain ⟨_, ordered, valid⟩ := made.good
  have last : ps.devices[k] ∈ ps.devices.take ps.good :=
    List.mem_take_iff_getElem.mpr ⟨k, by rw [good]; omega, rfl⟩
  obtain ⟨ts', st, N, M, one, inTime, known, _, run⟩ := passes_made
    (rest := false :: (walkAnswers ps.devices ps.devices[k] 64 ++ rest)) ready made fewer k (.inl within) bound
    (by omega) clock (by
      rw [bus, SearchPasses.answers, good, goodAnswers_succ within]
      simp only [List.append_assoc, List.cons_append])
  rw [good, Nat.add_sub_cancel_left, List.length_eq_one_iff] at one
  obtain ⟨t, rfl⟩ := one
  have slots : ps.failed.flatMap (FailedRun.slots s.params m) ++ goodSlots s.params m ps.devices k ++
      (searchStart s.params m ++ walkSlots ps.devices ps.devices[k] 64) = ps.slots s.params m := by
    rw [SearchPasses.slots, good, goodSlots_succ within, List.append_assoc]
  refine ⟨{ st with rom := ps.devices[k], lastZero := zeroFrom ps.devices ps.devices[k] 0 64 (-1) }, known.1, rfl, rfl,
    fun o ends => runRule_error ready.latched (run.trans (seq_bind_error ?_))⟩
  have pass := pass_good (m := m) (l := l) (p := pres none (ps.failed.length + k))
    (ss := ps.failed.flatMap (FailedRun.slots s.params m) ++ goodSlots s.params m ps.devices k) (rest := rest)
    (ck := later) ready.quiet ordered within (valid _ last) known
    (made.inTime t (inTime t (List.mem_singleton_self t)))
  rw [slots] at pass
  rw [searchPasses]
  refine (seq_bind_ok pass).trans ?_
  exact seq_bind_error ends

/-- What ends a search leaves nothing of its state. -/
theorem okEnd_walked (r0 r1 : Word) (ids : List RomId) (b : Bool) (ss : List Slot) (st : SearchState) :
    okEnd r0 r1 (withRomtab ids (walked s (some b) ss rest later st)) =
      okEnd r0 r1 (withRomtab ids { setPresence b (onLine s ss rest) with clockIn := later }) := rfl

theorem errorEnd_walked (e : ErrCode) (ids : List RomId) (b : Bool) (ss : List Slot) (st : SearchState) :
    errorEnd e 0 (withRomtab ids (walked s (some b) ss rest later st)) =
      errorEnd e 0 (withRomtab ids { setPresence b (onLine s ss rest) with clockIn := later }) := rfl

/-- The ids found before the last device, and it. -/
theorem take_concat_last {ds : List RomId} {k : Nat} (last : ds.length = k + 1) (within : k < ds.length) :
    ds.take k ++ [ds[k]] = ds := by
  rw [List.take_concat_get' ds k within, ← last, List.take_length]

end

/-- Settles O22: after all passes but the last, the last one finds the last device, and no branch is left. -/
theorem searchFindsDevices : Obligations.SearchFindsDevices := by
  unfold Obligations.SearchFindsDevices
  intro m s l ps t0 ts later rest ready made fewer some all bound clock bus
  obtain ⟨k, last⟩ : ∃ k, ps.devices.length = k + 1 := Nat.exists_eq_add_one.mpr (List.length_pos_iff.mpr some)
  have within : k < ps.devices.length := by omega
  obtain ⟨st, found, rom, noneLeft, ends⟩ := search_lastPass ready made fewer (by omega) (all.trans last) clock bus
    within
  have count : st.found.length = k := by rw [found, List.length_take]; omega
  rw [zero_last made.good.2.1 last.symm] at noneLeft
  refine ends _ ?_
  rw [searchKeep_walked ready.quiet (by omega), if_neg (by omega), if_pos noneLeft, okEnd_walked, count, found, rom,
    take_concat_last last within, last]

/-! ## The ends that leave the table empty -/

section

variable {s : State} {m : SearchMode} {l : Latch} {ps : SearchPasses} {t0 t : Word} {ts later : List Word}
  {rest : List Bool}

theorem count_eq_zero_iff (ps : SearchPasses) : ps.count = 0 ↔ ps.failed.length + ps.good = 0 := by
  cases failed : ps.failed with
  | nil => simp [SearchPasses.count, failed]
  | cons r rs => simp [SearchPasses.count, failed]

/-- Before the first slot of the next pass, PRESENCE is as the search found it, or 1 after any pass. -/
theorem errorEnd_walked_passes (e : ErrCode) (ss : List Slot) (st : SearchState) :
    errorEnd e 0 (withRomtab [] (walked s (pres none (ps.failed.length + ps.good)) ss rest later st)) =
      errorEnd e 0 (withRomtab []
        { onLine (if ps.count = 0 then s else setPresence true s) ss rest with clockIn := later }) := by
  rw [pres]
  simp only [count_eq_zero_iff]
  split
  · rfl
  · rfl

/-- In alarm mode, a fresh pass that no device takes part in ends the search at ROM bit 0 (42_search R306). -/
theorem searchPass_noAlarm {p : Option Bool} {ss : List Slot} {st : SearchState} (quiet : s.host = [])
    (none : st.found = []) (fresh : st.lastDisc = -1)
    (inTime : deadlinePassed st.start (ticks s.params l s.params.searchTimeoutMs) t = false) :
    searchPass .alarmed l (walked s p ss (false :: true :: true :: rest) (t :: later) st) =
      .error (.next (okEnd 0 0 (withRomtab [] { setPresence true (onLine s (ss ++
        Slot.reset false :: sent [s.params.owcAlarmSearch] ++ [Slot.read true, Slot.read true]) rest) with
        clockIn := later }))) := by
  have bit := searchBit_none (m := .alarmed) (i := 0) (s := s) (p := some true)
    (ss := ss ++ searchStart s.params .alarmed) (rest := rest) (ck := later) (st := { st with rom := 0, lastZero := -1 }) quiet
  have alone : noAlarm .alarmed 0 { st with rom := 0, lastZero := -1 } = true :=
    Iff.mpr noAlarm_iff ⟨rfl, rfl, none, fresh⟩
  rw [if_pos alone] at bit
  rw [searchPass_start quiet inTime]
  refine seq_bind_error ?_
  rw [searchWalk, seq_bind_error bit, okEnd_walked, searchStart, searchCommand]

end

/-- Settles O23: the next pass fails before or at its first slots, or the passes so far are those that end the search. -/
theorem searchEndsEmpty : Obligations.SearchEndsEmpty := by
  unfold Obligations.SearchEndsEmpty
  intro m s l ps t0 ts later rest ready made clock
  refine ⟨fun fewer bound next t ts' reading => ⟨fun late bus => ?timeout,
      fun inTime => ⟨fun bus => ?absent, fun bus => ?none⟩⟩,
    fun all none bus => ?integrity, fun fewer full bus => ?overflow⟩
  case timeout =>
    subst reading
    obtain ⟨st, ⟨_, start, _⟩, ends⟩ := search_nextPass ready made fewer bound next clock bus
    refine ends _ ?_
    rw [searchPass_timeout ready.quiet (by rw [start]; exact late), errorEnd_walked_passes]
  case absent =>
    subst reading
    obtain ⟨st, ⟨_, start, _⟩, ends⟩ := search_nextPass ready made fewer bound next clock bus
    refine ends _ ?_
    rw [searchPass_absent ready.quiet (by rw [start]; exact inTime), errorEnd_walked]
  case none =>
    rintro rfl none
    subst reading
    obtain ⟨st, known, ends⟩ := search_nextPass ready made fewer bound next clock bus
    rw [none] at known
    obtain ⟨found, start, _, fresh⟩ := known
    refine ends _ ?_
    exact searchPass_noAlarm ready.quiet found fresh (by rw [start]; exact inTime)
  case integrity =>
    have some : ps.failed ≠ [] := fun empty => by rw [empty] at all; exact Nat.succ_ne_zero _ all.symm
    have readings : ts.length = (ps.failed.map fun r => r.good + 1).sum := by
      rw [made.readings, SearchPasses.count, none, Nat.add_zero]
    obtain ⟨st, run⟩ := runs_integrity (p := Option.none) (ss := []) (rest := rest) (ck := later) (m := m) (l := l)
      (st := freshSearch t0) ready.quiet ps.failed some 0 made.failed ⟨rfl, rfl, rfl, rfl⟩ 0 (by omega) ts readings
      made.inTime
    refine runRule_error ready.latched ?_
    rw [search_start ready clock, bus, SearchPasses.answers, SearchPasses.slots, none, ← all]
    simp only [goodAnswers, goodSlots, List.take_zero, List.flatMap_nil, List.append_nil]
    exact run
  case overflow =>
    have within : s.params.maxDevices < ps.devices.length := by have := made.good.1; omega
    obtain ⟨st, found, _, _, ends⟩ := search_lastPass ready made fewer le_rfl full clock bus within
    have count : st.found.length = s.params.maxDevices := by rw [found, List.length_take]; omega
    refine ends _ ?_
    rw [searchKeep_walked ready.quiet count.le, if_pos count, errorEnd_walked]

end Sys2Proof.Machine
end

section
/-! What every search keeps to, whatever the bus and the clock answer: the ids it has found (42_search R308, R310, R314,
R316) and its bound (R315). -/

namespace Sys2Proof.Machine

/-! ## The ids of a search that succeeds -/

/-- Distinct valid ids, no more than there are entries in ROMTAB. -/
def WellFound (s : State) (ids : List RomId) : Prop :=
  ids.length ≤ s.params.maxDevices ∧ ids.Nodup ∧ ∀ id ∈ ids, goodId s id

theorem wellFound_nil (s : State) : WellFound s [] := ⟨Nat.zero_le _, List.nodup_nil, by simp⟩

/-- An acceptable candidate can join the ids of a search that is not full (42_search R308, R310). -/
theorem wellFound_concat {s u : State} {st : SearchState} (sameParams : u.params = s.params)
    (sameRegistry : u.registry = s.registry) (found : WellFound s st.found) (accepted : acceptable u st = true)
    (notFull : st.found.length ≠ s.params.maxDevices) : WellFound s (st.found ++ [st.rom]) := by
  obtain ⟨family, checksum, new⟩ := Iff.mp acceptable_iff accepted
  obtain ⟨bound, distinct, valid⟩ := found
  have good : goodId s st.rom := by
    refine ⟨by rw [← sameParams]; exact family, ?_⟩
    rw [crc8, ← sameRegistry]
    exact checksum
  refine ⟨?bound, ?distinct, ?valid⟩
  case bound => rw [List.length_append, List.length_singleton]; omega
  case distinct =>
    exact List.nodup_append.mpr ⟨distinct, List.nodup_singleton _, fun id known other same => by
      rw [List.mem_singleton] at same
      rintro rfl
      exact new (same ▸ known)⟩
  case valid =>
    intro id member
    obtain known | last := List.mem_append.mp member
    · exact valid id known
    · rw [List.mem_singleton.mp last]; exact good

/-- The end t of a search that began in s says which ids were found, if it is no error end. -/
def WellFormedSuccess (s t : State) : Prop :=
  t.status.errcode = .none → ∃ ids : List RomId, WellFound s ids ∧ t.romCount.toNat = ids.length ∧
    t.result0.toNat = ids.length ∧ ∀ j k : Nat, j < s.params.maxDevices → k < 8 →
      memGet t.ram (0x200 + 8 * j + k) = some ((ids.getD j 0).extractLsb' (8 * k) 8)

theorem romBytes_getElem? (r : RomId) {k : Nat} (hk : k < 8) : (romBytes r)[k]? = some (r.extractLsb' (8 * k) 8) := by
  simp [romBytes, hk]

/-- Byte k of entry j of a ROM table. -/
theorem romtabImage_getElem? (p : Params) (ids : List RomId) {j k : Nat} (hj : j < p.maxDevices) (hk : k < 8) :
    (romtabImage p ids)[8 * j + k]? = some ((ids.getD j 0).extractLsb' (8 * k) 8) := by
  have entries (n : Nat) (hn : j < n) : ((List.range n).flatMap fun i => romBytes (ids.getD i 0))[8 * j + k]? =
      some ((ids.getD j 0).extractLsb' (8 * k) 8) := by
    induction n with
    | zero => omega
    | succ n ih =>
      have length : ((List.range n).flatMap fun i => romBytes (ids.getD i 0)).length = 8 * n := by
        simp [List.length_flatMap, romBytes_length, Nat.mul_comm]
      rw [List.range_succ, List.flatMap_append, List.flatMap_singleton]
      by_cases earlier : j < n
      · rw [List.getElem?_append_left (by omega)]
        exact ih earlier
      · obtain rfl : j = n := by omega
        rw [List.getElem?_append_right (by omega), length, Nat.add_sub_cancel_left]
        exact romBytes_getElem? _ hk
  exact entries _ hj

theorem memGet_storeBytes_romtab (s u : State) (ids : List RomId) {j k : Nat} (hj : j < s.params.maxDevices)
    (hk : k < 8) : memGet (storeBytes romtabBase (romtabImage s.params ids) u).ram (0x200 + 8 * j + k) =
      some ((ids.getD j 0).extractLsb' (8 * k) 8) := by
  show memGet (memSetBytes u.ram 0x200 (romtabImage s.params ids)) _ = _
  rw [memGet_memSetBytes, romtabImage_length, if_pos (by omega), show 0x200 + 8 * j + k - 0x200 = 8 * j + k by omega]
  exact romtabImage_getElem? _ _ hj hk

theorem wellFormedSuccess_okEnd {s u : State} {ids : List RomId} (sameParams : u.params = s.params)
    (found : WellFound s ids) : WellFormedSuccess s (okEnd (BitVec.ofNat 32 ids.length) 0
      { storeBytes romtabBase (romtabImage u.params ids) u with romCount := BitVec.ofNat 8 ids.length }) := by
  intro _
  obtain ⟨bound, _⟩ := id found
  have entries : s.params.maxDevices ≤ 64 := s.params.maxDevicesPred.isLt
  refine ⟨ids, found, ?romCount, ?result, fun j k hj hk => ?table⟩
  case romCount => exact (BitVec.toNat_ofNat _ _).trans (Nat.mod_eq_of_lt (by omega))
  case result => exact (BitVec.toNat_ofNat _ _).trans (Nat.mod_eq_of_lt (by omega))
  case table =>
    rw [sameParams]
    exact memGet_storeBytes_romtab s u ids hj hk

theorem wellFormedSuccess_errorEnd (s u : State) {e : ErrCode} (error : e ≠ .none) :
    WellFormedSuccess s (errorEnd e 0 u) :=
  fun none => absurd none error

/-- While the search that began in s runs: its ids are well found, and what makes an id valid is as in s. -/
abbrev Searching (s : State) : State → Prop :=
  Qt s.params fun u => u.registry = s.registry ∧ WellFound s (searchOf u).found

section

variable {s : State} {α : Type}

theorem searchFail_wellFormed {P : State → Prop} (quiet : ∀ u, P u → u.host = []) {e : ErrCode} (error : e ≠ .none)
    (Q : α → State → Prop) : Meets P (searchFail e : Seq α) Q (IfNext (WellFormedSuccess s)) := by
  intro u hu
  rw [searchFail_eq (quiet u hu)]
  exact ifNext_next (wellFormedSuccess_errorEnd s _ error)

theorem searchSucceed_wellFormed {ids : List RomId} (found : WellFound s ids) (Q : α → State → Prop) :
    Meets (Searching s) (searchSucceed ids : Seq α) Q (IfNext (WellFormedSuccess s)) := by
  intro u hu
  rw [searchSucceed_quiet hu.quiet]
  exact ifNext_next (wellFormedSuccess_okEnd hu.params found)

/-- A search adds acceptable candidates only, and succeeds with the ids it has (42_search R308, R310, R314). -/
theorem searchSteps_wellFound (s : State) :
    SearchSteps s.params (WellFound s) (fun st => WellFound s st.found) (Searching s)
      (IfNext (WellFormedSuccess s)) where
  slotRead := meets_step qh fun u hu => by
    rw [readSlot_eq u _ rfl]
    exact ⟨hu.quiet, hu.params, hu.view⟩
  slotWrite := fun b => meets_step qh fun u hu => by
    simp only [writeSlot_eq]
    exact ⟨hu.quiet, hu.params, hu.view⟩
  slotReset := meets_step qh fun u hu => by
    rw [resetSlot_eq u _ rfl]
    exact ⟨hu.quiet, hu.params, hu.view⟩
  now := meets_step qh fun u hu => by
    obtain ⟨readings, reads, frame⟩ := readClock_frame' u
    rw [frame]
    exact ⟨hu.quiet, hu.params, hu.view⟩
  fails := fun _ error => searchFail_wellFormed (fun _ hu => hu.quiet) error
  succeeds := fun _ found => searchSucceed_wellFormed found
  noneFound := searchSucceed_wellFormed (wellFound_nil s) _
  params := fun _ hu => hu.params
  known := fun _ hu => hu.view.2
  search := fun _ _ found hu => ⟨hu.quiet, hu.params, hu.view.1, found⟩
  walk := fun _ _ _ found => found
  restart := fun _ _ => wellFound_nil s
  failed := fun _ found => found
  keep := fun _ hu accepted notFull =>
    have joined := wellFound_concat hu.params hu.view.1 hu.view.2 accepted notFull
    ⟨joined, joined⟩

end

/-- Settles O25: the ids found stay distinct and valid in every step of the search, and its good end writes them. -/
theorem searchSuccessIsWellFormed : Obligations.SearchSuccessIsWellFormed := by
  unfold Obligations.SearchSuccessIsWellFormed
  intro m s t l accepted answer noError
  have start : Meets (fun u => u = s) now (fun t u => Searching s { u with search := some (freshSearch t) })
      (IfNext (WellFormedSuccess s)) := by
    rintro u rfl
    rw [now_quiet accepted.quiet]
    obtain ⟨readings, reads, frame⟩ := readClock_frame' u
    show Searching u { (readClock u).2 with search := _ }
    rw [frame]
    exact ⟨accepted.quiet, rfl, rfl, wellFound_nil u⟩
  have badPin (Q : Unit → State → Prop) : Meets (fun u => u = s) (searchFail .badPin) Q
      (IfNext (WellFormedSuccess s)) :=
    searchFail_wellFormed (P := fun u => u = s) (fun u same => same.symm ▸ accepted.quiet) (by decide) Q
  have ends : IfNext (WellFormedSuccess s) (runRule (searchRule m) s) :=
    runRule_meets accepted.latched ((searchSteps_wellFound s).searchRule start badPin m l _)
  obtain ⟨ids, ⟨bound, distinct, valid⟩, counted, result, table⟩ := ends t answer noError
  exact ⟨ids, bound, distinct, valid, counted, result, table⟩

/-! ## The bound -/

def isReset : Slot → Bool
  | .reset _ => true
  | _ => false

/-- How many of the slots are reset slots. -/
def resets (ss : List Slot) : Nat := (ss.filter isReset).length

theorem resets_concat (ss : List Slot) (x : Slot) : resets (ss ++ [x]) = resets ss + if isReset x then 1 else 0 := by
  rw [resets, resets, List.filter_append, List.length_append]
  cases h : isReset x
  · simp [h]
  · simp [h]

/-- The line of u is that of s after a sequence of slots that leaves `a` of A slots and `r` of R reset slots. -/
def LineLeaves (s : State) (A R a r : Nat) (u : State) : Prop :=
  ∃ ss : List Slot, u.line = (traffic s ss).reverse ++ s.line ∧ ss.length + a ≤ A ∧ resets ss + r ≤ R

/-- A search that began in s, with A slots and R reset slots to spend, has `a` and `r` of them left. -/
abbrev Affords (s : State) (A R a r : Nat) : State → Prop :=
  Qt s.params fun u => u.busCfg = s.busCfg ∧ LineLeaves s A R a r u

/-- The command has ended within its slots. -/
def EndsWithin (s : State) (A R : Nat) (t : State) : Prop :=
  t.status.busy = false ∧ t.status.done = true ∧ LineLeaves s A R 0 0 t

section

variable {s : State} {A R a r a' r' : Nat} {u : State} {E : Halt → Prop} {α : Type} {Q : α → State → Prop}

theorem Affords.mono (left : Affords s A R a r u) (fewer : a' ≤ a) (fewerResets : r' ≤ r) : Affords s A R a' r' u := by
  obtain ⟨quiet, params, busCfg, ss, line, slots, resets⟩ := left
  exact ⟨quiet, params, busCfg, ss, line, by omega, by omega⟩

/-- A slot spends one, and a reset slot one of the reset slots too. -/
theorem affords_onLine {x : Slot} {rest : List Bool} (left : Affords s A R (a + 1) r u)
    (plain : (if isReset x then 1 else 0) + r' ≤ r) : Affords s A R a r' (onLine u [x] rest) := by
  obtain ⟨quiet, params, busCfg, ss, line, slots, spent⟩ := left
  have one : traffic u [x] = traffic s [x] := by rw [traffic, traffic, busCfg, params]
  refine ⟨quiet, params, busCfg, ss ++ [x], ?line, ?slots, ?resets⟩
  case line =>
    show (traffic u [x]).reverse ++ u.line = _
    rw [one, line, traffic, traffic, traffic, List.flatMap_append, List.reverse_append, List.append_assoc]
  case slots => rw [List.length_append, List.length_singleton]; omega
  case resets => rw [resets_concat]; omega

theorem slotRead_affords : Meets (Affords s A R (a + 1) r) slotRead (fun _ => Affords s A R a r) E :=
  meets_step qh fun u left => by
    rw [readSlot_eq u _ rfl]
    exact affords_onLine left (by simp [isReset])

theorem slotWrite_affords (b : Bool) : Meets (Affords s A R (a + 1) r) (slotWrite b) (fun _ => Affords s A R a r) E :=
  meets_step qh fun u left => by
    simp only [writeSlot_eq]
    exact affords_onLine left (by simp [isReset])

theorem slotReset_affords : Meets (Affords s A R (a + 1) (r + 1)) slotReset (fun _ => Affords s A R a r) E :=
  meets_step qh fun u left => by
    rw [resetSlot_eq u _ rfl]
    obtain ⟨quiet, params, view⟩ := affords_onLine (x := .reset _) (r' := r) (rest := u.bus.tail) left
      (by simp [isReset, Nat.add_comm])
    exact ⟨quiet, params, view⟩

theorem now_affords : Keeps (Affords s A R a r) E now :=
  meets_step qh fun u left => by
    obtain ⟨readings, reads, frame⟩ := readClock_frame' u
    rw [frame]
    exact ⟨left.quiet, left.params, left.view⟩

theorem setSearch_affords (f : SearchState → SearchState) : Keeps (Affords s A R a r) E (setSearch f) :=
  meets_hidden fun _ left => ⟨left.quiet, left.params, left.view⟩

theorem writeBits_affords (bs : List Bool) :
    Meets (Affords s A R (a + bs.length) r) (writeBits bs) (fun _ => Affords s A R a r) E := by
  induction bs with
  | nil => exact meets_pure _ fun _ left => left
  | cons b bs ih => exact meets_bind (slotWrite_affords b) fun _ => ih

theorem writeByte_affords (v : Byte) : Meets (Affords s A R (a + 8) r) (writeByte v) (fun _ => Affords s A R a r) E :=
  writeBits_affords (byteBits v)

/-- Both ends of a search issue no slot. -/
theorem searchFail_affords (e : ErrCode) :
    Meets (Affords s A R a r) (searchFail e : Seq α) Q (Always (EndsWithin s A R)) := by
  intro u left
  obtain ⟨quiet, _, _, view⟩ := left.mono (Nat.zero_le a) (Nat.zero_le r)
  rw [searchFail_eq quiet]
  exact always_next ⟨rfl, rfl, view⟩

theorem searchSucceed_affords (ids : List RomId) :
    Meets (Affords s A R a r) (searchSucceed ids : Seq α) Q (Always (EndsWithin s A R)) := by
  intro u left
  obtain ⟨quiet, _, _, view⟩ := left.mono (Nat.zero_le a) (Nat.zero_le r)
  rw [searchSucceed_quiet quiet]
  exact always_next ⟨rfl, rfl, view⟩

theorem searchRequire_affords (c : Bool) (e : ErrCode) :
    Keeps (Affords s A R a r) (Always (EndsWithin s A R)) (searchRequire c e) :=
  meets_ite (fun _ => meets_pure _ fun _ left => left) fun _ => searchFail_affords e

/-- Two read slots and a write slot for a ROM bit (42_search R311). -/
theorem searchBit_affords (m : SearchMode) (i : Nat) : Meets (Affords s A R (a + 3) r) (searchBit m i)
    (fun _ => Affords s A R a r) (Always (EndsWithin s A R)) := by
  refine meets_bind slotRead_affords fun b => meets_bind slotRead_affords fun cb => meets_get fun _ _ =>
    meets_ite (fun _ => meets_ite (fun _ => searchSucceed_affords []) fun _ => ?aborted) fun _ => ?taken
  case aborted => exact meets_pure _ fun _ left => left.mono (Nat.le_succ a) le_rfl
  case taken =>
    exact meets_bind (setSearch_affords _) fun _ => meets_bind (slotWrite_affords _) fun _ =>
      meets_pure _ fun _ left => left

theorem searchWalk_affords (m : SearchMode) (i n : Nat) : Meets (Affords s A R (a + 3 * n) r) (searchWalk m i n)
    (fun _ => Affords s A R a r) (Always (EndsWithin s A R)) := by
  induction n generalizing i with
  | zero => exact meets_pure _ fun _ left => left
  | succ n ih =>
    refine meets_bind (searchBit_affords (a := a + 3 * n) m i) fun ok => meets_ite (fun _ => ih (i + 1)) fun _ => ?_
    exact meets_pure _ fun _ left => left.mono (by omega) le_rfl

/-- A pass: a reset slot, the eight slots of the command byte, the walk over 64 ROM bits (42_search R300). -/
theorem searchPass_affords (m : SearchMode) (l : Latch) : Meets (Affords s A R (a + 201) (r + 1)) (searchPass m l)
    (fun _ => Affords s A R a r) (Always (EndsWithin s A R)) := by
  rw [show a + 201 = a + 3 * 64 + 8 + 1 by omega]
  refine meets_bind now_affords fun t => meets_get fun _ _ => meets_bind (searchRequire_affords _ _) fun _ => ?_
  refine meets_bind slotReset_affords fun present => meets_bind (searchRequire_affords _ _) fun _ => ?_
  refine meets_bind (writeByte_affords (a := a + 3 * 64) _) fun _ => meets_bind (setSearch_affords _) fun _ => ?_
  exact meets_bind (searchWalk_affords m 0 64) fun ok => meets_get fun _ _ => meets_pure _ fun _ left => left

theorem searchKeep_affords : Keeps (Affords s A R a r) (Always (EndsWithin s A R)) searchKeep :=
  meets_get fun _ _ => meets_bind (searchRequire_affords _ _) fun _ => meets_bind (setSearch_affords _) fun _ =>
    meets_ite (fun _ => searchSucceed_affords _) fun _ => meets_pure _ fun _ left => left

theorem searchPasses_affords (m : SearchMode) (l : Latch) (n : Nat) : Meets (Affords s A R (a + 201 * n) (r + n))
    (searchPasses m l n) (fun _ => Affords s A R a r) (Always (EndsWithin s A R)) := by
  induction n with
  | zero => exact searchFail_affords _
  | succ n ih =>
    rw [show a + 201 * (n + 1) = a + 201 * n + 201 by omega]
    refine meets_bind (searchPass_affords (a := a + 201 * n) (r := r + n) m l) fun ok =>
      meets_ite (fun _ => meets_bind searchKeep_affords fun _ => ih) fun _ => ?_
    exact meets_pure _ fun _ left => left.mono (by omega) (by omega)

/-- Each run makes at most MAX_DEVICES + 1 passes (42_search R315). -/
theorem searchRuns_affords (m : SearchMode) (l : Latch) (n : Nat) (Q : Unit → State → Prop) :
    Meets (Affords s A R (201 * (n * (s.params.maxDevices + 1))) (n * (s.params.maxDevices + 1))) (searchRuns m l n) Q
      (Always (EndsWithin s A R)) := by
  induction n with
  | zero => exact searchFail_affords _
  | succ n ih =>
    rw [Nat.add_one_mul n (s.params.maxDevices + 1), Nat.mul_add 201 (n * _) _]
    refine meets_get fun u left => ?_
    rw [left.params]
    refine meets_bind (searchPasses_affords m l _) fun _ => meets_bind (setSearch_affords _) fun _ => ?_
    exact meets_get fun _ _ => meets_bind (searchRequire_affords _ _) fun _ => meets_bind (setSearch_affords _) fun _ =>
      ih

theorem searchRule_affords (m : SearchMode) (l : Latch) (Q : Unit → State → Prop) :
    Meets (Affords s A R (201 * (s.params.searchRepeat * (s.params.maxDevices + 1)))
      (s.params.searchRepeat * (s.params.maxDevices + 1))) (searchRule m l) Q (Always (EndsWithin s A R)) := by
  refine meets_get fun u left => meets_bind (searchRequire_affords _ _) fun _ => meets_bind now_affords fun t => ?_
  rw [left.params]
  refine meets_bind (Q := fun _ => Affords s A R _ _) (meets_hidden fun u left => ?_) fun _ => searchRuns_affords m l _ Q
  exact ⟨left.quiet, left.params, left.view⟩

end

/-- Settles O26: the search spends its slots pass by pass, at most 201 and one reset slot for each. -/
theorem searchIsBounded : Obligations.SearchIsBounded := by
  unfold Obligations.SearchIsBounded
  intro m s l accepted
  have all : Affords s (201 * (s.params.searchRepeat * (s.params.maxDevices + 1)))
      (s.params.searchRepeat * (s.params.maxDevices + 1)) (201 * (s.params.searchRepeat * (s.params.maxDevices + 1)))
      (s.params.searchRepeat * (s.params.maxDevices + 1)) s :=
    ⟨accepted.quiet, rfl, rfl, [], rfl, by simp, by simp [resets]⟩
  obtain ⟨t, answer, idle, done, ss, line, slots, resetSlots⟩ : Always (EndsWithin s _ _) (runRule (searchRule m) s) :=
    runRule_meets accepted.latched (meets_at (searchRule_affords m l _) all)
  exact ⟨t, ss, answer, idle, done, line, slots, resetSlots⟩

end Sys2Proof.Machine
end

section
/-! The transport commands (41_bus R260 to R276), and the bus check in front of every command that issues slots
(R251). -/

namespace Sys2Proof.Machine

/-! ## OW.CFGBUS and OW.SPEED -/

/-- OW.CFGBUS by its checks, the pin before the speed (41_bus R260). -/
theorem configureBus_eq (l : Latch) (s : State) :
    configureBus l s =
      if s.params.pinCount ≤ l.a0.toNat then errorEnd .badPin 0 s
      else if 2 < l.a1.toNat then errorEnd .badArg 0 s
      else okEnd 0 0 { s with
        driveLow := 0
        busCfg := { speed := if l.a1 = 0 then .standard else if l.a1 = 1 then .high else .overload
                    pin := l.a0.setWidth 8, configured := true } } := by
  rw [configureBus, pinOf, speedOf_eq]
  by_cases badPin : s.params.pinCount ≤ l.a0.toNat
  · simp only [if_pos badPin]
  · by_cases badSpeed : 2 < l.a1.toNat
    · simp only [if_neg badPin, if_pos badSpeed]
    · simp only [if_neg badPin, if_neg badSpeed]

/-- OW.SPEED by its check (41_bus R262). -/
theorem configureSpeed_eq (l : Latch) (s : State) :
    configureSpeed l s =
      if 2 < l.a0.toNat then errorEnd .badArg 0 s
      else okEnd 0 0 { s with
        busCfg := { s.busCfg with
          speed := if l.a0 = 0 then .standard else if l.a0 = 1 then .high else .overload } } := by
  rw [configureSpeed, speedOf_eq]
  by_cases badSpeed : 2 < l.a0.toNat
  · simp only [if_pos badSpeed]
  · simp only [if_neg badSpeed]

/-- Settles O14: each command is one step, its checks in their order. -/
theorem busConfigurationOutcome : Obligations.BusConfigurationOutcome := by
  unfold Obligations.BusConfigurationOutcome
  refine ⟨rfl, rfl, fun s l accepted => ?_⟩
  rw [← configureBus_eq, ← configureSpeed_eq]
  exact ⟨runRule_error accepted.latched (lastStep_quiet accepted.quiet),
    runRule_error accepted.latched (lastStep_quiet accepted.quiet)⟩

/-! ## Behind the bus check -/

/-- What a read slot does on the line before its sample, newest first (41_bus R254). -/
def beforeReadSample (s : State) : List LineEvent :=
  [.delay (s.params.tp s.busCfg.speed).rSample, .release s.busCfg.pin, .delay (s.params.tp s.busCfg.speed).w1Low,
    .low s.busCfg.pin]

section

variable {s t : State}

/-- A rule that begins with `bus_check()` ends with BAD_PIN, or as the rest of it ends (41_bus R251). -/
theorem busRule_ends {rest : Unit → Seq Unit} (quiet : s.host = []) (ends : rest () s = .error (.next t)) :
    (busCheck >>= rest) s = .error (.next (if s.busCfg.configured then t else errorEnd .badPin 0 s)) := by
  cases configured : s.busCfg.configured with
  | true => exact (seq_bind_ok (busCheck_configured configured)).trans ends
  | false => exact seq_bind_error (busCheck_unconfigured configured quiet)

/-- `slot_reset()` is its wave, and its sample decides the presence (41_bus R252). -/
theorem slotReset_sample {v : Bool} (quiet : s.host = []) (sample : v = nextAnswer s (beforeResetSample s)) :
    slotReset s = .ok (!v, setPresence (!v) (onLine s [.reset v] s.bus.tail)) := by
  rw [slotReset_quiet quiet, resetSlot_eq s v sample]

/-- `slot_read()` is its wave, and its bit is the sample (41_bus R254). -/
theorem slotRead_sample {v : Bool} (quiet : s.host = []) (sample : v = nextAnswer s (beforeReadSample s)) :
    slotRead s = .ok (v, onLine s [.read v] s.bus.tail) := by
  rw [slotRead_quiet quiet, readSlot_eq s v sample]

/-- A boolean result: RBOOL takes it, and the command ends with it in RESULT0. -/
theorem publish_quiet (b : Bool) (quiet : s.host = []) :
    (update (setRbool b) >>= fun _ => finish (boolWord b) 0 : Seq Unit) s =
      .error (.next (okEnd (boolWord b) 0 (setRbool b s))) := by
  rw [seq_bind_ok (update_quiet quiet), finish_quiet (by exact quiet)]

end

/-- Settles O15: behind the bus check the reset slot's sample is the result. -/
theorem owResetOutcome : Obligations.OwResetOutcome := by
  unfold Obligations.OwResetOutcome
  refine ⟨rfl, fun s l v accepted sample => runRule_error accepted.latched (busRule_ends accepted.quiet ?_)⟩
  rw [seq_bind_ok (slotReset_sample accepted.quiet sample), publish_quiet (!v) (by exact accepted.quiet)]
  cases v <;> rfl

/-! ## Bits and bytes -/

/-- The shared rule of OW.RBIT and TS.ISDONE (41_bus R268, 43_session R359). -/
theorem readBoolean_sample {s : State} {v : Bool} (quiet : s.host = [])
    (sample : v = nextAnswer s (beforeReadSample s)) :
    readBoolean s = .error (.next
      (if s.busCfg.configured then okEnd (boolWord v) 0 (setRbool v (onLine s [.read v] s.bus.tail))
      else errorEnd .badPin 0 s)) := by
  refine busRule_ends quiet ?_
  rw [seq_bind_ok (slotRead_sample quiet sample), publish_quiet v (by exact quiet)]

/-- The write slots of the byte operand are those of A0[0] to A0[7] (30_encoding R142, 41_bus R270). -/
theorem sent_byteOperand (l : Latch) : sent [byteOperand l] = (List.range 8).map fun i => .write (l.a0.getLsbD i) := by
  simp only [sent, byteOperand, byteBits, List.flatMap_singleton, List.map_map]
  refine List.map_congr_left fun i inByte => ?_
  simp [List.mem_range.mp inByte]

/-- The read slots of one byte, bit 0 first (41_bus R255). -/
theorem received_byte (v : Byte) : received [v] = (List.range 8).map fun i => .read (v.getLsbD i) := by
  simp only [received, byteBits, List.flatMap_singleton, List.map_map]
  rfl

/-- Settles O16: behind the bus check each command is its one slot. -/
theorem bitCommandsOutcome : Obligations.BitCommandsOutcome := by
  unfold Obligations.BitCommandsOutcome
  refine ⟨rfl, rfl, rfl, fun s l v accepted sample => ⟨?write, ?read⟩⟩
  case write =>
    refine runRule_error accepted.latched (busRule_ends accepted.quiet ?_)
    rw [seq_bind_ok (slotWrite_quiet accepted.quiet), writeSlot_eq, finish_quiet (by exact accepted.quiet), bitOperand]
  case read =>
    have reads := readBoolean_sample accepted.quiet sample
    simp only [List.forall_mem_cons, List.not_mem_nil, false_imp_iff, implies_true, and_true]
    exact ⟨runRule_error accepted.latched reads, runRule_error accepted.latched reads⟩

/-- Settles O17: behind the bus check each command is the eight slots of its byte. -/
theorem byteCommandsOutcome : Obligations.ByteCommandsOutcome := by
  unfold Obligations.ByteCommandsOutcome
  refine ⟨rfl, rfl, fun s l accepted => ⟨?write, ?read⟩⟩
  case write =>
    refine runRule_error accepted.latched (busRule_ends accepted.quiet ?_)
    rw [seq_bind_ok (writeByte_quiet accepted.quiet), finish_quiet (by exact accepted.quiet), sent_byteOperand]
  case read =>
    obtain ⟨v, bits, reads⟩ := readByte_any accepted.quiet
    refine ⟨v, bits, runRule_error accepted.latched (busRule_ends accepted.quiet ?_)⟩
    rw [seq_bind_ok reads, finish_quiet (by exact accepted.quiet), received_byte]

/-! ## OW.RMULTI -/

section

variable {s : State} {l : Latch}

theorem exec_owRmulti_badRange (accepted : Accepted s l) (beyond : 256 < l.a0.toNat + l.a1.toNat) :
    exec .owRmulti s = .next (errorEnd .badArg 0 s) := by
  refine runRule_error accepted.latched ?_
  rw [checkDbufRange_eq, decide_eq_false (Nat.not_le.mpr beyond)]
  exact seq_bind_error (raise_quiet accepted.quiet)

/-- Past its range check the command is the bus check and the bytes received (41_bus R276). -/
theorem exec_owRmulti_inside (accepted : Accepted s l) (inside : l.a0.toNat + l.a1.toNat ≤ 256) :
    ∃ data : List Byte, data.length = l.a1.toNat ∧
      (answers data).take s.bus.length = s.bus.take (8 * l.a1.toNat) ∧
      exec .owRmulti s = .next
        (if s.busCfg.configured then
          okEnd 0 0 (storeBytes (dbufBase + l.a0.toNat) data
            (onLine s (received data) (s.bus.drop (8 * l.a1.toNat))))
        else errorEnd .badPin 0 s) := by
  have inRange (k : Nat) (hk : k < l.a1.toNat) : inRam s.params (dbufBase + l.a0.toNat + k) = true :=
    inRam_dbuf (by omega) (by simp only [dbufSize]; omega)
  obtain ⟨data, length, bits, receives⟩ := receiveRam_quiet _ _ accepted.quiet inRange
  refine ⟨data, length, bits, runRule_error accepted.latched ?_⟩
  rw [seq_bind_ok (checkDbufRange_inside inside)]
  refine busRule_ends accepted.quiet ?_
  rw [seq_bind_ok receives, finish_quiet (by exact accepted.quiet)]

theorem exec_owRmulti_unconfigured (accepted : Accepted s l) (inside : l.a0.toNat + l.a1.toNat ≤ 256)
    (unconfigured : s.busCfg.configured = false) : exec .owRmulti s = .next (errorEnd .badPin 0 s) := by
  obtain ⟨data, -, -, ends⟩ := exec_owRmulti_inside accepted inside
  rw [ends, unconfigured]
  rfl

end

/-- Settles O19: the range, then the bus, then the bytes the read slots receive. -/
theorem owRmultiOutcome : Obligations.OwRmultiOutcome := by
  unfold Obligations.OwRmultiOutcome
  refine ⟨rfl, fun s l accepted => ⟨exec_owRmulti_badRange accepted, exec_owRmulti_unconfigured accepted,
    fun inside configured => ?_⟩⟩
  obtain ⟨data, length, bits, ends⟩ := exec_owRmulti_inside accepted inside
  rw [configured] at ends
  exact ⟨data, length, bits, ends⟩

/-! ## Without a configured bus -/

section

variable {s : State} {l : Latch} (accepted : Accepted s l) (unconfigured : s.busCfg.configured = false)
include accepted unconfigured

/-- `bus_check()` in front of anything ends the command. -/
theorem busRule_unconfigured (rest : Unit → Seq Unit) :
    (busCheck >>= rest) s = .error (.next (errorEnd .badPin 0 s)) :=
  seq_bind_error (busCheck_unconfigured unconfigured accepted.quiet)

theorem exec_plain_unconfigured :
    ∀ i ∈ [Instr.owReset, .owWbit, .owRbit, .owWbyte, .owRbyte, .tsIsdone],
      exec i s = .next (errorEnd .badPin 0 s) := by
  have begins := busRule_unconfigured accepted unconfigured
  simp only [List.forall_mem_cons, List.not_mem_nil, false_imp_iff, implies_true, and_true]
  refine ⟨?reset, ?wbit, ?rbit, ?wbyte, ?rbyte, ?isdone⟩
  all_goals exact runRule_error accepted.latched (begins _)

theorem exec_readCommand_unconfigured (m : Addressing) :
    ∀ i ∈ [Instr.tsReadtemp m, .tsReadalarm m], exec i s = .next (errorEnd .badPin 0 s) := by
  have begins := busRule_unconfigured accepted unconfigured
  simp only [List.forall_mem_cons, List.not_mem_nil, false_imp_iff, implies_true, and_true]
  exact ⟨runRule_error accepted.latched (begins _), runRule_error accepted.latched (begins _)⟩

/-- The commands that wait in a poll check the bus in the step that starts them. -/
theorem exec_polling_unconfigured (m : Addressing) (first : s.pos = .start) :
    ∀ i ∈ [Instr.tsConvread m, .tsSave m, .tsRestore m, .tsIsfake m], exec i s = .next (errorEnd .badPin 0 s) := by
  have begins := busRule_unconfigured accepted unconfigured
  simp only [List.forall_mem_cons, List.not_mem_nil, false_imp_iff, implies_true, and_true]
  refine ⟨?convread, ?save, ?restore, ?isfake⟩
  all_goals exact runRule_error accepted.latched (beforePoll_error first (begins _))

/-- TS.CONFIG checks its operands first (43_session R355). -/
theorem exec_tsConfig_unconfigured (m : Addressing) (atLeast : 9 ≤ l.a0.toNat) (atMost : l.a0.toNat ≤ 12)
    (ordered : l.a2.toInt ≤ l.a1.toInt) : exec (.tsConfig m) s = .next (errorEnd .badPin 0 s) := by
  obtain ⟨d, legal⟩ := configOk (p := s.params) atLeast atMost ordered
  refine runRule_error accepted.latched ?_
  rw [configRule, seq_get_bind, legal]
  exact busRule_unconfigured accepted unconfigured _

/-- The failing end of a search empties the ROM table (42_search R300, R313). -/
theorem exec_owSearch_unconfigured (m : SearchMode) :
    exec (.owSearch m) s = .next (errorEnd .badPin 0
      { storeBytes romtabBase (List.replicate (8 * s.params.maxDevices) 0) s with romCount := 0 }) := by
  refine runRule_error accepted.latched ?_
  rw [searchRule, seq_get_bind, unconfigured]
  exact seq_bind_error (searchFail_quiet accepted.quiet)

end

/-- Settles O20: the bus check comes before every slot, behind the argument checks where a command has any. -/
theorem unconfiguredBusIsBadPin : Obligations.UnconfiguredBusIsBadPin := by
  unfold Obligations.UnconfiguredBusIsBadPin
  intro s l accepted unconfigured first
  refine ⟨fun m => ?slots, fun inside => ⟨exec_owWmulti_unconfigured accepted inside unconfigured,
    exec_owRmulti_unconfigured accepted inside unconfigured⟩, fun atLeast atMost ordered m =>
      exec_tsConfig_unconfigured accepted unconfigured m atLeast atMost ordered,
    exec_owSearch_unconfigured accepted unconfigured⟩
  have plain := exec_plain_unconfigured accepted unconfigured
  have convert := exec_tsConvert_unconfigured m accepted unconfigured
  have reading := exec_readCommand_unconfigured accepted unconfigured m
  have polling := exec_polling_unconfigured accepted unconfigured m first
  simp only [List.forall_mem_cons, List.not_mem_nil, false_imp_iff, implies_true, and_true] at plain reading polling ⊢
  obtain ⟨reset, wbit, rbit, wbyte, rbyte, isdone⟩ := plain
  obtain ⟨readtemp, readalarm⟩ := reading
  obtain ⟨convread, save, restore, isfake⟩ := polling
  exact ⟨reset, wbit, rbit, wbyte, rbyte, convert, isdone, convread, readtemp, readalarm, save, restore, isfake⟩

end Sys2Proof.Machine
end
